-- ==== Sys2Proof/Word.lean ====
section
/-! DEFINITION. The words of the block: a bit, a bit string, a byte, a symbol (spec/00_scope.md R9, R11, R12). -/

namespace Sys2Proof

/-- A finite bit string in stream order, first bit at the head (R12). `false` is `0`, `true` is `1`. -/
abbrev BitString := List Bool

/-- An input or output byte, `BYTE_W = 8` (R9). -/
abbrev Byte := BitVec 8

/-- A symbol field, `SYM_W = 9`. Symbols are 0 to 256, and 257 to 511 fit the field only (R9, R104). -/
abbrev Symbol := BitVec 9

end Sys2Proof
end

