-- ==== Sys2Proof/Config.lean ====
section
/-! DEFINITION. What the spec fixes by a number (R9, R10), what an implementation fixes, and the free values. -/

namespace Sys2Proof.Config

/-- The greatest symbol, which is the sentinel `EOF_SYM` (R9). -/
abbrev eofSym : Nat := 256

/-- `NSYM`, the number of symbols (R9). -/
abbrev nSym : Nat := 257

/-- `CNT_W`, the width of a frequency counter (R10, D5; log 2). -/
abbrev cntW : Nat := 32

/-- `WT_W = CNT_W + 9`, the width of a node weight (R10, D6; log 2). -/
abbrev wtW : Nat := 41

/-- `IO_MAX_N`, the most bits one read or write moves (R9). -/
abbrev ioMaxN : Nat := 32

/-- The parameter `MAGIC`, which the spec leaves OPEN (R10, D4; log 1). It has no body. -/
opaque magic : BitVec 32

/-- How many arena entries a chip has above the 513 of R10 (D9; log 1). It has no body. -/
opaque extraNodes : Nat

/-- The parameter `NODE_CAP`, at least 513 (R10, D9; log 1). -/
def nodeCap : Nat := extraNodes + 513

/-- Free value: the draw that places `SRC.pos` after an EOS or a failing call (R63; log 6). -/
opaque freePos : Nat → Nat

/-- Free value: the padding bits the sink's service adds at close, as a number (R69; log 8). -/
opaque freePad : Nat → Nat

/-- Free value: what the sink holds after an error or a reset in mid run (R242, R261; log 7). -/
opaque freeSink : Nat → BitString

end Sys2Proof.Config
end

