-- ==== Sys2Proof/Syntax.lean ====
section
/-! DEFINITION. The operations of the block: the 25 rows of spec/opcode_table.json (spec/30_encoding.md R100). -/

namespace Sys2Proof

/-- The sixteen values of the sequencer register (spec/10_state.md R24). -/
inductive Phase where
  | idle | cnt | bldInit | bldMerge | gen | wrMagic | wrHdr | rewind
  | enc | encEof | rdMagic | rdHdr | dec | close | done | err
  deriving DecidableEq, Repr

/-- The formats of R90, one for each place an operation is decoded from. `phase` is the sequencer register of
R24 (an operation selected by its value, R100), `body` is one bit of a code as the decoder takes it and `code` is a
whole code as the encoder writes it (R93). -/
inductive Format where
  | cmd | phase | magic | header | body | byte | code
  deriving DecidableEq, Repr

/-- One constructor for each row of the opcode table. -/
inductive Instr where
  /-- COMPRESS, R121. -/
  | compress
  /-- DECOMPRESS, R125. -/
  | decompress
  /-- IDLE, R130. -/
  | idle
  /-- CNT, R141. -/
  | cnt
  /-- BLD_INIT, R152. -/
  | bldInit
  /-- BLD_MERGE, R155. -/
  | bldMerge
  /-- GEN, R173. -/
  | gen
  /-- WR_MAGIC, R181. -/
  | wrMagic
  /-- WR_HDR, R185. -/
  | wrHdr
  /-- REWIND, R200. -/
  | rewind
  /-- ENC, R201. -/
  | enc
  /-- ENC_EOF, R203. -/
  | encEof
  /-- RD_MAGIC, R188. -/
  | rdMagic
  /-- RD_HDR, R192. -/
  | rdHdr
  /-- DEC, R211. -/
  | dec
  /-- CLOSE, R128. -/
  | close
  /-- DONE, R129. -/
  | done
  /-- ERR, R240. -/
  | err
  /-- The MAGIC token: the 32 bits `m` read at stream bits 0 to 31, R188. -/
  | magic (m : BitVec 32)
  /-- HDR_INTERNAL, R192. -/
  | hdrInternal
  /-- HDR_LEAF with its symbol field, R192. -/
  | hdrLeaf (sym : Symbol)
  /-- BIT0, R211. -/
  | bit0
  /-- BIT1, R211. -/
  | bit1
  /-- BYTE, R141 and R201. -/
  | byte (b : Byte)
  /-- CODE, a whole path as the encoder writes it, R202. -/
  | code (path : BitString)
  deriving DecidableEq, Repr

end Sys2Proof
end

