-- ==== Sys2Proof/Machine/State.lean ====
section
/-! DEFINITION. The state of the block and of its two streams (spec/10_state.md), the reasons a step can stop, and
the state after reset (R45). -/

namespace Sys2Proof.Machine

/-- An internal memory: the cells listed by index, indices strictly rising. What an unlisted index reads as is said
by the operations on each memory (Machine/Ops.lean). -/
abbrev Memory (α : Type) := List (Nat × α)

/-- The parameters of the step relation (R10, R20; log 1). No step writes them. -/
structure Params where
  /-- `MAGIC` (R10, R91). -/
  magic : BitVec 32
  /-- `NODE_CAP` (R10, R32). -/
  nodeCap : Nat
  deriving DecidableEq, Repr

/-- An entry of the node arena (R32). The two kinds are two constructors, so that a node is a leaf exactly when it
has no children (R33). A child that is not filled yet (the `-` of R192) is `none` (log 22). -/
inductive Node where
  /-- `kind = LEAF`. -/
  | leaf (weight : BitVec Config.wtW) (sym : Symbol)
  /-- `kind = INTERNAL`. -/
  | internal (weight : BitVec Config.wtW) (left right : Option Nat)
  deriving DecidableEq, Repr

/-- Which child of a node a slot fills (R26, R192). -/
inductive Side where
  | L | R
  deriving DecidableEq, Repr

/-- A slot of the header reader: the root, or a child of a node (R26, R192). -/
inductive Slot where
  | root
  | child (parent : Nat) (side : Side)
  deriving DecidableEq, Repr

/-- An entry of `STK`, one of three shapes (R26). -/
inductive StkEntry where
  /-- In `GEN`: a node index and the path to it. -/
  | pair (index : Nat) (path : BitString)
  /-- In `WR_HDR`: a node index. -/
  | index (index : Nat)
  /-- In `RD_HDR`: a slot. -/
  | slot (slot : Slot)
  deriving DecidableEq, Repr

/-- `SRC`, the bit source (R40). -/
structure Src where
  bits : BitString
  pos : Nat
  deriving DecidableEq, Repr

/-- `SNK`, the bit sink (R41), and the bits its service adds at close (R69; log 8). -/
structure Snk where
  bits : BitString
  closed : Bool
  pad : BitString
  deriving DecidableEq, Repr

/-- What the environment offers on the command port: `cmd_op`, and the streams attached for the command (R50, R120,
R263; log 11). `shared` says that the two streams share storage (R79; log 12). -/
structure Offer where
  op : BitVec 1
  src : Src
  snk : Snk
  shared : Bool
  deriving DecidableEq, Repr

/-- How the I/O service answers one call (R82, R274; log 9). -/
inductive IoAnswer where
  /-- The normal result. -/
  | ok
  /-- `Fail` (R82). -/
  | fail
  /-- The call never returns (R274, U19). -/
  | never
  deriving DecidableEq, Repr

/-- What a `SrcRead` answered (R62, R63, R82). -/
inductive ReadAnswer where
  | value (v : Nat)
  | eos
  | fail
  deriving DecidableEq, Repr

/-- A service call as issued on the ports (R50, R73, R77). `ok` is false where the service answered `Fail`. -/
inductive Call where
  | read (n : Nat) (answer : ReadAnswer)
  | rewind (ok : Bool)
  | write (n v : Nat) (ok : Bool)
  | close (ok : Bool)
  deriving DecidableEq, Repr

/-- The error kinds of R231. -/
inductive ErrKind where
  | badHeaderMagic | streamTruncatedHeader | missingSentinel | ioFailure | badSymbol
  | degenerateTree | countOverflow | treeCapacity | noCode
  deriving DecidableEq, Repr

/-- The state: the registers (R21 to R28), the internal memories (R30 to R38), the streams (R40, R41), the input
ports (R50), the parameters (R10) and two fields of the model's own. INVENTORY.md lists each with its rule. -/
structure State where
  /-- The parameters (R10; log 1). -/
  params : Params
  /-- `PHASE` (R24). -/
  phase : Phase
  /-- `MODE`: 0 = compress, 1 = decompress (R25). -/
  mode : BitVec 1
  /-- `ERRCODE` (R28). -/
  errcode : BitVec 4
  /-- `N_NODES` (R21). -/
  nNodes : Nat
  /-- `ROOT` (R21). -/
  root : Nat
  /-- `ROOT_V` (R21). -/
  rootV : Bool
  /-- `CUR` (R21). -/
  cur : Nat
  /-- `SYM` (R21). -/
  sym : Symbol
  /-- `STK`: the entries of the stack, top first (R26). -/
  stk : List StkEntry
  /-- `STK`: what the register still holds after an error, top first. It is not meaningful (R240): these are no entries
  of the stack, which is empty in ERR (R26; log 23). -/
  stkHeld : List StkEntry
  /-- `FREQ[0..256]` (R30). An unlisted cell is 0. -/
  freq : Memory (BitVec Config.cntW)
  /-- `NODE[0..NODE_CAP-1]` (R32). An unlisted entry has no value (log 5). -/
  node : Memory Node
  /-- `INPQ[0..NODE_CAP-1]` (R38). An unlisted cell is 0. -/
  inpq : Memory Bool
  /-- `CODE[0..256]` (R36). A listed cell has `valid = 1` and this path, an unlisted one `valid = 0` and no path
  (log 5). -/
  code : Memory BitString
  /-- `SRC` (R40). -/
  src : Src
  /-- `SNK` (R41). -/
  snk : Snk
  /-- The reset port `rst` (R50, R260). -/
  rst : Bool
  /-- The command port: `none` is `cmd_valid = 0` (R50, R120; log 11). -/
  cmd : Option Offer
  /-- The I/O service's answers to the calls to come; where the list ends every call is answered normally (R82;
  log 9). -/
  io : List IoAnswer
  /-- The model's own: the service calls of this invocation, newest first (R77; log 21). -/
  trace : List Call
  /-- The model's own: numbers the free values (log 6). -/
  draws : Nat
  deriving DecidableEq, Repr

/-- Why a step stops. Each is raised by an operation of Machine/Ops.lean or a meaning, only where the spec gives no
effect, and each is SAFE: the model stops where a machine might go on. The machine's own errors (R231) are no faults of
the model: `raise` takes them to a next state. -/
inductive Fault where
  /-- The I/O service never answers the call (R274, U19: "stuck"). Raised by every service call. Safe. -/
  | serviceCallNeverReturns
  /-- An index that the memory does not have: FREQ or CODE above 256, NODE at NODE_CAP or above (R30, R32, R36).
  Raised by the cell operations. Safe. -/
  | noSuchCell
  /-- A read of an arena entry that is not in use, whose content R32 calls unspecified and never read. Raised by every
  operation that reads NODE. Safe. -/
  | unwrittenNode
  /-- A child that no step has filled (the `-` of R192) is read, or a child of a leaf is filled. Raised by GEN, WR_HDR,
  RD_HDR, DEC and the header and body tokens. Safe. -/
  | unwrittenChild
  /-- A read of the path of a code with `valid = 0`, unspecified and never read (R45). Raised by ENC_EOF. Safe. -/
  | unwrittenCode
  /-- `extract_min` of an empty set, which R154 leaves undefined and R155 excludes. Raised by BLD_MERGE. Safe. -/
  | emptyQueue
  /-- A STK entry of another phase's shape, which R26 excludes. Raised by GEN, WR_HDR, RD_HDR. Safe. -/
  | stackShape
  /-- A header token where no slot waits for one: the tree is complete (R192). Raised by HDR_INTERNAL and HDR_LEAF.
  Safe. -/
  | noOpenSlot
  /-- A body bit at a leaf, where none is read (R211). Raised by BIT0 and BIT1. Safe. -/
  | bitAtLeaf
  /-- A BYTE token in a phase that reads none (R100: CNT and ENC decode it). Raised by BYTE. Safe. -/
  | byteOutsideItsPhases
  /-- The fetch found no operation. All codes are defined (R106), so no step raises it. Safe. -/
  | undecodable
  deriving DecidableEq, Repr

/-- Why the model gives a step no meaning. Each is SAFE. -/
inductive Refusal where
  /-- An instruction that has no meaning yet. Raised in exec's arms only. Safe. -/
  | notModelled (mnemonic : String)
  /-- A `SrcRead` of 0 or more than 32 bits, which R61 says is never issued. Safe. -/
  | sourceReadOutOfContract
  /-- A `SnkWrite` of 0 or more than 32 bits or of a value too wide for them (R67, U13: "refuse"). Safe. -/
  | sinkWriteOutOfContract
  /-- A `SnkWrite` to a closed sink, which R66 says is never issued. Raised by `snkWrite`. Safe. -/
  | sinkWriteAfterClose
  /-- A command whose source and sink share storage (R79, U14: "refuse"). Raised by `accept`. Safe. -/
  | sharedStreams
  deriving DecidableEq, Repr

/-- The state after reset: the block at the values of R45, no stream attached, no command offered. ROOT, CUR and SYM,
which R45 leaves unspecified, are 0 (log 4); the streams and the ports are the model's choice (logs 9, 11, 15, 25). -/
def State.reset : State where
  params := { magic := Config.magic, nodeCap := Config.nodeCap }
  phase := .idle
  mode := 0
  errcode := 0
  nNodes := 0
  root := 0
  rootV := false
  cur := 0
  sym := 0
  stk := []
  stkHeld := []
  freq := [(Config.eofSym, 1)]
  node := []
  inpq := []
  code := []
  src := { bits := [], pos := 0 }
  snk := { bits := [], closed := false, pad := [] }
  rst := false
  cmd := none
  io := []
  trace := []
  draws := 0

end Sys2Proof.Machine
end

