-- ==== Sys2Proof/Machine/Flags.lean ====
section
/-! DEFINITION. The status outputs, all functions of PHASE (spec/10_state.md R27, R50), and the error codes
(spec/60_exceptions.md R231). There are no condition codes (R27). -/

namespace Sys2Proof.Machine

/-- `busy` is 1 outside IDLE, DONE and ERR (R27). -/
def phaseBusy : Phase → Bool
  | .idle | .done | .err => false
  | .cnt | .bldInit | .bldMerge | .gen | .wrMagic | .wrHdr | .rewind
  | .enc | .encEof | .rdMagic | .rdHdr | .dec | .close => true

/-- The status output `busy` (R27). -/
def State.busy (s : State) : Bool := phaseBusy s.phase

/-- The status output `done` (R27). -/
def State.done (s : State) : Bool := decide (s.phase = .done)

/-- The status output `err` (R27). -/
def State.err (s : State) : Bool := decide (s.phase = .err)

/-- The output `cmd_ready`: 1 when PHASE is IDLE, DONE or ERR (R50). -/
def State.cmdReady (s : State) : Bool := !s.busy

/-- The input `cmd_valid` (R50). -/
def State.cmdValid (s : State) : Bool := s.cmd.isSome

/-- The number of an error (R231). -/
def errCode : ErrKind → BitVec 4
  | .badHeaderMagic => 1
  | .streamTruncatedHeader => 2
  | .missingSentinel => 3
  | .ioFailure => 4
  | .badSymbol => 5
  | .degenerateTree => 6
  | .countOverflow => 7
  | .treeCapacity => 8
  | .noCode => 9

end Sys2Proof.Machine
end

