-- ==== Sys2Proof/WellFormed.lean ====
section
/-! DEFINITION. Which terms of the syntax are operations of the block (spec/30_encoding.md R93, R95, R104). -/

namespace Sys2Proof

/-- A header leaf holds a symbol 0 to 256 (R95, R104) and a code has at most 256 bits (R93, R36). Every other
operation is legal as it stands: any 32-bit value may stand in the MAGIC field, and `execMagic` answers a value that
differs from the parameter (R103). -/
def Instr.wf : Instr → Bool
  | .hdrLeaf sym => decide (sym.toNat ≤ Config.eofSym)
  | .code path => decide (path.length ≤ 256)
  | .compress | .decompress | .idle | .cnt | .bldInit | .bldMerge | .gen | .wrMagic | .wrHdr | .rewind
  | .enc | .encEof | .rdMagic | .rdHdr | .dec | .close | .done | .err | .magic _ | .hdrInternal
  | .bit0 | .bit1 | .byte _ => true

end Sys2Proof
end

