-- ==== Sys2Proof/Decode.lean ====
section
/-! DEFINITION. Bit strings as numbers (spec/00_scope.md R12), the decoder and the encoder (spec/30_encoding.md
R90 to R106, spec/10_state.md R24). -/

namespace Sys2Proof

/-- `bits_N(v)`: the `N`-bit string of `v`, most significant bit first (R12). -/
def bitsOf : Nat → Nat → BitString
  | 0, _ => []
  | n + 1, v => v.testBit n :: bitsOf n v

/-- `val(p)`: the unsigned integer whose binary numeral is `p`, first bit most significant; `val(ε) = 0` (R12). -/
def valOf : BitString → Nat
  | [] => 0
  | b :: p => (if b then 2 ^ p.length else 0) + valOf p

/-- The code of a phase (R24). -/
def phaseCode : Phase → Nat
  | .idle => 0 | .cnt => 1 | .bldInit => 2 | .bldMerge => 3
  | .gen => 4 | .wrMagic => 5 | .wrHdr => 6 | .rewind => 7
  | .enc => 8 | .encEof => 9 | .rdMagic => 10 | .rdHdr => 11
  | .dec => 12 | .close => 13 | .done => 14 | .err => 15

/-- Why bits are no operation, each by its name. -/
inductive Reject where
  /-- Fewer bits than the format has. -/
  | endOfBits
  /-- A symbol field of 257 to 511 (R104). -/
  | reservedSymbol
  /-- A code of more than 256 bits (R93). -/
  | pathTooLong
  /-- No phase has this code. All sixteen codes are defined (R106), so it is never answered for four bits. -/
  | noSuchPhase
  deriving DecidableEq, Repr

/-- What the decoder answers: an operation and the bits after it, or a rejection. -/
abbrev Decoded := Except Reject (Instr × BitString)

/-- The operation that a value of PHASE selects (R100). -/
def phaseOperation : Nat → Option Instr
  | 0 => some .idle | 1 => some .cnt | 2 => some .bldInit | 3 => some .bldMerge
  | 4 => some .gen | 5 => some .wrMagic | 6 => some .wrHdr | 7 => some .rewind
  | 8 => some .enc | 9 => some .encEof | 10 => some .rdMagic | 11 => some .rdHdr
  | 12 => some .dec | 13 => some .close | 14 => some .done | 15 => some .err
  | _ => none

/-- CMD: `op = 0` is COMPRESS, `op = 1` is DECOMPRESS (R99). -/
def decodeCmd : BitString → Decoded
  | [] => .error .endOfBits
  | false :: rest => .ok (.compress, rest)
  | true :: rest => .ok (.decompress, rest)

/-- The four bits of PHASE (R24). -/
def decodePhase (bits : BitString) : Decoded :=
  if bits.length < 4 then .error .endOfBits
  else match phaseOperation (valOf (bits.take 4)) with
    | some i => .ok (i, bits.drop 4)
    | none => .error .noSuchPhase

/-- MAGIC, 32 bits (R91). -/
def decodeMagic (bits : BitString) : Decoded :=
  if bits.length < 32 then .error .endOfBits
  else .ok (.magic (BitVec.ofNat 32 (valOf (bits.take 32))), bits.drop 32)

/-- A header token: the first bit tells the two formats apart, and a leaf's symbol field is the next nine bits
(R92, R95); a field of 257 to 511 is reserved (R104). -/
def decodeHeader : BitString → Decoded
  | [] => .error .endOfBits
  | false :: rest => .ok (.hdrInternal, rest)
  | true :: rest =>
    if rest.length < 9 then .error .endOfBits
    else if valOf (rest.take 9) > Config.eofSym then .error .reservedSymbol
    else .ok (.hdrLeaf (BitVec.ofNat 9 (valOf (rest.take 9))), rest.drop 9)

/-- One bit of a code as the decoder consumes it (R93). -/
def decodeBody : BitString → Decoded
  | [] => .error .endOfBits
  | false :: rest => .ok (.bit0, rest)
  | true :: rest => .ok (.bit1, rest)

/-- BYTE, 8 bits (R94). -/
def decodeByte (bits : BitString) : Decoded :=
  if bits.length < 8 then .error .endOfBits
  else .ok (.byte (BitVec.ofNat 8 (valOf (bits.take 8))), bits.drop 8)

/-- A whole code has no length field (R93), so all the bits given are its path. -/
def decodeCode (bits : BitString) : Decoded :=
  if bits.length ≤ 256 then .ok (.code bits, []) else .error .pathTooLong

/-- The decoder: total on every bit string of every format. -/
def decode : Format → BitString → Decoded
  | .cmd, bits => decodeCmd bits
  | .phase, bits => decodePhase bits
  | .magic, bits => decodeMagic bits
  | .header, bits => decodeHeader bits
  | .body, bits => decodeBody bits
  | .byte, bits => decodeByte bits
  | .code, bits => decodeCode bits

/-- The format an operation is encoded in (R90, and the rows' "format" in spec/opcode_table.json). -/
def formatOf : Instr → Format
  | .compress | .decompress => .cmd
  | .idle | .cnt | .bldInit | .bldMerge | .gen | .wrMagic | .wrHdr | .rewind
  | .enc | .encEof | .rdMagic | .rdHdr | .dec | .close | .done | .err => .phase
  | .magic _ => .magic
  | .hdrInternal | .hdrLeaf _ => .header
  | .bit0 | .bit1 => .body
  | .byte _ => .byte
  | .code _ => .code

/-- The encoder: the bits of an operation, in stream order. -/
def encode : Instr → BitString
  | .compress => [false]
  | .decompress => [true]
  | .idle => bitsOf 4 (phaseCode .idle)
  | .cnt => bitsOf 4 (phaseCode .cnt)
  | .bldInit => bitsOf 4 (phaseCode .bldInit)
  | .bldMerge => bitsOf 4 (phaseCode .bldMerge)
  | .gen => bitsOf 4 (phaseCode .gen)
  | .wrMagic => bitsOf 4 (phaseCode .wrMagic)
  | .wrHdr => bitsOf 4 (phaseCode .wrHdr)
  | .rewind => bitsOf 4 (phaseCode .rewind)
  | .enc => bitsOf 4 (phaseCode .enc)
  | .encEof => bitsOf 4 (phaseCode .encEof)
  | .rdMagic => bitsOf 4 (phaseCode .rdMagic)
  | .rdHdr => bitsOf 4 (phaseCode .rdHdr)
  | .dec => bitsOf 4 (phaseCode .dec)
  | .close => bitsOf 4 (phaseCode .close)
  | .done => bitsOf 4 (phaseCode .done)
  | .err => bitsOf 4 (phaseCode .err)
  | .magic m => bitsOf 32 m.toNat
  | .hdrInternal => [false]
  | .hdrLeaf sym => true :: bitsOf 9 sym.toNat
  | .bit0 => [false]
  | .bit1 => [true]
  | .byte b => bitsOf 8 b.toNat
  | .code path => path

/-- How many bits an operation has (R90). -/
def encodedLength : Instr → Nat
  | .compress | .decompress | .hdrInternal | .bit0 | .bit1 => 1
  | .idle | .cnt | .bldInit | .bldMerge | .gen | .wrMagic | .wrHdr | .rewind
  | .enc | .encEof | .rdMagic | .rdHdr | .dec | .close | .done | .err => 4
  | .magic _ => 32
  | .hdrLeaf _ => 10
  | .byte _ => 8
  | .code path => path.length

/-- Which format and how many bits a number of `nbits` bits stands for. The table's rows are decoded from seven
places and several share a number of bits, so the choice is the model's own (log 18): one bit is a command, four bits,
or a byte below 16, a phase, another byte a BYTE, ten bits (two bytes) a header leaf, 32 bits the MAGIC field. -/
def tableFormat (nbits w : Nat) : Option (Format × Nat) :=
  match nbits with
  | 1 => some (.cmd, 1)
  | 4 => some (.phase, 4)
  | 8 => if w < 16 then some (.phase, 4) else some (.byte, 8)
  | 10 => some (.header, 10)
  | 16 => some (.header, 10)
  | 32 => some (.magic, 32)
  | _ => none

/-- The operation the decoder reads from a row's word, all of whose bits it must use (log 18). -/
def decodeTableWord (nbits w : Nat) : Option Instr :=
  match tableFormat nbits w with
  | none => none
  | some (f, n) =>
    if w < 2 ^ n then
      match decode f (bitsOf n w) with
      | .ok (i, []) => some i
      | .ok (_, _ :: _) => none
      | .error _ => none
    else none

end Sys2Proof
end

