-- ==== Sys2Proof/Machine/Operands.lean ====
section
/-! DEFINITION. The operand forms: the internal memories' cells (spec/10_state.md R30 to R38), a node's fields, the
stack, and the priority order (spec/42_tree_builder.md R153). -/

namespace Sys2Proof.Machine

/-! ### A memory -/

/-- The cell listed at an index. -/
def Memory.find? {α : Type} : Memory α → Nat → Option α
  | [], _ => none
  | (j, a) :: m, i => if i = j then some a else Memory.find? m i

/-- List a cell at an index, keeping the indices strictly rising. -/
def Memory.put {α : Type} : Memory α → Nat → α → Memory α
  | [], i, v => [(i, v)]
  | (j, a) :: m, i, v =>
    if i < j then (i, v) :: (j, a) :: m
    else if i = j then (i, v) :: m
    else (j, a) :: Memory.put m i v

/-- Take a cell off the list. -/
def Memory.drop {α : Type} : Memory α → Nat → Memory α
  | [], _ => []
  | (j, a) :: m, i => if i = j then Memory.drop m i else (j, a) :: Memory.drop m i

/-- Read a memory whose unlisted cells hold `d`. -/
def Memory.read {α : Type} (d : α) (m : Memory α) (i : Nat) : α :=
  (Memory.find? m i).getD d

/-- Write a memory whose unlisted cells hold `d`; a cell that comes to hold `d` is unlisted. -/
def Memory.write {α : Type} [DecidableEq α] (d : α) (m : Memory α) (i : Nat) (v : α) : Memory α :=
  if v = d then Memory.drop m i else Memory.put m i v

/-- The indices are strictly rising. -/
def Memory.rising {α : Type} : Memory α → Bool
  | [] => true
  | [_] => true
  | (i, _) :: (j, b) :: m => decide (i < j) && Memory.rising ((j, b) :: m)

/-- The canonical form of a memory whose unlisted cells read as `d` (`none`: they have no value): the indices are
strictly rising and no listed cell holds what an unlisted one reads as. -/
def Memory.wf {α : Type} [DecidableEq α] (d : Option α) (m : Memory α) : Bool :=
  Memory.rising m && m.all (fun c => decide (some c.2 ≠ d))

/-! ### The cells of the four memories -/

/-- `FREQ[i]`. -/
def State.freqAt (s : State) (i : Nat) : BitVec Config.cntW := Memory.read 0 s.freq i

/-- `FREQ[i] <- v`. -/
def State.setFreq (s : State) (i : Nat) (v : BitVec Config.cntW) : State :=
  { s with freq := Memory.write 0 s.freq i v }

/-- `INPQ[i]`. -/
def State.inpqAt (s : State) (i : Nat) : Bool := Memory.read false s.inpq i

/-- `INPQ[i] <- v`. -/
def State.setInpq (s : State) (i : Nat) (v : Bool) : State :=
  { s with inpq := Memory.write false s.inpq i v }

/-- `NODE[i]`, where it has a value. -/
def State.nodeAt (s : State) (i : Nat) : Option Node := Memory.find? s.node i

/-- `NODE[i] <- n`. -/
def State.setNode (s : State) (i : Nat) (n : Node) : State :=
  { s with node := Memory.put s.node i n }

/-- `CODE[i].path` where `CODE[i].valid = 1`, and `none` where it is 0. -/
def State.codeAt (s : State) (i : Nat) : Option BitString := Memory.find? s.code i

/-- `CODE[i] <- { valid = 1, path = p }`. -/
def State.setCode (s : State) (i : Nat) (p : BitString) : State :=
  { s with code := Memory.put s.code i p }

/-! ### A node's fields -/

/-- `NODE[i].weight` (R32). -/
def nodeWeight : Node → BitVec Config.wtW
  | .leaf w _ => w
  | .internal w _ _ => w

/-- `NODE[q].left <- k` or `NODE[q].right <- k`, of an internal node (R192). -/
def nodeWithChild (side : Side) (k : Nat) : Node → Option Node
  | .leaf _ _ => none
  | .internal w l r =>
    match side with
    | .L => some (.internal w (some k) r)
    | .R => some (.internal w l (some k))

/-! ### The priority structure -/

/-- `PQ`: the indices `i < N_NODES` with `INPQ[i] = 1`, rising (R38). -/
def State.pq (s : State) : List Nat :=
  (s.inpq.filter (fun c => c.2 && decide (c.1 < s.nNodes))).map Prod.fst

/-- Node `i` of weight `wi` comes before node `j` of weight `wj`: the lesser weight, and among equal weights the
lesser index (R153; log 20). -/
def comesBefore (wi : BitVec Config.wtW) (i : Nat) (wj : BitVec Config.wtW) (j : Nat) : Bool :=
  decide (wi.toNat < wj.toNat ∨ (wi.toNat = wj.toNat ∧ i < j))

/-- The first node of a list in the order of R153, with its weight. -/
def leastOf (node : Memory Node) : List Nat → Except Fault (BitVec Config.wtW × Nat)
  | [] => .error .emptyQueue
  | [i] =>
    match Memory.find? node i with
    | none => .error .unwrittenNode
    | some n => .ok (nodeWeight n, i)
  | i :: j :: is =>
    match Memory.find? node i, leastOf node (j :: is) with
    | none, _ => .error .unwrittenNode
    | some _, .error f => .error f
    | some n, .ok (w, m) => if comesBefore (nodeWeight n) i w m then .ok (nodeWeight n, i) else .ok (w, m)

/-- `STK_CAP = NODE_CAP + 1` (R10, R26, D31). -/
def State.stkCap (s : State) : Nat := s.params.nodeCap + 1

/-- The phases that use STK (R26): GEN, WR_HDR and RD_HDR. -/
def stackPhase : Phase → Bool
  | .gen | .wrHdr | .rdHdr => true
  | .idle | .cnt | .bldInit | .bldMerge | .wrMagic | .rewind | .enc | .encEof | .rdMagic | .dec | .close | .done
  | .err => false

/-- All that the register STK holds: the entries of the stack, and what an error left in it (R240; log 23). -/
def State.stkContents (s : State) : List StkEntry := s.stk ++ s.stkHeld

end Sys2Proof.Machine
end

