-- ==== Sys2Proof/Machine/Ops.lean ====
section
/-! DEFINITION. The shared operations: the four service calls (spec/20_memory.md R62 to R69), taking an error
(spec/60_exceptions.md R240), cell accesses that may stop, the stack, and command acceptance and reset
(spec/40_commands.md R120, spec/70_reset_and_hazards.md R260, R261). -/

namespace Sys2Proof.Machine

/-- What one step of this machine answers. -/
abbrev Out := Host.Outcome State Fault Refusal

/-! ### Service calls -/

/-- What a `SrcRead` comes to. -/
inductive ReadResult where
  | value (v : Nat) (s : State)
  | eos (s : State)
  | fail (s : State)
  | never
  | refused (r : Refusal)

/-- What a `SrcRewind`, `SnkWrite` or `SnkClose` comes to. -/
inductive CallResult where
  | ok (s : State)
  | fail (s : State)
  | never
  | refused (r : Refusal)

/-- How the service answers the next call (R82; log 9). -/
def State.answer (s : State) : IoAnswer := s.io.headD .ok

/-- A call is issued: its answer is used up and the call is recorded (R77; log 21). -/
def State.issue (s : State) (c : Call) : State :=
  { s with io := s.io.tail, trace := c :: s.trace }

/-- `SRC.pos` takes a free value from `lo` to `|SRC.bits|` (R63; log 6). -/
def State.drawPos (s : State) (lo : Nat) : State :=
  { s with
    src := { s.src with pos := lo + Config.freePos s.draws % (s.src.bits.length - lo + 1) }
    draws := s.draws + 1 }

/-- The source is read up to `n` bits further (R62). -/
def State.advance (s : State) (n : Nat) : State :=
  { s with src := { s.src with pos := s.src.pos + n } }

/-- The next `n` bits of the source (R62). -/
def State.nextBits (s : State) (n : Nat) : BitString := (s.src.bits.drop s.src.pos).take n

/-- `SrcRead(n)` that the source answers with the value `v`, unless the service fails or never answers (R62, R82). -/
def srcAnswer (n v : Nat) (s : State) : ReadResult :=
  match s.answer with
  | .ok => .value v ((s.issue (.read n (.value v))).advance n)
  | .fail => .fail ((s.issue (.read n .fail)).drawPos 0)
  | .never => .never

/-- `SrcRead(n)` (R62, R63): the next `n` bits as a number, first bit most significant, or EOS where fewer remain. -/
def srcRead (n : Nat) (s : State) : ReadResult :=
  if 1 ≤ n ∧ n ≤ Config.ioMaxN then
    if s.src.pos + n ≤ s.src.bits.length then srcAnswer n (valOf (s.nextBits n)) s
    else
      match s.answer with
      | .ok => .eos ((s.issue (.read n .eos)).drawPos s.src.pos)
      | .fail => .fail ((s.issue (.read n .fail)).drawPos 0)
      | .never => .never
  else .refused .sourceReadOutOfContract

/-- `SrcRewind()` (R64). -/
def srcRewind (s : State) : CallResult :=
  match s.answer with
  | .ok => .ok { s.issue (.rewind true) with src := { s.src with pos := 0 } }
  | .fail => .fail ((s.issue (.rewind false)).drawPos 0)
  | .never => .never

/-- The sink takes the bits `p` (R66). -/
def State.append (s : State) (p : BitString) : State :=
  { s with snk := { s.snk with bits := s.snk.bits ++ p } }

/-- `SnkWrite(n, v)`, for `1 ≤ n ≤ 32` and `v < 2^n`, to an open sink (R66, R67; log 16). -/
def snkWrite (n v : Nat) (s : State) : CallResult :=
  if 1 ≤ n ∧ n ≤ Config.ioMaxN ∧ v < 2 ^ n then
    if s.snk.closed then .refused .sinkWriteAfterClose
    else
      match s.answer with
      | .ok => .ok ((s.issue (.write n v true)).append (bitsOf n v))
      | .fail => .fail (s.issue (.write n v false))
      | .never => .never
  else .refused .sinkWriteOutOfContract

/-- How many bits are missing to a byte boundary (R69). -/
def padLength (n : Nat) : Nat := (8 - n % 8) % 8

/-- The sink is closed, and its service fills the last byte with bits of any value (R68, R69; log 8). -/
def State.closeSink (s : State) : State :=
  { s with
    snk := { s.snk with closed := true, pad := bitsOf (padLength s.snk.bits.length) (Config.freePad s.draws) }
    draws := s.draws + 1 }

/-- `SnkClose()` (R68). The sink is closed after it whatever the service answered, because R129, R242 and R264 say
so of every run that has ended (log 10). -/
def snkClose (s : State) : CallResult :=
  match s.answer with
  | .ok => .ok (s.issue (.close true)).closeSink
  | .fail => .fail (s.issue (.close false)).closeSink
  | .never => .never

/-! ### Taking an error -/

/-- The first error wins: `ERRCODE` is written if it is 0 (R240, R245). -/
def State.recordErr (s : State) (e : ErrKind) : State :=
  if s.errcode = 0 then { s with errcode := errCode e } else s

/-- What the sink holds becomes a free value (R242, R261; log 7). -/
def State.drawSink (s : State) : State :=
  { s with
    snk := { s.snk with
      bits := Config.freeSink s.draws
      pad := bitsOf (padLength (Config.freeSink s.draws).length) (Config.freePad s.draws) }
    draws := s.draws + 1 }

/-- `PHASE <- ERR`, and no claim may be made of the sink's contents (R240, R242; log 7). STK keeps what it
held, which is not meaningful (R240), and no entry of it is left to the stack (R26; log 23). -/
def State.enterErr (s : State) : State :=
  { s.drawSink with phase := .err, stk := [], stkHeld := s.stk ++ s.stkHeld }

/-- `raise E` (R240): record the error, call SnkClose and ignore a `Fail` answer, and go to ERR. -/
def raise (e : ErrKind) (s : State) : Out :=
  match snkClose (s.recordErr e) with
  | .ok t => .next t.enterErr
  | .fail t => .next t.enterErr
  | .never => .fault .serviceCallNeverReturns
  | .refused r => .refused r

/-- `raise IoFailure` where the failing call was SnkClose itself: it is not called again (R240). -/
def raiseClosed (e : ErrKind) (s : State) : Out := .next (s.recordErr e).enterErr

/-- Go on after a `SrcRead`. A `Fail` raises IoFailure (R82, R235). -/
def onRead (r : ReadResult) (onValue : Nat → State → Out) (onEos : State → Out) : Out :=
  match r with
  | .value v s => onValue v s
  | .eos s => onEos s
  | .fail s => raise .ioFailure s
  | .never => .fault .serviceCallNeverReturns
  | .refused r => .refused r

/-- Go on after a `SrcRewind` or a `SnkWrite`. A `Fail` raises IoFailure (R82, R235). -/
def onCall (r : CallResult) (k : State → Out) : Out :=
  match r with
  | .ok s => k s
  | .fail s => raise .ioFailure s
  | .never => .fault .serviceCallNeverReturns
  | .refused r => .refused r

/-! ### Cells, children and the stack -/

/-- Read `NODE[i]`. -/
def withNode (s : State) (i : Nat) (k : Node → Out) : Out :=
  match s.nodeAt i with
  | some n => k n
  | none => .fault .unwrittenNode

/-- Read a child index. -/
def withChild (c : Option Nat) (k : Nat → Out) : Out :=
  match c with
  | some i => k i
  | none => .fault .unwrittenChild

/-- `NODE[k] <- n`, where the arena has that entry (R32). -/
def storeNode (k : Nat) (n : Node) (s : State) (cont : State → Out) : Out :=
  if k < s.params.nodeCap then cont (s.setNode k n) else .fault .noSuchCell

/-- `STK <- e :: rest`, `PHASE <- p`: the step that enters a phase primes its stack (R26). -/
def State.enter (s : State) (p : Phase) (stk : List StkEntry) : State :=
  { s with phase := p, stk := stk }

/-- `push(e)`. A push onto a full stack raises TreeCapacity (R26). -/
def push (e : StkEntry) (s : State) (k : State → Out) : Out :=
  if s.stk.length < s.stkCap then k { s with stk := e :: s.stk }
  else raise .treeCapacity s

/-- `fill(slot, k)` (R192). -/
def fill (slot : Slot) (k : Nat) (s : State) : Out :=
  match slot with
  | .root => .next { s with root := k, rootV := true }
  | .child q side =>
    withNode s q fun n =>
      match nodeWithChild side k n with
      | some n' => .next (s.setNode q n')
      | none => .fault .unwrittenChild

/-- `extract_min()` (R154). -/
def extractMin (s : State) (k : Nat → State → Out) : Out :=
  match leastOf s.node s.pq with
  | .error f => .fault f
  | .ok (_, m) => k m (s.setInpq m false)

/-! ### Writing a code -/

/-- `write_code(p)` (R202), the first `32` bits a call; `fuel` is a bound on the number of calls. -/
def writeChunks : Nat → BitString → State → CallResult
  | 0, _, s => .ok s
  | fuel + 1, p, s =>
    if p = [] then .ok s
    else
      match snkWrite (min Config.ioMaxN p.length) (valOf (p.take Config.ioMaxN)) s with
      | .ok s' => writeChunks fuel (p.drop Config.ioMaxN) s'
      | .fail s' => .fail s'
      | .never => .never
      | .refused r => .refused r

/-- `write_code(p)` (R202): every call takes at least one bit of `p`, so `|p|` bounds their number. -/
def writeCode (p : BitString) (s : State) : CallResult := writeChunks p.length p s

/-! ### Reset and command acceptance -/

/-- Every piece of the block's state at its value of R45 (ROOT, CUR and SYM: log 4). The parameters, the streams,
the ports and the model's own fields stay (R20, R262). -/
def State.initBlock (s : State) : State :=
  { s with
    phase := .idle, mode := 0, errcode := 0, nNodes := 0, root := 0, rootV := false, cur := 0, sym := 0
    stk := [], stkHeld := [], freq := [(Config.eofSym, 1)], node := [], inpq := [], code := [] }

/-- `rst` is asserted (R260). In mid run the invocation is abandoned with no service call, and the sink's contents
are undefined (R261; log 15). -/
def State.takeReset (s : State) : State :=
  if s.busy then s.drawSink.initBlock else s.initBlock

/-- `accept(op)` (R120): the block is initialised, and the streams of the invocation are those attached to the ports
(R50). The offer is taken off the port (log 11). Streams that share storage are refused (R79; log 12). -/
def accept (op : BitVec 1) (o : Offer) (s : State) : Out :=
  if o.shared then .refused .sharedStreams
  else .next { s.initBlock with
    mode := op
    phase := if op = 0 then .cnt else .rdMagic
    src := o.src
    snk := o.snk
    cmd := none
    trace := [] }

/-- A command word meets the port: it is accepted in IDLE, DONE and ERR when a command is offered (R120), and has no
effect otherwise (R268). -/
def offerCommand (op : BitVec 1) (s : State) : Out :=
  if s.cmdReady then
    match s.cmd with
    | some o => accept op o s
    | none => .next s
  else .next s

end Sys2Proof.Machine
end

