-- ==== Sys2Proof/Machine/CodeTable.lean ====
section
/-! DEFINITION. The Code Table Generator: GEN (spec/43_code_table.md). -/

namespace Sys2Proof.Machine

/-- GEN at a leaf: record its path (R173). -/
def recordCode (sym : Symbol) (p : BitString) (s : State) : Out :=
  if sym.toNat ≤ Config.eofSym then .next (s.setCode sym.toNat p) else .fault .noSuchCell

/-- GEN at an internal node: push the right child, then the left, so that the left is visited first (R173). -/
def pushPairs (l r : Option Nat) (p : BitString) (s : State) : Out :=
  withChild r fun r =>
    push (.pair r (p ++ [true])) s fun t =>
      withChild l fun l => push (.pair l (p ++ [false])) t .next

/-- GEN, one step (R173): handle the node on top of the stack, or leave the phase. -/
def execGen (s : State) : Out :=
  match s.stk with
  | [] => .next { s with phase := .wrMagic }
  | .pair i p :: rest =>
    withNode s i fun n =>
      match n with
      | .leaf _ sym => recordCode sym p { s with stk := rest }
      | .internal _ l r => pushPairs l r p { s with stk := rest }
  | .index _ :: _ => .fault .stackShape
  | .slot _ :: _ => .fault .stackShape

end Sys2Proof.Machine
end

