-- ==== Sys2Proof/Machine/Commands.lean ====
section
/-! DEFINITION. The commands COMPRESS and DECOMPRESS, CLOSE, and the resting phases IDLE, DONE and ERR
(spec/40_commands.md, spec/60_exceptions.md R240). -/

namespace Sys2Proof.Machine

/-- COMPRESS meets the command port (R120, R121). Its phases are the steps that follow (log 17). -/
def execCompress (s : State) : Out := offerCommand 0 s

/-- DECOMPRESS meets the command port (R120, R125). Its phases are the steps that follow (log 17). -/
def execDecompress (s : State) : Out := offerCommand 1 s

/-- CLOSE, one step (R128). Where the close fails, `raise IoFailure` does not call SnkClose again (R240). -/
def execClose (s : State) : Out :=
  match snkClose s with
  | .ok t => .next { t with phase := .done }
  | .fail t => raiseClosed .ioFailure t
  | .never => .fault .serviceCallNeverReturns
  | .refused r => .refused r

/-- IDLE has no step of its own: the block waits for a command (R130; log 14). -/
def execIdle (s : State) : Out := .next s

/-- DONE has no step of its own: the run has ended (R129; log 14). -/
def execDone (s : State) : Out := .next s

/-- ERR has no step of its own: it is entered by `raise` only, and the run has ended (R129, R240, R247; log 14). -/
def execErr (s : State) : Out := .next s

end Sys2Proof.Machine
end

