-- ==== Sys2Proof/Machine/HeaderCodec.lean ====
section
/-! DEFINITION. The Header Codec: WR_MAGIC, WR_HDR, RD_MAGIC, RD_HDR and the tokens MAGIC, HDR_INTERNAL, HDR_LEAF
(spec/44_header_codec.md). A token's meaning is the step of its phase when the source answers with that token (R100;
log 17). -/

namespace Sys2Proof.Machine

/-- WR_MAGIC, one step (R181). -/
def execWrMagic (s : State) : Out :=
  onCall (snkWrite 32 s.params.magic.toNat s) fun t => .next (t.enter .wrHdr [.index t.root])

/-- WR_HDR at a leaf: the bit `1`, then the symbol field (R185, D26). -/
def writeLeaf (sym : Symbol) (s : State) : Out :=
  onCall (snkWrite 1 1 s) fun t => onCall (snkWrite 9 sym.toNat t) .next

/-- WR_HDR at an internal node: the bit `0`; the left child is written before the right (R185). -/
def writeInternal (l r : Option Nat) (s : State) : Out :=
  onCall (snkWrite 1 0 s) fun t =>
    withChild r fun r => push (.index r) t fun u => withChild l fun l => push (.index l) u .next

/-- WR_HDR, one step (R185): write the token of the node on top of the stack, or leave the phase. -/
def execWrHdr (s : State) : Out :=
  match s.stk with
  | [] => .next { s with phase := .rewind }
  | .index i :: rest =>
    withNode s i fun n =>
      match n with
      | .leaf _ sym => writeLeaf sym { s with stk := rest }
      | .internal _ l r => writeInternal l r { s with stk := rest }
  | .pair _ _ :: _ => .fault .stackShape
  | .slot _ :: _ => .fault .stackShape

/-- RD_MAGIC has read the value `v` (R188). -/
def checkMagic (v : Nat) (s : State) : Out :=
  if v = s.params.magic.toNat then .next (s.enter .rdHdr [.slot .root])
  else raise .badHeaderMagic s

/-- RD_MAGIC, one step (R188). EOS does not match MAGIC either (R189). -/
def execRdMagic (s : State) : Out :=
  onRead (srcRead 32 s) checkMagic (raise .badHeaderMagic)

/-- The MAGIC token `m`: RD_MAGIC when the source answers `m` (R188). -/
def execMagic (m : BitVec 32) (s : State) : Out :=
  onRead (srcAnswer 32 m.toNat s) checkMagic (raise .badHeaderMagic)

/-- RD_HDR has read a `0` for the slot: an internal node, both of whose children are still to come (R192). -/
def readInternal (slot : Slot) (s : State) : Out :=
  if s.nNodes = s.params.nodeCap then raise .treeCapacity s
  else
    storeNode s.nNodes (.internal 0 none none) s fun t =>
      push (.slot (.child s.nNodes .R)) t fun u =>
        push (.slot (.child s.nNodes .L)) u fun v =>
          fill slot s.nNodes { v with nNodes := s.nNodes + 1 }

/-- RD_HDR has read the symbol field `v` for the slot (R192); 257 to 511 raise BadSymbol (R194). -/
def readField (slot : Slot) (v : Nat) (s : State) : Out :=
  if Config.eofSym < v then raise .badSymbol s
  else
    storeNode s.nNodes (.leaf 0 (BitVec.ofNat 9 v)) { s with sym := BitVec.ofNat 9 v } fun t =>
      fill slot s.nNodes { t with nNodes := s.nNodes + 1 }

/-- RD_HDR has read a `1` for the slot (R192): the arena is checked before the field is read (R198), and `field` is
that read. -/
def readLeaf (slot : Slot) (field : State → ReadResult) (s : State) : Out :=
  if s.nNodes = s.params.nodeCap then raise .treeCapacity s
  else onRead (field s) (readField slot) (raise .streamTruncatedHeader)

/-- The last step of RD_HDR (R192): a lone leaf that is not the sentinel is refused (R196). -/
def finishHeader (s : State) : Out :=
  withNode s s.root fun n =>
    match n with
    | .leaf _ sym =>
      if sym.toNat = Config.eofSym then .next { s with cur := s.root, phase := .dec }
      else raise .degenerateTree s
    | .internal _ _ _ => .next { s with cur := s.root, phase := .dec }

/-- RD_HDR, one step (R192): read one token for the slot on top of the stack, or end the phase. -/
def execRdHdr (s : State) : Out :=
  match s.stk with
  | [] => finishHeader s
  | .slot slot :: rest =>
    onRead (srcRead 1 { s with stk := rest })
      (fun d t => if d = 0 then readInternal slot t else readLeaf slot (srcRead 9) t)
      (raise .streamTruncatedHeader)
  | .pair _ _ :: _ => .fault .stackShape
  | .index _ :: _ => .fault .stackShape

/-- The HDR_INTERNAL token: RD_HDR when the source answers `0` (R192). -/
def execHdrInternal (s : State) : Out :=
  match s.stk with
  | [] => .fault .noOpenSlot
  | .slot slot :: rest =>
    onRead (srcAnswer 1 0 { s with stk := rest }) (fun _ t => readInternal slot t) (raise .streamTruncatedHeader)
  | .pair _ _ :: _ => .fault .stackShape
  | .index _ :: _ => .fault .stackShape

/-- The HDR_LEAF token: RD_HDR when the source answers `1` and then the field `sym` (R192). -/
def execHdrLeaf (sym : Symbol) (s : State) : Out :=
  match s.stk with
  | [] => .fault .noOpenSlot
  | .slot slot :: rest =>
    onRead (srcAnswer 1 1 { s with stk := rest }) (fun _ t => readLeaf slot (srcAnswer 9 sym.toNat) t)
      (raise .streamTruncatedHeader)
  | .pair _ _ :: _ => .fault .stackShape
  | .index _ :: _ => .fault .stackShape

end Sys2Proof.Machine
end

