-- ==== Sys2Proof/Machine/FrequencyCounter.lean ====
section
/-! DEFINITION. The Frequency Counter: CNT (spec/41_frequency_counter.md). -/

namespace Sys2Proof.Machine

/-- CNT has read the byte `b` (R141): count it, or raise CountOverflow where the counter is full (R143). -/
def countByte (b : Nat) (s : State) : Out :=
  let t := { s with sym := BitVec.ofNat 9 b }
  if s.freqAt b = BitVec.allOnes Config.cntW then raise .countOverflow t
  else .next (t.setFreq b (s.freqAt b + 1))

/-- CNT, one step (R141): read a byte and count it, or end the pass at EOS. -/
def execCnt (s : State) : Out :=
  onRead (srcRead 8 s) countByte (fun t => .next { t with phase := .bldInit, sym := 0 })

end Sys2Proof.Machine
end

