-- ==== Sys2Proof/Machine/Transcoder.lean ====
section
/-! DEFINITION. The Bitstream Transcoder: REWIND, ENC, ENC_EOF, DEC and the tokens BIT0, BIT1, BYTE, CODE
(spec/45_bitstream_transcoder.md). A token's meaning is the step of its phase when the source answers with that token
(R100; log 17). -/

namespace Sys2Proof.Machine

/-- REWIND, one step (R200). -/
def execRewind (s : State) : Out :=
  onCall (srcRewind s) fun t => .next { t with phase := .enc }

/-- ENC has read the byte `b` (R201): write its code, or raise NoCode (R205). -/
def encodeByte (b : Nat) (s : State) : Out :=
  let t := { s with sym := BitVec.ofNat 9 b }
  match s.codeAt b with
  | none => raise .noCode t
  | some p => onCall (writeCode p t) .next

/-- ENC, one step (R201): encode a byte, or end the pass at EOS. -/
def execEnc (s : State) : Out :=
  onRead (srcRead 8 s) encodeByte (fun t => .next { t with phase := .encEof })

/-- ENC_EOF, one step (R203): write the sentinel's code. `CODE[256].valid = 1` always (R37); where it is 0 the path
has no value (log 5). -/
def execEncEof (s : State) : Out :=
  match s.codeAt Config.eofSym with
  | none => .fault .unwrittenCode
  | some p => onCall (writeCode p s) fun t => .next { t with phase := .close }

/-- The BYTE token: CNT or ENC, whichever phase it is, when the source answers `b` (R141, R201). -/
def execByte (b : Byte) (s : State) : Out :=
  match s.phase with
  | .cnt => onRead (srcAnswer 8 b.toNat s) countByte (fun t => .next { t with phase := .bldInit, sym := 0 })
  | .enc => onRead (srcAnswer 8 b.toNat s) encodeByte (fun t => .next { t with phase := .encEof })
  | .idle | .bldInit | .bldMerge | .gen | .wrMagic | .wrHdr | .rewind
  | .encEof | .rdMagic | .rdHdr | .dec | .close | .done | .err => .fault .byteOutsideItsPhases

/-- The CODE operation: `write_code(path)` (R202), as ENC and ENC_EOF issue it. -/
def execCode (path : BitString) (s : State) : Out :=
  onCall (writeCode path s) .next

/-- DEC at an internal node has read the bit `d`: `0` is left, any other is right (R211). -/
def descend (l r : Option Nat) (d : Nat) (s : State) : Out :=
  withChild (if d = 0 then l else r) fun c => .next { s with cur := c }

/-- DEC at a leaf (R211, R212): the sentinel ends the phase, another symbol is written and the walk goes back to
the root. No bit is read. -/
def emitLeaf (sym : Symbol) (s : State) : Out :=
  if sym.toNat = Config.eofSym then .next { s with phase := .close }
  else onCall (snkWrite 8 (sym.toNat % 256) s) fun t => .next { t with cur := t.root }

/-- DEC, one step (R211): leaf-ness is tested before a bit is read. -/
def execDec (s : State) : Out :=
  withNode s s.cur fun n =>
    match n with
    | .leaf _ sym => emitLeaf sym s
    | .internal _ l r => onRead (srcRead 1 s) (descend l r) (raise .missingSentinel)

/-- The BIT0 token: DEC at an internal node when the source answers `0` (R211). -/
def execBit0 (s : State) : Out :=
  withNode s s.cur fun n =>
    match n with
    | .leaf _ _ => .fault .bitAtLeaf
    | .internal _ l r => onRead (srcAnswer 1 0 s) (descend l r) (raise .missingSentinel)

/-- The BIT1 token: DEC at an internal node when the source answers `1` (R211). -/
def execBit1 (s : State) : Out :=
  withNode s s.cur fun n =>
    match n with
    | .leaf _ _ => .fault .bitAtLeaf
    | .internal _ l r => onRead (srcAnswer 1 1 s) (descend l r) (raise .missingSentinel)

end Sys2Proof.Machine
end

