-- ==== Sys2Proof/Machine/TreeBuilder.lean ====
section
/-! DEFINITION. The Tree Builder: BLD_INIT and BLD_MERGE (spec/42_tree_builder.md). -/

namespace Sys2Proof.Machine

/-- The end of a BLD_INIT step: the next symbol, or BLD_MERGE after symbol 256 (R152). -/
def nextSymbol (s : State) : State :=
  if s.sym.toNat = Config.eofSym then { s with phase := .bldMerge } else { s with sym := s.sym + 1 }

/-- BLD_INIT, one step (R152): a leaf for the symbol in SYM if its count is not 0. -/
def execBldInit (s : State) : Out :=
  if s.sym.toNat ≤ Config.eofSym then
    if s.freqAt s.sym.toNat = 0 then .next (nextSymbol s)
    else
      storeNode s.nNodes (.leaf ((s.freqAt s.sym.toNat).setWidth Config.wtW) s.sym) s fun t =>
        .next (nextSymbol { t.setInpq s.nNodes true with nNodes := s.nNodes + 1 })
  else .fault .noSuchCell

/-- The last step of BLD_MERGE (R155): the one node left is the root, and GEN's stack is primed. -/
def finishMerge (r : Nat) (s : State) : State :=
  { (s.setInpq r false).enter .gen [.pair r []] with root := r, rootV := true }

/-- One merge (R155): the first node extracted becomes the left child and the second the right (R156; log 20). -/
def mergeTwo (s : State) : Out :=
  extractMin s fun a s1 =>
    extractMin s1 fun b s2 =>
      withNode s2 a fun na =>
        withNode s2 b fun nb =>
          storeNode s2.nNodes (.internal (nodeWeight na + nodeWeight nb) (some a) (some b)) s2 fun t =>
            .next { t.setInpq s2.nNodes true with nNodes := s2.nNodes + 1 }

/-- BLD_MERGE, one step (R155). `|PQ| = 0` cannot occur there, and `extract_min` is not defined then (R154). -/
def execBldMerge (s : State) : Out :=
  match s.pq with
  | [] => .fault .emptyQueue
  | [r] => .next (finishMerge r s)
  | _ :: _ :: _ => mergeTwo s

end Sys2Proof.Machine
end

