-- ==== Sys2Proof/Machine/Dispatch.lean ====
section
/-! DEFINITION. One arm for each operation of spec/opcode_table.json. -/

namespace Sys2Proof.Machine

def exec (i : Instr) (s : State) : Host.Outcome State Fault Refusal :=
  match i with
  | .compress => Sys2Proof.Machine.execCompress s
  | .decompress => Sys2Proof.Machine.execDecompress s
  | .idle => Sys2Proof.Machine.execIdle s
  | .cnt => Sys2Proof.Machine.execCnt s
  | .bldInit => Sys2Proof.Machine.execBldInit s
  | .bldMerge => Sys2Proof.Machine.execBldMerge s
  | .gen => Sys2Proof.Machine.execGen s
  | .wrMagic => Sys2Proof.Machine.execWrMagic s
  | .wrHdr => Sys2Proof.Machine.execWrHdr s
  | .rewind => Sys2Proof.Machine.execRewind s
  | .enc => Sys2Proof.Machine.execEnc s
  | .encEof => Sys2Proof.Machine.execEncEof s
  | .rdMagic => Sys2Proof.Machine.execRdMagic s
  | .rdHdr => Sys2Proof.Machine.execRdHdr s
  | .dec => Sys2Proof.Machine.execDec s
  | .close => Sys2Proof.Machine.execClose s
  | .done => Sys2Proof.Machine.execDone s
  | .err => Sys2Proof.Machine.execErr s
  | .magic m => Sys2Proof.Machine.execMagic m s
  | .hdrInternal => Sys2Proof.Machine.execHdrInternal s
  | .hdrLeaf sym => Sys2Proof.Machine.execHdrLeaf sym s
  | .bit0 => Sys2Proof.Machine.execBit0 s
  | .bit1 => Sys2Proof.Machine.execBit1 s
  | .byte b => Sys2Proof.Machine.execByte b s
  | .code path => Sys2Proof.Machine.execCode path s

end Sys2Proof.Machine
end

