-- ==== Sys2Proof/Machine/Fetch.lean ====
section
/-! DEFINITION. Which operation comes next (spec/30_encoding.md R100, spec/40_commands.md R120), which token lies at
the source's position, and how an operation is placed there from outside. -/

namespace Sys2Proof.Machine

/-- The bits that select the next operation and their format: a command that is offered when `cmd_ready = 1` is
decoded from the command port (R120), and otherwise the four bits of PHASE select the step (R24, R100). -/
def fetchBits (s : State) : Format × BitString :=
  match s.cmdReady, s.cmd with
  | true, some o => (.cmd, bitsOf 1 o.op.toNat)
  | true, none => (.phase, bitsOf 4 (phaseCode s.phase))
  | false, _ => (.phase, bitsOf 4 (phaseCode s.phase))

/-- The next operation, as the decoder reads it. -/
def fetch (s : State) : Decoded := decode (fetchBits s).1 (fetchBits s).2

/-- The format of the token a phase reads next, where it reads one (R73, R100): RD_HDR while a slot is open, and DEC
at an internal node. -/
def tokenFormat (s : State) : Option Format :=
  match s.phase with
  | .cnt => some .byte
  | .enc => some .byte
  | .rdMagic => some .magic
  | .rdHdr =>
    match s.stk with
    | .slot _ :: _ => some .header
    | _ => none
  | .dec =>
    match s.nodeAt s.cur with
    | some (.internal _ _ _) => some .body
    | _ => none
  | .idle | .bldInit | .bldMerge | .gen | .wrMagic | .wrHdr | .rewind
  | .encEof | .close | .done | .err => none

/-- The token at the source's position, as the decoder reads it, where the phase reads one. -/
def fetchToken (s : State) : Option Instr :=
  match tokenFormat s with
  | none => none
  | some f =>
    match decode f (s.src.bits.drop s.src.pos) with
    | .ok (i, _) => some i
    | .error _ => none

/-- Select a phase. A command that is offered would be taken before a resting phase's own step, so it is dropped
there. RD_HDR reads a token into an open slot, so the first slot is opened where none is (R26, R188). -/
def State.selectPhase (s : State) (p : Phase) : State :=
  { s with
    rst := false
    phase := p
    cmd := if phaseBusy p then s.cmd else none
    stk := if p = .rdHdr ∧ s.stk = [] then [.slot .root] else s.stk }

/-- Select a command: it is offered, with the streams as they stand, to a block that is ready. -/
def State.selectCommand (s : State) (op : BitVec 1) : State :=
  { s with
    rst := false
    phase := if s.busy then .idle else s.phase
    cmd := some { op := op, src := s.src, snk := s.snk, shared := false } }

/-- Place a token where the phase `p` reads it next. -/
def State.placeToken (s : State) (p : Phase) (i : Instr) : State :=
  { s.selectPhase p with src := { bits := encode i, pos := 0 } }

/-- Set all it takes for the very next step to run `i` (log 19). `BIT0`, `BIT1` and `CODE` are not reached this way:
no table word decodes to them (log 18). -/
def State.place (s : State) (i : Instr) : State :=
  match i with
  | .compress => s.selectCommand 0
  | .decompress => s.selectCommand 1
  | .idle => s.selectPhase .idle
  | .cnt => s.selectPhase .cnt
  | .bldInit => s.selectPhase .bldInit
  | .bldMerge => s.selectPhase .bldMerge
  | .gen => s.selectPhase .gen
  | .wrMagic => s.selectPhase .wrMagic
  | .wrHdr => s.selectPhase .wrHdr
  | .rewind => s.selectPhase .rewind
  | .enc => s.selectPhase .enc
  | .encEof => s.selectPhase .encEof
  | .rdMagic => s.selectPhase .rdMagic
  | .rdHdr => s.selectPhase .rdHdr
  | .dec => s.selectPhase .dec
  | .close => s.selectPhase .close
  | .done => s.selectPhase .done
  | .err => s.selectPhase .err
  | .magic m => s.placeToken .rdMagic (.magic m)
  | .hdrInternal => s.placeToken .rdHdr .hdrInternal
  | .hdrLeaf sym => s.placeToken .rdHdr (.hdrLeaf sym)
  | .bit0 => s.placeToken .dec .bit0
  | .bit1 => s.placeToken .dec .bit1
  | .byte b => s.placeToken .cnt (.byte b)
  | .code _ => s

end Sys2Proof.Machine
end

