-- ==== Sys2Proof/Machine/Step.lean ====
section
/-! DEFINITION. One step of the block, and how the host places an operation where the next step finds it. -/

namespace Sys2Proof.Machine

/-- One step: reset if `rst` is asserted (R260, R261), and otherwise the operation that the command port or PHASE
selects (R100, R120). -/
def step (s : State) : Host.Outcome State Fault Refusal :=
  if s.rst then .next s.takeReset
  else
    match fetch s with
    | .ok (i, _) => exec i s
    | .error _ => .fault .undecodable

/-- The state with the table word's operation where the next step finds it (logs 18 and 19). -/
def State.withFetchWord (s : State) (nbits w : Nat) : State :=
  match decodeTableWord nbits w with
  | some i => s.place i
  | none => s

end Sys2Proof.Machine
end

