-- ==== Sys2Proof/Machine/Functions.lean ====
section
/-! DEFINITION. The phases and the two commands as total functions over abstract values (spec/00_scope.md R14): freq
R140, build R150, paths and code R170, hdr R183, parse R190, walk R210, and the results R124 and R126. -/

namespace Sys2Proof.Machine

/-- The abstract tree (R34). -/
inductive Tree where
  | leaf (sym : Symbol)
  | internal (left right : Tree)
  deriving DecidableEq, Repr

/-- The symbols on the leaves, from left to right. -/
def treeSymbols : Tree → List Nat
  | .leaf sym => [sym.toNat]
  | .internal l r => treeSymbols l ++ treeSymbols r

/-- How many leaves a tree has (R184). -/
def treeLeaves : Tree → Nat
  | .leaf _ => 1
  | .internal l r => treeLeaves l + treeLeaves r

/-- How many internal nodes a tree has (R184). -/
def treeInternals : Tree → Nat
  | .leaf _ => 0
  | .internal l r => treeInternals l + treeInternals r + 1

/-- How many nodes a tree has. -/
def treeSize (t : Tree) : Nat := treeLeaves t + treeInternals t

/-- `tree(i)` of an arena (R34), to the depth `fuel`. -/
def treeOf (node : Memory Node) : Nat → Nat → Option Tree
  | 0, _ => none
  | fuel + 1, i =>
    match Memory.find? node i with
    | some (.leaf _ sym) => some (.leaf sym)
    | some (.internal _ (some l) (some r)) =>
      match treeOf node fuel l, treeOf node fuel r with
      | some tl, some tr => some (.internal tl tr)
      | _, _ => none
    | _ => none

/-- `tree(ROOT)` (R34): no path in an arena is longer than the number of its entries. -/
def State.rootTree (s : State) : Option Tree := treeOf s.node s.nNodes s.root

/-! ### freq and build -/

/-- `freq(S)` (R140). -/
def freqOf (bytes : List Byte) (v : Nat) : Nat :=
  if v = Config.eofSym then 1 else bytes.countP (fun b => b.toNat = v)

/-- A tree waiting in the priority structure, with its weight and its node index (R38, R153). -/
structure Item where
  weight : Nat
  index : Nat
  tree : Tree
  deriving DecidableEq, Repr

/-- One leaf for each symbol of the list with a non-zero count, numbered from `k` on (R151, R152). -/
def leafItems (F : Nat → Nat) : Nat → List Nat → List Item
  | _, [] => []
  | k, sym :: syms =>
    if F sym = 0 then leafItems F k syms
    else { weight := F sym, index := k, tree := .leaf (BitVec.ofNat 9 sym) } :: leafItems F (k + 1) syms

/-- The order of R153. -/
def itemBefore (x y : Item) : Bool :=
  decide (x.weight < y.weight ∨ (x.weight = y.weight ∧ x.index < y.index))

/-- The first item in the order of R153. -/
def leastItem : Item → List Item → Item
  | x, [] => x
  | x, y :: ys => if itemBefore x (leastItem y ys) then x else leastItem y ys

/-- `extract_min` (R154): the first item, and the others in place. -/
def takeItem (x : Item) (xs : List Item) : Item × List Item :=
  (leastItem x xs, (x :: xs).filter (fun y => y.index ≠ (leastItem x xs).index))

/-- Merge the two least until one is left (R151, R155, R156). `k` is the next node index. -/
def mergeItems : Nat → Nat → List Item → Option Tree
  | 0, _, _ => none
  | _ + 1, _, [] => none
  | _ + 1, _, [x] => some x.tree
  | fuel + 1, k, x :: y :: zs =>
    match takeItem x (y :: zs) with
    | (a, []) => some a.tree
    | (a, u :: us) =>
      match takeItem u us with
      | (b, rest) =>
        mergeItems fuel (k + 1)
          (rest ++ [{ weight := a.weight + b.weight, index := k, tree := .internal a.tree b.tree }])

/-- `build(F)` (R150), for a table with `F 256 = 1`; the tree of an empty table, which R150 does not define, is the
sentinel's leaf. -/
def build (F : Nat → Nat) : Tree :=
  let items := leafItems F 0 (List.range Config.nSym)
  (mergeItems items.length items.length items).getD (.leaf 256)

/-! ### paths, codes and the header -/

/-- `paths(T, p)` (R170). -/
def treePaths : Tree → BitString → List (Nat × BitString)
  | .leaf sym, p => [(sym.toNat, p)]
  | .internal l r, p => treePaths l (p ++ [false]) ++ treePaths r (p ++ [true])

/-- `code_T(s)` (R170), the first where a symbol is on two leaves. -/
def codeOf (t : Tree) (sym : Nat) : Option BitString :=
  Memory.find? (treePaths t []) sym

/-- `hdr(T)` (R183). -/
def hdr : Tree → BitString
  | .leaf sym => true :: bitsOf 9 sym.toNat
  | .internal l r => false :: (hdr l ++ hdr r)

/-- `parse(B, p)` on the bits from `p` on, with the arena's bound (R190, R195): the tree, the number of nodes used,
and the bits after it. `fuel` bounds the number of tokens: one more than there are bits is enough. -/
def parseTree (cap : Nat) : Nat → Nat → BitString → Except ErrKind (Tree × Nat × BitString)
  | 0, _, _ => .error .streamTruncatedHeader
  | _ + 1, _, [] => .error .streamTruncatedHeader
  | fuel + 1, n, b :: bits =>
    if n = cap then .error .treeCapacity
    else if b then
      if bits.length < 9 then .error .streamTruncatedHeader
      else if Config.eofSym < valOf (bits.take 9) then .error .badSymbol
      else .ok (.leaf (BitVec.ofNat 9 (valOf (bits.take 9))), n + 1, bits.drop 9)
    else
      match parseTree cap fuel (n + 1) bits with
      | .error e => .error e
      | .ok (l, n1, bits1) =>
        match parseTree cap fuel n1 bits1 with
        | .error e => .error e
        | .ok (r, n2, bits2) => .ok (.internal l r, n2, bits2)

/-- `parse(B, p)` of R190, with the arena's bound: the tree and the position after it. -/
def parse (cap : Nat) (B : BitString) (p : Nat) : Except ErrKind (Tree × Nat) :=
  match parseTree cap (B.length + 1) 0 (B.drop p) with
  | .error e => .error e
  | .ok (t, _, rest) => .ok (t, B.length - rest.length)

/-- `go` of R210 from a node below the root `t`: the bytes, and the bits after the sentinel's code. A lone leaf that
is not the sentinel, on which `go` never ends, is refused before (R196). -/
def walkFrom (t : Tree) : Tree → BitString → Except ErrKind (List Nat × BitString)
  | .leaf sym, [] =>
    if sym.toNat = Config.eofSym then .ok ([], [])
    else
      match t with
      | .leaf _ => .error .degenerateTree
      | .internal _ _ => .error .missingSentinel
  | .internal _ _, [] => .error .missingSentinel
  | .leaf sym, b :: bits =>
    if sym.toNat = Config.eofSym then .ok ([], b :: bits)
    else
      match t with
      | .leaf _ => .error .degenerateTree
      | .internal l r =>
        match walkFrom t (if b then r else l) bits with
        | .error e => .error e
        | .ok (out, rest) => .ok (sym.toNat :: out, rest)
  | .internal l r, b :: bits => walkFrom t (if b then r else l) bits

/-- `walk(T, B, p)` on the bits from `p` on (R210). -/
def walk (t : Tree) (bits : BitString) : Except ErrKind (List Nat × BitString) := walkFrom t t bits

/-! ### The two commands as functions -/

/-- The bits of a byte string, most significant bit first (R70, R94). -/
def bytesBits (bytes : List Byte) : BitString := bytes.flatMap fun b => bitsOf 8 b.toNat

/-- The body of R204: one code per byte and then the sentinel's. A symbol with no code adds nothing (R205 excludes
it). -/
def bodyBits (t : Tree) (bytes : List Byte) : BitString :=
  (bytes.flatMap fun b => (codeOf t b.toNat).getD []) ++ (codeOf t Config.eofSym).getD []

/-- What COMPRESS leaves in the sink (R124). -/
def compressBits (magic : BitVec 32) (bytes : List Byte) : BitString :=
  bitsOf 32 magic.toNat ++ hdr (build (freqOf bytes)) ++ bodyBits (build (freqOf bytes)) bytes

/-- What DECOMPRESS comes to (R126): the bytes or the error. -/
def decompressResult (magic : BitVec 32) (cap : Nat) (B : BitString) : Except ErrKind (List Nat) :=
  if B.length < 32 ∨ valOf (B.take 32) ≠ magic.toNat then .error .badHeaderMagic
  else
    match parseTree cap (B.length + 1) 0 (B.drop 32) with
    | .error e => .error e
    | .ok (t, _, rest) =>
      match t with
      | .leaf sym => if sym.toNat = Config.eofSym then .ok [] else .error .degenerateTree
      | .internal _ _ =>
        match walk t rest with
        | .error e => .error e
        | .ok (out, _) => .ok out

/-- The bytes of the underlying byte stream, first bit most significant (R70, K2; log 28). The bits past the last
whole byte are dropped. -/
def packBytes : Nat → BitString → List Nat
  | 0, _ => []
  | n + 1, bits => valOf (bits.take 8) :: packBytes n (bits.drop 8)

end Sys2Proof.Machine
end

