-- ==== Sys2Proof/Safety.lean ====
section
/-! DEFINITION. What a safe run is: the launch premises (spec/70_reset_and_hazards.md R263), the premises on the I/O
service (R82, R274), the state a service call or an error leaves, and the invariants of the block. Claims are stated in
these terms. -/

namespace Sys2Proof.Machine

/-! ### The environment -/

/-- The next `k` service calls are answered normally (R82; log 9). -/
def State.ioOk (s : State) (k : Nat) : Bool := (s.io.take k).all (fun a => decide (a = .ok))

/-- Every service call is answered normally: "no call fails", premise 5 of spec/92_eei_decisions.md. -/
def State.ioAllOk (s : State) : Bool := s.io.all (fun a => decide (a = .ok))

/-- Every service call returns: premise 4 of spec/92_eei_decisions.md (R274). -/
def State.ioReturns (s : State) : Bool := s.io.all (fun a => decide (a ≠ .never))

/-- The launch premises of R263 (a) to (d), for the streams attached to a command (log 13). -/
def Offer.launchOk (o : Offer) : Prop :=
  o.src.pos = 0 ∧ o.snk.bits = [] ∧ o.snk.closed = false ∧ o.shared = false ∧
    (o.op = 0 → o.src.bits.length % 8 = 0)

/-- The next bits of the source are `p`. -/
def State.sourceStarts (s : State) (p : BitString) : Prop := p <+: s.src.bits.drop s.src.pos

/-- Fewer than `n` bits remain in the source (R63). -/
def State.sourceShort (s : State) (n : Nat) : Prop := s.src.bits.length < s.src.pos + n

/-! ### What a call leaves -/

/-- The state after a `SrcRead(n)` that answered `v` (R62). -/
def State.afterRead (s : State) (n v : Nat) : State :=
  { s with
    src := { bits := s.src.bits, pos := s.src.pos + n }
    io := s.io.tail
    trace := .read n (.value v) :: s.trace }

/-- The state after a read that did not answer a value: the position `p` is not specified (R63; log 6). -/
def State.afterMiss (s : State) (n : Nat) (a : ReadAnswer) (p : Nat) : State :=
  { s with
    src := { bits := s.src.bits, pos := p }
    io := s.io.tail
    trace := .read n a :: s.trace
    draws := s.draws + 1 }

/-- The state after a `SnkWrite(n, v)` that was answered normally (R66). -/
def State.afterWrite (s : State) (n v : Nat) : State :=
  { s with
    snk := { s.snk with bits := s.snk.bits ++ bitsOf n v }
    io := s.io.tail
    trace := .write n v true :: s.trace }

/-- The calls `write_code(p)` issues, in order: all but the last move 32 bits (R202). `fuel` bounds their number. -/
def codeChunks : Nat → BitString → List BitString
  | 0, _ => []
  | fuel + 1, p => if p = [] then [] else p.take 32 :: codeChunks fuel (p.drop 32)

/-- The state after `write_code(p)` with every call answered normally (R202). -/
def State.afterCode (s : State) (p : BitString) : State :=
  { s with
    snk := { s.snk with bits := s.snk.bits ++ p }
    io := s.io.drop (codeChunks p.length p).length
    trace := ((codeChunks p.length p).map fun c => Call.write c.length (valOf c) true).reverse ++ s.trace }

/-- The state after the first calls of a `write_code`, which moved the chunks `cs` and were answered normally
(R202). -/
def State.afterChunks (s : State) (cs : List BitString) : State :=
  { s with
    snk := { s.snk with bits := s.snk.bits ++ cs.flatten }
    io := s.io.drop cs.length
    trace := (cs.map fun c => Call.write c.length (valOf c) true).reverse ++ s.trace }

/-- `t` is what `raise e` leaves of `s` (R240): ERRCODE holds the first error, SnkClose was called once more, PHASE
is ERR, the sink is closed and holds any bits (R242), STK keeps what it held with no entry of the stack left (R26;
log 23), and everything else is as it was. -/
def Raised (e : ErrKind) (s t : State) : Prop :=
  ∃ answered bits pad draws,
    t = { s with
      errcode := if s.errcode = 0 then errCode e else s.errcode
      phase := .err
      stk := []
      stkHeld := s.stk ++ s.stkHeld
      snk := { bits := bits, closed := true, pad := pad }
      io := s.io.tail
      trace := .close answered :: s.trace
      draws := draws }

/-! ### Selection -/

/-- The operation that each value of PHASE selects (R24, R100). -/
def operationOf : Phase → Instr
  | .idle => .idle | .cnt => .cnt | .bldInit => .bldInit | .bldMerge => .bldMerge
  | .gen => .gen | .wrMagic => .wrMagic | .wrHdr => .wrHdr | .rewind => .rewind
  | .enc => .enc | .encEof => .encEof | .rdMagic => .rdMagic | .rdHdr => .rdHdr
  | .dec => .dec | .close => .close | .done => .done | .err => .err

/-- The operation the next step runs where `rst` is not asserted: an offered command when `cmd_ready = 1` (R120),
with `op = 0` COMPRESS and `op = 1` DECOMPRESS (R99), and otherwise the operation of PHASE. -/
def selected (s : State) : Instr :=
  match s.busy, s.cmd with
  | false, some o => if o.op = 0 then .compress else .decompress
  | false, none => operationOf s.phase
  | true, _ => operationOf s.phase

/-- The phases a step can lead to from a busy phase (R121, R125, R240). -/
def successors : Phase → List Phase
  | .idle => []
  | .cnt => [.cnt, .bldInit, .err]
  | .bldInit => [.bldInit, .bldMerge]
  | .bldMerge => [.bldMerge, .gen]
  | .gen => [.gen, .wrMagic, .err]
  | .wrMagic => [.wrHdr, .err]
  | .wrHdr => [.wrHdr, .rewind, .err]
  | .rewind => [.enc, .err]
  | .enc => [.enc, .encEof, .err]
  | .encEof => [.close, .err]
  | .rdMagic => [.rdHdr, .err]
  | .rdHdr => [.rdHdr, .dec, .err]
  | .dec => [.dec, .close, .err]
  | .close => [.done, .err]
  | .done => []
  | .err => []

/-- The errors each phase raises (the table of R231). -/
def errorsOf : Phase → List ErrKind
  | .idle | .bldInit | .bldMerge | .gen | .done | .err => []
  | .cnt => [.countOverflow, .ioFailure]
  | .wrMagic | .wrHdr | .rewind | .encEof | .close => [.ioFailure]
  | .enc => [.noCode, .ioFailure]
  | .rdMagic => [.badHeaderMagic, .ioFailure]
  | .rdHdr => [.streamTruncatedHeader, .badSymbol, .degenerateTree, .treeCapacity, .ioFailure]
  | .dec => [.missingSentinel, .ioFailure]

/-- The block's state as R45 gives it, as far as it gives it: what it leaves unspecified is not named. -/
def State.fresh (s : State) : Prop :=
  s.errcode = 0 ∧ (∀ i, i < 256 → s.freqAt i = 0) ∧ s.freqAt 256 = 1 ∧ s.nNodes = 0 ∧ s.rootV = false ∧
    s.stkContents = [] ∧ (∀ i, s.inpqAt i = false) ∧ (∀ i, s.codeAt i = none)

/-- Node `i` of weight `wi` comes before node `j` of weight `wj` (R153). -/
def pqOrder (wi : BitVec Config.wtW) (i : Nat) (wj : BitVec Config.wtW) (j : Nat) : Prop :=
  wi.toNat < wj.toNat ∨ (wi.toNat = wj.toNat ∧ i < j)

/-! ### The trace -/

/-- How many times SnkClose was called in this invocation (R68). -/
def closeCount (calls : List Call) : Nat :=
  calls.countP fun c => match c with
    | .close _ => true
    | .read _ _ => false
    | .rewind _ => false
    | .write _ _ _ => false

/-- How many times the source was read in this invocation. -/
def readCount (calls : List Call) : Nat :=
  calls.countP fun c => match c with
    | .read _ _ => true
    | .close _ => false
    | .rewind _ => false
    | .write _ _ _ => false

/-- A call keeps the contract of R61, R67 and R73: a read moves 1, 8, 9 or 32 bits and answers a value that fits, a
write moves 1 to 32 bits and its value fits. -/
def callInContract : Call → Bool
  | .read n (.value v) => (n == 1 || n == 8 || n == 9 || n == 32) && decide (v < 2 ^ n)
  | .read n .eos => n == 1 || n == 8 || n == 9 || n == 32
  | .read n .fail => n == 1 || n == 8 || n == 9 || n == 32
  | .write n v _ => decide (1 ≤ n ∧ n ≤ 32 ∧ v < 2 ^ n)
  | .rewind _ => true
  | .close _ => true

/-- SnkClose has not been called while the block is busy, and at the end it is the newest call and the only such one
(R68). -/
def State.closesOnce (s : State) : Prop :=
  (s.busy = true → closeCount s.trace = 0) ∧
  (s.phase = .done ∨ s.phase = .err →
    ∃ answered calls, s.trace = .close answered :: calls ∧ closeCount calls = 0 ∧ s.snk.closed = true)

/-! ### Invariants of the block -/

/-- The phases of COMPRESS (R121), CLOSE left out. -/
def compressPhase : Phase → Bool
  | .cnt | .bldInit | .bldMerge | .gen | .wrMagic | .wrHdr | .rewind | .enc | .encEof => true
  | .idle | .rdMagic | .rdHdr | .dec | .close | .done | .err => false

/-- The phases of DECOMPRESS (R125), CLOSE left out. -/
def decompressPhase : Phase → Bool
  | .rdMagic | .rdHdr | .dec => true
  | .idle | .cnt | .bldInit | .bldMerge | .gen | .wrMagic | .wrHdr | .rewind
  | .enc | .encEof | .close | .done | .err => false

/-- The shape of STK's entries in a phase, and none outside GEN, WR_HDR and RD_HDR (R26). -/
def stackFits : Phase → List StkEntry → Prop
  | .gen, stk => ∀ e ∈ stk, ∃ i p, e = .pair i p
  | .wrHdr, stk => ∀ e ∈ stk, ∃ i, e = .index i
  | .rdHdr, stk => ∀ e ∈ stk, ∃ q, e = .slot q
  | .idle, stk | .cnt, stk | .bldInit, stk | .bldMerge, stk | .wrMagic, stk | .rewind, stk
  | .enc, stk | .encEof, stk | .rdMagic, stk | .dec, stk | .close, stk | .done, stk
  | .err, stk => stk = []

/-- The canonical form of the four memories. -/
def State.memoriesWf (s : State) : Bool :=
  Memory.wf (some 0) s.freq && Memory.wf none s.node && Memory.wf (some false) s.inpq && Memory.wf none s.code

/-- The invariant that every step keeps, whatever the environment does. -/
structure BlockInv (s : State) : Prop where
  /-- NODE_CAP is at least 513 (R10). -/
  capacity : 513 ≤ s.params.nodeCap
  /-- The memories are in canonical form. -/
  memories : s.memoriesWf = true
  /-- `FREQ[256] = 1` (R31). -/
  sentinelCount : s.freqAt 256 = 1
  /-- No cell outside FREQ[0..256] is listed (R30). -/
  freqRange : ∀ i v, (i, v) ∈ s.freq → i ≤ 256
  /-- No cell outside CODE[0..256] is listed (R36). -/
  codeRange : ∀ i p, (i, p) ∈ s.code → i ≤ 256
  /-- No entry outside the arena is listed (R32). -/
  nodeRange : ∀ i n, (i, n) ∈ s.node → i < s.params.nodeCap
  /-- A child is an arena index (R32). -/
  childRange : ∀ i w l r, (i, Node.internal w l r) ∈ s.node →
    (∀ c, l = some c → c < s.params.nodeCap) ∧ (∀ c, r = some c → c < s.params.nodeCap)
  /-- N_NODES counts arena entries (R21). -/
  nodeCount : s.nNodes ≤ s.params.nodeCap
  /-- ROOT is an arena index once it is written (R21); before, R45 leaves it unspecified (log 4). -/
  rootRange : s.rootV = true ∨ s.phase = .dec → s.root < s.params.nodeCap
  /-- CUR is an arena index in DEC, where it is used (R21); before, R45 leaves it unspecified (log 4). -/
  curRange : s.phase = .dec → s.cur < s.params.nodeCap
  /-- STK has at most STK_CAP entries (R26). -/
  stackBound : s.stk.length ≤ s.params.nodeCap + 1
  /-- STK's entries have the phase's shape (R26). -/
  stackShape : stackFits s.phase s.stk
  /-- Only an error leaves something in STK that is no entry of the stack (R240; log 23). -/
  stackHeld : s.phase ≠ .err → s.stkHeld = []
  /-- ERRCODE is 0 but in ERR (R28, R240). -/
  errorCode : s.errcode = 0 ↔ s.phase ≠ .err
  /-- ERRCODE values 10 to 15 are never produced (R106). -/
  errorRange : s.errcode.toNat ≤ 9
  /-- MODE says which command runs (R25). -/
  modeCompress : compressPhase s.phase = true → s.mode = 0
  /-- MODE says which command runs (R25). -/
  modeDecompress : decompressPhase s.phase = true → s.mode = 1
  /-- The position is inside the source (R40), also of the source attached for a command. -/
  position : s.src.pos ≤ s.src.bits.length ∧ ∀ o, s.cmd = some o → o.src.pos ≤ o.src.bits.length
  /-- The sink is closed when a run has ended (R129). -/
  closedAtEnd : s.phase = .done ∨ s.phase = .err → s.snk.closed = true

/-! ### The invariant of a run -/

/-- The entries below N_NODES are written (R32). -/
def State.arenaWritten (s : State) : Prop := ∀ i, i < s.nNodes → ∃ n, s.nodeAt i = some n

/-- On the compress side the children of a node were created before it (R33). -/
def State.childrenBelow (s : State) : Prop :=
  ∀ i w l r, s.nodeAt i = some (.internal w l r) → ∃ a b, l = some a ∧ r = some b ∧ a < i ∧ b < i

/-- Every leaf in the arena holds a symbol 0 to 256. -/
def State.leavesLegal (s : State) : Prop := ∀ i w sym, s.nodeAt i = some (.leaf w sym) → sym.toNat ≤ 256

/-- Every child of every node is filled and in use. -/
def State.childrenFilled (s : State) : Prop :=
  ∀ i w l r, s.nodeAt i = some (.internal w l r) →
    ∃ a b, l = some a ∧ r = some b ∧ a < s.nNodes ∧ b < s.nNodes

/-- The sentinel's leaf lies at or below a node. -/
inductive HasSentinel (node : Memory Node) : Nat → Prop where
  | leaf {i w sym} : Memory.find? node i = some (.leaf w sym) → sym.toNat = 256 → HasSentinel node i
  | left {i w l r} : Memory.find? node i = some (.internal w (some l) r) → HasSentinel node l → HasSentinel node i
  | right {i w l r} : Memory.find? node i = some (.internal w l (some r)) → HasSentinel node r → HasSentinel node i

/-- The node index of a stack entry, where it has one. -/
def entryIndex : StkEntry → Nat
  | .pair i _ => i
  | .index i => i
  | .slot _ => 0

/-- The entry at height `h` of a traversal stack holds an index of at most `N_NODES - h`: this bounds the stack. -/
def stackDescends (n : Nat) : List StkEntry → Prop
  | [] => True
  | e :: rest => entryIndex e + rest.length + 1 ≤ n ∧ stackDescends n rest

/-- A slot of the header reader belongs to an internal node in use. -/
def slotOpen (s : State) : StkEntry → Prop
  | .slot .root => True
  | .slot (.child q _) => q < s.nNodes ∧ ∃ w l r, s.nodeAt q = some (.internal w l r)
  | .pair _ _ => False
  | .index _ => False

/-- A child of a node read from the header is filled and in use, or its slot is on the stack (R192). -/
def State.childrenPending (s : State) : Prop :=
  ∀ i w l r, s.nodeAt i = some (.internal w l r) →
    (l = none → StkEntry.slot (.child i .L) ∈ s.stk) ∧ (∀ a, l = some a → a < s.nNodes) ∧
    (r = none → StkEntry.slot (.child i .R) ∈ s.stk) ∧ (∀ b, r = some b → b < s.nNodes)

/-- What holds in each phase of a run that was launched under the premises. -/
def PhaseInv (s : State) : Prop :=
  match s.phase with
  | .idle | .done | .err | .close => True
  | .cnt | .rdMagic => s.nNodes = 0 ∧ s.node = []
  | .bldInit =>
    s.sym.toNat ≤ 256 ∧ s.nNodes ≤ s.sym.toNat ∧ s.arenaWritten ∧ s.childrenBelow ∧ s.leavesLegal
  | .bldMerge =>
    s.arenaWritten ∧ s.childrenBelow ∧ s.leavesLegal ∧ s.pq.length + s.nNodes ≤ 514 ∧
      ∃ r ∈ s.pq, HasSentinel s.node r
  | .gen =>
    s.arenaWritten ∧ s.childrenBelow ∧ s.leavesLegal ∧ s.root < s.nNodes ∧ stackDescends s.nNodes s.stk ∧
      ((s.codeAt 256).isSome = true ∨ ∃ i p, StkEntry.pair i p ∈ s.stk ∧ HasSentinel s.node i)
  | .wrMagic =>
    s.arenaWritten ∧ s.childrenBelow ∧ s.root < s.nNodes ∧ (s.codeAt 256).isSome = true
  | .wrHdr =>
    s.arenaWritten ∧ s.childrenBelow ∧ stackDescends s.nNodes s.stk ∧ (s.codeAt 256).isSome = true
  | .rewind | .enc | .encEof => (s.codeAt 256).isSome = true
  | .rdHdr =>
    s.arenaWritten ∧ (∀ e ∈ s.stk, slotOpen s e) ∧ s.childrenPending ∧ s.stk.length ≤ s.nNodes + 1 ∧
      (s.nNodes = 0 → s.stk = [.slot .root]) ∧ (0 < s.nNodes → s.root < s.nNodes)
  | .dec =>
    s.arenaWritten ∧ s.childrenFilled ∧ s.root < s.nNodes ∧ s.cur < s.nNodes ∧
      ∀ w sym, s.nodeAt s.root = some (.leaf w sym) → sym.toNat = 256

/-- The invariant of a run: the block's invariant, what holds in the phase, an open sink while the block is busy, and
the premises on the environment (every call returns, and the streams attached for a command share no storage and have
an open sink; logs 9, 12, 13). -/
structure RunInv (s : State) : Prop where
  block : BlockInv s
  phase : PhaseInv s
  sinkOpen : s.busy = true → s.snk.closed = false
  returns : s.ioReturns = true
  offer : ∀ o, s.cmd = some o → o.shared = false ∧ o.snk.closed = false

/-! ### Runs -/

/-- The block reaches `t` from `s` in `k` steps. -/
def Reaches (k : Nat) (s t : State) : Prop := Host.Core.run Sys2Proof.core k s = .next t

/-- The block at rest, not in reset, with a command offered under the launch premises, every service call answered
normally, and NODE_CAP at least 513 (R10, R263; logs 9 and 13). -/
def Launched (s : State) (o : Offer) : Prop :=
  s.busy = false ∧ s.rst = false ∧ s.cmd = some o ∧ o.launchOk ∧ s.ioAllOk = true ∧ 513 ≤ s.params.nodeCap

end Sys2Proof.Machine
end

