-- ==== Sys2Proof/Certificates/Slice0/Obligations.lean ====
section
/-! DEFINITION. The statements for the provers. Each docstring names the rule it formalises. A statement of the form
`exec i s = .next { s with … }` says the new values, the frame (every field not named is as in `s`) and that the
operation completes. Free values (SRC.pos after a miss, the sink's bits after an error, the padding) stand under an
existential quantifier: the statements hold for every value of them. -/

open Sys2Proof Sys2Proof.Machine

/-! ### Encoding -/

/-- R90 to R95, R99, R24: decoding the encoding of a well-formed operation gives it back, whatever bits follow. A
whole code has no length field (R93), so nothing follows it. -/
def Obligations.DecodeOfEncode : Prop :=
  (∀ (i : Instr) (rest : BitString), i.wf = true → formatOf i ≠ .code →
    decode (formatOf i) (encode i ++ rest) = .ok (i, rest)) ∧
  (∀ p : BitString, (Instr.code p).wf = true → decode .code (encode (.code p)) = .ok (.code p, []))

/-- R90 to R95, R99, R104: whatever the decoder accepts is a well-formed operation of that format, and its encoding is
the bits that were read. So every word has at most one meaning in its format. -/
def Obligations.EncodeOfDecode : Prop :=
  ∀ (f : Format) (bits : BitString) (i : Instr) (rest : BitString), decode f bits = .ok (i, rest) →
    formatOf i = f ∧ i.wf = true ∧ encode i ++ rest = bits

/-- R24, R92, R99: words written out from the spec's encodings. -/
def Obligations.SpecWordsDecode : Prop :=
  decode .cmd [false] = .ok (.compress, []) ∧ decode .cmd [true] = .ok (.decompress, []) ∧
  decode .phase [false, false, true, true] = .ok (.bldMerge, []) ∧
  decode .phase [true, true, false, false] = .ok (.dec, []) ∧
  decode .header [false, true] = .ok (.hdrInternal, [true]) ∧
  decode .header [true, false, false, true, false, false, false, false, true, false] = .ok (.hdrLeaf 66, []) ∧
  decode .header [true, true, false, false, false, false, false, false, false, true] = .error .reservedSymbol ∧
  decode .body [true, false] = .ok (.bit1, [false]) ∧
  decode .byte [false, true, false, false, false, false, false, true] = .ok (.byte 0x41, [])

/-! ### The step -/

/-- R100, R120, R260: where `rst` is not asserted, the step is the operation that the selecting bits decode to. -/
def Obligations.StepRunsTheDecodedOperation : Prop :=
  ∀ (s : State) (i : Instr) (rest : BitString), s.rst = false →
    decode (fetchBits s).1 (fetchBits s).2 = .ok (i, rest) → step s = exec i s

/-- R100: in a phase that reads a token, the step of the phase is the meaning of the token at the source's
position. -/
def Obligations.PhaseStepIsItsTokensMeaning : Prop :=
  ∀ (s : State) (i : Instr), fetchToken s = some i → exec (operationOf s.phase) s = exec i s

/-- R260, R261: asserting `rst` puts the block at its reset values in one step and issues no service call, not even
SnkClose. -/
def Obligations.ResetPutsTheBlockAtItsResetValues : Prop :=
  ∀ s : State, s.rst = true → ∃ t, step s = .next t ∧ t.phase = .idle ∧ t.mode = 0 ∧ t.fresh ∧
    t.trace = s.trace ∧ t.io = s.io ∧ t.src = s.src ∧ t.snk.closed = s.snk.closed ∧
    (s.busy = false → t.snk = s.snk) ∧ t.params = s.params

/-- R45, R130: the state after reset, as far as R45 gives it, and that nothing happens in it. That the step of a
resting block leaves the state as it is, is the model's form of "no step is enabled" (log 14). -/
def Obligations.ResetStateIsIdle : Prop :=
  State.reset.phase = .idle ∧ State.reset.mode = 0 ∧ State.reset.fresh ∧ step State.reset = .next State.reset

/-! ### Commands and the end of a run -/

/-- R120: a command offered to a block at rest is accepted in one step, which initialises the block, writes MODE and
the first phase, and attaches the streams on the ports (which share no storage: R263 d). While busy, or with nothing
offered, a command word has no effect. That the meaning of a command is its acceptance, and that a word with nothing
offered leaves the state as it is, are the model's (logs 17 and 14). -/
def Obligations.CommandIsAccepted : Prop :=
  (∀ (s : State) (o : Offer), s.busy = false → s.cmd = some o → o.shared = false →
    (∃ t, exec .compress s = .next t ∧ t.fresh ∧ t.mode = 0 ∧ t.phase = .cnt ∧ t.src = o.src ∧ t.snk = o.snk ∧
      t.busy = true ∧ t.params = s.params ∧ t.io = s.io ∧ t.rst = s.rst) ∧
    (∃ t, exec .decompress s = .next t ∧ t.fresh ∧ t.mode = 1 ∧ t.phase = .rdMagic ∧ t.src = o.src ∧ t.snk = o.snk ∧
      t.busy = true ∧ t.params = s.params ∧ t.io = s.io ∧ t.rst = s.rst)) ∧
  (∀ s : State, s.busy = true ∨ s.cmd = none → exec .compress s = .next s ∧ exec .decompress s = .next s)

/-- R268: a command offered while the block is busy has no effect: the step is the same whatever is on the command
port, and what is offered stays there. -/
def Obligations.OfferHasNoEffectWhileBusy : Prop :=
  ∀ (s : State) (c : Option Offer), s.busy = true → s.rst = false →
    (∀ t, step s = .next t → t.cmd = s.cmd ∧ step { s with cmd := c } = .next { t with cmd := c }) ∧
    (∀ f, step s = .fault f → step { s with cmd := c } = .fault f) ∧
    (∀ r, step s = .refused r → step { s with cmd := c } = .refused r)

/-- R129, R130 with the model's form of "no step is enabled" (log 14): IDLE, DONE and ERR leave everything as it is,
and a block at rest with no command stays there. -/
def Obligations.RestingPhasesWait : Prop :=
  ∀ s : State, exec .idle s = .next s ∧ exec .done s = .next s ∧ exec .err s = .next s ∧
    (s.busy = false → s.rst = false → s.cmd = none → step s = .next s)

/-- R25, R129, R247: from DONE and from ERR the block leaves only by reset or by the acceptance of a new command. -/
def Obligations.EndIsLeftByCommandOrReset : Prop :=
  ∀ s t : State, s.phase = .done ∨ s.phase = .err → step s = .next t → t.phase ≠ s.phase →
    s.rst = true ∨ ∃ o, s.cmd = some o ∧ t.src = o.src ∧ t.mode = o.op

/-- R121, R125: the order of the phases, and the error exit of each. -/
def Obligations.PhasesFollowTheControlFlow : Prop :=
  ∀ s t : State, s.busy = true → s.rst = false → step s = .next t → t.phase ∈ successors s.phase

/-! ### The units, one operation each -/

/-- R141: the CNT step, in its four cases. -/
def Obligations.CntStep : Prop :=
  (∀ (s : State) (b : Byte), s.ioOk 1 = true → s.sourceStarts (bitsOf 8 b.toNat) →
    (s.freqAt b.toNat).toNat ≠ 2 ^ 32 - 1 →
    ∃ f, exec .cnt s = .next { s.afterRead 8 b.toNat with sym := b.setWidth 9, freq := f } ∧
      (Memory.read 0 f b.toNat).toNat = (s.freqAt b.toNat).toNat + 1 ∧
      ∀ k, k ≠ b.toNat → Memory.read 0 f k = s.freqAt k) ∧
  (∀ (s : State) (b : Byte), s.ioOk 1 = true → s.sourceStarts (bitsOf 8 b.toNat) →
    (s.freqAt b.toNat).toNat = 2 ^ 32 - 1 → (s.afterRead 8 b.toNat).answer ≠ .never →
    ∃ t, exec .cnt s = .next t ∧ Raised .countOverflow { s.afterRead 8 b.toNat with sym := b.setWidth 9 } t) ∧
  (∀ s : State, s.ioOk 1 = true → s.sourceShort 8 → s.src.pos ≤ s.src.bits.length →
    ∃ p, s.src.pos ≤ p ∧ p ≤ s.src.bits.length ∧
      exec .cnt s = .next { s.afterMiss 8 .eos p with phase := .bldInit, sym := 0 }) ∧
  (∀ s : State, s.answer = .fail → (s.afterMiss 8 .fail 0).answer ≠ .never →
    ∃ p t, p ≤ s.src.bits.length ∧ exec .cnt s = .next t ∧ Raised .ioFailure (s.afterMiss 8 .fail p) t)

/-- R152: the BLD_INIT step. -/
def Obligations.BldInitStep : Prop :=
  (∀ s : State, s.sym.toNat ≤ 256 → s.freqAt s.sym.toNat ≠ 0 → s.nNodes < s.params.nodeCap →
    ∃ node inpq w, exec .bldInit s = .next { s with
        node := node, inpq := inpq, nNodes := s.nNodes + 1
        phase := if s.sym = 256 then .bldMerge else s.phase
        sym := if s.sym = 256 then s.sym else s.sym + 1 } ∧
      Memory.find? node s.nNodes = some (.leaf w s.sym) ∧ w.toNat = (s.freqAt s.sym.toNat).toNat ∧
      (∀ k, k ≠ s.nNodes → Memory.find? node k = s.nodeAt k) ∧
      Memory.read false inpq s.nNodes = true ∧ ∀ k, k ≠ s.nNodes → Memory.read false inpq k = s.inpqAt k) ∧
  (∀ s : State, s.sym.toNat ≤ 256 → s.freqAt s.sym.toNat = 0 →
    exec .bldInit s = .next { s with
      phase := if s.sym = 256 then .bldMerge else s.phase
      sym := if s.sym = 256 then s.sym else s.sym + 1 })

/-- R155 with R153, R154 and R156: a merge, where `a` comes first in the priority order and `b` first among the others,
and the finishing step. -/
def Obligations.BldMergeStep : Prop :=
  (∀ (s : State) (a b : Nat) (na nb : Node), s.memoriesWf = true → s.nNodes < s.params.nodeCap →
     (∀ i, i < s.nNodes → s.inpqAt i = true → ∃ n, s.nodeAt i = some n) →
     a < s.nNodes → s.inpqAt a = true → s.nodeAt a = some na →
     b < s.nNodes → s.inpqAt b = true → s.nodeAt b = some nb → a ≠ b →
     (∀ i n, i < s.nNodes → s.inpqAt i = true → s.nodeAt i = some n → i ≠ a →
       pqOrder (nodeWeight na) a (nodeWeight n) i) →
     (∀ i n, i < s.nNodes → s.inpqAt i = true → s.nodeAt i = some n → i ≠ a → i ≠ b →
       pqOrder (nodeWeight nb) b (nodeWeight n) i) →
     ∃ node inpq w, exec .bldMerge s = .next { s with node := node, inpq := inpq, nNodes := s.nNodes + 1 } ∧
       Memory.find? node s.nNodes = some (.internal w (some a) (some b)) ∧
       w.toNat = ((nodeWeight na).toNat + (nodeWeight nb).toNat) % 2 ^ 41 ∧
       (∀ k, k ≠ s.nNodes → Memory.find? node k = s.nodeAt k) ∧
       Memory.read false inpq a = false ∧ Memory.read false inpq b = false ∧
       Memory.read false inpq s.nNodes = true ∧
       ∀ k, k ≠ a → k ≠ b → k ≠ s.nNodes → Memory.read false inpq k = s.inpqAt k) ∧
  (∀ (s : State) (r : Nat), s.memoriesWf = true → r < s.nNodes → s.inpqAt r = true →
     (∀ i, i < s.nNodes → s.inpqAt i = true → i = r) →
     ∃ inpq, exec .bldMerge s = .next { s with
         root := r, rootV := true, inpq := inpq, stk := [.pair r []], phase := .gen } ∧
       Memory.read false inpq r = false ∧ ∀ k, k ≠ r → Memory.read false inpq k = s.inpqAt k)

/-- R173: the GEN step. -/
def Obligations.GenStep : Prop :=
  (∀ s : State, s.stk = [] → exec .gen s = .next { s with phase := .wrMagic }) ∧
  (∀ (s : State) (i : Nat) (p : BitString) (rest : List StkEntry) (w : BitVec 41) (sym : Symbol),
    s.stk = .pair i p :: rest → s.nodeAt i = some (.leaf w sym) → sym.toNat ≤ 256 →
    ∃ code, exec .gen s = .next { s with stk := rest, code := code } ∧
      Memory.find? code sym.toNat = some p ∧ ∀ k, k ≠ sym.toNat → Memory.find? code k = s.codeAt k) ∧
  (∀ (s : State) (i l r : Nat) (p : BitString) (rest : List StkEntry) (w : BitVec 41),
    s.stk = .pair i p :: rest → s.nodeAt i = some (.internal w (some l) (some r)) →
    rest.length + 2 ≤ s.params.nodeCap + 1 →
    exec .gen s = .next { s with stk := .pair l (p ++ [false]) :: .pair r (p ++ [true]) :: rest })

/-- R26: a push onto a full stack raises TreeCapacity: the first push of GEN, of WR_HDR and of RD_HDR on a `0`, and
the second where one entry fits. What was done before the push stands, and so does the first entry (log 23): STK
holds it in ERR, among what the error left (R240). -/
def Obligations.FullStackRaisesTreeCapacity : Prop :=
  (∀ (s : State) (i l r : Nat) (p : BitString) (rest : List StkEntry) (w : BitVec 41),
    s.stk = .pair i p :: rest → s.nodeAt i = some (.internal w (some l) (some r)) →
    s.params.nodeCap ≤ rest.length → s.answer ≠ .never →
    ∃ t, exec .gen s = .next t ∧ Raised .treeCapacity { s with
      stk := if rest.length = s.params.nodeCap then .pair r (p ++ [true]) :: rest else rest } t) ∧
  (∀ (s : State) (i l r : Nat) (rest : List StkEntry) (w : BitVec 41),
    s.stk = .index i :: rest → s.nodeAt i = some (.internal w (some l) (some r)) →
    s.params.nodeCap ≤ rest.length → s.snk.closed = false → s.ioOk 1 = true → (s.afterWrite 1 0).answer ≠ .never →
    ∃ t, exec .wrHdr s = .next t ∧ Raised .treeCapacity { s.afterWrite 1 0 with
      stk := if rest.length = s.params.nodeCap then .index r :: rest else rest } t) ∧
  (∀ (s : State) (slot : Slot) (rest : List StkEntry), s.stk = .slot slot :: rest →
    s.nNodes < s.params.nodeCap → s.params.nodeCap ≤ rest.length → s.ioOk 1 = true → s.sourceStarts [false] →
    (s.afterRead 1 0).answer ≠ .never →
    ∃ t node, exec .rdHdr s = .next t ∧ Raised .treeCapacity { s.afterRead 1 0 with
        node := node
        stk := if rest.length = s.params.nodeCap then .slot (.child s.nNodes .R) :: rest else rest } t ∧
      Memory.find? node s.nNodes = some (.internal 0 none none) ∧
      ∀ k, k ≠ s.nNodes → Memory.find? node k = s.nodeAt k)

/-- R181: the WR_MAGIC step. -/
def Obligations.WrMagicStep : Prop :=
  (∀ s : State, s.snk.closed = false → s.ioOk 1 = true →
    exec .wrMagic s = .next { s.afterWrite 32 s.params.magic.toNat with stk := [.index s.root], phase := .wrHdr }) ∧
  (∀ s : State, s.snk.closed = false → s.answer = .fail →
    (s.issue (.write 32 s.params.magic.toNat false)).answer ≠ .never →
    ∃ t, exec .wrMagic s = .next t ∧ Raised .ioFailure (s.issue (.write 32 s.params.magic.toNat false)) t)

/-- R185, R235: the WR_HDR step where every call is answered normally, and where its first or second call fails. -/
def Obligations.WrHdrStep : Prop :=
  (∀ s : State, s.stk = [] → exec .wrHdr s = .next { s with phase := .rewind }) ∧
  (∀ (s : State) (i : Nat) (rest : List StkEntry) (w : BitVec 41) (sym : Symbol),
    s.stk = .index i :: rest → s.nodeAt i = some (.leaf w sym) → s.snk.closed = false → s.ioOk 2 = true →
    exec .wrHdr s = .next { (s.afterWrite 1 1).afterWrite 9 sym.toNat with stk := rest }) ∧
  (∀ (s : State) (i l r : Nat) (rest : List StkEntry) (w : BitVec 41),
    s.stk = .index i :: rest → s.nodeAt i = some (.internal w (some l) (some r)) → s.snk.closed = false →
    s.ioOk 1 = true → rest.length + 2 ≤ s.params.nodeCap + 1 →
    exec .wrHdr s = .next { s.afterWrite 1 0 with stk := .index l :: .index r :: rest }) ∧
  (∀ (s : State) (i : Nat) (rest : List StkEntry) (n : Node),
    s.stk = .index i :: rest → s.nodeAt i = some n → s.snk.closed = false → s.answer = .fail →
    (s.issue (.write 1 0 false)).answer ≠ .never →
    ∃ t v, exec .wrHdr s = .next t ∧ Raised .ioFailure { s.issue (.write 1 v false) with stk := rest } t ∧
      (v = 1 ↔ ∃ w sym, n = .leaf w sym) ∧ v ≤ 1) ∧
  (∀ (s : State) (i : Nat) (rest : List StkEntry) (w : BitVec 41) (sym : Symbol),
    s.stk = .index i :: rest → s.nodeAt i = some (.leaf w sym) → s.snk.closed = false → s.ioOk 1 = true →
    (s.afterWrite 1 1).answer = .fail → ((s.afterWrite 1 1).issue (.write 9 sym.toNat false)).answer ≠ .never →
    ∃ t, exec .wrHdr s = .next t ∧
      Raised .ioFailure { (s.afterWrite 1 1).issue (.write 9 sym.toNat false) with stk := rest } t)

/-- R200: the REWIND step. -/
def Obligations.RewindStep : Prop :=
  (∀ s : State, s.ioOk 1 = true →
    exec .rewind s = .next { s with
      phase := .enc, src := { bits := s.src.bits, pos := 0 }, io := s.io.tail, trace := .rewind true :: s.trace }) ∧
  (∀ s : State, s.answer = .fail → (s.issue (.rewind false)).answer ≠ .never →
    ∃ p t, p ≤ s.src.bits.length ∧ exec .rewind s = .next t ∧
      Raised .ioFailure { s.issue (.rewind false) with
        src := { bits := s.src.bits, pos := p }, draws := s.draws + 1 } t)

/-- R201, R205, R235: the ENC step; a call of `write_code` may fail at any chunk. -/
def Obligations.EncStep : Prop :=
  (∀ (s : State) (b : Byte) (p : BitString), s.sourceStarts (bitsOf 8 b.toNat) → s.codeAt b.toNat = some p →
    s.snk.closed = false → s.ioOk (1 + (codeChunks p.length p).length) = true →
    exec .enc s = .next { (s.afterRead 8 b.toNat).afterCode p with sym := b.setWidth 9 }) ∧
  (∀ (s : State) (b : Byte), s.ioOk 1 = true → s.sourceStarts (bitsOf 8 b.toNat) → s.codeAt b.toNat = none →
    (s.afterRead 8 b.toNat).answer ≠ .never →
    ∃ t, exec .enc s = .next t ∧ Raised .noCode { s.afterRead 8 b.toNat with sym := b.setWidth 9 } t) ∧
  (∀ s : State, s.ioOk 1 = true → s.sourceShort 8 → s.src.pos ≤ s.src.bits.length →
    ∃ p, s.src.pos ≤ p ∧ p ≤ s.src.bits.length ∧
      exec .enc s = .next { s.afterMiss 8 .eos p with phase := .encEof }) ∧
  (∀ s : State, s.answer = .fail → (s.afterMiss 8 .fail 0).answer ≠ .never →
    ∃ p t, p ≤ s.src.bits.length ∧ exec .enc s = .next t ∧ Raised .ioFailure (s.afterMiss 8 .fail p) t) ∧
  (∀ (s : State) (b : Byte) (p : BitString) (written : List BitString) (c : BitString) (left : List BitString),
    s.ioOk (1 + written.length) = true → s.sourceStarts (bitsOf 8 b.toNat) → s.codeAt b.toNat = some p →
    s.snk.closed = false → codeChunks p.length p = written ++ c :: left →
    ((s.afterRead 8 b.toNat).afterChunks written).answer = .fail →
    (((s.afterRead 8 b.toNat).afterChunks written).issue (.write c.length (valOf c) false)).answer ≠ .never →
    ∃ t, exec .enc s = .next t ∧ Raised .ioFailure
      { ((s.afterRead 8 b.toNat).afterChunks written).issue (.write c.length (valOf c) false) with
        sym := b.setWidth 9 } t)

/-- R203: the ENC_EOF step where every call is answered normally, and where one of its calls fails (R235). -/
def Obligations.EncEofStep : Prop :=
  (∀ (s : State) (p : BitString), s.codeAt 256 = some p → s.snk.closed = false →
    s.ioOk (codeChunks p.length p).length = true →
    exec .encEof s = .next { s.afterCode p with phase := .close }) ∧
  (∀ (s : State) (p : BitString) (written : List BitString) (c : BitString) (left : List BitString),
    s.codeAt 256 = some p → s.snk.closed = false → codeChunks p.length p = written ++ c :: left →
    s.ioOk written.length = true → (s.afterChunks written).answer = .fail →
    ((s.afterChunks written).issue (.write c.length (valOf c) false)).answer ≠ .never →
    ∃ t, exec .encEof s = .next t ∧
      Raised .ioFailure ((s.afterChunks written).issue (.write c.length (valOf c) false)) t)

/-- R202: `write_code(p)` appends exactly `p`, in calls of at most 32 bits, none for the empty path and one for a path
of 1 to 32 bits, and leaves everything else alone. A call that fails, at any chunk, raises IoFailure after the chunks
before it (R235). -/
def Obligations.CodeIsWrittenInChunks : Prop :=
  (∀ (s : State) (p : BitString), s.snk.closed = false → s.ioOk (codeChunks p.length p).length = true →
    exec (.code p) s = .next (s.afterCode p)) ∧
  (∀ p : BitString, (codeChunks p.length p).flatten = p ∧
    (∀ c ∈ codeChunks p.length p, 1 ≤ c.length ∧ c.length ≤ 32) ∧
    (codeChunks p.length p).length = (p.length + 31) / 32) ∧
  (∀ (s : State) (p : BitString) (written : List BitString) (c : BitString) (left : List BitString),
    s.snk.closed = false → codeChunks p.length p = written ++ c :: left → s.ioOk written.length = true →
    (s.afterChunks written).answer = .fail →
    ((s.afterChunks written).issue (.write c.length (valOf c) false)).answer ≠ .never →
    ∃ t, exec (.code p) s = .next t ∧
      Raised .ioFailure ((s.afterChunks written).issue (.write c.length (valOf c) false)) t)

/-- R188, R189: the RD_MAGIC step. -/
def Obligations.RdMagicStep : Prop :=
  (∀ (s : State) (m : BitVec 32), s.ioOk 1 = true → s.sourceStarts (bitsOf 32 m.toNat) → m = s.params.magic →
    exec .rdMagic s = .next { s.afterRead 32 m.toNat with stk := [.slot .root], phase := .rdHdr }) ∧
  (∀ (s : State) (m : BitVec 32), s.ioOk 1 = true → s.sourceStarts (bitsOf 32 m.toNat) → m ≠ s.params.magic →
    (s.afterRead 32 m.toNat).answer ≠ .never →
    ∃ t, exec .rdMagic s = .next t ∧ Raised .badHeaderMagic (s.afterRead 32 m.toNat) t) ∧
  (∀ s : State, s.ioOk 1 = true → s.sourceShort 32 → s.src.pos ≤ s.src.bits.length →
    (s.afterMiss 32 .eos 0).answer ≠ .never →
    ∃ p t, s.src.pos ≤ p ∧ p ≤ s.src.bits.length ∧ exec .rdMagic s = .next t ∧
      Raised .badHeaderMagic (s.afterMiss 32 .eos p) t) ∧
  (∀ s : State, s.answer = .fail → (s.afterMiss 32 .fail 0).answer ≠ .never →
    ∃ p t, p ≤ s.src.bits.length ∧ exec .rdMagic s = .next t ∧ Raised .ioFailure (s.afterMiss 32 .fail p) t)

/-- R192: what `fill(slot, k)` does to ROOT, ROOT_V and the arena, and the RD_HDR step on a token, where every call is
answered normally, the arena has room and the slot is open: an internal node pushes its two slots, a leaf records its
symbol, and the slot is filled with the new node's index. -/
def Obligations.RdHdrReadsOneToken : Prop :=
  (∀ (s : State) (k : Nat), fill .root k s = .next { s with root := k, rootV := true }) ∧
  (∀ (s : State) (q k : Nat) (w : BitVec 41) (l r : Option Nat), s.nodeAt q = some (.internal w l r) →
    (∃ node, fill (.child q .L) k s = .next { s with node := node } ∧
      Memory.find? node q = some (.internal w (some k) r) ∧ ∀ j, j ≠ q → Memory.find? node j = s.nodeAt j) ∧
    (∃ node, fill (.child q .R) k s = .next { s with node := node } ∧
      Memory.find? node q = some (.internal w l (some k)) ∧ ∀ j, j ≠ q → Memory.find? node j = s.nodeAt j)) ∧
  (∀ (s : State) (slot : Slot) (rest : List StkEntry), s.stk = .slot slot :: rest → slotOpen s (.slot slot) →
    s.nNodes < s.params.nodeCap → rest.length + 2 ≤ s.params.nodeCap + 1 → s.ioOk 1 = true →
    s.sourceStarts [false] →
    ∃ node root rootV, exec .rdHdr s = .next { s.afterRead 1 0 with
        node := node, root := root, rootV := rootV, nNodes := s.nNodes + 1
        stk := .slot (.child s.nNodes .L) :: .slot (.child s.nNodes .R) :: rest } ∧
      fill slot s.nNodes { s.setNode s.nNodes (.internal 0 none none) with stk := rest } =
        .next { s with stk := rest, node := node, root := root, rootV := rootV }) ∧
  (∀ (s : State) (slot : Slot) (rest : List StkEntry) (sym : Symbol), s.stk = .slot slot :: rest →
    slotOpen s (.slot slot) → s.nNodes < s.params.nodeCap → s.ioOk 2 = true →
    sym.toNat ≤ 256 → s.sourceStarts (true :: bitsOf 9 sym.toNat) →
    ∃ node root rootV, exec .rdHdr s = .next { (s.afterRead 1 1).afterRead 9 sym.toNat with
        node := node, root := root, rootV := rootV, nNodes := s.nNodes + 1, sym := sym, stk := rest } ∧
      fill slot s.nNodes { s.setNode s.nNodes (.leaf 0 sym) with stk := rest } =
        .next { s with stk := rest, node := node, root := root, rootV := rootV })

/-- R192, R196: the last step of RD_HDR. -/
def Obligations.RdHdrFinishes : Prop :=
  (∀ (s : State) (w : BitVec 41) (l r : Option Nat), s.stk = [] → s.nodeAt s.root = some (.internal w l r) →
    exec .rdHdr s = .next { s with cur := s.root, phase := .dec }) ∧
  (∀ (s : State) (w : BitVec 41) (sym : Symbol), s.stk = [] → s.nodeAt s.root = some (.leaf w sym) →
    sym.toNat = 256 → exec .rdHdr s = .next { s with cur := s.root, phase := .dec }) ∧
  (∀ (s : State) (w : BitVec 41) (sym : Symbol), s.stk = [] → s.nodeAt s.root = some (.leaf w sym) →
    sym.toNat ≠ 256 → s.answer ≠ .never →
    ∃ t, exec .rdHdr s = .next t ∧ Raised .degenerateTree s t)

/-- R192, R193, R194, R195, R198: the errors of a token, in the order of the checks: EOS at the discriminator, arena
capacity, EOS in the symbol field, symbol range; and a read that fails (R235). Each is raised before a node is
allocated. -/
def Obligations.RdHdrErrors : Prop :=
  (∀ (s : State) (slot : Slot) (rest : List StkEntry), s.stk = .slot slot :: rest → s.ioOk 1 = true →
    s.sourceShort 1 → s.src.pos ≤ s.src.bits.length → (s.afterMiss 1 .eos 0).answer ≠ .never →
    ∃ p t, s.src.pos ≤ p ∧ p ≤ s.src.bits.length ∧ exec .rdHdr s = .next t ∧
      Raised .streamTruncatedHeader { s.afterMiss 1 .eos p with stk := rest } t) ∧
  (∀ (s : State) (slot : Slot) (rest : List StkEntry) (d : Bool), s.stk = .slot slot :: rest → s.ioOk 1 = true →
    s.sourceStarts [d] → s.nNodes = s.params.nodeCap → (s.afterRead 1 0).answer ≠ .never →
    ∃ t, exec .rdHdr s = .next t ∧
      Raised .treeCapacity { s.afterRead 1 (if d then 1 else 0) with stk := rest } t) ∧
  (∀ (s : State) (slot : Slot) (rest : List StkEntry), s.stk = .slot slot :: rest → s.ioOk 2 = true →
    s.sourceStarts [true] → s.nNodes ≠ s.params.nodeCap → s.sourceShort 10 →
    ((s.afterRead 1 1).afterMiss 9 .eos 0).answer ≠ .never →
    ∃ p t, s.src.pos + 1 ≤ p ∧ p ≤ s.src.bits.length ∧ exec .rdHdr s = .next t ∧
      Raised .streamTruncatedHeader { (s.afterRead 1 1).afterMiss 9 .eos p with stk := rest } t) ∧
  (∀ (s : State) (slot : Slot) (rest : List StkEntry) (v : Nat), s.stk = .slot slot :: rest → s.ioOk 2 = true →
    256 < v → v < 512 → s.sourceStarts (true :: bitsOf 9 v) → s.nNodes ≠ s.params.nodeCap →
    ((s.afterRead 1 1).afterRead 9 v).answer ≠ .never →
    ∃ t, exec .rdHdr s = .next t ∧ Raised .badSymbol { (s.afterRead 1 1).afterRead 9 v with stk := rest } t) ∧
  (∀ (s : State) (slot : Slot) (rest : List StkEntry), s.stk = .slot slot :: rest → s.answer = .fail →
    (s.afterMiss 1 .fail 0).answer ≠ .never →
    ∃ p t, p ≤ s.src.bits.length ∧ exec .rdHdr s = .next t ∧
      Raised .ioFailure { s.afterMiss 1 .fail p with stk := rest } t) ∧
  (∀ (s : State) (slot : Slot) (rest : List StkEntry), s.stk = .slot slot :: rest → s.ioOk 1 = true →
    s.sourceStarts [true] → s.nNodes ≠ s.params.nodeCap → (s.afterRead 1 1).answer = .fail →
    ((s.afterRead 1 1).afterMiss 9 .fail 0).answer ≠ .never →
    ∃ p t, p ≤ s.src.bits.length ∧ exec .rdHdr s = .next t ∧
      Raised .ioFailure { (s.afterRead 1 1).afterMiss 9 .fail p with stk := rest } t)

/-- R211, R212, R214, R216: the DEC step: at a leaf, where no bit is read, and at an internal node. -/
def Obligations.DecStep : Prop :=
  (∀ (s : State) (w : BitVec 41) (sym : Symbol), s.nodeAt s.cur = some (.leaf w sym) → sym.toNat = 256 →
    exec .dec s = .next { s with phase := .close }) ∧
  (∀ (s : State) (w : BitVec 41) (sym : Symbol), s.nodeAt s.cur = some (.leaf w sym) → sym.toNat ≠ 256 →
    s.snk.closed = false → s.ioOk 1 = true →
    exec .dec s = .next { s.afterWrite 8 (sym.toNat % 256) with cur := s.root }) ∧
  (∀ (s : State) (w : BitVec 41) (sym : Symbol), s.nodeAt s.cur = some (.leaf w sym) → sym.toNat ≠ 256 →
    s.snk.closed = false → s.answer = .fail → (s.issue (.write 8 (sym.toNat % 256) false)).answer ≠ .never →
    ∃ t, exec .dec s = .next t ∧ Raised .ioFailure (s.issue (.write 8 (sym.toNat % 256) false)) t) ∧
  (∀ (s : State) (w : BitVec 41) (l r : Nat) (d : Bool),
    s.nodeAt s.cur = some (.internal w (some l) (some r)) → s.ioOk 1 = true → s.sourceStarts [d] →
    exec .dec s = .next { s.afterRead 1 (if d then 1 else 0) with cur := if d then r else l }) ∧
  (∀ (s : State) (w : BitVec 41) (l r : Option Nat), s.nodeAt s.cur = some (.internal w l r) → s.ioOk 1 = true →
    s.src.pos = s.src.bits.length → (s.afterMiss 1 .eos 0).answer ≠ .never →
    ∃ t, exec .dec s = .next t ∧ Raised .missingSentinel (s.afterMiss 1 .eos s.src.pos) t) ∧
  (∀ (s : State) (w : BitVec 41) (l r : Option Nat), s.nodeAt s.cur = some (.internal w l r) → s.answer = .fail →
    (s.afterMiss 1 .fail 0).answer ≠ .never →
    ∃ p t, p ≤ s.src.bits.length ∧ exec .dec s = .next t ∧ Raised .ioFailure (s.afterMiss 1 .fail p) t)

/-- R128, R240: the CLOSE step. A close that fails is not called again, the sink counts as closed (log 10), and STK
keeps what it held (R240), with no entry of the stack left (R26; log 23). -/
def Obligations.CloseStep : Prop :=
  (∀ s : State, s.ioOk 1 = true →
    ∃ pad, exec .close s = .next { s with
      phase := .done, snk := { bits := s.snk.bits, closed := true, pad := pad }, io := s.io.tail
      trace := .close true :: s.trace, draws := s.draws + 1 } ∧
      (s.snk.bits.length + pad.length) % 8 = 0 ∧ pad.length < 8) ∧
  (∀ s : State, s.answer = .fail → s.errcode = 0 →
    ∃ bits pad draws, exec .close s = .next { s with
      phase := .err, errcode := 4, stk := [], stkHeld := s.stk ++ s.stkHeld
      snk := { bits := bits, closed := true, pad := pad }, io := s.io.tail
      trace := .close false :: s.trace, draws := draws })

/-! ### The stream tokens -/

/-- R188, R103: the MAGIC token. That a token's meaning is the step of its phase with the token taken as read, and that
SRC.pos moves on without a look at SRC.bits, is the model's (log 17). -/
def Obligations.MagicToken : Prop :=
  (∀ (s : State) (m : BitVec 32), s.ioOk 1 = true → m = s.params.magic →
    exec (.magic m) s = .next { s.afterRead 32 m.toNat with stk := [.slot .root], phase := .rdHdr }) ∧
  (∀ (s : State) (m : BitVec 32), s.ioOk 1 = true → m ≠ s.params.magic →
    (s.afterRead 32 m.toNat).answer ≠ .never →
    ∃ t, exec (.magic m) s = .next t ∧ Raised .badHeaderMagic (s.afterRead 32 m.toNat) t)

/-- R192: the header tokens, for the root's slot and for a child's slot: the new node's index goes to ROOT or to the
parent's field. That a token is taken as read, without a look at SRC.bits, is the model's (log 17). -/
def Obligations.HeaderTokensFillTheSlot : Prop :=
  (∀ (s : State) (rest : List StkEntry), s.stk = .slot .root :: rest → s.nNodes < s.params.nodeCap →
    rest.length + 2 ≤ s.params.nodeCap + 1 → s.ioOk 1 = true →
    ∃ node, exec .hdrInternal s = .next { s.afterRead 1 0 with
        node := node, root := s.nNodes, rootV := true, nNodes := s.nNodes + 1
        stk := .slot (.child s.nNodes .L) :: .slot (.child s.nNodes .R) :: rest } ∧
      Memory.find? node s.nNodes = some (.internal 0 none none) ∧
      ∀ k, k ≠ s.nNodes → Memory.find? node k = s.nodeAt k) ∧
  (∀ (s : State) (rest : List StkEntry) (sym : Symbol), s.stk = .slot .root :: rest →
    s.nNodes < s.params.nodeCap → sym.toNat ≤ 256 → s.ioOk 2 = true →
    ∃ node, exec (.hdrLeaf sym) s = .next { (s.afterRead 1 1).afterRead 9 sym.toNat with
        node := node, root := s.nNodes, rootV := true, nNodes := s.nNodes + 1, sym := sym, stk := rest } ∧
      Memory.find? node s.nNodes = some (.leaf 0 sym) ∧
      ∀ k, k ≠ s.nNodes → Memory.find? node k = s.nodeAt k) ∧
  (∀ (s : State) (rest : List StkEntry) (q : Nat) (side : Side) (w : BitVec 41) (l r : Option Nat),
    s.stk = .slot (.child q side) :: rest → q ≠ s.nNodes → s.nodeAt q = some (.internal w l r) →
    s.nNodes < s.params.nodeCap → rest.length + 2 ≤ s.params.nodeCap + 1 → s.ioOk 1 = true →
    ∃ node, exec .hdrInternal s = .next { s.afterRead 1 0 with
        node := node, nNodes := s.nNodes + 1
        stk := .slot (.child s.nNodes .L) :: .slot (.child s.nNodes .R) :: rest } ∧
      Memory.find? node s.nNodes = some (.internal 0 none none) ∧
      Memory.find? node q = some (match side with
        | .L => .internal w (some s.nNodes) r
        | .R => .internal w l (some s.nNodes)) ∧
      ∀ k, k ≠ s.nNodes → k ≠ q → Memory.find? node k = s.nodeAt k) ∧
  (∀ (s : State) (rest : List StkEntry) (q : Nat) (side : Side) (w : BitVec 41) (l r : Option Nat) (sym : Symbol),
    s.stk = .slot (.child q side) :: rest → q ≠ s.nNodes → s.nodeAt q = some (.internal w l r) →
    s.nNodes < s.params.nodeCap → sym.toNat ≤ 256 → s.ioOk 2 = true →
    ∃ node, exec (.hdrLeaf sym) s = .next { (s.afterRead 1 1).afterRead 9 sym.toNat with
        node := node, nNodes := s.nNodes + 1, sym := sym, stk := rest } ∧
      Memory.find? node s.nNodes = some (.leaf 0 sym) ∧
      Memory.find? node q = some (match side with
        | .L => .internal w (some s.nNodes) r
        | .R => .internal w l (some s.nNodes)) ∧
      ∀ k, k ≠ s.nNodes → k ≠ q → Memory.find? node k = s.nodeAt k)

/-- R211: the body bits: `0` descends left and `1` right; neither is read at a leaf. That a token is taken as read is
the model's (log 17). -/
def Obligations.BodyBitsDescend : Prop :=
  (∀ (s : State) (w : BitVec 41) (l : Nat) (r : Option Nat),
    s.nodeAt s.cur = some (.internal w (some l) r) → s.ioOk 1 = true →
    exec .bit0 s = .next { s.afterRead 1 0 with cur := l }) ∧
  (∀ (s : State) (w : BitVec 41) (l : Option Nat) (r : Nat),
    s.nodeAt s.cur = some (.internal w l (some r)) → s.ioOk 1 = true →
    exec .bit1 s = .next { s.afterRead 1 1 with cur := r }) ∧
  (∀ (s : State) (w : BitVec 41) (sym : Symbol), s.nodeAt s.cur = some (.leaf w sym) →
    exec .bit0 s = .fault .bitAtLeaf ∧ exec .bit1 s = .fault .bitAtLeaf)

/-- R141, R143, R201, R205: the BYTE token is counted in CNT, where a full counter raises CountOverflow, and encoded in
ENC, where a byte without a code raises NoCode; a call that fails raises IoFailure (R235). No other phase reads one.
That a token is taken as read is the model's (log 17). -/
def Obligations.ByteTokenIsCountedOrEncoded : Prop :=
  (∀ (s : State) (b : Byte), s.phase = .cnt → s.ioOk 1 = true → (s.freqAt b.toNat).toNat ≠ 2 ^ 32 - 1 →
    ∃ f, exec (.byte b) s = .next { s.afterRead 8 b.toNat with sym := b.setWidth 9, freq := f } ∧
      (Memory.read 0 f b.toNat).toNat = (s.freqAt b.toNat).toNat + 1 ∧
      ∀ k, k ≠ b.toNat → Memory.read 0 f k = s.freqAt k) ∧
  (∀ (s : State) (b : Byte), s.phase = .cnt → s.ioOk 1 = true → (s.freqAt b.toNat).toNat = 2 ^ 32 - 1 →
    (s.afterRead 8 b.toNat).answer ≠ .never →
    ∃ t, exec (.byte b) s = .next t ∧
      Raised .countOverflow { s.afterRead 8 b.toNat with sym := b.setWidth 9 } t) ∧
  (∀ (s : State) (b : Byte) (p : BitString), s.phase = .enc → s.codeAt b.toNat = some p → s.snk.closed = false →
    s.ioOk (1 + (codeChunks p.length p).length) = true →
    exec (.byte b) s = .next { (s.afterRead 8 b.toNat).afterCode p with sym := b.setWidth 9 }) ∧
  (∀ (s : State) (b : Byte), s.phase = .enc → s.ioOk 1 = true → s.codeAt b.toNat = none →
    (s.afterRead 8 b.toNat).answer ≠ .never →
    ∃ t, exec (.byte b) s = .next t ∧ Raised .noCode { s.afterRead 8 b.toNat with sym := b.setWidth 9 } t) ∧
  (∀ (s : State) (b : Byte) (p : BitString) (written : List BitString) (c : BitString) (left : List BitString),
    s.phase = .enc → s.ioOk (1 + written.length) = true → s.codeAt b.toNat = some p → s.snk.closed = false →
    codeChunks p.length p = written ++ c :: left →
    ((s.afterRead 8 b.toNat).afterChunks written).answer = .fail →
    (((s.afterRead 8 b.toNat).afterChunks written).issue (.write c.length (valOf c) false)).answer ≠ .never →
    ∃ t, exec (.byte b) s = .next t ∧ Raised .ioFailure
      { ((s.afterRead 8 b.toNat).afterChunks written).issue (.write c.length (valOf c) false) with
        sym := b.setWidth 9 } t) ∧
  (∀ (s : State) (b : Byte), s.phase = .cnt ∨ s.phase = .enc → s.answer = .fail →
    (s.afterMiss 8 .fail 0).answer ≠ .never →
    ∃ p t, p ≤ s.src.bits.length ∧ exec (.byte b) s = .next t ∧ Raised .ioFailure (s.afterMiss 8 .fail p) t) ∧
  (∀ (s : State) (b : Byte), s.phase ≠ .cnt → s.phase ≠ .enc → exec (.byte b) s = .fault .byteOutsideItsPhases)

/-! ### Where the model stops -/

/-- Where an operation stops by name. An answer that never comes (R274, U19; log 9): at the first call of each operation
that makes one, at the second of WR_HDR, RD_HDR and HDR_LEAF, at any chunk of a code, and at the SnkClose of `raise`.
States the spec excludes (R26, R32, R37, R154; logs 5 and 24), a write to a closed sink (R66; log 16), and a command whose
source and sink share storage (R79, U14; log 12). -/
def Obligations.NamedStops : Prop :=
  (∀ (s : State) (m : BitVec 32), s.answer = .never → exec .cnt s = .fault .serviceCallNeverReturns ∧
    exec .enc s = .fault .serviceCallNeverReturns ∧ exec .rdMagic s = .fault .serviceCallNeverReturns ∧
    exec (.magic m) s = .fault .serviceCallNeverReturns ∧ exec .rewind s = .fault .serviceCallNeverReturns ∧
    exec .close s = .fault .serviceCallNeverReturns) ∧
  (∀ s : State, s.answer = .never → s.snk.closed = false → exec .wrMagic s = .fault .serviceCallNeverReturns) ∧
  (∀ (s : State) (slot : Slot) (rest : List StkEntry) (sym : Symbol), s.answer = .never →
    s.stk = .slot slot :: rest → exec .rdHdr s = .fault .serviceCallNeverReturns ∧
    exec .hdrInternal s = .fault .serviceCallNeverReturns ∧
    exec (.hdrLeaf sym) s = .fault .serviceCallNeverReturns) ∧
  (∀ (s : State) (slot : Slot) (rest : List StkEntry) (sym : Symbol), s.stk = .slot slot :: rest →
    s.nNodes ≠ s.params.nodeCap → s.ioOk 1 = true → (s.afterRead 1 1).answer = .never →
    exec (.hdrLeaf sym) s = .fault .serviceCallNeverReturns ∧
    (s.sourceStarts [true] → exec .rdHdr s = .fault .serviceCallNeverReturns)) ∧
  (∀ (s : State) (i : Nat) (rest : List StkEntry) (n : Node), s.stk = .index i :: rest → s.nodeAt i = some n →
    s.snk.closed = false → s.answer = .never → exec .wrHdr s = .fault .serviceCallNeverReturns) ∧
  (∀ (s : State) (i : Nat) (rest : List StkEntry) (w : BitVec 41) (sym : Symbol), s.stk = .index i :: rest →
    s.nodeAt i = some (.leaf w sym) → s.snk.closed = false → s.ioOk 1 = true → (s.afterWrite 1 1).answer = .never →
    exec .wrHdr s = .fault .serviceCallNeverReturns) ∧
  (∀ (s : State) (p : BitString) (written : List BitString) (c : BitString) (left : List BitString),
    s.snk.closed = false → codeChunks p.length p = written ++ c :: left → s.ioOk written.length = true →
    (s.afterChunks written).answer = .never →
    exec (.code p) s = .fault .serviceCallNeverReturns ∧
    (s.codeAt 256 = some p → exec .encEof s = .fault .serviceCallNeverReturns)) ∧
  (∀ (s : State) (b : Byte) (p : BitString) (written : List BitString) (c : BitString) (left : List BitString),
    s.snk.closed = false → s.codeAt b.toNat = some p → codeChunks p.length p = written ++ c :: left →
    s.ioOk (1 + written.length) = true → ((s.afterRead 8 b.toNat).afterChunks written).answer = .never →
    (s.phase = .enc → exec (.byte b) s = .fault .serviceCallNeverReturns) ∧
    (s.sourceStarts (bitsOf 8 b.toNat) → exec .enc s = .fault .serviceCallNeverReturns)) ∧
  (∀ (s : State) (b : Byte), s.answer = .never → s.phase = .cnt ∨ s.phase = .enc →
    exec (.byte b) s = .fault .serviceCallNeverReturns) ∧
  (∀ (s : State) (w : BitVec 41) (l r : Option Nat), s.answer = .never → s.nodeAt s.cur = some (.internal w l r) →
    exec .dec s = .fault .serviceCallNeverReturns ∧ exec .bit0 s = .fault .serviceCallNeverReturns ∧
    exec .bit1 s = .fault .serviceCallNeverReturns) ∧
  (∀ (s : State) (w : BitVec 41) (sym : Symbol), s.answer = .never → s.nodeAt s.cur = some (.leaf w sym) →
    sym.toNat ≠ 256 → s.snk.closed = false → exec .dec s = .fault .serviceCallNeverReturns) ∧
  (∀ (s : State) (e : ErrKind), s.answer = .never → raise e s = .fault .serviceCallNeverReturns) ∧
  (∀ s : State, (∀ i, s.inpqAt i = false) → s.memoriesWf = true → exec .bldMerge s = .fault .emptyQueue) ∧
  (∀ s : State, 256 < s.sym.toNat → exec .bldInit s = .fault .noSuchCell) ∧
  (∀ s : State, s.codeAt 256 = none → exec .encEof s = .fault .unwrittenCode) ∧
  (∀ s : State, s.nodeAt s.cur = none → exec .dec s = .fault .unwrittenNode) ∧
  (∀ s : State, s.stk = [] → exec .hdrInternal s = .fault .noOpenSlot) ∧
  (∀ s : State, s.snk.closed = true → exec .wrMagic s = .refused .sinkWriteAfterClose) ∧
  (∀ (s : State) (o : Offer), s.busy = false → s.cmd = some o → o.shared = true →
    exec .compress s = .refused .sharedStreams ∧ exec .decompress s = .refused .sharedStreams)

/-! ### Invariants -/

/-- Every step keeps the block's invariant: canonical memories, FREQ[256] = 1 (R31), indices inside the arena (R21; ROOT
once it is written and in DEC, CUR in DEC, since R45 leaves both unspecified before: log 4), the stack's bound and shape
(R26; and outside ERR nothing else in STK, log 23), ERRCODE 0 exactly outside ERR and never above 9 (R28, R106), MODE (R25), the source's position
(R40), and a closed sink at the end (R129; that a close that fails counts too is log 10). -/
def Obligations.StepKeepsInv : Prop :=
  ∀ s t : State, BlockInv s → step s = .next t → BlockInv t

/-- The state after reset meets the block's invariant. ROOT and CUR are not constrained there (R45; log 4). That the
source's position is inside the source, and that no command is offered, are the model's choices at reset (logs 25 and
11). -/
def Obligations.ResetMeetsInv : Prop := BlockInv State.reset

/-- A run launched under the premises never stops: from every state that meets the run invariant the step answers a
next state that meets it. So in such a run no cell is read before it is written (R22, R32), PQ is never empty in
BLD_MERGE (R155), the arena does not overflow on the compress side (R155), CODE[256] is valid when ENC_EOF reads it
(R37), and no write meets a closed sink (R66). -/
def Obligations.RunNeverStops : Prop :=
  ∀ s : State, RunInv s → ∃ t, step s = .next t ∧ RunInv t

/-- The state after reset meets the run invariant. Beside the values of R45 it rests on the model's choices at reset:
every call to come is answered (log 9), no command is offered (log 11), the source is empty at position 0 (log 25). ROOT
and CUR are not constrained there (log 4). -/
def Obligations.ResetMeetsRunInv : Prop := RunInv State.reset

/-- R68: SnkClose is called exactly once in every invocation, as its last service call, on success and on failure
alike: while the block is busy it has not been called, and at the end it is the newest call and the only such one,
and the sink is closed (also where the close failed: log 10). -/
def Obligations.SinkIsClosedOnceAndLast : Prop :=
  ∀ s t : State, s.closesOnce → step s = .next t → t.closesOnce

/-- R61, R67, R73: every service call issued keeps the contract: reads of 1, 8, 9 or 32 bits, writes of 1 to 32 bits
with a value that fits. -/
def Obligations.CallsKeepTheContract : Prop :=
  ∀ s t : State, s.trace.all callInContract = true → step s = .next t → t.trace.all callInContract = true

/-- R21, R30, R36, R38, R145, R177, R267: which phases write which register and memory; all others leave it as it
was. The parameters (R10), MODE (R25), the source's bits (R79) and the ports are written by none. An
error takes STK's entries off the stack and leaves them in the register (R26, R240; log 23). -/
def Obligations.OnlyItsWritersChangeARegister : Prop :=
  ∀ s t : State, s.busy = true → s.rst = false → step s = .next t →
    t.params = s.params ∧ t.mode = s.mode ∧ t.rst = s.rst ∧ t.cmd = s.cmd ∧ t.src.bits = s.src.bits ∧
    (s.phase ≠ .cnt → t.freq = s.freq) ∧
    (s.phase ≠ .gen → t.code = s.code) ∧
    (s.phase ≠ .bldInit → s.phase ≠ .bldMerge → t.inpq = s.inpq) ∧
    (s.phase ≠ .bldInit → s.phase ≠ .bldMerge → s.phase ≠ .rdHdr → t.node = s.node ∧ t.nNodes = s.nNodes) ∧
    (s.phase ≠ .bldMerge → s.phase ≠ .rdHdr → t.root = s.root ∧ t.rootV = s.rootV) ∧
    (s.phase ≠ .rdHdr → s.phase ≠ .dec → t.cur = s.cur) ∧
    (s.phase ≠ .cnt → s.phase ≠ .bldInit → s.phase ≠ .enc → s.phase ≠ .rdHdr → t.sym = s.sym) ∧
    (s.phase ≠ .bldMerge → s.phase ≠ .gen → s.phase ≠ .wrMagic → s.phase ≠ .wrHdr → s.phase ≠ .rdMagic →
      s.phase ≠ .rdHdr → t.stkContents = s.stkContents ∧ (t.phase ≠ .err → t.stk = s.stk)) ∧
    (t.phase ≠ .err → t.stkHeld = s.stkHeld)

/-- R122: until CNT has read the source to EOS, and until WR_MAGIC, no step that goes on touches the sink; CNT is
left for BLD_INIT only by a read that answered EOS. (A step that raises an error closes the sink, R240.) -/
def Obligations.NoSinkCallBeforeTheScanEnds : Prop :=
  ∀ s t : State, s.rst = false → step s = .next t → t.phase ≠ .err →
    (s.phase = .cnt ∨ s.phase = .bldInit ∨ s.phase = .bldMerge ∨ s.phase = .gen → t.snk = s.snk) ∧
    (s.phase = .cnt → t.phase = .bldInit → t.trace = .read 8 .eos :: s.trace)

/-- R41, R74: while an invocation goes on, the sink only grows, and it is closed by CLOSE alone. -/
def Obligations.SinkOnlyGrows : Prop :=
  ∀ s t : State, s.busy = true → s.rst = false → step s = .next t → t.phase ≠ .err →
    s.snk.bits <+: t.snk.bits ∧ (s.phase ≠ .close → t.snk.closed = s.snk.closed)

/-- R231: an error raised in a run has a code of its phase's row of the table. -/
def Obligations.ErrorsArePhaseErrors : Prop :=
  ∀ s t : State, RunInv s → s.busy = true → s.rst = false → step s = .next t → t.phase = .err →
    ∃ e ∈ errorsOf s.phase, t.errcode = errCode e

/-- R136, R215: DEC is left for CLOSE only on the sentinel's leaf, and that step reads no bit and writes none. -/
def Obligations.DecSucceedsOnlyOnTheSentinel : Prop :=
  ∀ s t : State, s.phase = .dec → s.rst = false → step s = .next t → t.phase = .close →
    (∃ w sym, s.nodeAt s.cur = some (.leaf w sym) ∧ sym.toNat = 256) ∧ t = { s with phase := .close }

/-! ### Whole runs -/

/-- R135, R188, R189: DECOMPRESS of a source whose first 32 bits are not MAGIC ends in ERR with code 1 after one read,
and no further read follows. -/
def Obligations.WrongMagicIsRejectedAfterOneRead : Prop :=
  ∀ (s : State) (o : Offer), Launched s o → o.op = 1 →
    o.src.bits.length < 32 ∨ valOf (o.src.bits.take 32) ≠ s.params.magic.toNat →
    ∃ t, Reaches 2 s t ∧ t.phase = .err ∧ t.errcode = 1 ∧ readCount t.trace = 1 ∧ t.snk.closed = true ∧
      ∀ k u, Reaches k t u → u.phase = .err ∧ readCount u.trace = 1

/-- R140, R142: CNT reads the whole source in `n + 1` steps and leaves the table of `freq`, where no byte value occurs
`2^32` times. -/
def Obligations.CntComputesFreq : Prop :=
  ∀ (s : State) (bytes : List Byte), s.phase = .cnt → s.rst = false → s.ioAllOk = true →
    s.src = { bits := bytesBits bytes, pos := 0 } → (∀ i, i < 256 → s.freqAt i = 0) → s.freqAt 256 = 1 →
    (∀ v, freqOf bytes v < 2 ^ 32) →
    ∃ t, Reaches (bytes.length + 1) s t ∧ t.phase = .bldInit ∧ t.sym = 0 ∧
      (∀ v, v ≤ 256 → (t.freqAt v).toNat = freqOf bytes v) ∧ t.snk = s.snk

/-- R124: COMPRESS, launched under the premises, with every call answered normally and no byte value occurring `2^32`
times, ends in DONE with the magic, the header of the tree that `build` gives, one code per byte and the sentinel's
code in the closed sink. -/
def Obligations.CompressRunWritesTheStream : Prop :=
  ∀ (s : State) (o : Offer) (bytes : List Byte), Launched s o → o.op = 0 → o.src.bits = bytesBits bytes →
    (∀ v, freqOf bytes v < 2 ^ 32) →
    ∃ k t, Reaches k s t ∧ t.phase = .done ∧ t.errcode = 0 ∧ t.snk.closed = true ∧
      t.snk.bits = compressBits s.params.magic bytes

/-- R126: DECOMPRESS, launched under the premises with every call answered normally, comes to what the function of
R126 says: the bytes in a closed sink in DONE, or ERR with the code of the error. -/
def Obligations.DecompressRunComputesItsResult : Prop :=
  ∀ (s : State) (o : Offer), Launched s o → o.op = 1 →
    ∃ k t, Reaches k s t ∧ t.snk.closed = true ∧
      match decompressResult s.params.magic s.params.nodeCap o.src.bits with
      | .ok out => t.phase = .done ∧ t.errcode = 0 ∧ t.snk.bits = out.flatMap (bitsOf 8)
      | .error e => t.phase = .err ∧ t.errcode = errCode e

/-- R131: decompressing what compressing gives, with any padding after it, gives the bytes back. -/
def Obligations.RoundTrip : Prop :=
  ∀ (magic : BitVec 32) (cap : Nat) (bytes : List Byte) (padding : BitString), 513 ≤ cap →
    decompressResult magic cap (compressBits magic bytes ++ padding) = .ok (bytes.map BitVec.toNat)

/-- R131: if COMPRESS of the bytes ends in DONE, then DECOMPRESS of what its sink holds, with any padding after it and
the same parameters, ends in DONE with the bytes in its sink. -/
def Obligations.RunsRoundTrip : Prop :=
  ∀ (s t : State) (o : Offer) (bytes : List Byte) (k : Nat) (s' : State) (o' : Offer) (padding : BitString),
    Launched s o → o.op = 0 → o.src.bits = bytesBits bytes → (∀ v, freqOf bytes v < 2 ^ 32) →
    Reaches k s t → t.cmd = none → t.phase = .done →
    Launched s' o' → o'.op = 1 → s'.params = s.params → o'.src.bits = t.snk.bits ++ padding →
    ∃ k' t', Reaches k' s' t' ∧ t'.phase = .done ∧ t'.snk.closed = true ∧ t'.snk.bits = bytesBits bytes

/-- R274: where every call returns, every invocation reaches DONE or ERR after finitely many steps. -/
def Obligations.EveryInvocationEnds : Prop :=
  ∀ s : State, RunInv s → s.rst = false → s.busy = true →
    ∃ k t, Reaches k s t ∧ (t.phase = .done ∨ t.phase = .err)

/-! ### The functions -/

/-- R158: the tree that `build` gives has one leaf for each symbol with a non-zero count, and no other. -/
def Obligations.BuildHasTheCountedSymbols : Prop :=
  ∀ F : Nat → Nat, F 256 = 1 →
    List.Perm (treeSymbols (build F)) ((List.range 257).filter (fun v => decide (F v ≠ 0)))

/-- R137: a symbol with a greater count has a code that is no longer. -/
def Obligations.FrequentSymbolsHaveShortCodes : Prop :=
  ∀ (F : Nat → Nat) (a b : Nat) (p q : BitString), F 256 = 1 →
    codeOf (build F) a = some p → codeOf (build F) b = some q → F b < F a → p.length ≤ q.length

/-- R133: no code of a tree with distinct leaf symbols, so none of a tree that `build` gives, is a prefix of
another's. -/
def Obligations.CodesArePrefixFree : Prop :=
  (∀ (t : Tree) (a b : Nat) (p q : BitString), (treeSymbols t).Nodup →
    codeOf t a = some p → codeOf t b = some q → a ≠ b → ¬ p <+: q) ∧
  (∀ (F : Nat → Nat) (a b : Nat) (p q : BitString), F 256 = 1 →
    codeOf (build F) a = some p → codeOf (build F) b = some q → a ≠ b → ¬ p <+: q)

/-- R134, R191: parsing the serialized header of a tree gives the tree back and consumes exactly the header's bits,
whatever follows. -/
def Obligations.HeaderIsSelfDelimiting : Prop :=
  ∀ (t : Tree) (before after : BitString) (cap : Nat), (∀ v ∈ treeSymbols t, v ≤ 256) → treeSize t ≤ cap →
    parse cap (before ++ hdr t ++ after) before.length = .ok (t, before.length + (hdr t).length)

/-- R184: the length of the header. -/
def Obligations.HeaderLength : Prop :=
  ∀ t : Tree, (hdr t).length = treeInternals t + 10 * treeLeaves t ∧ treeInternals t + 1 = treeLeaves t ∧
    (hdr t).length = 11 * treeLeaves t - 1

/-- R210: the walk of the body that the codes of a tree give reads back the bytes and stops after the sentinel's
code. -/
def Obligations.WalkReadsTheBodyBack : Prop :=
  ∀ (t : Tree) (bytes : List Byte) (after : BitString), (treeSymbols t).Nodup → 256 ∈ treeSymbols t →
    (∀ b ∈ bytes, b.toNat ∈ treeSymbols t) →
    walk t (bodyBits t bytes ++ after) = .ok (bytes.map BitVec.toNat, after)

/-- R161, R174, R186: the empty input: the tree is the sentinel's leaf, its code is empty, and the header is the ten
bits `1 100000000`. -/
def Obligations.EmptyInput : Prop :=
  build (freqOf []) = .leaf 256 ∧ codeOf (.leaf 256) 256 = some [] ∧
    hdr (.leaf 256) = [true, true, false, false, false, false, false, false, false, false] ∧
    bodyBits (.leaf 256) [] = []

/-- R26: STK has no entry outside GEN, WR_HDR and RD_HDR, ERR too (what an error leaves in the register is none: R240,
log 23). A phase that uses STK is entered with its single initial entry, and it ends by finding STK empty, unless an
error or reset ends it. -/
def Obligations.StackIsEmptyOutsideItsPhases : Prop :=
  ∀ s t : State, stackFits s.phase s.stk → step s = .next t →
    (stackPhase t.phase = false → t.stk = []) ∧
    (s.phase ≠ t.phase → (t.phase = .gen → t.stk = [.pair t.root []]) ∧
      (t.phase = .wrHdr → t.stk = [.index t.root]) ∧ (t.phase = .rdHdr → t.stk = [.slot .root])) ∧
    (s.rst = false → stackPhase s.phase = true → t.phase ≠ s.phase → t.phase ≠ .err → s.stk = [] ∧ t.stk = [])
end

