-- ==== Sys2Proof/Laws/Bits.lean ====
section
/-! SUPPORT. Bit strings as numbers (spec/00_scope.md R12). -/

namespace Sys2Proof

@[simp] theorem bitsOf_zero (v : Nat) : bitsOf 0 v = [] := rfl

theorem bitsOf_succ (n v : Nat) : bitsOf (n + 1) v = v.testBit n :: bitsOf n v := rfl

@[simp] theorem valOf_nil : valOf [] = 0 := rfl

theorem valOf_cons (b : Bool) (p : BitString) : valOf (b :: p) = (if b then 2 ^ p.length else 0) + valOf p := rfl

@[simp] theorem valOf_single (b : Bool) : valOf [b] = if b then 1 else 0 := by cases b <;> rfl

@[simp] theorem length_bitsOf (n v : Nat) : (bitsOf n v).length = n := by
  induction n with
  | zero => rfl
  | succ n ih => simp [bitsOf_succ, ih]

/-- A bit string of length `n` is a number below `2^n`. -/
theorem valOf_lt (p : BitString) : valOf p < 2 ^ p.length := by
  induction p with
  | nil => simp
  | cons b p ih =>
    rw [valOf_cons, List.length_cons, Nat.pow_succ]
    cases b <;> simp <;> omega

theorem valOf_lt_of_length {p : BitString} {n : Nat} (h : p.length = n) : valOf p < 2 ^ n := h ▸ valOf_lt p

/-- The low `n` bits only are read. -/
theorem bitsOf_mod (n m v : Nat) (h : n ≤ m) : bitsOf n (v % 2 ^ m) = bitsOf n v := by
  induction n with
  | zero => rfl
  | succ n ih =>
    rw [bitsOf_succ, bitsOf_succ, ih (by omega), Nat.testBit_mod_two_pow]
    simp [show n < m by omega]

theorem valOf_bitsOf_mod (n v : Nat) : valOf (bitsOf n v) = v % 2 ^ n := by
  induction n with
  | zero => simp [Nat.mod_one]
  | succ n ih =>
    have hb : v.testBit n = decide (v / 2 ^ n % 2 = 1) := by
      rw [Nat.testBit_eq_decide_div_mod_eq]
    rw [bitsOf_succ, valOf_cons, length_bitsOf, ih, Nat.pow_succ, Nat.mod_mul, hb]
    rcases Nat.mod_two_eq_zero_or_one (v / 2 ^ n) with h | h
    · simp [h]
    · simp [h, Nat.add_comm]

/-- `val(bits_N(v)) = v` for `v < 2^N` (R12). -/
theorem valOf_bitsOf {n v : Nat} (h : v < 2 ^ n) : valOf (bitsOf n v) = v := by
  rw [valOf_bitsOf_mod, Nat.mod_eq_of_lt h]

/-- `bits_{|p|}(val(p)) = p` (R12). -/
theorem bitsOf_valOf (p : BitString) : bitsOf p.length (valOf p) = p := by
  induction p with
  | nil => rfl
  | cons b p ih =>
    have hlt := valOf_lt p
    rw [List.length_cons, bitsOf_succ, valOf_cons]
    have hlow : bitsOf p.length ((if b then 2 ^ p.length else 0) + valOf p) = p := by
      rw [← bitsOf_mod p.length p.length _ le_rfl]
      cases b <;> simp [Nat.mod_eq_of_lt hlt, ih]
    have htop : ((if b then 2 ^ p.length else 0) + valOf p).testBit p.length = b := by
      cases b
      · simpa using Nat.testBit_lt_two_pow hlt
      · simp [Nat.testBit_two_pow_add_eq, Nat.testBit_lt_two_pow hlt]
    rw [hlow, htop]

theorem bitsOf_valOf_of_length {p : BitString} {n : Nat} (h : p.length = n) : bitsOf n (valOf p) = p :=
  h ▸ bitsOf_valOf p

@[simp] theorem take_bitsOf_append (n v : Nat) (p : BitString) : (bitsOf n v ++ p).take n = bitsOf n v := by
  simp

@[simp] theorem drop_bitsOf_append (n v : Nat) (p : BitString) : (bitsOf n v ++ p).drop n = p := by
  simp

end Sys2Proof
end

