-- ==== Sys2Proof/Laws/Memory.lean ====
section
/-! SUPPORT. The internal memories: a read after a write, and the canonical form, which every memory operation
keeps. -/

namespace Sys2Proof.Machine

variable {α : Type}

@[simp] theorem Memory.find?_nil (i : Nat) : Memory.find? ([] : Memory α) i = none := rfl

theorem Memory.find?_cons (j : Nat) (a : α) (m : Memory α) (i : Nat) :
    Memory.find? ((j, a) :: m) i = if i = j then some a else Memory.find? m i := rfl

/-- A cell that was put reads as it was put. -/
@[simp] theorem Memory.find?_put_same (m : Memory α) (i : Nat) (v : α) :
    Memory.find? (Memory.put m i v) i = some v := by
  induction m with
  | nil => simp [Memory.put, Memory.find?]
  | cons c m ih =>
    obtain ⟨j, a⟩ := c
    unfold Memory.put
    split
    · simp [Memory.find?]
    · split
      · simp [Memory.find?]
      · simp [Memory.find?, *]

/-- A put leaves every other cell alone. -/
theorem Memory.find?_put_other (m : Memory α) {i k : Nat} (v : α) (h : k ≠ i) :
    Memory.find? (Memory.put m i v) k = Memory.find? m k := by
  induction m with
  | nil => simp [Memory.put, Memory.find?, h]
  | cons c m ih =>
    obtain ⟨j, a⟩ := c
    unfold Memory.put
    split
    · simp [Memory.find?, h]
    · split
      · next _ hij => subst hij; simp [Memory.find?, h]
      · simp [Memory.find?, ih]

/-- A cell that was dropped is not listed. -/
@[simp] theorem Memory.find?_drop_same (m : Memory α) (i : Nat) : Memory.find? (Memory.drop m i) i = none := by
  induction m with
  | nil => rfl
  | cons c m ih =>
    obtain ⟨j, a⟩ := c
    unfold Memory.drop
    split
    · exact ih
    · simp [Memory.find?, *]

/-- A drop leaves every other cell alone. -/
theorem Memory.find?_drop_other (m : Memory α) {i k : Nat} (h : k ≠ i) :
    Memory.find? (Memory.drop m i) k = Memory.find? m k := by
  induction m with
  | nil => rfl
  | cons c m ih =>
    obtain ⟨j, a⟩ := c
    unfold Memory.drop
    split
    · next hij => subst hij; simp [Memory.find?, h, ih]
    · simp [Memory.find?, ih]

theorem Memory.mem_put {m : Memory α} {i : Nat} {v : α} {c : Nat × α} (h : c ∈ Memory.put m i v) :
    c = (i, v) ∨ c ∈ m := by
  induction m with
  | nil => simpa [Memory.put] using h
  | cons d m ih =>
    obtain ⟨j, a⟩ := d
    unfold Memory.put at h
    split at h
    · simpa using h
    · split at h
      · simp at h; tauto
      · simp at h
        rcases h with h | h
        · simp [h]
        · rcases ih h with h | h <;> simp [h]

theorem Memory.mem_drop {m : Memory α} {i : Nat} {c : Nat × α} (h : c ∈ Memory.drop m i) : c ∈ m ∧ c.1 ≠ i := by
  induction m with
  | nil => simp [Memory.drop] at h
  | cons d m ih =>
    obtain ⟨j, a⟩ := d
    unfold Memory.drop at h
    split at h
    · have := ih h; simp [this]
    · simp at h
      rcases h with h | h
      · subst h; simp; omega
      · have := ih h; simp [this]

theorem Memory.find?_mem {m : Memory α} {i : Nat} {v : α} (h : Memory.find? m i = some v) : (i, v) ∈ m := by
  induction m with
  | nil => simp at h
  | cons d m ih =>
    obtain ⟨j, a⟩ := d
    rw [Memory.find?_cons] at h
    split at h
    · next hij => subst hij; simp at h; simp [h]
    · simp [ih h]

/-- Strictly rising indices, as a statement about every pair of cells. -/
theorem Memory.rising_iff (m : Memory α) : Memory.rising m = true ↔ m.Pairwise (fun c d => c.1 < d.1) := by
  induction m with
  | nil => simp [Memory.rising]
  | cons c m ih =>
    cases m with
    | nil => simp [Memory.rising]
    | cons d m =>
      obtain ⟨i, a⟩ := c
      obtain ⟨j, b⟩ := d
      simp only [Memory.rising, Bool.and_eq_true, decide_eq_true_eq, ih, List.pairwise_cons]
      constructor
      · rintro ⟨hij, hj, hm⟩
        refine ⟨?_, hj, hm⟩
        intro e he
        rcases List.mem_cons.1 he with rfl | he
        · exact hij
        · exact lt_trans hij (hj e he)
      · rintro ⟨hi, hj, hm⟩
        exact ⟨hi (j, b) (by simp), hj, hm⟩

theorem Memory.mem_find? {m : Memory α} (hm : Memory.rising m = true) {i : Nat} {v : α} (h : (i, v) ∈ m) :
    Memory.find? m i = some v := by
  rw [Memory.rising_iff] at hm
  induction m with
  | nil => simp at h
  | cons d m ih =>
    obtain ⟨j, a⟩ := d
    rw [List.pairwise_cons] at hm
    rw [Memory.find?_cons]
    rcases List.mem_cons.1 h with h | h
    · simp [Prod.mk.inj h]
    · have := hm.1 _ h
      simp only at this
      rw [if_neg (by omega), ih hm.2 h]

theorem Memory.rising_put {m : Memory α} (h : Memory.rising m = true) (i : Nat) (v : α) :
    Memory.rising (Memory.put m i v) = true := by
  rw [Memory.rising_iff] at *
  induction m with
  | nil => simp [Memory.put]
  | cons c m ih =>
    obtain ⟨j, a⟩ := c
    rw [List.pairwise_cons] at h
    unfold Memory.put
    split
    · next hij =>
      refine List.pairwise_cons.2 ⟨?_, List.pairwise_cons.2 h⟩
      intro d hd
      rcases List.mem_cons.1 hd with rfl | hd
      · exact hij
      · exact lt_trans hij (h.1 d hd)
    · split
      · next hij => subst hij; exact List.pairwise_cons.2 h
      · refine List.pairwise_cons.2 ⟨?_, ih h.2⟩
        intro d hd
        rcases Memory.mem_put hd with rfl | hd
        · simp only; omega
        · exact h.1 d hd

theorem Memory.rising_drop {m : Memory α} (h : Memory.rising m = true) (i : Nat) :
    Memory.rising (Memory.drop m i) = true := by
  rw [Memory.rising_iff] at *
  induction m with
  | nil => simp [Memory.drop]
  | cons c m ih =>
    obtain ⟨j, a⟩ := c
    rw [List.pairwise_cons] at h
    unfold Memory.drop
    split
    · exact ih h.2
    · exact List.pairwise_cons.2 ⟨fun d hd => h.1 d (Memory.mem_drop hd).1, ih h.2⟩

variable [DecidableEq α]

theorem Memory.wf_iff (d : Option α) (m : Memory α) :
    Memory.wf d m = true ↔ Memory.rising m = true ∧ ∀ c ∈ m, some c.2 ≠ d := by
  simp [Memory.wf]

theorem Memory.wf_put {d : Option α} {m : Memory α} (h : Memory.wf d m = true) (i : Nat) {v : α} (hv : some v ≠ d) :
    Memory.wf d (Memory.put m i v) = true := by
  rw [Memory.wf_iff] at *
  refine ⟨Memory.rising_put h.1 i v, fun c hc => ?_⟩
  rcases Memory.mem_put hc with rfl | hc
  · exact hv
  · exact h.2 c hc

theorem Memory.wf_drop {d : Option α} {m : Memory α} (h : Memory.wf d m = true) (i : Nat) :
    Memory.wf d (Memory.drop m i) = true := by
  rw [Memory.wf_iff] at *
  exact ⟨Memory.rising_drop h.1 i, fun c hc => h.2 c (Memory.mem_drop hc).1⟩

/-- A write keeps the canonical form. -/
theorem Memory.wf_write {d : α} {m : Memory α} (h : Memory.wf (some d) m = true) (i : Nat) (v : α) :
    Memory.wf (some d) (Memory.write d m i v) = true := by
  unfold Memory.write
  split
  · exact Memory.wf_drop h i
  · next hv => exact Memory.wf_put h i (by simpa using hv)

/-- A read after a write to the same cell gives the value written. -/
@[simp] theorem Memory.read_write_same (d : α) (m : Memory α) (i : Nat) (v : α) :
    Memory.read d (Memory.write d m i v) i = v := by
  unfold Memory.read Memory.write
  split
  · next h => simp [h]
  · simp

/-- A write leaves every other cell alone. -/
theorem Memory.read_write_other (d : α) (m : Memory α) {i k : Nat} (v : α) (h : k ≠ i) :
    Memory.read d (Memory.write d m i v) k = Memory.read d m k := by
  unfold Memory.read Memory.write
  split
  · rw [Memory.find?_drop_other m h]
  · rw [Memory.find?_put_other m v h]

theorem Memory.mem_write {d : α} {m : Memory α} {i : Nat} {v : α} {c : Nat × α} (h : c ∈ Memory.write d m i v) :
    c = (i, v) ∨ c ∈ m := by
  unfold Memory.write at h
  split at h
  · exact .inr (Memory.mem_drop h).1
  · exact Memory.mem_put h

end Sys2Proof.Machine
end

