-- ==== Sys2Proof/Laws/State.lean ====
section
/-! SUPPORT. One lemma for each field and each named update of the state, so that no proof unfolds an update. -/

namespace Sys2Proof.Machine

variable (s : State)

/-! ### `State.issue` -/

@[simp] theorem State.issue_params (c : Call) : (s.issue c).params = s.params := rfl
@[simp] theorem State.issue_phase (c : Call) : (s.issue c).phase = s.phase := rfl
@[simp] theorem State.issue_mode (c : Call) : (s.issue c).mode = s.mode := rfl
@[simp] theorem State.issue_errcode (c : Call) : (s.issue c).errcode = s.errcode := rfl
@[simp] theorem State.issue_nNodes (c : Call) : (s.issue c).nNodes = s.nNodes := rfl
@[simp] theorem State.issue_root (c : Call) : (s.issue c).root = s.root := rfl
@[simp] theorem State.issue_rootV (c : Call) : (s.issue c).rootV = s.rootV := rfl
@[simp] theorem State.issue_cur (c : Call) : (s.issue c).cur = s.cur := rfl
@[simp] theorem State.issue_sym (c : Call) : (s.issue c).sym = s.sym := rfl
@[simp] theorem State.issue_stk (c : Call) : (s.issue c).stk = s.stk := rfl
@[simp] theorem State.issue_stkHeld (c : Call) : (s.issue c).stkHeld = s.stkHeld := rfl
@[simp] theorem State.issue_freq (c : Call) : (s.issue c).freq = s.freq := rfl
@[simp] theorem State.issue_node (c : Call) : (s.issue c).node = s.node := rfl
@[simp] theorem State.issue_inpq (c : Call) : (s.issue c).inpq = s.inpq := rfl
@[simp] theorem State.issue_code (c : Call) : (s.issue c).code = s.code := rfl
@[simp] theorem State.issue_src (c : Call) : (s.issue c).src = s.src := rfl
@[simp] theorem State.issue_snk (c : Call) : (s.issue c).snk = s.snk := rfl
@[simp] theorem State.issue_rst (c : Call) : (s.issue c).rst = s.rst := rfl
@[simp] theorem State.issue_cmd (c : Call) : (s.issue c).cmd = s.cmd := rfl
@[simp] theorem State.issue_io (c : Call) : (s.issue c).io = s.io.tail := rfl
@[simp] theorem State.issue_trace (c : Call) : (s.issue c).trace = c :: s.trace := rfl
@[simp] theorem State.issue_draws (c : Call) : (s.issue c).draws = s.draws := rfl

/-! ### `State.advance` -/

@[simp] theorem State.advance_params (n : Nat) : (s.advance n).params = s.params := rfl
@[simp] theorem State.advance_phase (n : Nat) : (s.advance n).phase = s.phase := rfl
@[simp] theorem State.advance_mode (n : Nat) : (s.advance n).mode = s.mode := rfl
@[simp] theorem State.advance_errcode (n : Nat) : (s.advance n).errcode = s.errcode := rfl
@[simp] theorem State.advance_nNodes (n : Nat) : (s.advance n).nNodes = s.nNodes := rfl
@[simp] theorem State.advance_root (n : Nat) : (s.advance n).root = s.root := rfl
@[simp] theorem State.advance_rootV (n : Nat) : (s.advance n).rootV = s.rootV := rfl
@[simp] theorem State.advance_cur (n : Nat) : (s.advance n).cur = s.cur := rfl
@[simp] theorem State.advance_sym (n : Nat) : (s.advance n).sym = s.sym := rfl
@[simp] theorem State.advance_stk (n : Nat) : (s.advance n).stk = s.stk := rfl
@[simp] theorem State.advance_stkHeld (n : Nat) : (s.advance n).stkHeld = s.stkHeld := rfl
@[simp] theorem State.advance_freq (n : Nat) : (s.advance n).freq = s.freq := rfl
@[simp] theorem State.advance_node (n : Nat) : (s.advance n).node = s.node := rfl
@[simp] theorem State.advance_inpq (n : Nat) : (s.advance n).inpq = s.inpq := rfl
@[simp] theorem State.advance_code (n : Nat) : (s.advance n).code = s.code := rfl
@[simp] theorem State.advance_src (n : Nat) : (s.advance n).src = { s.src with pos := s.src.pos + n } := rfl
@[simp] theorem State.advance_snk (n : Nat) : (s.advance n).snk = s.snk := rfl
@[simp] theorem State.advance_rst (n : Nat) : (s.advance n).rst = s.rst := rfl
@[simp] theorem State.advance_cmd (n : Nat) : (s.advance n).cmd = s.cmd := rfl
@[simp] theorem State.advance_io (n : Nat) : (s.advance n).io = s.io := rfl
@[simp] theorem State.advance_trace (n : Nat) : (s.advance n).trace = s.trace := rfl
@[simp] theorem State.advance_draws (n : Nat) : (s.advance n).draws = s.draws := rfl

/-! ### `State.append` -/

@[simp] theorem State.append_params (p : BitString) : (s.append p).params = s.params := rfl
@[simp] theorem State.append_phase (p : BitString) : (s.append p).phase = s.phase := rfl
@[simp] theorem State.append_mode (p : BitString) : (s.append p).mode = s.mode := rfl
@[simp] theorem State.append_errcode (p : BitString) : (s.append p).errcode = s.errcode := rfl
@[simp] theorem State.append_nNodes (p : BitString) : (s.append p).nNodes = s.nNodes := rfl
@[simp] theorem State.append_root (p : BitString) : (s.append p).root = s.root := rfl
@[simp] theorem State.append_rootV (p : BitString) : (s.append p).rootV = s.rootV := rfl
@[simp] theorem State.append_cur (p : BitString) : (s.append p).cur = s.cur := rfl
@[simp] theorem State.append_sym (p : BitString) : (s.append p).sym = s.sym := rfl
@[simp] theorem State.append_stk (p : BitString) : (s.append p).stk = s.stk := rfl
@[simp] theorem State.append_stkHeld (p : BitString) : (s.append p).stkHeld = s.stkHeld := rfl
@[simp] theorem State.append_freq (p : BitString) : (s.append p).freq = s.freq := rfl
@[simp] theorem State.append_node (p : BitString) : (s.append p).node = s.node := rfl
@[simp] theorem State.append_inpq (p : BitString) : (s.append p).inpq = s.inpq := rfl
@[simp] theorem State.append_code (p : BitString) : (s.append p).code = s.code := rfl
@[simp] theorem State.append_src (p : BitString) : (s.append p).src = s.src := rfl
@[simp] theorem State.append_snk (p : BitString) : (s.append p).snk = { s.snk with bits := s.snk.bits ++ p } := rfl
@[simp] theorem State.append_rst (p : BitString) : (s.append p).rst = s.rst := rfl
@[simp] theorem State.append_cmd (p : BitString) : (s.append p).cmd = s.cmd := rfl
@[simp] theorem State.append_io (p : BitString) : (s.append p).io = s.io := rfl
@[simp] theorem State.append_trace (p : BitString) : (s.append p).trace = s.trace := rfl
@[simp] theorem State.append_draws (p : BitString) : (s.append p).draws = s.draws := rfl

/-! ### `State.drawPos` -/

@[simp] theorem State.drawPos_params (lo : Nat) : (s.drawPos lo).params = s.params := rfl
@[simp] theorem State.drawPos_phase (lo : Nat) : (s.drawPos lo).phase = s.phase := rfl
@[simp] theorem State.drawPos_mode (lo : Nat) : (s.drawPos lo).mode = s.mode := rfl
@[simp] theorem State.drawPos_errcode (lo : Nat) : (s.drawPos lo).errcode = s.errcode := rfl
@[simp] theorem State.drawPos_nNodes (lo : Nat) : (s.drawPos lo).nNodes = s.nNodes := rfl
@[simp] theorem State.drawPos_root (lo : Nat) : (s.drawPos lo).root = s.root := rfl
@[simp] theorem State.drawPos_rootV (lo : Nat) : (s.drawPos lo).rootV = s.rootV := rfl
@[simp] theorem State.drawPos_cur (lo : Nat) : (s.drawPos lo).cur = s.cur := rfl
@[simp] theorem State.drawPos_sym (lo : Nat) : (s.drawPos lo).sym = s.sym := rfl
@[simp] theorem State.drawPos_stk (lo : Nat) : (s.drawPos lo).stk = s.stk := rfl
@[simp] theorem State.drawPos_stkHeld (lo : Nat) : (s.drawPos lo).stkHeld = s.stkHeld := rfl
@[simp] theorem State.drawPos_freq (lo : Nat) : (s.drawPos lo).freq = s.freq := rfl
@[simp] theorem State.drawPos_node (lo : Nat) : (s.drawPos lo).node = s.node := rfl
@[simp] theorem State.drawPos_inpq (lo : Nat) : (s.drawPos lo).inpq = s.inpq := rfl
@[simp] theorem State.drawPos_code (lo : Nat) : (s.drawPos lo).code = s.code := rfl
@[simp] theorem State.drawPos_snk (lo : Nat) : (s.drawPos lo).snk = s.snk := rfl
@[simp] theorem State.drawPos_rst (lo : Nat) : (s.drawPos lo).rst = s.rst := rfl
@[simp] theorem State.drawPos_cmd (lo : Nat) : (s.drawPos lo).cmd = s.cmd := rfl
@[simp] theorem State.drawPos_io (lo : Nat) : (s.drawPos lo).io = s.io := rfl
@[simp] theorem State.drawPos_trace (lo : Nat) : (s.drawPos lo).trace = s.trace := rfl
@[simp] theorem State.drawPos_draws (lo : Nat) : (s.drawPos lo).draws = s.draws + 1 := rfl

/-! ### `State.closeSink` -/

@[simp] theorem State.closeSink_params : s.closeSink.params = s.params := rfl
@[simp] theorem State.closeSink_phase : s.closeSink.phase = s.phase := rfl
@[simp] theorem State.closeSink_mode : s.closeSink.mode = s.mode := rfl
@[simp] theorem State.closeSink_errcode : s.closeSink.errcode = s.errcode := rfl
@[simp] theorem State.closeSink_nNodes : s.closeSink.nNodes = s.nNodes := rfl
@[simp] theorem State.closeSink_root : s.closeSink.root = s.root := rfl
@[simp] theorem State.closeSink_rootV : s.closeSink.rootV = s.rootV := rfl
@[simp] theorem State.closeSink_cur : s.closeSink.cur = s.cur := rfl
@[simp] theorem State.closeSink_sym : s.closeSink.sym = s.sym := rfl
@[simp] theorem State.closeSink_stk : s.closeSink.stk = s.stk := rfl
@[simp] theorem State.closeSink_stkHeld : s.closeSink.stkHeld = s.stkHeld := rfl
@[simp] theorem State.closeSink_freq : s.closeSink.freq = s.freq := rfl
@[simp] theorem State.closeSink_node : s.closeSink.node = s.node := rfl
@[simp] theorem State.closeSink_inpq : s.closeSink.inpq = s.inpq := rfl
@[simp] theorem State.closeSink_code : s.closeSink.code = s.code := rfl
@[simp] theorem State.closeSink_src : s.closeSink.src = s.src := rfl
@[simp] theorem State.closeSink_rst : s.closeSink.rst = s.rst := rfl
@[simp] theorem State.closeSink_cmd : s.closeSink.cmd = s.cmd := rfl
@[simp] theorem State.closeSink_io : s.closeSink.io = s.io := rfl
@[simp] theorem State.closeSink_trace : s.closeSink.trace = s.trace := rfl
@[simp] theorem State.closeSink_draws : s.closeSink.draws = s.draws + 1 := rfl

/-! ### `State.drawSink` -/

@[simp] theorem State.drawSink_params : s.drawSink.params = s.params := rfl
@[simp] theorem State.drawSink_phase : s.drawSink.phase = s.phase := rfl
@[simp] theorem State.drawSink_mode : s.drawSink.mode = s.mode := rfl
@[simp] theorem State.drawSink_errcode : s.drawSink.errcode = s.errcode := rfl
@[simp] theorem State.drawSink_nNodes : s.drawSink.nNodes = s.nNodes := rfl
@[simp] theorem State.drawSink_root : s.drawSink.root = s.root := rfl
@[simp] theorem State.drawSink_rootV : s.drawSink.rootV = s.rootV := rfl
@[simp] theorem State.drawSink_cur : s.drawSink.cur = s.cur := rfl
@[simp] theorem State.drawSink_sym : s.drawSink.sym = s.sym := rfl
@[simp] theorem State.drawSink_stk : s.drawSink.stk = s.stk := rfl
@[simp] theorem State.drawSink_stkHeld : s.drawSink.stkHeld = s.stkHeld := rfl
@[simp] theorem State.drawSink_freq : s.drawSink.freq = s.freq := rfl
@[simp] theorem State.drawSink_node : s.drawSink.node = s.node := rfl
@[simp] theorem State.drawSink_inpq : s.drawSink.inpq = s.inpq := rfl
@[simp] theorem State.drawSink_code : s.drawSink.code = s.code := rfl
@[simp] theorem State.drawSink_src : s.drawSink.src = s.src := rfl
@[simp] theorem State.drawSink_rst : s.drawSink.rst = s.rst := rfl
@[simp] theorem State.drawSink_cmd : s.drawSink.cmd = s.cmd := rfl
@[simp] theorem State.drawSink_io : s.drawSink.io = s.io := rfl
@[simp] theorem State.drawSink_trace : s.drawSink.trace = s.trace := rfl
@[simp] theorem State.drawSink_draws : s.drawSink.draws = s.draws + 1 := rfl

/-! ### `State.enterErr` -/

@[simp] theorem State.enterErr_params : s.enterErr.params = s.params := rfl
@[simp] theorem State.enterErr_phase : s.enterErr.phase = .err := rfl
@[simp] theorem State.enterErr_mode : s.enterErr.mode = s.mode := rfl
@[simp] theorem State.enterErr_errcode : s.enterErr.errcode = s.errcode := rfl
@[simp] theorem State.enterErr_nNodes : s.enterErr.nNodes = s.nNodes := rfl
@[simp] theorem State.enterErr_root : s.enterErr.root = s.root := rfl
@[simp] theorem State.enterErr_rootV : s.enterErr.rootV = s.rootV := rfl
@[simp] theorem State.enterErr_cur : s.enterErr.cur = s.cur := rfl
@[simp] theorem State.enterErr_sym : s.enterErr.sym = s.sym := rfl
@[simp] theorem State.enterErr_stk : s.enterErr.stk = [] := rfl
@[simp] theorem State.enterErr_stkHeld : s.enterErr.stkHeld = s.stk ++ s.stkHeld := rfl
@[simp] theorem State.enterErr_freq : s.enterErr.freq = s.freq := rfl
@[simp] theorem State.enterErr_node : s.enterErr.node = s.node := rfl
@[simp] theorem State.enterErr_inpq : s.enterErr.inpq = s.inpq := rfl
@[simp] theorem State.enterErr_code : s.enterErr.code = s.code := rfl
@[simp] theorem State.enterErr_src : s.enterErr.src = s.src := rfl
@[simp] theorem State.enterErr_snk : s.enterErr.snk = s.drawSink.snk := rfl
@[simp] theorem State.enterErr_rst : s.enterErr.rst = s.rst := rfl
@[simp] theorem State.enterErr_cmd : s.enterErr.cmd = s.cmd := rfl
@[simp] theorem State.enterErr_io : s.enterErr.io = s.io := rfl
@[simp] theorem State.enterErr_trace : s.enterErr.trace = s.trace := rfl
@[simp] theorem State.enterErr_draws : s.enterErr.draws = s.draws + 1 := rfl

/-! ### `State.enter` -/

@[simp] theorem State.enter_params (p : Phase) (e : List StkEntry) : (s.enter p e).params = s.params := rfl
@[simp] theorem State.enter_phase (p : Phase) (e : List StkEntry) : (s.enter p e).phase = p := rfl
@[simp] theorem State.enter_mode (p : Phase) (e : List StkEntry) : (s.enter p e).mode = s.mode := rfl
@[simp] theorem State.enter_errcode (p : Phase) (e : List StkEntry) : (s.enter p e).errcode = s.errcode := rfl
@[simp] theorem State.enter_nNodes (p : Phase) (e : List StkEntry) : (s.enter p e).nNodes = s.nNodes := rfl
@[simp] theorem State.enter_root (p : Phase) (e : List StkEntry) : (s.enter p e).root = s.root := rfl
@[simp] theorem State.enter_rootV (p : Phase) (e : List StkEntry) : (s.enter p e).rootV = s.rootV := rfl
@[simp] theorem State.enter_cur (p : Phase) (e : List StkEntry) : (s.enter p e).cur = s.cur := rfl
@[simp] theorem State.enter_sym (p : Phase) (e : List StkEntry) : (s.enter p e).sym = s.sym := rfl
@[simp] theorem State.enter_stk (p : Phase) (e : List StkEntry) : (s.enter p e).stk = e := rfl
@[simp] theorem State.enter_stkHeld (p : Phase) (e : List StkEntry) : (s.enter p e).stkHeld = s.stkHeld := rfl
@[simp] theorem State.enter_freq (p : Phase) (e : List StkEntry) : (s.enter p e).freq = s.freq := rfl
@[simp] theorem State.enter_node (p : Phase) (e : List StkEntry) : (s.enter p e).node = s.node := rfl
@[simp] theorem State.enter_inpq (p : Phase) (e : List StkEntry) : (s.enter p e).inpq = s.inpq := rfl
@[simp] theorem State.enter_code (p : Phase) (e : List StkEntry) : (s.enter p e).code = s.code := rfl
@[simp] theorem State.enter_src (p : Phase) (e : List StkEntry) : (s.enter p e).src = s.src := rfl
@[simp] theorem State.enter_snk (p : Phase) (e : List StkEntry) : (s.enter p e).snk = s.snk := rfl
@[simp] theorem State.enter_rst (p : Phase) (e : List StkEntry) : (s.enter p e).rst = s.rst := rfl
@[simp] theorem State.enter_cmd (p : Phase) (e : List StkEntry) : (s.enter p e).cmd = s.cmd := rfl
@[simp] theorem State.enter_io (p : Phase) (e : List StkEntry) : (s.enter p e).io = s.io := rfl
@[simp] theorem State.enter_trace (p : Phase) (e : List StkEntry) : (s.enter p e).trace = s.trace := rfl
@[simp] theorem State.enter_draws (p : Phase) (e : List StkEntry) : (s.enter p e).draws = s.draws := rfl

/-! ### `State.setFreq` -/

@[simp] theorem State.setFreq_params (i : Nat) (v : BitVec Config.cntW) : (s.setFreq i v).params = s.params := rfl
@[simp] theorem State.setFreq_phase (i : Nat) (v : BitVec Config.cntW) : (s.setFreq i v).phase = s.phase := rfl
@[simp] theorem State.setFreq_mode (i : Nat) (v : BitVec Config.cntW) : (s.setFreq i v).mode = s.mode := rfl
@[simp] theorem State.setFreq_errcode (i : Nat) (v : BitVec Config.cntW) : (s.setFreq i v).errcode = s.errcode := rfl
@[simp] theorem State.setFreq_nNodes (i : Nat) (v : BitVec Config.cntW) : (s.setFreq i v).nNodes = s.nNodes := rfl
@[simp] theorem State.setFreq_root (i : Nat) (v : BitVec Config.cntW) : (s.setFreq i v).root = s.root := rfl
@[simp] theorem State.setFreq_rootV (i : Nat) (v : BitVec Config.cntW) : (s.setFreq i v).rootV = s.rootV := rfl
@[simp] theorem State.setFreq_cur (i : Nat) (v : BitVec Config.cntW) : (s.setFreq i v).cur = s.cur := rfl
@[simp] theorem State.setFreq_sym (i : Nat) (v : BitVec Config.cntW) : (s.setFreq i v).sym = s.sym := rfl
@[simp] theorem State.setFreq_stk (i : Nat) (v : BitVec Config.cntW) : (s.setFreq i v).stk = s.stk := rfl
@[simp] theorem State.setFreq_stkHeld (i : Nat) (v : BitVec Config.cntW) : (s.setFreq i v).stkHeld = s.stkHeld := rfl
@[simp] theorem State.setFreq_freq (i : Nat) (v : BitVec Config.cntW) : (s.setFreq i v).freq = Memory.write 0 s.freq i v := rfl
@[simp] theorem State.setFreq_node (i : Nat) (v : BitVec Config.cntW) : (s.setFreq i v).node = s.node := rfl
@[simp] theorem State.setFreq_inpq (i : Nat) (v : BitVec Config.cntW) : (s.setFreq i v).inpq = s.inpq := rfl
@[simp] theorem State.setFreq_code (i : Nat) (v : BitVec Config.cntW) : (s.setFreq i v).code = s.code := rfl
@[simp] theorem State.setFreq_src (i : Nat) (v : BitVec Config.cntW) : (s.setFreq i v).src = s.src := rfl
@[simp] theorem State.setFreq_snk (i : Nat) (v : BitVec Config.cntW) : (s.setFreq i v).snk = s.snk := rfl
@[simp] theorem State.setFreq_rst (i : Nat) (v : BitVec Config.cntW) : (s.setFreq i v).rst = s.rst := rfl
@[simp] theorem State.setFreq_cmd (i : Nat) (v : BitVec Config.cntW) : (s.setFreq i v).cmd = s.cmd := rfl
@[simp] theorem State.setFreq_io (i : Nat) (v : BitVec Config.cntW) : (s.setFreq i v).io = s.io := rfl
@[simp] theorem State.setFreq_trace (i : Nat) (v : BitVec Config.cntW) : (s.setFreq i v).trace = s.trace := rfl
@[simp] theorem State.setFreq_draws (i : Nat) (v : BitVec Config.cntW) : (s.setFreq i v).draws = s.draws := rfl

/-! ### `State.setInpq` -/

@[simp] theorem State.setInpq_params (i : Nat) (v : Bool) : (s.setInpq i v).params = s.params := rfl
@[simp] theorem State.setInpq_phase (i : Nat) (v : Bool) : (s.setInpq i v).phase = s.phase := rfl
@[simp] theorem State.setInpq_mode (i : Nat) (v : Bool) : (s.setInpq i v).mode = s.mode := rfl
@[simp] theorem State.setInpq_errcode (i : Nat) (v : Bool) : (s.setInpq i v).errcode = s.errcode := rfl
@[simp] theorem State.setInpq_nNodes (i : Nat) (v : Bool) : (s.setInpq i v).nNodes = s.nNodes := rfl
@[simp] theorem State.setInpq_root (i : Nat) (v : Bool) : (s.setInpq i v).root = s.root := rfl
@[simp] theorem State.setInpq_rootV (i : Nat) (v : Bool) : (s.setInpq i v).rootV = s.rootV := rfl
@[simp] theorem State.setInpq_cur (i : Nat) (v : Bool) : (s.setInpq i v).cur = s.cur := rfl
@[simp] theorem State.setInpq_sym (i : Nat) (v : Bool) : (s.setInpq i v).sym = s.sym := rfl
@[simp] theorem State.setInpq_stk (i : Nat) (v : Bool) : (s.setInpq i v).stk = s.stk := rfl
@[simp] theorem State.setInpq_stkHeld (i : Nat) (v : Bool) : (s.setInpq i v).stkHeld = s.stkHeld := rfl
@[simp] theorem State.setInpq_freq (i : Nat) (v : Bool) : (s.setInpq i v).freq = s.freq := rfl
@[simp] theorem State.setInpq_node (i : Nat) (v : Bool) : (s.setInpq i v).node = s.node := rfl
@[simp] theorem State.setInpq_inpq (i : Nat) (v : Bool) : (s.setInpq i v).inpq = Memory.write false s.inpq i v := rfl
@[simp] theorem State.setInpq_code (i : Nat) (v : Bool) : (s.setInpq i v).code = s.code := rfl
@[simp] theorem State.setInpq_src (i : Nat) (v : Bool) : (s.setInpq i v).src = s.src := rfl
@[simp] theorem State.setInpq_snk (i : Nat) (v : Bool) : (s.setInpq i v).snk = s.snk := rfl
@[simp] theorem State.setInpq_rst (i : Nat) (v : Bool) : (s.setInpq i v).rst = s.rst := rfl
@[simp] theorem State.setInpq_cmd (i : Nat) (v : Bool) : (s.setInpq i v).cmd = s.cmd := rfl
@[simp] theorem State.setInpq_io (i : Nat) (v : Bool) : (s.setInpq i v).io = s.io := rfl
@[simp] theorem State.setInpq_trace (i : Nat) (v : Bool) : (s.setInpq i v).trace = s.trace := rfl
@[simp] theorem State.setInpq_draws (i : Nat) (v : Bool) : (s.setInpq i v).draws = s.draws := rfl

/-! ### `State.setNode` -/

@[simp] theorem State.setNode_params (i : Nat) (n : Node) : (s.setNode i n).params = s.params := rfl
@[simp] theorem State.setNode_phase (i : Nat) (n : Node) : (s.setNode i n).phase = s.phase := rfl
@[simp] theorem State.setNode_mode (i : Nat) (n : Node) : (s.setNode i n).mode = s.mode := rfl
@[simp] theorem State.setNode_errcode (i : Nat) (n : Node) : (s.setNode i n).errcode = s.errcode := rfl
@[simp] theorem State.setNode_nNodes (i : Nat) (n : Node) : (s.setNode i n).nNodes = s.nNodes := rfl
@[simp] theorem State.setNode_root (i : Nat) (n : Node) : (s.setNode i n).root = s.root := rfl
@[simp] theorem State.setNode_rootV (i : Nat) (n : Node) : (s.setNode i n).rootV = s.rootV := rfl
@[simp] theorem State.setNode_cur (i : Nat) (n : Node) : (s.setNode i n).cur = s.cur := rfl
@[simp] theorem State.setNode_sym (i : Nat) (n : Node) : (s.setNode i n).sym = s.sym := rfl
@[simp] theorem State.setNode_stk (i : Nat) (n : Node) : (s.setNode i n).stk = s.stk := rfl
@[simp] theorem State.setNode_stkHeld (i : Nat) (n : Node) : (s.setNode i n).stkHeld = s.stkHeld := rfl
@[simp] theorem State.setNode_freq (i : Nat) (n : Node) : (s.setNode i n).freq = s.freq := rfl
@[simp] theorem State.setNode_node (i : Nat) (n : Node) : (s.setNode i n).node = Memory.put s.node i n := rfl
@[simp] theorem State.setNode_inpq (i : Nat) (n : Node) : (s.setNode i n).inpq = s.inpq := rfl
@[simp] theorem State.setNode_code (i : Nat) (n : Node) : (s.setNode i n).code = s.code := rfl
@[simp] theorem State.setNode_src (i : Nat) (n : Node) : (s.setNode i n).src = s.src := rfl
@[simp] theorem State.setNode_snk (i : Nat) (n : Node) : (s.setNode i n).snk = s.snk := rfl
@[simp] theorem State.setNode_rst (i : Nat) (n : Node) : (s.setNode i n).rst = s.rst := rfl
@[simp] theorem State.setNode_cmd (i : Nat) (n : Node) : (s.setNode i n).cmd = s.cmd := rfl
@[simp] theorem State.setNode_io (i : Nat) (n : Node) : (s.setNode i n).io = s.io := rfl
@[simp] theorem State.setNode_trace (i : Nat) (n : Node) : (s.setNode i n).trace = s.trace := rfl
@[simp] theorem State.setNode_draws (i : Nat) (n : Node) : (s.setNode i n).draws = s.draws := rfl

/-! ### `State.setCode` -/

@[simp] theorem State.setCode_params (i : Nat) (p : BitString) : (s.setCode i p).params = s.params := rfl
@[simp] theorem State.setCode_phase (i : Nat) (p : BitString) : (s.setCode i p).phase = s.phase := rfl
@[simp] theorem State.setCode_mode (i : Nat) (p : BitString) : (s.setCode i p).mode = s.mode := rfl
@[simp] theorem State.setCode_errcode (i : Nat) (p : BitString) : (s.setCode i p).errcode = s.errcode := rfl
@[simp] theorem State.setCode_nNodes (i : Nat) (p : BitString) : (s.setCode i p).nNodes = s.nNodes := rfl
@[simp] theorem State.setCode_root (i : Nat) (p : BitString) : (s.setCode i p).root = s.root := rfl
@[simp] theorem State.setCode_rootV (i : Nat) (p : BitString) : (s.setCode i p).rootV = s.rootV := rfl
@[simp] theorem State.setCode_cur (i : Nat) (p : BitString) : (s.setCode i p).cur = s.cur := rfl
@[simp] theorem State.setCode_sym (i : Nat) (p : BitString) : (s.setCode i p).sym = s.sym := rfl
@[simp] theorem State.setCode_stk (i : Nat) (p : BitString) : (s.setCode i p).stk = s.stk := rfl
@[simp] theorem State.setCode_stkHeld (i : Nat) (p : BitString) : (s.setCode i p).stkHeld = s.stkHeld := rfl
@[simp] theorem State.setCode_freq (i : Nat) (p : BitString) : (s.setCode i p).freq = s.freq := rfl
@[simp] theorem State.setCode_node (i : Nat) (p : BitString) : (s.setCode i p).node = s.node := rfl
@[simp] theorem State.setCode_inpq (i : Nat) (p : BitString) : (s.setCode i p).inpq = s.inpq := rfl
@[simp] theorem State.setCode_code (i : Nat) (p : BitString) : (s.setCode i p).code = Memory.put s.code i p := rfl
@[simp] theorem State.setCode_src (i : Nat) (p : BitString) : (s.setCode i p).src = s.src := rfl
@[simp] theorem State.setCode_snk (i : Nat) (p : BitString) : (s.setCode i p).snk = s.snk := rfl
@[simp] theorem State.setCode_rst (i : Nat) (p : BitString) : (s.setCode i p).rst = s.rst := rfl
@[simp] theorem State.setCode_cmd (i : Nat) (p : BitString) : (s.setCode i p).cmd = s.cmd := rfl
@[simp] theorem State.setCode_io (i : Nat) (p : BitString) : (s.setCode i p).io = s.io := rfl
@[simp] theorem State.setCode_trace (i : Nat) (p : BitString) : (s.setCode i p).trace = s.trace := rfl
@[simp] theorem State.setCode_draws (i : Nat) (p : BitString) : (s.setCode i p).draws = s.draws := rfl

/-! ### `State.initBlock` -/

@[simp] theorem State.initBlock_params : s.initBlock.params = s.params := rfl
@[simp] theorem State.initBlock_phase : s.initBlock.phase = .idle := rfl
@[simp] theorem State.initBlock_mode : s.initBlock.mode = 0 := rfl
@[simp] theorem State.initBlock_errcode : s.initBlock.errcode = 0 := rfl
@[simp] theorem State.initBlock_nNodes : s.initBlock.nNodes = 0 := rfl
@[simp] theorem State.initBlock_root : s.initBlock.root = 0 := rfl
@[simp] theorem State.initBlock_rootV : s.initBlock.rootV = false := rfl
@[simp] theorem State.initBlock_cur : s.initBlock.cur = 0 := rfl
@[simp] theorem State.initBlock_sym : s.initBlock.sym = 0 := rfl
@[simp] theorem State.initBlock_stk : s.initBlock.stk = [] := rfl
@[simp] theorem State.initBlock_stkHeld : s.initBlock.stkHeld = [] := rfl
@[simp] theorem State.initBlock_freq : s.initBlock.freq = [(256, 1)] := rfl
@[simp] theorem State.initBlock_node : s.initBlock.node = [] := rfl
@[simp] theorem State.initBlock_inpq : s.initBlock.inpq = [] := rfl
@[simp] theorem State.initBlock_code : s.initBlock.code = [] := rfl
@[simp] theorem State.initBlock_src : s.initBlock.src = s.src := rfl
@[simp] theorem State.initBlock_snk : s.initBlock.snk = s.snk := rfl
@[simp] theorem State.initBlock_rst : s.initBlock.rst = s.rst := rfl
@[simp] theorem State.initBlock_cmd : s.initBlock.cmd = s.cmd := rfl
@[simp] theorem State.initBlock_io : s.initBlock.io = s.io := rfl
@[simp] theorem State.initBlock_trace : s.initBlock.trace = s.trace := rfl
@[simp] theorem State.initBlock_draws : s.initBlock.draws = s.draws := rfl

/-! ### `State.recordErr` -/

@[simp] theorem State.recordErr_params (e : ErrKind) : (s.recordErr e).params = s.params := by
  unfold State.recordErr; split <;> rfl
@[simp] theorem State.recordErr_phase (e : ErrKind) : (s.recordErr e).phase = s.phase := by
  unfold State.recordErr; split <;> rfl
@[simp] theorem State.recordErr_mode (e : ErrKind) : (s.recordErr e).mode = s.mode := by
  unfold State.recordErr; split <;> rfl
@[simp] theorem State.recordErr_errcode (e : ErrKind) :
    (s.recordErr e).errcode = if s.errcode = 0 then errCode e else s.errcode := by
  unfold State.recordErr; split <;> simp [*]
@[simp] theorem State.recordErr_nNodes (e : ErrKind) : (s.recordErr e).nNodes = s.nNodes := by
  unfold State.recordErr; split <;> rfl
@[simp] theorem State.recordErr_root (e : ErrKind) : (s.recordErr e).root = s.root := by
  unfold State.recordErr; split <;> rfl
@[simp] theorem State.recordErr_rootV (e : ErrKind) : (s.recordErr e).rootV = s.rootV := by
  unfold State.recordErr; split <;> rfl
@[simp] theorem State.recordErr_cur (e : ErrKind) : (s.recordErr e).cur = s.cur := by
  unfold State.recordErr; split <;> rfl
@[simp] theorem State.recordErr_sym (e : ErrKind) : (s.recordErr e).sym = s.sym := by
  unfold State.recordErr; split <;> rfl
@[simp] theorem State.recordErr_stk (e : ErrKind) : (s.recordErr e).stk = s.stk := by
  unfold State.recordErr; split <;> rfl
@[simp] theorem State.recordErr_stkHeld (e : ErrKind) : (s.recordErr e).stkHeld = s.stkHeld := by
  unfold State.recordErr; split <;> rfl
@[simp] theorem State.recordErr_freq (e : ErrKind) : (s.recordErr e).freq = s.freq := by
  unfold State.recordErr; split <;> rfl
@[simp] theorem State.recordErr_node (e : ErrKind) : (s.recordErr e).node = s.node := by
  unfold State.recordErr; split <;> rfl
@[simp] theorem State.recordErr_inpq (e : ErrKind) : (s.recordErr e).inpq = s.inpq := by
  unfold State.recordErr; split <;> rfl
@[simp] theorem State.recordErr_code (e : ErrKind) : (s.recordErr e).code = s.code := by
  unfold State.recordErr; split <;> rfl
@[simp] theorem State.recordErr_src (e : ErrKind) : (s.recordErr e).src = s.src := by
  unfold State.recordErr; split <;> rfl
@[simp] theorem State.recordErr_snk (e : ErrKind) : (s.recordErr e).snk = s.snk := by
  unfold State.recordErr; split <;> rfl
@[simp] theorem State.recordErr_rst (e : ErrKind) : (s.recordErr e).rst = s.rst := by
  unfold State.recordErr; split <;> rfl
@[simp] theorem State.recordErr_cmd (e : ErrKind) : (s.recordErr e).cmd = s.cmd := by
  unfold State.recordErr; split <;> rfl
@[simp] theorem State.recordErr_io (e : ErrKind) : (s.recordErr e).io = s.io := by
  unfold State.recordErr; split <;> rfl
@[simp] theorem State.recordErr_trace (e : ErrKind) : (s.recordErr e).trace = s.trace := by
  unfold State.recordErr; split <;> rfl
@[simp] theorem State.recordErr_draws (e : ErrKind) : (s.recordErr e).draws = s.draws := by
  unfold State.recordErr; split <;> rfl

/-! ### The parts of the streams that the draws leave -/

@[simp] theorem State.drawPos_bits (lo : Nat) : (s.drawPos lo).src.bits = s.src.bits := rfl
@[simp] theorem State.closeSink_bits : s.closeSink.snk.bits = s.snk.bits := rfl
@[simp] theorem State.closeSink_closed : s.closeSink.snk.closed = true := rfl
@[simp] theorem State.drawSink_closed : s.drawSink.snk.closed = s.snk.closed := rfl

/-! ### The memories' cells -/

@[simp] theorem State.freqAt_setFreq_same (i : Nat) (v : BitVec Config.cntW) : (s.setFreq i v).freqAt i = v :=
  Memory.read_write_same 0 s.freq i v

theorem State.freqAt_setFreq_other {i k : Nat} (v : BitVec Config.cntW) (h : k ≠ i) :
    (s.setFreq i v).freqAt k = s.freqAt k :=
  Memory.read_write_other 0 s.freq v h

@[simp] theorem State.inpqAt_setInpq_same (i : Nat) (v : Bool) : (s.setInpq i v).inpqAt i = v :=
  Memory.read_write_same false s.inpq i v

theorem State.inpqAt_setInpq_other {i k : Nat} (v : Bool) (h : k ≠ i) :
    (s.setInpq i v).inpqAt k = s.inpqAt k :=
  Memory.read_write_other false s.inpq v h

@[simp] theorem State.nodeAt_setNode_same (i : Nat) (n : Node) : (s.setNode i n).nodeAt i = some n :=
  Memory.find?_put_same s.node i n

theorem State.nodeAt_setNode_other {i k : Nat} (n : Node) (h : k ≠ i) : (s.setNode i n).nodeAt k = s.nodeAt k :=
  Memory.find?_put_other s.node n h

@[simp] theorem State.codeAt_setCode_same (i : Nat) (p : BitString) : (s.setCode i p).codeAt i = some p :=
  Memory.find?_put_same s.code i p

theorem State.codeAt_setCode_other {i k : Nat} (p : BitString) (h : k ≠ i) : (s.setCode i p).codeAt k = s.codeAt k :=
  Memory.find?_put_other s.code p h

/-- `SRC.pos` after a draw lies between the bound given and the end of the source (R63). -/
theorem State.drawPos_range (lo : Nat) (h : lo ≤ s.src.bits.length) :
    lo ≤ (s.drawPos lo).src.pos ∧ (s.drawPos lo).src.pos ≤ s.src.bits.length := by
  have := Nat.mod_lt (Config.freePos s.draws) (show 0 < s.src.bits.length - lo + 1 by omega)
  show lo ≤ lo + _ ∧ lo + _ ≤ _
  omega

end Sys2Proof.Machine
end

