-- ==== Sys2Proof/Laws/Ops.lean ====
section
/-! SUPPORT. What each shared operation can do, said once: the later proofs cite these and do not unfold the
operations. -/

namespace Sys2Proof.Machine

variable {s t : State}

/-! ### The service's answers -/

theorem State.answer_cases (s : State) : s.answer = .ok ∨ s.answer = .fail ∨ s.answer = .never := by
  cases s.answer <;> simp

theorem State.ioOk_one : s.ioOk 1 = true ↔ s.answer = .ok := by
  unfold State.ioOk State.answer
  cases s.io <;> simp

theorem State.ioOk_zero (s : State) : s.ioOk 0 = true := by simp [State.ioOk]

/-- The answers to `k + 1` calls are the next one and those to the `k` calls after it. -/
theorem State.ioOk_succ (k : Nat) :
    s.ioOk (k + 1) = true ↔ s.answer = .ok ∧ (s.io.tail.take k).all (fun a => decide (a = .ok)) = true := by
  unfold State.ioOk State.answer
  cases s.io <;> simp

theorem State.ioOk_mono {k m : Nat} (h : s.ioOk m = true) (hk : k ≤ m) : s.ioOk k = true := by
  unfold State.ioOk at *
  rw [List.all_eq_true] at *
  exact fun a ha => h a ((List.take_subset_take_left _ hk) ha)

theorem State.answer_ne_never (h : s.ioReturns = true) : s.answer ≠ .never := by
  unfold State.ioReturns at h
  unfold State.answer
  cases hio : s.io with
  | nil => simp
  | cons a io => simp [hio] at h; simpa using h.1

theorem State.answer_ok_of_all (h : s.ioAllOk = true) : s.answer = .ok := by
  unfold State.ioAllOk at h
  unfold State.answer
  cases hio : s.io with
  | nil => simp
  | cons a io => simp [hio] at h; simpa using h.1

/-! ### SrcRead -/

theorem srcAnswer_ok {n v : Nat} (h : s.answer = .ok) : srcAnswer n v s = .value v (s.afterRead n v) := by
  simp only [srcAnswer, h]; rfl

theorem srcAnswer_fail {n v : Nat} (h : s.answer = .fail) :
    ∃ p, p ≤ s.src.bits.length ∧ srcAnswer n v s = .fail (s.afterMiss n .fail p) := by
  refine ⟨_, ((s.issue (.read n .fail)).drawPos_range 0 (by simp)).2, ?_⟩
  simp only [srcAnswer, h]; rfl

theorem srcAnswer_never {n v : Nat} (h : s.answer = .never) : srcAnswer n v s = .never := by
  simp only [srcAnswer, h]

/-- Everything `srcAnswer` can do. -/
theorem srcAnswer_cases (n v : Nat) (s : State) :
    (s.answer = .ok ∧ srcAnswer n v s = .value v (s.afterRead n v)) ∨
    (s.answer = .fail ∧ ∃ p, p ≤ s.src.bits.length ∧ srcAnswer n v s = .fail (s.afterMiss n .fail p)) ∨
    (s.answer = .never ∧ srcAnswer n v s = .never) := by
  rcases s.answer_cases with h | h | h
  · exact .inl ⟨h, srcAnswer_ok h⟩
  · exact .inr (.inl ⟨h, srcAnswer_fail h⟩)
  · exact .inr (.inr ⟨h, srcAnswer_never h⟩)

/-- A source that starts with `n` bits answers a read of `n` bits with them, as `srcAnswer` does. -/
theorem srcRead_starts {p : BitString} {n : Nat} (hp : p.length = n) (h1 : 1 ≤ n) (h2 : n ≤ 32)
    (hs : s.sourceStarts p) : srcRead n s = srcAnswer n (valOf p) s := by
  obtain ⟨rest, hr⟩ := hs
  have hlen : s.src.pos + n ≤ s.src.bits.length ∨ n = 0 := by
    have := congrArg List.length hr
    simp at this
    omega
  have hnext : s.nextBits n = p := by
    unfold State.nextBits
    rw [← hr, ← hp]; simp
  unfold srcRead
  rw [if_pos ⟨h1, h2⟩, if_pos (by omega), hnext]

/-- A read of a value is the read of the next bits. -/
theorem srcRead_enough {n : Nat} (h1 : 1 ≤ n) (h2 : n ≤ 32) (hlen : s.src.pos + n ≤ s.src.bits.length) :
    srcRead n s = srcAnswer n (valOf (s.nextBits n)) s := by
  unfold srcRead
  rw [if_pos ⟨h1, h2⟩, if_pos hlen]

theorem State.length_nextBits {n : Nat} (hlen : s.src.pos + n ≤ s.src.bits.length) : (s.nextBits n).length = n := by
  simp [State.nextBits]; omega

theorem srcRead_eos {n : Nat} (h1 : 1 ≤ n) (h2 : n ≤ 32) (ha : s.answer = .ok) (hs : s.sourceShort n)
    (hp : s.src.pos ≤ s.src.bits.length) :
    ∃ p, s.src.pos ≤ p ∧ p ≤ s.src.bits.length ∧ srcRead n s = .eos (s.afterMiss n .eos p) := by
  have hr := (s.issue (.read n .eos)).drawPos_range s.src.pos (by simpa using hp)
  refine ⟨_, hr.1, hr.2, ?_⟩
  unfold State.sourceShort at hs
  unfold srcRead
  rw [if_pos ⟨h1, h2⟩, if_neg (by omega)]
  simp only [ha]; rfl

theorem srcRead_fail {n : Nat} (h1 : 1 ≤ n) (h2 : n ≤ 32) (ha : s.answer = .fail) :
    ∃ p, p ≤ s.src.bits.length ∧ srcRead n s = .fail (s.afterMiss n .fail p) := by
  unfold srcRead
  rw [if_pos ⟨h1, h2⟩]
  split
  · exact srcAnswer_fail ha
  · refine ⟨_, ((s.issue (.read n .fail)).drawPos_range 0 (by simp)).2, ?_⟩
    simp only [ha]; rfl

theorem srcRead_never {n : Nat} (h1 : 1 ≤ n) (h2 : n ≤ 32) (ha : s.answer = .never) : srcRead n s = .never := by
  unfold srcRead
  rw [if_pos ⟨h1, h2⟩]
  split
  · exact srcAnswer_never ha
  · simp only [ha]

/-- Everything a read of 1 to 32 bits can do, from a state whose position is inside the source. -/
theorem srcRead_cases {n : Nat} (h1 : 1 ≤ n) (h2 : n ≤ 32) (hp : s.src.pos ≤ s.src.bits.length) :
    (s.answer = .ok ∧ s.src.pos + n ≤ s.src.bits.length ∧
      srcRead n s = .value (valOf (s.nextBits n)) (s.afterRead n (valOf (s.nextBits n)))) ∨
    (s.answer = .ok ∧ s.sourceShort n ∧
      ∃ p, s.src.pos ≤ p ∧ p ≤ s.src.bits.length ∧ srcRead n s = .eos (s.afterMiss n .eos p)) ∨
    (s.answer = .fail ∧ ∃ p, p ≤ s.src.bits.length ∧ srcRead n s = .fail (s.afterMiss n .fail p)) ∨
    (s.answer = .never ∧ srcRead n s = .never) := by
  rcases s.answer_cases with h | h | h
  · by_cases hlen : s.src.pos + n ≤ s.src.bits.length
    · exact .inl ⟨h, hlen, by rw [srcRead_enough h1 h2 hlen, srcAnswer_ok h]⟩
    · have hs : s.sourceShort n := by unfold State.sourceShort; omega
      exact .inr (.inl ⟨h, hs, srcRead_eos h1 h2 h hs hp⟩)
  · exact .inr (.inr (.inl ⟨h, srcRead_fail h1 h2 h⟩))
  · exact .inr (.inr (.inr ⟨h, srcRead_never h1 h2 h⟩))

/-! ### SnkWrite, SnkClose, SrcRewind -/

theorem snkWrite_ok {n v : Nat} (h1 : 1 ≤ n) (h2 : n ≤ 32) (hv : v < 2 ^ n) (hc : s.snk.closed = false)
    (ha : s.answer = .ok) : snkWrite n v s = .ok (s.afterWrite n v) := by
  unfold snkWrite
  rw [if_pos ⟨h1, h2, hv⟩]
  simp only [hc, ha]; rfl

theorem snkWrite_fail {n v : Nat} (h1 : 1 ≤ n) (h2 : n ≤ 32) (hv : v < 2 ^ n) (hc : s.snk.closed = false)
    (ha : s.answer = .fail) : snkWrite n v s = .fail (s.issue (.write n v false)) := by
  unfold snkWrite
  rw [if_pos ⟨h1, h2, hv⟩]
  simp [hc, ha]

theorem snkWrite_never {n v : Nat} (h1 : 1 ≤ n) (h2 : n ≤ 32) (hv : v < 2 ^ n) (hc : s.snk.closed = false)
    (ha : s.answer = .never) : snkWrite n v s = .never := by
  unfold snkWrite
  rw [if_pos ⟨h1, h2, hv⟩]
  simp [hc, ha]

theorem snkWrite_closed {n v : Nat} (h1 : 1 ≤ n) (h2 : n ≤ 32) (hv : v < 2 ^ n) (hc : s.snk.closed = true) :
    snkWrite n v s = .refused .sinkWriteAfterClose := by
  unfold snkWrite
  rw [if_pos ⟨h1, h2, hv⟩]
  simp [hc]

/-- Everything a write that keeps the contract can do. -/
theorem snkWrite_cases {n v : Nat} (h1 : 1 ≤ n) (h2 : n ≤ 32) (hv : v < 2 ^ n) (s : State) :
    (s.snk.closed = false ∧ s.answer = .ok ∧ snkWrite n v s = .ok (s.afterWrite n v)) ∨
    (s.snk.closed = false ∧ s.answer = .fail ∧ snkWrite n v s = .fail (s.issue (.write n v false))) ∨
    (s.snk.closed = false ∧ s.answer = .never ∧ snkWrite n v s = .never) ∨
    (s.snk.closed = true ∧ snkWrite n v s = .refused .sinkWriteAfterClose) := by
  cases hc : s.snk.closed
  · rcases s.answer_cases with h | h | h
    · exact .inl ⟨rfl, h, snkWrite_ok h1 h2 hv hc h⟩
    · exact .inr (.inl ⟨rfl, h, snkWrite_fail h1 h2 hv hc h⟩)
    · exact .inr (.inr (.inl ⟨rfl, h, snkWrite_never h1 h2 hv hc h⟩))
  · exact .inr (.inr (.inr ⟨rfl, snkWrite_closed h1 h2 hv hc⟩))

theorem snkClose_ok (ha : s.answer = .ok) : snkClose s = .ok (s.issue (.close true)).closeSink := by
  simp only [snkClose, ha]

theorem snkClose_fail (ha : s.answer = .fail) : snkClose s = .fail (s.issue (.close false)).closeSink := by
  simp only [snkClose, ha]

theorem snkClose_never (ha : s.answer = .never) : snkClose s = .never := by
  simp only [snkClose, ha]

theorem srcRewind_ok (ha : s.answer = .ok) :
    srcRewind s = .ok { s.issue (.rewind true) with src := { bits := s.src.bits, pos := 0 } } := by
  simp only [srcRewind, ha]

theorem srcRewind_fail (ha : s.answer = .fail) :
    ∃ p, p ≤ s.src.bits.length ∧ srcRewind s = .fail { s.issue (.rewind false) with
      src := { bits := s.src.bits, pos := p }, draws := s.draws + 1 } := by
  refine ⟨_, ((s.issue (.rewind false)).drawPos_range 0 (by simp)).2, ?_⟩
  simp only [srcRewind, ha]; rfl

theorem srcRewind_never (ha : s.answer = .never) : srcRewind s = .never := by
  simp only [srcRewind, ha]

/-! ### raise -/

@[simp] theorem State.recordErr_answer (e : ErrKind) : (s.recordErr e).answer = s.answer := by
  simp [State.answer]

/-- The register STK keeps what it held when an error is taken (R240). -/
@[simp] theorem State.enterErr_stkContents : s.enterErr.stkContents = s.stkContents := rfl

/-- An error leaves the register STK what it held (R240) and the stack without an entry (R26; log 23). -/
theorem Raised.stk {e : ErrKind} {s t : State} (h : Raised e s t) : t.stk = [] ∧ t.stkContents = s.stkContents := by
  obtain ⟨answered, bits, pad, draws, rfl⟩ := h
  exact ⟨rfl, rfl⟩

theorem Raised.of_close (e : ErrKind) (answered : Bool) (s : State) :
    Raised e s (((s.recordErr e).issue (.close answered)).closeSink).enterErr := by
  refine ⟨answered, (((s.recordErr e).issue (.close answered)).closeSink).enterErr.snk.bits,
    (((s.recordErr e).issue (.close answered)).closeSink).enterErr.snk.pad, s.draws + 2, ?_⟩
  unfold State.recordErr
  split <;> rfl

/-- `raise` takes the error where the service answers the close (R240). -/
theorem raise_next (e : ErrKind) (h : s.answer ≠ .never) : ∃ t, raise e s = .next t ∧ Raised e s t := by
  rcases s.answer_cases with ha | ha | ha
  · exact ⟨_, by simp only [raise, snkClose_ok (s := s.recordErr e) (by simpa using ha)], Raised.of_close e true s⟩
  · exact ⟨_, by simp only [raise, snkClose_fail (s := s.recordErr e) (by simpa using ha)], Raised.of_close e false s⟩
  · exact absurd ha h

theorem raise_never (e : ErrKind) (h : s.answer = .never) : raise e s = .fault .serviceCallNeverReturns := by
  simp only [raise, snkClose_never (s := s.recordErr e) (by simpa using h)]

/-- Everything `raise` can do. -/
theorem raise_cases (e : ErrKind) (s : State) :
    (s.answer ≠ .never ∧ ∃ t, raise e s = .next t ∧ Raised e s t) ∨
    (s.answer = .never ∧ raise e s = .fault .serviceCallNeverReturns) := by
  by_cases h : s.answer = .never
  · exact .inr ⟨h, raise_never e h⟩
  · exact .inl ⟨h, raise_next e h⟩

/-- If `raise` answers a next state, that is an ERR state (R240). -/
theorem raise_raised {e : ErrKind} (h : raise e s = .next t) : Raised e s t := by
  rcases raise_cases e s with ⟨-, u, hu, hr⟩ | ⟨-, hf⟩
  · rw [hu] at h; cases h; exact hr
  · rw [hf] at h; cases h

/-! ### Going on after a call -/

@[simp] theorem onRead_value (v : Nat) (s : State) (f : Nat → State → Out) (g : State → Out) :
    onRead (.value v s) f g = f v s := rfl
@[simp] theorem onRead_eos (s : State) (f : Nat → State → Out) (g : State → Out) : onRead (.eos s) f g = g s := rfl
@[simp] theorem onRead_fail (s : State) (f : Nat → State → Out) (g : State → Out) :
    onRead (.fail s) f g = raise .ioFailure s := rfl
@[simp] theorem onRead_never (f : Nat → State → Out) (g : State → Out) :
    onRead .never f g = .fault .serviceCallNeverReturns := rfl
@[simp] theorem onRead_refused (r : Refusal) (f : Nat → State → Out) (g : State → Out) :
    onRead (.refused r) f g = .refused r := rfl
@[simp] theorem onCall_ok (s : State) (k : State → Out) : onCall (.ok s) k = k s := rfl
@[simp] theorem onCall_fail (s : State) (k : State → Out) : onCall (.fail s) k = raise .ioFailure s := rfl
@[simp] theorem onCall_never (k : State → Out) : onCall .never k = .fault .serviceCallNeverReturns := rfl
@[simp] theorem onCall_refused (r : Refusal) (k : State → Out) : onCall (.refused r) k = .refused r := rfl

/-! ### Cells, children and the stack -/

theorem withNode_some {i : Nat} {n : Node} (h : s.nodeAt i = some n) (k : Node → Out) : withNode s i k = k n := by
  simp only [withNode, h]

theorem withNode_none {i : Nat} (h : s.nodeAt i = none) (k : Node → Out) :
    withNode s i k = .fault .unwrittenNode := by
  simp only [withNode, h]

/-- If reading a node goes on to a next state, the node was written. -/
theorem withNode_next {i : Nat} {k : Node → Out} (h : withNode s i k = .next t) :
    ∃ n, s.nodeAt i = some n ∧ k n = .next t := by
  unfold withNode at h
  split at h
  · exact ⟨_, by assumption, h⟩
  · cases h

@[simp] theorem withChild_some (i : Nat) (k : Nat → Out) : withChild (some i) k = k i := rfl
@[simp] theorem withChild_none (k : Nat → Out) : withChild none k = .fault .unwrittenChild := rfl

theorem withChild_next {c : Option Nat} {k : Nat → Out} (h : withChild c k = .next t) :
    ∃ i, c = some i ∧ k i = .next t := by
  cases c with
  | none => cases h
  | some i => exact ⟨i, rfl, h⟩

theorem storeNode_room {k : Nat} {n : Node} (h : k < s.params.nodeCap) (cont : State → Out) :
    storeNode k n s cont = cont (s.setNode k n) := if_pos h

theorem storeNode_next {k : Nat} {n : Node} {cont : State → Out} (h : storeNode k n s cont = .next t) :
    k < s.params.nodeCap ∧ cont (s.setNode k n) = .next t := by
  unfold storeNode at h
  split at h
  · exact ⟨by assumption, h⟩
  · cases h

theorem push_room {e : StkEntry} (h : s.stk.length ≤ s.params.nodeCap) (k : State → Out) :
    push e s k = k { s with stk := e :: s.stk } := by
  unfold push State.stkCap
  rw [if_pos (by omega)]

/-- Everything `push` can do: go on with room for the entry, or raise TreeCapacity (R26). -/
theorem push_cases (e : StkEntry) (s : State) (k : State → Out) :
    (s.stk.length ≤ s.params.nodeCap ∧ push e s k = k { s with stk := e :: s.stk }) ∨
    (s.params.nodeCap < s.stk.length ∧ push e s k = raise .treeCapacity s) := by
  by_cases h : s.stk.length ≤ s.params.nodeCap
  · exact .inl ⟨h, push_room h k⟩
  · refine .inr ⟨by omega, ?_⟩
    unfold push State.stkCap
    rw [if_neg (by omega)]

/-- What a `fill` that goes on has done (R192). -/
theorem fill_next {q : Slot} {k : Nat} (h : fill q k s = .next t) :
    (q = .root ∧ t = { s with root := k, rootV := true }) ∨
    ∃ i side n n', q = .child i side ∧ s.nodeAt i = some n ∧ nodeWithChild side k n = some n' ∧ t = s.setNode i n' := by
  unfold fill at h
  split at h
  · cases h; exact .inl ⟨rfl, rfl⟩
  · next i side =>
    obtain ⟨n, hn, hk⟩ := withNode_next h
    split at hk
    · next n' hn' => cases hk; exact .inr ⟨i, side, n, n', rfl, hn, hn', rfl⟩
    · cases hk

/-- A child of an internal node is filled (R192). -/
theorem nodeWithChild_internal (side : Side) (k : Nat) (w : BitVec Config.wtW) (l r : Option Nat) :
    nodeWithChild side k (.internal w l r) =
      some (match side with | .L => .internal w (some k) r | .R => .internal w l (some k)) := by
  cases side <;> rfl

theorem nodeWithChild_some {side : Side} {k : Nat} {n n' : Node} (h : nodeWithChild side k n = some n') :
    ∃ w l r, n = .internal w l r ∧
      ((side = .L ∧ n' = .internal w (some k) r) ∨ (side = .R ∧ n' = .internal w l (some k))) := by
  cases n with
  | leaf w sym => cases h
  | internal w l r =>
    refine ⟨w, l, r, rfl, ?_⟩
    cases side <;> simp_all [nodeWithChild]

/-! ### The priority structure -/

theorem State.mem_pq {i : Nat} : i ∈ s.pq ↔ (i, true) ∈ s.inpq ∧ i < s.nNodes := by
  unfold State.pq
  simp only [List.mem_map, List.mem_filter, Bool.and_eq_true, decide_eq_true_eq, Prod.exists]
  constructor
  · rintro ⟨a, b, ⟨hm, hb, hn⟩, rfl⟩
    exact ⟨hb ▸ hm, hn⟩
  · rintro ⟨hm, hn⟩
    exact ⟨i, true, ⟨hm, rfl, hn⟩, rfl⟩

theorem leastOf_mem {node : Memory Node} {is : List Nat} {w : BitVec Config.wtW} {m : Nat}
    (h : leastOf node is = .ok (w, m)) : m ∈ is ∧ ∃ n, Memory.find? node m = some n ∧ nodeWeight n = w := by
  induction is generalizing w m with
  | nil => cases h
  | cons i is ih =>
    cases is with
    | nil =>
      simp only [leastOf] at h
      split at h
      · cases h
      · next n hn => cases h; exact ⟨by simp, n, hn, rfl⟩
    | cons j is =>
      simp only [leastOf] at h
      split at h
      · cases h
      · cases h
      · next n w' m' hn hl =>
        obtain ⟨hm, hw⟩ := ih hl
        split at h
        · cases h; exact ⟨by simp, n, hn, rfl⟩
        · cases h; exact ⟨List.mem_cons_of_mem _ hm, hw⟩

/-- `extract_min` finds a node wherever the set is not empty and its members are written (R154). -/
theorem leastOf_ok {node : Memory Node} {is : List Nat} (hne : is ≠ [])
    (hw : ∀ i ∈ is, ∃ n, Memory.find? node i = some n) : ∃ w m, leastOf node is = .ok (w, m) := by
  induction is with
  | nil => exact absurd rfl hne
  | cons i is ih =>
    obtain ⟨n, hn⟩ := hw i (by simp)
    cases is with
    | nil => exact ⟨nodeWeight n, i, by simp only [leastOf, hn]⟩
    | cons j is =>
      obtain ⟨w, m, hl⟩ := ih (by simp) (fun k hk => hw k (List.mem_cons_of_mem _ hk))
      simp only [leastOf, hn, hl]
      split <;> exact ⟨_, _, rfl⟩

/-- The node found comes before every other of the set in the order of R153. -/
theorem leastOf_least {node : Memory Node} {is : List Nat} {w : BitVec Config.wtW} {m : Nat}
    (h : leastOf node is = .ok (w, m)) :
    ∀ i ∈ is, ∀ n, Memory.find? node i = some n → i = m ∨ comesBefore w m (nodeWeight n) i = true := by
  induction is generalizing w m with
  | nil => cases h
  | cons i is ih =>
    cases is with
    | nil =>
      simp only [leastOf] at h
      split at h
      · cases h
      · cases h
        intro k hk _ _
        simp at hk
        exact .inl hk
    | cons j is =>
      simp only [leastOf] at h
      split at h
      · cases h
      · cases h
      · next n w' m' hn hl =>
        have hrec := ih hl
        unfold comesBefore at *
        simp only [decide_eq_true_eq] at *
        split at h
        · next hb =>
          cases h
          intro k hk n' hn'
          rcases List.mem_cons.1 hk with rfl | hk
          · exact .inl rfl
          · rcases hrec k hk n' hn' with rfl | hlt
            · obtain ⟨-, n2, hn2, hw2⟩ := leastOf_mem hl
              rw [hn'] at hn2
              cases hn2
              rw [hw2]
              omega
            · omega
        · next hb =>
          cases h
          intro k hk n' hn'
          rcases List.mem_cons.1 hk with rfl | hk
          · rw [hn] at hn'
            cases hn'
            omega
          · exact hrec k hk n' hn'

/-! ### write_code -/

/-- A chunk of a path keeps the sink's contract (R67). -/
theorem chunk_bounds {p : BitString} (hp : p ≠ []) :
    1 ≤ min 32 p.length ∧ min 32 p.length ≤ 32 ∧ valOf (p.take 32) < 2 ^ min 32 p.length := by
  have hl : 0 < p.length := List.length_pos_iff.2 hp
  refine ⟨by omega, by omega, ?_⟩
  exact valOf_lt_of_length (by simp)

/-- `write_code(p)` appends `p` where every call is answered normally (R202). -/
theorem writeChunks_ok : ∀ (fuel : Nat) (p : BitString) (s : State), p.length ≤ fuel → s.snk.closed = false →
    s.ioOk (codeChunks fuel p).length = true →
    writeChunks fuel p s = .ok { s with
      snk := { s.snk with bits := s.snk.bits ++ p }
      io := s.io.drop (codeChunks fuel p).length
      trace := ((codeChunks fuel p).map fun c => Call.write c.length (valOf c) true).reverse ++ s.trace }
  | 0, p, s, hp, _, _ => by
    obtain rfl := List.length_eq_zero_iff.1 (Nat.le_zero.1 hp)
    simp [writeChunks, codeChunks]
  | fuel + 1, p, s, hp, hc, hio => by
    unfold writeChunks codeChunks
    by_cases hnil : p = []
    · subst hnil; simp
    · have hb := chunk_bounds hnil
      simp only [codeChunks, if_neg hnil, List.length_cons] at hio ⊢
      obtain ⟨ha, hrest⟩ := (State.ioOk_succ _).1 hio
      have hl : 0 < p.length := List.length_pos_iff.2 hnil
      rw [snkWrite_ok hb.1 hb.2.1 hb.2.2 hc ha]
      dsimp only
      rw [writeChunks_ok fuel (p.drop 32) _ (by simp; omega) (by simpa [State.afterWrite] using hc)
        (by simpa [State.ioOk, State.afterWrite] using hrest)]
      have htake : bitsOf (min 32 p.length) (valOf (p.take 32)) = p.take 32 :=
        bitsOf_valOf_of_length (by simp)
      simp [State.afterWrite, htake]

theorem writeCode_ok {p : BitString} (hc : s.snk.closed = false)
    (hio : s.ioOk (codeChunks p.length p).length = true) : writeCode p s = .ok (s.afterCode p) :=
  writeChunks_ok p.length p s le_rfl hc hio

/-- `write_code(p)` comes to the chunk `c` after the chunks `written`: what the service answers there, where it does
not answer normally, is what the whole comes to (R202, R235). -/
theorem writeChunks_stopped : ∀ (fuel : Nat) (p : BitString) (s : State) (written : List BitString) (c : BitString)
    (left : List BitString), codeChunks fuel p = written ++ c :: left → s.snk.closed = false →
    s.ioOk written.length = true →
    ((s.afterChunks written).answer = .fail →
      writeChunks fuel p s = .fail ((s.afterChunks written).issue (.write c.length (valOf c) false))) ∧
    ((s.afterChunks written).answer = .never → writeChunks fuel p s = .never)
  | 0, _, _, written, _, _, h, _, _ => by simp [codeChunks] at h
  | fuel + 1, p, s, written, c, left, h, hc, hio => by
    by_cases hnil : p = []
    · simp [codeChunks, hnil] at h
    · have hb := chunk_bounds hnil
      have hlen : (p.take 32).length = min 32 p.length := by simp
      simp only [codeChunks, if_neg hnil] at h
      unfold writeChunks
      rw [if_neg hnil]
      cases written with
      | nil =>
        obtain ⟨rfl, -⟩ := List.cons.inj h
        have h0 : s.afterChunks [] = s := by simp [State.afterChunks]
        rw [h0, hlen]
        exact ⟨fun ha => by rw [snkWrite_fail hb.1 hb.2.1 hb.2.2 hc ha],
          fun ha => by rw [snkWrite_never hb.1 hb.2.1 hb.2.2 hc ha]⟩
      | cons d written =>
        obtain ⟨rfl, htail⟩ := List.cons.inj (h.trans (List.cons_append ..))
        obtain ⟨ha, hrest⟩ := (State.ioOk_succ (s := s) written.length).1 (by simpa using hio)
        have htake : bitsOf (min 32 p.length) (valOf (p.take 32)) = p.take 32 := bitsOf_valOf_of_length hlen
        have h0 : (s.afterWrite (min 32 p.length) (valOf (p.take 32))).afterChunks written =
            s.afterChunks (p.take 32 :: written) := by
          simp [State.afterChunks, State.afterWrite, htake]
        rw [snkWrite_ok hb.1 hb.2.1 hb.2.2 hc ha, ← h0]
        exact writeChunks_stopped fuel (p.drop 32) _ written c left htail (by simpa [State.afterWrite] using hc)
          (by simpa [State.ioOk, State.afterWrite] using hrest)

theorem writeCode_fail {p : BitString} {written : List BitString} {c : BitString} {left : List BitString}
    (h : codeChunks p.length p = written ++ c :: left) (hc : s.snk.closed = false) (hio : s.ioOk written.length = true)
    (ha : (s.afterChunks written).answer = .fail) :
    writeCode p s = .fail ((s.afterChunks written).issue (.write c.length (valOf c) false)) :=
  (writeChunks_stopped p.length p s written c left h hc hio).1 ha

theorem writeCode_never {p : BitString} {written : List BitString} {c : BitString} {left : List BitString}
    (h : codeChunks p.length p = written ++ c :: left) (hc : s.snk.closed = false) (hio : s.ioOk written.length = true)
    (ha : (s.afterChunks written).answer = .never) : writeCode p s = .never :=
  (writeChunks_stopped p.length p s written c left h hc hio).2 ha

/-- Everything `write_code` can do to an open sink. Where it comes to an answer, only the sink's bits, the service's
answers and the trace have changed. -/
theorem writeChunks_cases : ∀ (fuel : Nat) (p : BitString) (s : State), s.snk.closed = false →
    (∃ bits io trace, (writeChunks fuel p s = .ok { s with snk := { s.snk with bits := bits }, io := io, trace := trace } ∨
      writeChunks fuel p s = .fail { s with snk := { s.snk with bits := bits }, io := io, trace := trace }) ∧
      io <:+ s.io ∧ closeCount trace = closeCount s.trace ∧ readCount trace = readCount s.trace ∧
      (s.trace.all callInContract = true → trace.all callInContract = true)) ∨
    (writeChunks fuel p s = .never ∧ IoAnswer.never ∈ s.io)
  | 0, p, s, _ => .inl ⟨s.snk.bits, s.io, s.trace, .inl rfl, List.suffix_refl _, rfl, rfl, id⟩
  | fuel + 1, p, s, hc => by
    by_cases hnil : p = []
    · exact .inl ⟨s.snk.bits, s.io, s.trace, .inl (by simp [writeChunks, hnil]), List.suffix_refl _, rfl, rfl, id⟩
    · have hb := chunk_bounds hnil
      have hcall : ∀ ok, callInContract (.write (min 32 p.length) (valOf (p.take 32)) ok) = true := by
        intro ok; simpa [callInContract] using hb
      unfold writeChunks
      rw [if_neg hnil]
      rcases snkWrite_cases hb.1 hb.2.1 hb.2.2 s with ⟨-, -, h⟩ | ⟨-, -, h⟩ | ⟨-, ha, h⟩ | ⟨h, -⟩
      · rw [h]
        dsimp only
        rcases writeChunks_cases fuel (p.drop 32) (s.afterWrite (min 32 p.length) (valOf (p.take 32)))
          (by simpa [State.afterWrite] using hc) with ⟨bits, io, trace, h', hio, hcl, hrd, htr⟩ | ⟨h', hmem⟩
        · refine .inl ⟨bits, io, trace, h', hio.trans (List.tail_suffix _), ?_, ?_, ?_⟩
          · simpa [State.afterWrite, closeCount] using hcl
          · simpa [State.afterWrite, readCount] using hrd
          · intro hall
            apply htr
            simp only [State.afterWrite, List.all_cons, hcall, Bool.true_and]
            exact hall
        · exact .inr ⟨h', List.mem_of_mem_tail hmem⟩
      · rw [h]
        refine .inl ⟨s.snk.bits, s.io.tail, _, .inr rfl, List.tail_suffix _, ?_, ?_, ?_⟩
        · simp [closeCount]
        · simp [readCount]
        · intro hall
          simp only [List.all_cons, hcall, Bool.true_and]
          exact hall
      · rw [h]
        refine .inr ⟨rfl, ?_⟩
        unfold State.answer at ha
        cases hio : s.io with
        | nil => simp [hio] at ha
        | cons a io => simp [hio] at ha; simp [ha]
      · simp [h] at hc

end Sys2Proof.Machine
end

