-- ==== Sys2Proof/Laws/Step.lean ====
section
/-! SUPPORT. What the fetch finds and what a step does with it. -/

namespace Sys2Proof.Machine

variable {s t : State}

theorem decode_phase_code (p : Phase) : decode .phase (bitsOf 4 (phaseCode p)) = .ok (operationOf p, []) := by
  cases p <;> decide

theorem decode_cmd_op (op : BitVec 1) :
    decode .cmd (bitsOf 1 op.toNat) = .ok (if op = 0 then .compress else .decompress, []) := by
  revert op; decide

/-- The fetch always finds the operation selected (R100, R120). -/
theorem fetch_selected (s : State) : fetch s = .ok (selected s, []) := by
  unfold fetch fetchBits selected State.cmdReady
  cases s.busy <;> cases s.cmd <;> simp [decode_phase_code, decode_cmd_op]

theorem step_reset (h : s.rst = true) : step s = .next s.takeReset := by simp [step, h]

/-- A step runs the operation selected. -/
theorem step_selected (h : s.rst = false) : step s = exec (selected s) s := by
  simp [step, h, fetch_selected]

theorem selected_busy (h : s.busy = true) : selected s = operationOf s.phase := by
  unfold selected; rw [h]

theorem selected_waiting (h : s.cmd = none) : selected s = operationOf s.phase := by
  unfold selected; rw [h]; cases s.busy <;> rfl

theorem selected_offered {o : Offer} (hb : s.busy = false) (h : s.cmd = some o) :
    selected s = if o.op = 0 then .compress else .decompress := by
  unfold selected; rw [hb, h]

theorem step_busy (hr : s.rst = false) (h : s.busy = true) : step s = exec (operationOf s.phase) s := by
  rw [step_selected hr, selected_busy h]

/-- What `accept` does to an offer whose streams share no storage (R120). -/
theorem accept_next {o : Offer} (h : o.shared = false) (op : BitVec 1) :
    accept op o s = .next { s.initBlock with
      mode := op, phase := if op = 0 then .cnt else .rdMagic, src := o.src, snk := o.snk, cmd := none, trace := [] } := by
  simp [accept, h]

/-- Everything a command word at the port can do. -/
theorem offerCommand_cases (op : BitVec 1) (s : State) :
    (s.busy = true ∧ offerCommand op s = .next s) ∨ (s.busy = false ∧ s.cmd = none ∧ offerCommand op s = .next s) ∨
    ∃ o, s.busy = false ∧ s.cmd = some o ∧ offerCommand op s = accept op o s := by
  unfold offerCommand State.cmdReady
  cases hb : s.busy <;> cases hc : s.cmd <;> simp

end Sys2Proof.Machine
end

