-- ==== Sys2Proof/Laws/Exec.lean ====
section
/-! SUPPORT. For each phase operation, everything it can do when it answers a next state. -/

namespace Sys2Proof.Machine

variable {s t : State}

/-! ### Going on after a call -/

/-- How a read that keeps the contract can go on to a next state. -/
theorem onRead_srcRead_next {n : Nat} {onValue : Nat → State → Out} {onEos : State → Out} (h1 : 1 ≤ n) (h2 : n ≤ 32)
    (h : onRead (srcRead n s) onValue onEos = .next t) :
    (∃ v, v < 2 ^ n ∧ s.src.pos + n ≤ s.src.bits.length ∧ v = valOf (s.nextBits n) ∧
      onValue v (s.afterRead n v) = .next t) ∨
    (∃ p, s.src.pos ≤ p ∧ (s.src.pos ≤ s.src.bits.length → p ≤ s.src.bits.length) ∧ s.sourceShort n ∧
      onEos (s.afterMiss n .eos p) = .next t) ∨
    (∃ p, p ≤ s.src.bits.length ∧ Raised .ioFailure (s.afterMiss n .fail p) t) := by
  rcases s.answer_cases with ha | ha | ha
  · by_cases hl : s.src.pos + n ≤ s.src.bits.length
    · rw [srcRead_enough h1 h2 hl, srcAnswer_ok ha] at h
      exact .inl ⟨_, valOf_lt_of_length (State.length_nextBits hl), hl, rfl, h⟩
    · have hs : s.sourceShort n := by simpa [State.sourceShort] using hl
      unfold srcRead at h
      rw [if_pos ⟨h1, h2⟩, if_neg hl] at h
      simp only [ha, onRead] at h
      refine .inr (.inl ⟨_, Nat.le_add_right _ _, fun hp => ?_, hs, h⟩)
      exact ((s.issue (.read n .eos)).drawPos_range s.src.pos (by simpa using hp)).2
  · obtain ⟨p, hp, e⟩ := srcRead_fail h1 h2 ha
    rw [e] at h
    exact .inr (.inr ⟨p, hp, raise_raised h⟩)
  · rw [srcRead_never h1 h2 ha] at h
    cases h

/-- How an answered read can go on to a next state. -/
theorem onRead_srcAnswer_next {n v : Nat} {onValue : Nat → State → Out} {onEos : State → Out}
    (h : onRead (srcAnswer n v s) onValue onEos = .next t) :
    onValue v (s.afterRead n v) = .next t ∨
    (∃ p, p ≤ s.src.bits.length ∧ Raised .ioFailure (s.afterMiss n .fail p) t) := by
  rcases srcAnswer_cases n v s with ⟨-, e⟩ | ⟨-, p, hp, e⟩ | ⟨-, e⟩
  · rw [e] at h; exact .inl h
  · rw [e] at h; exact .inr ⟨p, hp, raise_raised h⟩
  · rw [e] at h; cases h

/-- How a write that keeps the contract can go on to a next state. -/
theorem onCall_snkWrite_next {n v : Nat} {k : State → Out} (h1 : 1 ≤ n) (h2 : n ≤ 32) (hv : v < 2 ^ n)
    (h : onCall (snkWrite n v s) k = .next t) :
    s.snk.closed = false ∧
      (k (s.afterWrite n v) = .next t ∨ Raised .ioFailure (s.issue (.write n v false)) t) := by
  rcases snkWrite_cases h1 h2 hv s with ⟨hc, -, e⟩ | ⟨hc, -, e⟩ | ⟨-, -, e⟩ | ⟨-, e⟩
  · rw [e] at h; exact ⟨hc, .inl h⟩
  · rw [e] at h; exact ⟨hc, .inr (raise_raised h)⟩
  · rw [e] at h; cases h
  · rw [e] at h; cases h

/-- The state after `write_code` has been answered `i` times, in some run of answers: only the sink's bits, the
service's answers and the trace have changed, and the sink has only grown. -/
def Wrote (s u : State) : Prop :=
  ∃ more io calls, u = { s with
      snk := { s.snk with bits := s.snk.bits ++ more }, io := io, trace := calls ++ s.trace } ∧
    io <:+ s.io ∧ ∀ c ∈ calls, ∃ n v ok, c = .write n v ok ∧ 1 ≤ n ∧ n ≤ 32 ∧ v < 2 ^ n

theorem Wrote.refl (s : State) : Wrote s s := ⟨[], s.io, [], by simp, List.suffix_refl _, by simp⟩

/-- How `write_code` can go on to a next state (R202). -/
theorem onCall_writeChunks_next : ∀ (fuel : Nat) (p : BitString) (s : State) (k : State → Out),
    onCall (writeChunks fuel p s) k = .next t →
    ∃ u, Wrote s u ∧ (k u = .next t ∨ Raised .ioFailure u t)
  | 0, _, s, _, h => ⟨s, Wrote.refl s, .inl h⟩
  | fuel + 1, p, s, k, h => by
    by_cases hp : p = []
    · simp only [writeChunks, if_pos hp, onCall] at h
      exact ⟨s, Wrote.refl s, .inl h⟩
    · obtain ⟨b1, b2, b3⟩ := chunk_bounds hp
      simp only [writeChunks, if_neg hp] at h
      rcases snkWrite_cases b1 b2 b3 s with ⟨-, -, e⟩ | ⟨-, -, e⟩ | ⟨-, -, e⟩ | ⟨-, e⟩
      · simp only [Config.ioMaxN] at h
        rw [e] at h
        obtain ⟨u, ⟨more, io, calls, hu, hio, hc⟩, hk⟩ := onCall_writeChunks_next fuel _ _ k h
        refine ⟨u, ⟨bitsOf (min 32 p.length) (valOf (p.take 32)) ++ more, io,
          calls ++ [.write (min 32 p.length) (valOf (p.take 32)) true], ?_, ?_, ?_⟩, hk⟩
        · rw [hu]; simp [State.afterWrite]
        · exact hio.trans (List.tail_suffix _)
        · intro c hcm
          rcases List.mem_append.1 hcm with hcm | hcm
          · exact hc c hcm
          · exact ⟨_, _, _, by simpa using hcm, b1, b2, b3⟩
      · simp only [Config.ioMaxN] at h
        rw [e] at h
        refine ⟨_, ⟨[], s.io.tail, [.write (min 32 p.length) (valOf (p.take 32)) false], ?_, ?_, ?_⟩,
          .inr (raise_raised h)⟩
        · simp [State.issue]
        · exact List.tail_suffix _
        · intro c hcm
          exact ⟨_, _, _, by simpa using hcm, b1, b2, b3⟩
      · simp only [Config.ioMaxN] at h
        rw [e] at h; cases h
      · simp only [Config.ioMaxN] at h
        rw [e] at h; cases h

theorem onCall_writeCode_next {p : BitString} {k : State → Out} (h : onCall (writeCode p s) k = .next t) :
    ∃ u, Wrote s u ∧ (k u = .next t ∨ Raised .ioFailure u t) :=
  onCall_writeChunks_next p.length p s k h

/-- How a push can go on to a next state (R26). -/
theorem push_next {e : StkEntry} {k : State → Out} (h : push e s k = .next t) :
    (s.stk.length ≤ s.params.nodeCap ∧ k { s with stk := e :: s.stk } = .next t) ∨
    (s.params.nodeCap < s.stk.length ∧ Raised .treeCapacity s t) := by
  rcases push_cases e s k with ⟨hr, e⟩ | ⟨hr, e⟩
  · exact .inl ⟨hr, e ▸ h⟩
  · exact .inr ⟨hr, raise_raised (e ▸ h)⟩

/-! ### The operations -/

/-- CNT (R141). -/
theorem execCnt_next (h : execCnt s = .next t) :
    (∃ b, b < 2 ^ 8 ∧ t = { s.afterRead 8 b with
      sym := BitVec.ofNat 9 b, freq := Memory.write 0 s.freq b (s.freqAt b + 1) }) ∨
    (∃ b, b < 2 ^ 8 ∧ Raised .countOverflow { s.afterRead 8 b with sym := BitVec.ofNat 9 b } t) ∨
    (∃ p, s.src.pos ≤ p ∧ (s.src.pos ≤ s.src.bits.length → p ≤ s.src.bits.length) ∧ s.sourceShort 8 ∧
      t = { s.afterMiss 8 .eos p with phase := .bldInit, sym := 0 }) ∨
    (∃ p, p ≤ s.src.bits.length ∧ Raised .ioFailure (s.afterMiss 8 .fail p) t) := by
  rcases onRead_srcRead_next (by omega) (by omega) h with ⟨b, hb, -, -, h⟩ | ⟨p, h1, h2, h3, h⟩ | h
  · unfold countByte at h
    split at h
    · exact .inr (.inl ⟨b, hb, raise_raised h⟩)
    · cases h; exact .inl ⟨b, hb, rfl⟩
  · cases h; exact .inr (.inr (.inl ⟨p, h1, h2, h3, rfl⟩))
  · exact .inr (.inr (.inr h))

/-- BLD_INIT (R152). -/
theorem execBldInit_next (h : execBldInit s = .next t) :
    s.sym.toNat ≤ 256 ∧
    ((s.freqAt s.sym.toNat = 0 ∧ t = nextSymbol s) ∨
     (s.freqAt s.sym.toNat ≠ 0 ∧ s.nNodes < s.params.nodeCap ∧
      t = nextSymbol { s with
        node := Memory.put s.node s.nNodes (.leaf ((s.freqAt s.sym.toNat).setWidth 41) s.sym)
        inpq := Memory.write false s.inpq s.nNodes true
        nNodes := s.nNodes + 1 })) := by
  unfold execBldInit at h
  split at h
  · next hs =>
    refine ⟨hs, ?_⟩
    split at h
    · next hf => cases h; exact .inl ⟨hf, rfl⟩
    · next hf =>
      obtain ⟨hr, h⟩ := storeNode_next h
      cases h
      exact .inr ⟨hf, hr, rfl⟩
  · cases h

/-- The end of a BLD_INIT step moves to the next symbol or to BLD_MERGE, and does nothing else. -/
theorem nextSymbol_cases (s : State) :
    (s.sym.toNat = 256 ∧ nextSymbol s = { s with phase := .bldMerge }) ∨
    (s.sym.toNat ≠ 256 ∧ nextSymbol s = { s with sym := s.sym + 1 }) := by
  unfold nextSymbol
  split
  · exact .inl ⟨by assumption, rfl⟩
  · exact .inr ⟨by assumption, rfl⟩

theorem extractMin_next {k : Nat → State → Out} (h : extractMin s k = .next t) :
    ∃ w m, leastOf s.node s.pq = .ok (w, m) ∧
      k m { s with inpq := Memory.write false s.inpq m false } = .next t := by
  unfold extractMin at h
  split at h
  · cases h
  · exact ⟨_, _, by assumption, h⟩

/-- BLD_MERGE (R155). -/
theorem execBldMerge_next (h : execBldMerge s = .next t) :
    (∃ r, s.pq = [r] ∧ t = { s with
      root := r, rootV := true, inpq := Memory.write false s.inpq r false, stk := [.pair r []], phase := .gen }) ∨
    (∃ a b wa wb na nb, 2 ≤ s.pq.length ∧ leastOf s.node s.pq = .ok (wa, a) ∧
      leastOf s.node ({ s with inpq := Memory.write false s.inpq a false } : State).pq = .ok (wb, b) ∧
      s.nodeAt a = some na ∧ s.nodeAt b = some nb ∧ s.nNodes < s.params.nodeCap ∧
      t = { s with
        node := Memory.put s.node s.nNodes (.internal (nodeWeight na + nodeWeight nb) (some a) (some b))
        inpq := Memory.write false (Memory.write false (Memory.write false s.inpq a false) b false) s.nNodes true
        nNodes := s.nNodes + 1 }) := by
  unfold execBldMerge at h
  split at h
  · cases h
  · next r hr => cases h; exact .inl ⟨r, hr, rfl⟩
  · next hpq =>
    unfold mergeTwo at h
    obtain ⟨wa, a, ha, h⟩ := extractMin_next h
    obtain ⟨wb, b, hb, h⟩ := extractMin_next h
    obtain ⟨na, hna, h⟩ := withNode_next h
    obtain ⟨nb, hnb, h⟩ := withNode_next h
    obtain ⟨hr, h⟩ := storeNode_next h
    cases h
    exact .inr ⟨a, b, wa, wb, na, nb, by simp [hpq], ha, hb, hna, hnb, hr, rfl⟩

/-- GEN (R173). The stack of a raised TreeCapacity holds what was left of it. -/
theorem execGen_next (h : execGen s = .next t) :
    (s.stk = [] ∧ t = { s with phase := .wrMagic }) ∨
    (∃ i p rest w sym, s.stk = .pair i p :: rest ∧ s.nodeAt i = some (.leaf w sym) ∧ sym.toNat ≤ 256 ∧
      t = { s with stk := rest, code := Memory.put s.code sym.toNat p }) ∨
    (∃ i p rest w l r, s.stk = .pair i p :: rest ∧ s.nodeAt i = some (.internal w (some l) (some r)) ∧
      rest.length + 1 ≤ s.params.nodeCap ∧
      t = { s with stk := .pair l (p ++ [false]) :: .pair r (p ++ [true]) :: rest }) ∨
    (∃ i p rest w l r stk, s.stk = .pair i p :: rest ∧ s.nodeAt i = some (.internal w l r) ∧
      s.params.nodeCap < rest.length + 1 ∧ stk.length ≤ rest.length + 1 ∧
      (rest.length ≤ s.params.nodeCap + 1 → stk.length ≤ s.params.nodeCap + 1) ∧
      Raised .treeCapacity { s with stk := stk } t) := by
  unfold execGen at h
  split at h
  · cases h; exact .inl ⟨by assumption, rfl⟩
  · next i p rest hst =>
    obtain ⟨n, hn, h⟩ := withNode_next h
    cases n with
    | leaf w sym =>
      simp only [recordCode] at h
      split at h
      · next hs => cases h; exact .inr (.inl ⟨i, p, rest, w, sym, hst, hn, hs, rfl⟩)
      · cases h
    | internal w l r =>
      obtain ⟨r', e, h₁⟩ := withChild_next h
      clear h; subst e
      rcases push_next h₁ with ⟨hr, h⟩ | ⟨hr, h⟩
      · obtain ⟨l', e, h₂⟩ := withChild_next h
        clear h; subst e
        rcases push_next h₂ with ⟨hl, h⟩ | ⟨hl, h⟩
        · cases h
          exact .inr (.inr (.inl ⟨i, p, rest, w, l', r', hst, hn, hl, rfl⟩))
        · exact .inr (.inr (.inr ⟨i, p, rest, w, _, _, .pair r' (p ++ [true]) :: rest, hst, hn, hl, le_rfl,
            fun _ => Nat.succ_le_succ hr, h⟩))
      · have hr : s.params.nodeCap < rest.length := hr
        exact .inr (.inr (.inr ⟨i, p, rest, w, _, _, rest, hst, hn, by omega, by omega, id, h⟩))
  · cases h
  · cases h

/-- WR_MAGIC (R181). -/
theorem execWrMagic_next (h : execWrMagic s = .next t) :
    s.snk.closed = false ∧
    (t = { s.afterWrite 32 s.params.magic.toNat with stk := [.index s.root], phase := .wrHdr } ∨
     Raised .ioFailure (s.issue (.write 32 s.params.magic.toNat false)) t) := by
  obtain ⟨hc, h | h⟩ := onCall_snkWrite_next (by omega) (by omega) s.params.magic.isLt h
  · cases h; exact ⟨hc, .inl rfl⟩
  · exact ⟨hc, .inr h⟩

/-- WR_HDR (R185). The stack of a raised TreeCapacity holds what was left of it. -/
theorem execWrHdr_next (h : execWrHdr s = .next t) :
    (s.stk = [] ∧ t = { s with phase := .rewind }) ∨
    (∃ i rest n, s.stk = .index i :: rest ∧ s.nodeAt i = some n ∧ s.snk.closed = false ∧
      ((∃ w sym, n = .leaf w sym ∧
          (t = { (s.afterWrite 1 1).afterWrite 9 sym.toNat with stk := rest } ∨
           Raised .ioFailure { s.issue (.write 1 1 false) with stk := rest } t ∨
           Raised .ioFailure { (s.afterWrite 1 1).issue (.write 9 sym.toNat false) with stk := rest } t)) ∨
       (∃ w l r, n = .internal w (some l) (some r) ∧ rest.length + 1 ≤ s.params.nodeCap ∧
          t = { s.afterWrite 1 0 with stk := .index l :: .index r :: rest }) ∨
       (∃ w l r, n = .internal w l r ∧ Raised .ioFailure { s.issue (.write 1 0 false) with stk := rest } t) ∨
       (∃ w l r stk, n = .internal w l r ∧ s.params.nodeCap < rest.length + 1 ∧ stk.length ≤ rest.length + 1 ∧
          (rest.length ≤ s.params.nodeCap + 1 → stk.length ≤ s.params.nodeCap + 1) ∧
          Raised .treeCapacity { s.afterWrite 1 0 with stk := stk } t))) := by
  unfold execWrHdr at h
  split at h
  · cases h; exact .inl ⟨by assumption, rfl⟩
  · next i rest hst =>
    obtain ⟨n, hn, h⟩ := withNode_next h
    cases n with
    | leaf w sym =>
      obtain ⟨hc, h | h⟩ := onCall_snkWrite_next (by omega) (by omega) (by omega) h
      · obtain ⟨-, h | h⟩ := onCall_snkWrite_next (by omega) (by omega) sym.isLt h
        · cases h; exact .inr ⟨i, rest, _, hst, hn, hc, .inl ⟨w, sym, rfl, .inl rfl⟩⟩
        · exact .inr ⟨i, rest, _, hst, hn, hc, .inl ⟨w, sym, rfl, .inr (.inr h)⟩⟩
      · exact .inr ⟨i, rest, _, hst, hn, hc, .inl ⟨w, sym, rfl, .inr (.inl h)⟩⟩
    | internal w l r =>
      obtain ⟨hc, h | h⟩ := onCall_snkWrite_next (by omega) (by omega) (by omega) h
      · obtain ⟨r', e, h₁⟩ := withChild_next h
        clear h; subst e
        rcases push_next h₁ with ⟨hr, h⟩ | ⟨hr, h⟩
        · obtain ⟨l', e, h₂⟩ := withChild_next h
          clear h; subst e
          rcases push_next h₂ with ⟨hl, h⟩ | ⟨hl, h⟩
          · cases h
            exact .inr ⟨i, rest, _, hst, hn, hc, .inr (.inl ⟨w, l', r', rfl, hl, rfl⟩)⟩
          · exact .inr ⟨i, rest, _, hst, hn, hc, .inr (.inr (.inr ⟨w, _, _, .index r' :: rest, rfl, hl, le_rfl, fun _ =>
              Nat.succ_le_succ hr, h⟩))⟩
        · have hr : s.params.nodeCap < rest.length := hr
          exact .inr ⟨i, rest, _, hst, hn, hc, .inr (.inr (.inr ⟨w, _, _, rest, rfl, by omega, by omega, id, h⟩))⟩
      · exact .inr ⟨i, rest, _, hst, hn, hc, .inr (.inr (.inl ⟨w, l, r, rfl, h⟩))⟩
  · cases h
  · cases h

/-- REWIND (R200). -/
theorem execRewind_next (h : execRewind s = .next t) :
    t = { s.issue (.rewind true) with src := { bits := s.src.bits, pos := 0 }, phase := .enc } ∨
    ∃ p, p ≤ s.src.bits.length ∧ Raised .ioFailure { s.issue (.rewind false) with
      src := { bits := s.src.bits, pos := p }, draws := s.draws + 1 } t := by
  unfold execRewind at h
  rcases s.answer_cases with ha | ha | ha
  · rw [srcRewind_ok ha] at h; cases h; exact .inl rfl
  · obtain ⟨p, hp, e⟩ := srcRewind_fail ha
    rw [e] at h; exact .inr ⟨p, hp, raise_raised h⟩
  · rw [srcRewind_never ha] at h; cases h

/-- ENC (R201). -/
theorem execEnc_next (h : execEnc s = .next t) :
    (∃ b, b < 2 ^ 8 ∧ ∃ u, Wrote { s.afterRead 8 b with sym := BitVec.ofNat 9 b } u ∧
      (t = u ∨ Raised .ioFailure u t)) ∨
    (∃ b, b < 2 ^ 8 ∧ s.codeAt b = none ∧ Raised .noCode { s.afterRead 8 b with sym := BitVec.ofNat 9 b } t) ∨
    (∃ p, s.src.pos ≤ p ∧ (s.src.pos ≤ s.src.bits.length → p ≤ s.src.bits.length) ∧ s.sourceShort 8 ∧
      t = { s.afterMiss 8 .eos p with phase := .encEof }) ∨
    (∃ p, p ≤ s.src.bits.length ∧ Raised .ioFailure (s.afterMiss 8 .fail p) t) := by
  rcases onRead_srcRead_next (by omega) (by omega) h with ⟨b, hb, -, -, h⟩ | ⟨p, h1, h2, h3, h⟩ | h
  · unfold encodeByte at h
    split at h
    · exact .inr (.inl ⟨b, hb, by assumption, raise_raised h⟩)
    · obtain ⟨u, hu, h | h⟩ := onCall_writeCode_next h
      · cases h; exact .inl ⟨b, hb, t, hu, .inl rfl⟩
      · exact .inl ⟨b, hb, u, hu, .inr h⟩
  · cases h; exact .inr (.inr (.inl ⟨p, h1, h2, h3, rfl⟩))
  · exact .inr (.inr (.inr h))

/-- ENC_EOF (R203). -/
theorem execEncEof_next (h : execEncEof s = .next t) :
    ∃ p u, s.codeAt 256 = some p ∧ Wrote s u ∧ (t = { u with phase := .close } ∨ Raised .ioFailure u t) := by
  unfold execEncEof at h
  split at h
  · cases h
  · next p hp =>
    obtain ⟨u, hu, h | h⟩ := onCall_writeCode_next h
    · cases h; exact ⟨p, u, hp, hu, .inl rfl⟩
    · exact ⟨p, u, hp, hu, .inr h⟩

/-- RD_MAGIC (R188). -/
theorem execRdMagic_next (h : execRdMagic s = .next t) :
    (s.src.pos + 32 ≤ s.src.bits.length ∧ valOf (s.nextBits 32) = s.params.magic.toNat ∧
      t = { s.afterRead 32 s.params.magic.toNat with stk := [.slot .root], phase := .rdHdr }) ∨
    (∃ v, v < 2 ^ 32 ∧ v ≠ s.params.magic.toNat ∧ Raised .badHeaderMagic (s.afterRead 32 v) t) ∨
    (∃ p, s.src.pos ≤ p ∧ (s.src.pos ≤ s.src.bits.length → p ≤ s.src.bits.length) ∧ s.sourceShort 32 ∧
      Raised .badHeaderMagic (s.afterMiss 32 .eos p) t) ∨
    (∃ p, p ≤ s.src.bits.length ∧ Raised .ioFailure (s.afterMiss 32 .fail p) t) := by
  rcases onRead_srcRead_next (by omega) (by omega) h with ⟨v, hv, hl, e, h⟩ | ⟨p, h1, h2, h3, h⟩ | h
  · unfold checkMagic at h
    split at h
    · next hm =>
      have hm : v = s.params.magic.toNat := hm
      cases h; exact .inl ⟨hl, by rw [← e, hm], by rw [hm]; rfl⟩
    · next hm => exact .inr (.inl ⟨v, hv, hm, raise_raised h⟩)
  · exact .inr (.inr (.inl ⟨p, h1, h2, h3, raise_raised h⟩))
  · exact .inr (.inr (.inr h))

/-- DEC (R211). -/
theorem execDec_next (h : execDec s = .next t) :
    (∃ w sym, s.nodeAt s.cur = some (.leaf w sym) ∧
      ((sym.toNat = 256 ∧ t = { s with phase := .close }) ∨
       (sym.toNat ≠ 256 ∧ s.snk.closed = false ∧
         (t = { s.afterWrite 8 (sym.toNat % 256) with cur := s.root } ∨
          Raised .ioFailure (s.issue (.write 8 (sym.toNat % 256) false)) t)))) ∨
    (∃ w l r, s.nodeAt s.cur = some (.internal w l r) ∧
      ((∃ d c, d < 2 ∧ (if d = 0 then l else r) = some c ∧ d = valOf (s.nextBits 1) ∧
          s.src.pos + 1 ≤ s.src.bits.length ∧ t = { s.afterRead 1 d with cur := c }) ∨
       (∃ p, s.src.pos ≤ p ∧ (s.src.pos ≤ s.src.bits.length → p ≤ s.src.bits.length) ∧ s.sourceShort 1 ∧
          Raised .missingSentinel (s.afterMiss 1 .eos p) t) ∨
       (∃ p, p ≤ s.src.bits.length ∧ Raised .ioFailure (s.afterMiss 1 .fail p) t))) := by
  unfold execDec at h
  obtain ⟨n, hn, h⟩ := withNode_next h
  cases n with
  | leaf w sym =>
    refine .inl ⟨w, sym, hn, ?_⟩
    simp only [emitLeaf, Config.eofSym] at h
    split at h
    · next hs => cases h; exact .inl ⟨hs, rfl⟩
    · next hs =>
      obtain ⟨hc, h | h⟩ := onCall_snkWrite_next (by omega) (by omega) (by omega) h
      · cases h; exact .inr ⟨hs, hc, .inl rfl⟩
      · exact .inr ⟨hs, hc, .inr h⟩
  | internal w l r =>
    refine .inr ⟨w, l, r, hn, ?_⟩
    rcases onRead_srcRead_next (by omega) (by omega) h with ⟨v, hv, hl, e, h⟩ | ⟨p, h1, h2, h3, h⟩ | h
    · obtain ⟨c, hc, h⟩ := withChild_next h
      cases h; exact .inl ⟨v, c, by omega, hc, e, hl, rfl⟩
    · exact .inr (.inl ⟨p, h1, h2, h3, raise_raised h⟩)
    · exact .inr (.inr h)

/-- CLOSE (R128). -/
theorem execClose_next (h : execClose s = .next t) :
    (∃ pad, t = { s with
      phase := .done, snk := { bits := s.snk.bits, closed := true, pad := pad }, io := s.io.tail
      trace := .close true :: s.trace, draws := s.draws + 1 }) ∨
    (∃ bits pad draws, t = { s with
      errcode := if s.errcode = 0 then errCode .ioFailure else s.errcode
      phase := .err, stk := [], stkHeld := s.stk ++ s.stkHeld
      snk := { bits := bits, closed := true, pad := pad }, io := s.io.tail
      trace := .close false :: s.trace, draws := draws }) := by
  unfold execClose at h
  rcases s.answer_cases with ha | ha | ha
  · rw [snkClose_ok ha] at h; cases h; exact .inl ⟨_, rfl⟩
  · rw [snkClose_fail ha] at h
    simp only [raiseClosed, Host.Outcome.next.injEq] at h
    subst h
    refine .inr ⟨(((s.issue (.close false)).closeSink).recordErr .ioFailure).enterErr.snk.bits,
      (((s.issue (.close false)).closeSink).recordErr .ioFailure).enterErr.snk.pad, s.draws + 2, ?_⟩
    unfold State.recordErr
    by_cases he : s.errcode = 0
    · rw [if_pos he, if_pos (by exact he)]; rfl
    · rw [if_neg he, if_neg (by exact he)]; rfl
  · rw [snkClose_never ha] at h; cases h

/-! ### RD_HDR -/

/-- RD_HDR after a `0` (R192). -/
theorem readInternal_next {slot : Slot} (h : readInternal slot s = .next t) :
    (s.nNodes < s.params.nodeCap ∧ s.stk.length + 1 ≤ s.params.nodeCap ∧
      fill slot s.nNodes { s with
        node := Memory.put s.node s.nNodes (.internal 0 none none)
        nNodes := s.nNodes + 1
        stk := .slot (.child s.nNodes .L) :: .slot (.child s.nNodes .R) :: s.stk } = .next t) ∨
    (s.nNodes = s.params.nodeCap ∧ Raised .treeCapacity s t) ∨
    (∃ stk, s.nNodes < s.params.nodeCap ∧ s.params.nodeCap < s.stk.length + 1 ∧
      (s.stk.length ≤ s.params.nodeCap + 1 → stk.length ≤ s.params.nodeCap + 1) ∧
      Raised .treeCapacity { s with node := Memory.put s.node s.nNodes (.internal 0 none none), stk := stk } t) := by
  unfold readInternal at h
  split at h
  · exact .inr (.inl ⟨by assumption, raise_raised h⟩)
  · obtain ⟨hr, h⟩ := storeNode_next h
    rcases push_next h with ⟨h1, h⟩ | ⟨h1, h⟩
    · rcases push_next h with ⟨h2, h⟩ | ⟨h2, h⟩
      · exact .inl ⟨hr, h2, h⟩
      · exact .inr (.inr ⟨.slot (.child s.nNodes .R) :: s.stk, hr, h2, fun _ => Nat.succ_le_succ h1, h⟩)
    · have h1 : s.params.nodeCap < s.stk.length := h1
      exact .inr (.inr ⟨s.stk, hr, by omega, id, h⟩)

/-- RD_HDR after the symbol field (R192, R194). -/
theorem readField_next {slot : Slot} {v : Nat} (h : readField slot v s = .next t) :
    (256 < v ∧ Raised .badSymbol s t) ∨
    (v ≤ 256 ∧ s.nNodes < s.params.nodeCap ∧
      fill slot s.nNodes { s with
        node := Memory.put s.node s.nNodes (.leaf 0 (BitVec.ofNat 9 v))
        sym := BitVec.ofNat 9 v
        nNodes := s.nNodes + 1 } = .next t) := by
  unfold readField at h
  split at h
  · exact .inl ⟨by assumption, raise_raised h⟩
  · next hv =>
    obtain ⟨hr, h⟩ := storeNode_next h
    exact .inr ⟨Nat.le_of_not_lt hv, hr, h⟩

/-- The last step of RD_HDR (R192, R196). -/
theorem finishHeader_next (h : finishHeader s = .next t) :
    (t = { s with cur := s.root, phase := .dec } ∧ (∃ n, s.nodeAt s.root = some n) ∧
      ∀ w sym, s.nodeAt s.root = some (.leaf w sym) → sym.toNat = 256) ∨
    ((∃ w sym, s.nodeAt s.root = some (.leaf w sym) ∧ sym.toNat ≠ 256) ∧ Raised .degenerateTree s t) := by
  unfold finishHeader at h
  obtain ⟨n, hn, h⟩ := withNode_next h
  cases n with
  | leaf w sym =>
    simp only [Config.eofSym] at h
    split at h
    · next hs =>
      cases h
      refine .inl ⟨rfl, ⟨_, hn⟩, fun w' sym' h' => ?_⟩
      rw [hn] at h'; cases h'; exact hs
    · next hs => exact .inr ⟨⟨w, sym, hn, hs⟩, raise_raised h⟩
  | internal w l r =>
    cases h
    refine .inl ⟨rfl, ⟨_, hn⟩, fun w' sym' h' => ?_⟩
    rw [hn] at h'; cases h'

/-- RD_HDR (R192): the last step, a `0`, a `1` with its field, or a read that misses. -/
theorem execRdHdr_next (h : execRdHdr s = .next t) :
    (s.stk = [] ∧ finishHeader s = .next t) ∨
    (∃ slot rest, s.stk = .slot slot :: rest ∧
      ((s.src.pos + 1 ≤ s.src.bits.length ∧ readInternal slot { s.afterRead 1 0 with stk := rest } = .next t) ∨
       (s.src.pos + 1 ≤ s.src.bits.length ∧ s.nNodes = s.params.nodeCap ∧
          Raised .treeCapacity { s.afterRead 1 1 with stk := rest } t) ∨
       (∃ v, v < 2 ^ 9 ∧ s.src.pos + 10 ≤ s.src.bits.length ∧ s.nNodes ≠ s.params.nodeCap ∧
          readField slot v { (s.afterRead 1 1).afterRead 9 v with stk := rest } = .next t) ∨
       (∃ p, s.src.pos + 1 ≤ p ∧ p ≤ s.src.bits.length ∧
          Raised .streamTruncatedHeader { (s.afterRead 1 1).afterMiss 9 .eos p with stk := rest } t) ∨
       (∃ p, p ≤ s.src.bits.length ∧
          Raised .ioFailure { (s.afterRead 1 1).afterMiss 9 .fail p with stk := rest } t) ∨
       (∃ p, s.src.pos ≤ p ∧ (s.src.pos ≤ s.src.bits.length → p ≤ s.src.bits.length) ∧
          Raised .streamTruncatedHeader { s.afterMiss 1 .eos p with stk := rest } t) ∨
       (∃ p, p ≤ s.src.bits.length ∧ Raised .ioFailure { s.afterMiss 1 .fail p with stk := rest } t))) := by
  unfold execRdHdr at h
  split at h
  · exact .inl ⟨by assumption, h⟩
  · next slot rest hst =>
    refine .inr ⟨slot, rest, hst, ?_⟩
    rcases onRead_srcRead_next (by omega) (by omega) h with ⟨d, hd, hl, -, h⟩ | ⟨p, h1, h2, -, h⟩ | ⟨p, hp, h⟩
    · have hl : s.src.pos + 1 ≤ s.src.bits.length := hl
      split at h
      · next hd0 => subst hd0; exact .inl ⟨hl, h⟩
      · next hd0 =>
        have hd1 : d = 1 := by omega
        subst hd1
        unfold readLeaf at h
        split at h
        · next hc => exact .inr (.inl ⟨hl, hc, raise_raised h⟩)
        · next hc =>
          rcases onRead_srcRead_next (by omega) (by omega) h with ⟨v, hv, hl', -, h⟩ | ⟨p, h1, h2, -, h⟩ | ⟨p, hp, h⟩
          · exact .inr (.inr (.inl ⟨v, hv, hl', hc, h⟩))
          · exact .inr (.inr (.inr (.inl ⟨p, h1, h2 hl, raise_raised h⟩)))
          · exact .inr (.inr (.inr (.inr (.inl ⟨p, hp, h⟩))))
    · exact .inr (.inr (.inr (.inr (.inr (.inl ⟨p, h1, h2, raise_raised h⟩)))))
    · exact .inr (.inr (.inr (.inr (.inr (.inr ⟨p, hp, h⟩)))))
  · cases h
  · cases h

/-- The commands (R120, R268): an accepted offer, or nothing. -/
theorem offerCommand_next {op : BitVec 1} (h : offerCommand op s = .next t) :
    t = s ∨ ∃ o, s.busy = false ∧ s.cmd = some o ∧ o.shared = false ∧ t = { s.initBlock with
      mode := op, phase := if op = 0 then .cnt else .rdMagic, src := o.src, snk := o.snk, cmd := none, trace := [] } := by
  rcases offerCommand_cases op s with ⟨-, e⟩ | ⟨-, -, e⟩ | ⟨o, hb, hc, e⟩
  · rw [e] at h; cases h; exact .inl rfl
  · rw [e] at h; cases h; exact .inl rfl
  · rw [e] at h
    cases hsh : o.shared
    · rw [accept_next hsh] at h; cases h; exact .inr ⟨o, hb, hc, hsh, rfl⟩
    · simp [accept, hsh] at h

end Sys2Proof.Machine
end

