-- ==== Sys2Proof/Laws/PerInstr.lean ====
section
/-! SUPPORT. One statement about every operation as syntax: its encoding has the length its format gives (spec/30_encoding.md
R90). -/

namespace Sys2Proof.Laws.EncodedLength

/-- The encoding has as many bits as the format gives the operation (R90). -/
def Statement (i : Instr) : Prop := (encode i).length = encodedLength i

theorem compress : Statement .compress := rfl
theorem decompress : Statement .decompress := rfl
theorem idle : Statement .idle := rfl
theorem cnt : Statement .cnt := rfl
theorem bldInit : Statement .bldInit := rfl
theorem bldMerge : Statement .bldMerge := rfl
theorem gen : Statement .gen := rfl
theorem wrMagic : Statement .wrMagic := rfl
theorem wrHdr : Statement .wrHdr := rfl
theorem rewind : Statement .rewind := rfl
theorem enc : Statement .enc := rfl
theorem encEof : Statement .encEof := rfl
theorem rdMagic : Statement .rdMagic := rfl
theorem rdHdr : Statement .rdHdr := rfl
theorem dec : Statement .dec := rfl
theorem close : Statement .close := rfl
theorem done : Statement .done := rfl
theorem err : Statement .err := rfl
theorem hdrInternal : Statement .hdrInternal := rfl
theorem bit0 : Statement .bit0 := rfl
theorem bit1 : Statement .bit1 := rfl
theorem magic (m : BitVec 32) : Statement (.magic m) := length_bitsOf 32 m.toNat
theorem hdrLeaf (sym : Symbol) : Statement (.hdrLeaf sym) := by simp [Statement, encode, encodedLength]
theorem byte (b : Byte) : Statement (.byte b) := length_bitsOf 8 b.toNat
theorem code (path : BitString) : Statement (.code path) := rfl

end Sys2Proof.Laws.EncodedLength
end

