-- ==== Sys2Proof/Tests/Slice0.lean ====
section
/-! SUPPORT. Tests of the model on small inputs, their expected values taken from the spec's tables and worked examples
(spec/95_test_vectors.md, B2 to B7, unless another place is named), and for each statement with hypotheses a witness
that meets them. -/

namespace Sys2Proof.Tests

open Sys2Proof Sys2Proof.Machine

/-! ### Helpers -/

/-- A bit string from the digits of its numeral. -/
def bits (digits : List Nat) : BitString := digits.map (fun d => decide (d = 1))

/-- What a property says of the next state; false where there is none. -/
def holdsAfter (o : Out) (p : State → Bool) : Bool :=
  match o with
  | .next t => p t
  | .fault _ => false
  | .refused _ => false

/-- A step stops with this fault. -/
def faultsWith (o : Out) (f : Fault) : Bool :=
  match o with
  | .next _ => false
  | .fault g => decide (g = f)
  | .refused _ => false

/-- A step is refused for this reason. -/
def refusedWith (o : Out) (r : Refusal) : Bool :=
  match o with
  | .next _ => false
  | .fault _ => false
  | .refused q => decide (q = r)

/-- The decoder rejects the bits for this reason. -/
def rejects (f : Format) (p : BitString) (r : Reject) : Bool :=
  match decode f p with
  | .ok _ => false
  | .error q => decide (q = r)

/-- The decoder reads this operation and leaves these bits. -/
def reads (f : Format) (p : BitString) (i : Instr) (rest : BitString) : Bool :=
  match decode f p with
  | .ok (j, q) => decide (j = i) && decide (q = rest)
  | .error _ => false

/-- A small block: the state after reset with the parameters of the test vectors, in a phase. -/
def small (p : Phase) : State :=
  { State.reset with params := { magic := 0xFACE8201, nodeCap := 513 }, phase := p }

/-- The arena of V-B2a. -/
def arena : Memory Node :=
  [(0, .leaf 3 65), (1, .leaf 1 66), (2, .leaf 1 256), (3, .internal 2 (some 1) (some 2)),
    (4, .internal 5 (some 3) (some 0))]

/-- The code table of V-B2a. -/
def codes : Memory BitString := [(65, [true]), (66, [false, false]), (256, [false, true])]

/-- A block in a phase, on the arena and with the code table of V-B2a, its source at these bits. -/
def block (p : Phase) (source : BitString) : State :=
  { small p with node := arena, nNodes := 5, root := 4, rootV := true, code := codes, src := { bits := source, pos := 0 } }

/-- The bits of the magic number of the test vectors, 0xFACE8201. -/
def magicBits : BitString :=
  bits [1,1,1,1, 1,0,1,0, 1,1,0,0, 1,1,1,0, 1,0,0,0, 0,0,1,0, 0,0,0,0, 0,0,0,1]

/-! ### Well-formedness refuses what is no operation -/

theorem test_wf_refuses_symbol_257 : (Instr.hdrLeaf 257).wf = false := by decide
theorem test_wf_refuses_symbol_511 : (Instr.hdrLeaf 511).wf = false := by decide
theorem test_wf_accepts_the_sentinel : (Instr.hdrLeaf 256).wf = true := by decide
theorem test_wf_refuses_code_of_257_bits : (Instr.code (List.replicate 257 true)).wf = false := by decide +kernel
theorem test_wf_accepts_code_of_256_bits : (Instr.code (List.replicate 256 true)).wf = true := by decide +kernel

/-! ### Decoding of words written out from the spec's encodings -/

/-- R99. -/
theorem test_decode_commands :
    reads .cmd (bits [0]) .compress [] = true ∧ reads .cmd (bits [1]) .decompress [] = true := by decide

/-- R24, the codes 0000 to 0111. -/
theorem test_decode_phases_low :
    reads .phase (bits [0,0,0,0]) .idle [] = true ∧ reads .phase (bits [0,0,0,1]) .cnt [] = true ∧
    reads .phase (bits [0,0,1,0]) .bldInit [] = true ∧ reads .phase (bits [0,0,1,1]) .bldMerge [] = true ∧
    reads .phase (bits [0,1,0,0]) .gen [] = true ∧ reads .phase (bits [0,1,0,1]) .wrMagic [] = true ∧
    reads .phase (bits [0,1,1,0]) .wrHdr [] = true ∧ reads .phase (bits [0,1,1,1]) .rewind [] = true := by decide

/-- R24, the codes 1000 to 1111. -/
theorem test_decode_phases_high :
    reads .phase (bits [1,0,0,0]) .enc [] = true ∧ reads .phase (bits [1,0,0,1]) .encEof [] = true ∧
    reads .phase (bits [1,0,1,0]) .rdMagic [] = true ∧ reads .phase (bits [1,0,1,1]) .rdHdr [] = true ∧
    reads .phase (bits [1,1,0,0]) .dec [] = true ∧ reads .phase (bits [1,1,0,1]) .close [] = true ∧
    reads .phase (bits [1,1,1,0]) .done [] = true ∧ reads .phase (bits [1,1,1,1]) .err [] = true := by decide

/-- R91, bit 31 first. -/
theorem test_decode_magic : reads .magic (magicBits ++ bits [0]) (.magic 0xFACE8201) (bits [0]) = true := by decide

/-- R92, B4: `0`, and `1 001000010` for the leaf 66. -/
theorem test_decode_header :
    reads .header (bits [0,1]) .hdrInternal (bits [1]) = true ∧
    reads .header (bits [1, 0,0,1,0,0,0,0,1,0, 1]) (.hdrLeaf 66) (bits [1]) = true ∧
    reads .header (bits [1, 1,0,0,0,0,0,0,0,0]) (.hdrLeaf 256) [] = true := by decide

/-- R93: a code has no length field. -/
theorem test_decode_codes :
    reads .body (bits [0,1]) .bit0 (bits [1]) = true ∧ reads .body (bits [1,1]) .bit1 (bits [1]) = true ∧
    reads .code (bits [0,1]) (.code (bits [0,1])) [] = true ∧ reads .code [] (.code []) [] = true := by decide

/-- R94: `A` is 0x41. -/
theorem test_decode_byte : reads .byte (bits [0,1,0,0,0,0,0,1, 1,1]) (.byte 0x41) (bits [1,1]) = true := by decide

/-- R104: the symbol fields 257 and 511 are reserved; and too few bits are no operation. -/
theorem test_decode_rejects :
    rejects .header (bits [1, 1,0,0,0,0,0,0,0,1]) .reservedSymbol = true ∧
    rejects .header (bits [1, 1,1,1,1,1,1,1,1,1]) .reservedSymbol = true ∧
    rejects .header (bits [1, 0,0,1,0,0,0,0,1]) .endOfBits = true ∧
    rejects .byte (bits [0,1,0,0,0,0,0]) .endOfBits = true ∧
    rejects .phase (bits [0,1,0]) .endOfBits = true ∧ rejects .cmd [] .endOfBits = true ∧
    rejects .body [] .endOfBits = true ∧ rejects .magic (magicBits.take 31) .endOfBits = true := by decide

theorem test_decode_rejects_long_code : rejects .code (List.replicate 257 true) .pathTooLong = true := by
  decide +kernel

/-! ### Table words and the step that runs them -/

theorem test_table_words :
    decodeTableWord 1 0 = some .compress ∧ decodeTableWord 1 1 = some .decompress ∧
    decodeTableWord 8 4 = some .gen ∧ decodeTableWord 8 15 = some .err ∧ decodeTableWord 8 0x41 = some (.byte 0x41) ∧
    decodeTableWord 16 0x242 = some (.hdrLeaf 66) ∧ decodeTableWord 16 0x301 = none ∧ decodeTableWord 16 0 = none ∧
    decodeTableWord 32 0xFACE8201 = some (.magic 0xFACE8201) := by decide

theorem test_step_runs_the_placed_command :
    holdsAfter (step (State.reset.withFetchWord 1 1)) (fun t => decide (t.phase = .rdMagic ∧ t.mode = 1)) = true := by
  decide

theorem test_step_runs_the_placed_phase :
    holdsAfter (step (State.reset.withFetchWord 8 7))
      (fun t => decide (t.phase = .enc ∧ t.trace = [.rewind true])) = true := by decide

theorem test_step_runs_the_placed_token :
    holdsAfter (step (State.reset.withFetchWord 8 0x41))
      (fun t => decide (t.freqAt 65 = 1 ∧ t.src.pos = 8 ∧ t.sym = 65)) = true := by decide

/-- R260. -/
theorem test_reset_in_mid_run :
    holdsAfter (step { block .enc [] with rst := true })
      (fun t => decide (t.phase = .idle ∧ t.code = [] ∧ t.nNodes = 0 ∧ t.trace = [])) = true := by decide

/-! ### One step of each operation -/

/-- R120: FREQ[256] is 1 and the streams are those offered. -/
theorem test_compress :
    holdsAfter (exec .compress { small .done with
        freq := [(65, 3), (256, 1)]
        cmd := some { op := 0, src := { bits := bits [0,1,0,0,0,0,0,1], pos := 0 },
                      snk := { bits := [], closed := false, pad := [] }, shared := false } })
      (fun t => decide (t.phase = .cnt ∧ t.mode = 0 ∧ t.freqAt 65 = 0 ∧ t.freqAt 256 = 1 ∧ t.src.bits.length = 8 ∧
        t.cmd = none)) = true := by decide

theorem test_compress_waits_while_busy :
    holdsAfter (exec .compress { small .cnt with
        cmd := some { op := 0, src := { bits := [], pos := 0 }, snk := { bits := [], closed := false, pad := [] },
                      shared := false } })
      (fun t => decide (t.phase = .cnt ∧ t.cmd.isSome = true)) = true := by decide

theorem test_decompress :
    holdsAfter (exec .decompress { small .err with
        errcode := 5
        cmd := some { op := 1, src := { bits := [], pos := 0 }, snk := { bits := [], closed := false, pad := [] },
                      shared := false } })
      (fun t => decide (t.phase = .rdMagic ∧ t.mode = 1 ∧ t.errcode = 0)) = true := by decide

theorem test_decompress_refuses_shared_streams :
    refusedWith (exec .decompress { small .idle with
        cmd := some { op := 1, src := { bits := [], pos := 0 }, snk := { bits := [], closed := false, pad := [] },
                      shared := true } }) .sharedStreams = true := by decide

theorem test_resting :
    holdsAfter (exec .idle (small .idle)) (fun t => decide (t = small .idle)) = true ∧
    holdsAfter (exec .done (small .done)) (fun t => decide (t = small .done)) = true ∧
    holdsAfter (exec .err (small .err)) (fun t => decide (t = small .err)) = true := by
  refine ⟨?_, ?_, ?_⟩ <;> simp [holdsAfter, exec, execIdle, execDone, execErr]

/-- B1: the byte 41 is counted. -/
theorem test_cnt :
    holdsAfter (exec .cnt { small .cnt with freq := [(65, 2), (256, 1)], src := { bits := bits [0,1,0,0,0,0,0,1], pos := 0 } })
      (fun t => decide (t.freqAt 65 = 3 ∧ t.freqAt 256 = 1 ∧ t.sym = 65 ∧ t.src.pos = 8 ∧ t.phase = .cnt ∧
        t.trace = [.read 8 (.value 65)])) = true := by decide

/-- R143: a full counter raises CountOverflow, 7. -/
theorem test_cnt_overflow :
    holdsAfter (exec .cnt { small .cnt with
        freq := [(65, 0xFFFFFFFF), (256, 1)], src := { bits := bits [0,1,0,0,0,0,0,1], pos := 0 } })
      (fun t => decide (t.phase = .err ∧ t.errcode = 7 ∧ t.snk.closed = true ∧
        t.trace = [.close true, .read 8 (.value 65)])) = true := by decide

/-- V-B2a: the leaf 0 has weight 3. -/
theorem test_bldInit :
    holdsAfter (exec .bldInit { small .bldInit with freq := [(65, 3), (66, 1), (256, 1)], sym := 65 })
      (fun t => decide (t.nodeAt 0 = some (.leaf 3 65) ∧ t.inpqAt 0 = true ∧ t.nNodes = 1 ∧ t.sym = 66)) = true := by
  decide

/-- R152: the step for the symbol 256 ends the phase. -/
theorem test_bldInit_ends :
    holdsAfter (exec .bldInit { small .bldInit with sym := 256 })
      (fun t => decide (t.nodeAt 0 = some (.leaf 1 256) ∧ t.nNodes = 1 ∧ t.phase = .bldMerge)) = true := by decide

/-- V-B2a: the merge (1,2)->3 w2. -/
theorem test_bldMerge :
    holdsAfter (exec .bldMerge { small .bldMerge with
        node := arena.take 3, nNodes := 3, inpq := [(0, true), (1, true), (2, true)] })
      (fun t => decide (t.nodeAt 3 = some (.internal 2 (some 1) (some 2)) ∧ t.pq = [0, 3] ∧ t.nNodes = 4)) = true := by
  decide

/-- V-B2a: ROOT = 4. -/
theorem test_bldMerge_ends :
    holdsAfter (exec .bldMerge { small .bldMerge with node := arena, nNodes := 5, inpq := [(4, true)] })
      (fun t => decide (t.root = 4 ∧ t.rootV = true ∧ t.inpq = [] ∧ t.stk = [.pair 4 []] ∧ t.phase = .gen)) = true := by
  decide

/-- V-B2a: the left child 3 is on top. -/
theorem test_gen :
    holdsAfter (exec .gen { block .gen [] with stk := [.pair 4 []] })
      (fun t => decide (t.stk = [.pair 3 (bits [0]), .pair 0 (bits [1])])) = true := by decide

/-- V-B2a: CODE[256] = 01. -/
theorem test_gen_leaf :
    holdsAfter (exec .gen { block .gen [] with stk := [.pair 2 (bits [0,1])], code := [] })
      (fun t => decide (t.codeAt 256 = some (bits [0,1]) ∧ t.codeAt 66 = none ∧ t.stk = [])) = true := by decide

theorem test_wrMagic :
    holdsAfter (exec .wrMagic (block .wrMagic []))
      (fun t => decide (t.snk.bits = magicBits ∧ t.stk = [.index 4] ∧ t.phase = .wrHdr)) = true := by decide

/-- B4: the root of V-B2a is `0`, and its left child comes first. -/
theorem test_wrHdr :
    holdsAfter (exec .wrHdr { block .wrHdr [] with stk := [.index 4] })
      (fun t => decide (t.snk.bits = bits [0] ∧ t.stk = [.index 3, .index 0] ∧ t.trace = [.write 1 0 true])) = true := by
  decide

/-- B4: the leaf 66 is `1 001000010`. -/
theorem test_wrHdr_leaf :
    holdsAfter (exec .wrHdr { block .wrHdr [] with stk := [.index 1] })
      (fun t => decide (t.snk.bits = bits [1, 0,0,1,0,0,0,0,1,0] ∧ t.stk = [] ∧
        t.trace = [.write 9 66 true, .write 1 1 true])) = true := by decide

theorem test_rewind :
    holdsAfter (exec .rewind { block .rewind (bits [0,1,0,0,0,0,0,1]) with
        src := { bits := bits [0,1,0,0,0,0,0,1], pos := 8 } })
      (fun t => decide (t.src.pos = 0 ∧ t.phase = .enc)) = true := by decide

/-- B6: the byte 42 is written as `W(2,0)`. -/
theorem test_enc :
    holdsAfter (exec .enc (block .enc (bits [0,1,0,0,0,0,1,0])))
      (fun t => decide (t.snk.bits = bits [0,0] ∧ t.sym = 66 ∧
        t.trace = [.write 2 0 true, .read 8 (.value 66)])) = true := by decide

/-- R205: NoCode, 9. -/
theorem test_enc_no_code :
    holdsAfter (exec .enc (block .enc (bits [0,1,0,0,0,0,1,1])))
      (fun t => decide (t.phase = .err ∧ t.errcode = 9 ∧ t.sym = 67)) = true := by decide

/-- B6: the sentinel is written as `W(2,1)`. -/
theorem test_encEof :
    holdsAfter (exec .encEof (block .encEof []))
      (fun t => decide (t.snk.bits = bits [0,1] ∧ t.trace = [.write 2 1 true] ∧ t.phase = .close)) = true := by decide

theorem test_rdMagic :
    holdsAfter (exec .rdMagic (block .rdMagic magicBits))
      (fun t => decide (t.phase = .rdHdr ∧ t.stk = [.slot .root] ∧ t.src.pos = 32)) = true := by decide

/-- B5: a source of 31 bits ends in ERR 1 after one read. -/
theorem test_rdMagic_short :
    holdsAfter (exec .rdMagic (block .rdMagic (magicBits.take 31)))
      (fun t => decide (t.phase = .err ∧ t.errcode = 1 ∧ t.trace = [.close true, .read 32 .eos])) = true := by decide

/-- B5: after `0` the left child is read first. -/
theorem test_rdHdr :
    holdsAfter (exec .rdHdr { small .rdHdr with stk := [.slot .root], src := { bits := bits [0,1], pos := 0 } })
      (fun t => decide (t.nNodes = 1 ∧ t.root = 0 ∧ t.rootV = true ∧
        t.stk = [.slot (.child 0 .L), .slot (.child 0 .R)])) = true := by decide

/-- B5: a lone leaf that is not the sentinel ends in ERR 6. -/
theorem test_rdHdr_degenerate :
    holdsAfter (exec .rdHdr { small .rdHdr with stk := [], node := [(0, .leaf 0 65)], nNodes := 1, rootV := true })
      (fun t => decide (t.phase = .err ∧ t.errcode = 6)) = true := by decide

/-- R211: a leaf is written without a read, and the walk goes back to the root. -/
theorem test_dec_leaf :
    holdsAfter (exec .dec { block .dec (bits [1]) with cur := 0 })
      (fun t => decide (t.snk.bits = bits [0,1,0,0,0,0,0,1] ∧ t.cur = 4 ∧ t.src.pos = 0)) = true := by decide

/-- R211, R216: no bit at an internal node is MissingSentinel, 3. -/
theorem test_dec_end :
    holdsAfter (exec .dec { block .dec [] with cur := 4 })
      (fun t => decide (t.phase = .err ∧ t.errcode = 3)) = true := by decide

/-- R69: two bits are filled up to eight. -/
theorem test_close :
    holdsAfter (exec .close { block .close [] with snk := { bits := bits [0,1], closed := false, pad := [] } })
      (fun t => decide (t.phase = .done ∧ t.snk.closed = true ∧ t.snk.bits = bits [0,1])) = true := by decide

/-- R240: a close that fails is not called again. -/
theorem test_close_fails :
    holdsAfter (exec .close { block .close [] with io := [.fail, .ok] })
      (fun t => decide (t.phase = .err ∧ t.errcode = 4 ∧ t.trace = [.close false] ∧ t.io = [.ok])) = true := by decide

theorem test_magic :
    holdsAfter (exec (.magic 0xFACE8201) (small .rdMagic)) (fun t => decide (t.phase = .rdHdr)) = true ∧
    holdsAfter (exec (.magic 0xFACE8200) (small .rdMagic)) (fun t => decide (t.phase = .err ∧ t.errcode = 1)) = true := by
  decide

/-- B5: node 1 is the left child of node 0. -/
theorem test_hdrInternal :
    holdsAfter (exec .hdrInternal { small .rdHdr with
        node := [(0, .internal 0 none none)], nNodes := 1, stk := [.slot (.child 0 .L), .slot (.child 0 .R)] })
      (fun t => decide (t.nodeAt 0 = some (.internal 0 (some 1) none) ∧ t.nNodes = 2)) = true := by decide

/-- B5: node 4, the leaf 65, is the right child of node 0. -/
theorem test_hdrLeaf :
    holdsAfter (exec (.hdrLeaf 65) { small .rdHdr with
        node := [(0, .internal 0 (some 1) none)], nNodes := 4, stk := [.slot (.child 0 .R)] })
      (fun t => decide (t.nodeAt 0 = some (.internal 0 (some 1) (some 4)) ∧ t.nodeAt 4 = some (.leaf 0 65) ∧
        t.stk = [] ∧ t.sym = 65)) = true := by decide

/-- B5: the field 257 is BadSymbol, 5. -/
theorem test_hdrLeaf_reserved :
    holdsAfter (exec (.hdrLeaf 257) { small .rdHdr with stk := [.slot .root] })
      (fun t => decide (t.phase = .err ∧ t.errcode = 5 ∧ t.nNodes = 0)) = true := by decide

/-- B7: from the root of V-B2a, `0` leads to node 3 and `1` to node 0. -/
theorem test_bits :
    holdsAfter (exec .bit0 { block .dec [] with cur := 4 }) (fun t => decide (t.cur = 3)) = true ∧
    holdsAfter (exec .bit1 { block .dec [] with cur := 4 }) (fun t => decide (t.cur = 0)) = true := by decide

theorem test_bits_at_leaf :
    faultsWith (exec .bit0 { block .dec [] with cur := 0 }) .bitAtLeaf = true ∧
    faultsWith (exec .bit1 { block .dec [] with cur := 0 }) .bitAtLeaf = true := by decide

theorem test_byte :
    holdsAfter (exec (.byte 0x42) (block .enc [])) (fun t => decide (t.snk.bits = bits [0,0])) = true ∧
    faultsWith (exec (.byte 0x42) (block .gen [])) .byteOutsideItsPhases = true := by decide

/-- B6: no call for the empty path, `W(2,0)` for `00`. -/
theorem test_code :
    holdsAfter (exec (.code []) (small .enc)) (fun t => decide (t.trace = [])) = true ∧
    holdsAfter (exec (.code (bits [0,0])) (small .enc)) (fun t => decide (t.trace = [.write 2 0 true])) = true := by
  decide

/-- B6: a path of 33 bits takes two calls. -/
theorem test_code_of_33_bits :
    holdsAfter (exec (.code (magicBits ++ bits [1])) (small .enc))
      (fun t => decide (t.trace = [.write 1 1 true, .write 32 0xFACE8201 true])) = true := by decide

/-! ### The functions on V-B2a -/

/-- The input `41 41 42 41`. -/
def input : List Byte := [0x41, 0x41, 0x42, 0x41]

/-- The tree of V-B2a. -/
def tree : Tree := .internal (.internal (.leaf 66) (.leaf 256)) (.leaf 65)

theorem test_build : build (freqOf input) = tree := by decide +kernel

/-- B3. -/
theorem test_codes :
    codeOf tree 66 = some (bits [0,0]) ∧ codeOf tree 256 = some (bits [0,1]) ∧ codeOf tree 65 = some (bits [1]) ∧
      codeOf tree 67 = none := by decide

/-- B4. -/
theorem test_header :
    hdr tree = bits [0, 0, 1,0,0,1,0,0,0,0,1,0, 1,1,0,0,0,0,0,0,0,0, 1,0,0,1,0,0,0,0,0,1] := by decide

/-- B6. -/
theorem test_body : bodyBits tree input = bits [1,1,0,0,1,0,1] := by decide

/-- B7. -/
theorem test_walk :
    (match walk tree (bits [1,1,0,0,1,0,1,0]) with
      | .ok (out, rest) => decide (out = [0x41, 0x41, 0x42, 0x41] ∧ rest = bits [0])
      | .error _ => false) = true := by decide

/-! ### Witnesses: encoding and the step

Each theorem gives, for one clause of the statement it is named after, a state and operands that meet all of the
clause's hypotheses together, at a boundary value where the hypotheses have a range. -/

theorem witness_DecodeOfEncode :
    (Instr.hdrLeaf 256).wf = true ∧ formatOf (.hdrLeaf 256) ≠ .code ∧
    (Instr.code (List.replicate 256 false)).wf = true := by decide +kernel

theorem witness_EncodeOfDecode :
    decode .header (bits [1, 1,0,0,0,0,0,0,0,0, 1]) = .ok (.hdrLeaf 256, bits [1]) := rfl

theorem witness_StepRunsTheDecodedOperation :
    (block .dec []).rst = false ∧
    decode (fetchBits (block .dec [])).1 (fetchBits (block .dec [])).2 = .ok (.dec, []) := ⟨rfl, rfl⟩

theorem witness_PhaseStepIsItsTokensMeaning :
    fetchToken (block .cnt (bits [1,1,1,1,1,1,1,1])) = some (.byte 0xFF) ∧
    fetchToken (block .enc (bits [0,0,0,0,0,0,0,0])) = some (.byte 0) ∧
    fetchToken (block .rdMagic magicBits) = some (.magic 0xFACE8201) ∧
    fetchToken { block .rdHdr (bits [0]) with stk := [.slot .root] } = some .hdrInternal ∧
    fetchToken { block .rdHdr (bits [1, 1,0,0,0,0,0,0,0,0]) with stk := [.slot .root] } = some (.hdrLeaf 256) ∧
    fetchToken { block .dec (bits [0]) with cur := 4 } = some .bit0 ∧
    fetchToken { block .dec (bits [1]) with cur := 4 } = some .bit1 := by decide

theorem witness_ResetPutsTheBlockAtItsResetValues :
    State.rst { block .enc [] with rst := true } = true ∧
    State.rst { block .done [] with rst := true } = true ∧ State.busy { block .done [] with rst := true } = false := by
  decide

/-! ### Witnesses: commands and the end of a run -/

/-- A command with a source and an open empty sink. -/
def offer (op : BitVec 1) (source : BitString) : Offer :=
  { op := op, src := { bits := source, pos := 0 }, snk := { bits := [], closed := false, pad := [] }, shared := false }

/-- The small block in DONE with a command offered. -/
def launched (op : BitVec 1) (source : BitString) : State := { small .done with cmd := some (offer op source) }

theorem launched_ok (op : BitVec 1) (source : BitString) (h : op = 0 → source.length % 8 = 0) :
    Launched (launched op source) (offer op source) :=
  ⟨rfl, rfl, rfl, ⟨rfl, rfl, rfl, rfl, h⟩, rfl, le_rfl⟩

theorem witness_CommandIsAccepted :
    ((launched 0 []).busy = false ∧ (launched 0 []).cmd = some (offer 0 []) ∧ (offer 0 []).shared = false) ∧
    (small .close).busy = true ∧ (small .idle).cmd = none := ⟨⟨rfl, rfl, rfl⟩, rfl, rfl⟩

theorem witness_OfferHasNoEffectWhileBusy :
    (block .rewind []).busy = true ∧ (block .rewind []).rst = false ∧ (∃ t, step (block .rewind []) = .next t) ∧
    step { block .rewind [] with io := [.never] } = .fault .serviceCallNeverReturns ∧
    step { block .wrMagic [] with snk := { bits := [], closed := true, pad := [] } } = .refused .sinkWriteAfterClose :=
  ⟨rfl, rfl, ⟨_, rfl⟩, rfl, rfl⟩

theorem witness_RestingPhasesWait :
    (small .err).busy = false ∧ (small .err).rst = false ∧ (small .err).cmd = none := ⟨rfl, rfl, rfl⟩

theorem witness_EndIsLeftByCommandOrReset :
    (∃ t, (launched 1 []).phase = .done ∧ step (launched 1 []) = .next t ∧ t.phase ≠ (launched 1 []).phase) ∧
    ∃ t, (small .err).phase = .err ∧ step { small .err with rst := true } = .next t ∧ t.phase ≠ .err :=
  ⟨⟨_, rfl, rfl, by decide⟩, ⟨_, rfl, rfl, by decide⟩⟩

theorem witness_PhasesFollowTheControlFlow :
    ∃ t, (block .rewind []).busy = true ∧ (block .rewind []).rst = false ∧ step (block .rewind []) = .next t :=
  ⟨_, rfl, rfl, rfl⟩

/-! ### Witnesses: one operation each -/

/-- A block in CNT at the byte FF, whose counter of FF holds `n`. -/
def counting (n : BitVec 32) : State :=
  { small .cnt with freq := [(255, n), (256, 1)], src := { bits := bits [1,1,1,1,1,1,1,1], pos := 0 } }

theorem witness_CntStep_counts :
    (counting 0xFFFFFFFE).ioOk 1 = true ∧ (counting 0xFFFFFFFE).sourceStarts (bitsOf 8 (255 : Byte).toNat) ∧
    ((counting 0xFFFFFFFE).freqAt (255 : Byte).toNat).toNat ≠ 2 ^ 32 - 1 :=
  ⟨by decide, ⟨[], by decide⟩, by decide⟩

theorem witness_CntStep_overflows :
    (counting 0xFFFFFFFF).ioOk 1 = true ∧ (counting 0xFFFFFFFF).sourceStarts (bitsOf 8 (255 : Byte).toNat) ∧
    ((counting 0xFFFFFFFF).freqAt (255 : Byte).toNat).toNat = 2 ^ 32 - 1 ∧
    ((counting 0xFFFFFFFF).afterRead 8 (255 : Byte).toNat).answer ≠ .never :=
  ⟨by decide, ⟨[], by decide⟩, by decide, by decide⟩

/-- Seven bits are left: no byte. For CNT and ENC. -/
theorem witness_CntStep_ends_and_EncStep_ends (p : Phase) :
    (block p (bits [0,1,0,0,0,0,0])).ioOk 1 = true ∧ (block p (bits [0,1,0,0,0,0,0])).sourceShort 8 ∧
    (block p (bits [0,1,0,0,0,0,0])).src.pos ≤ (block p (bits [0,1,0,0,0,0,0])).src.bits.length :=
  ⟨rfl, show 7 < 0 + 8 by decide, show 0 ≤ 7 by decide⟩

/-- A block in a phase whose next call fails. -/
def failing (p : Phase) : State := { block p [] with io := [.fail, .fail] }

theorem witness_CntStep_fails :
    (failing .cnt).answer = .fail ∧ ((failing .cnt).afterMiss 8 .fail 0).answer ≠ .never := by decide

theorem witness_BldInitStep_leaf :
    ((256 : Symbol).toNat ≤ 256 ∧ State.freqAt { small .bldInit with sym := 256, nNodes := 512 } 256 ≠ 0) ∧
    State.nNodes { small .bldInit with sym := 256, nNodes := 512 } < (small .bldInit).params.nodeCap := by decide

theorem witness_BldInitStep_skips :
    (State.sym { small .bldInit with sym := 255 }).toNat ≤ 256 ∧
    State.freqAt { small .bldInit with sym := 255 } 255 = 0 := by decide

/-- The block of V-B2a before its first merge. -/
def merging : State :=
  { small .bldMerge with node := arena.take 3, nNodes := 3, inpq := [(0, true), (1, true), (2, true)] }

/-- V-B2a: nodes 1 and 2 are the two least; they tie. -/
theorem witness_BldMergeStep_merges :
    (merging.memoriesWf = true ∧ merging.nNodes < merging.params.nodeCap ∧
      (∀ i, i < merging.nNodes → merging.inpqAt i = true → ∃ n, merging.nodeAt i = some n)) ∧
    (1 < merging.nNodes ∧ merging.inpqAt 1 = true ∧ merging.nodeAt 1 = some (.leaf 1 66)) ∧
    (2 < merging.nNodes ∧ merging.inpqAt 2 = true ∧ merging.nodeAt 2 = some (.leaf 1 256)) ∧
    (∀ i n, i < merging.nNodes → merging.inpqAt i = true → merging.nodeAt i = some n → i ≠ 1 →
      pqOrder (nodeWeight (.leaf 1 66)) 1 (nodeWeight n) i) ∧
    (∀ i n, i < merging.nNodes → merging.inpqAt i = true → merging.nodeAt i = some n → i ≠ 1 → i ≠ 2 →
      pqOrder (nodeWeight (.leaf 1 256)) 2 (nodeWeight n) i) := by
  refine ⟨⟨by decide, by decide, ?_⟩, by decide, by decide, ?_, ?_⟩
  · intro i hi _
    have h : i = 0 ∨ i = 1 ∨ i = 2 := by have : i < 3 := hi; omega
    rcases h with rfl | rfl | rfl <;> exact ⟨_, rfl⟩
  · intro i n hi _ hn _
    have h : i = 0 ∨ i = 1 ∨ i = 2 := by have : i < 3 := hi; omega
    rcases h with rfl | rfl | rfl <;> cases hn
    · exact .inl (by decide)
    · contradiction
    · exact .inr (by decide)
  · intro i n hi _ hn _ _
    have h : i = 0 ∨ i = 1 ∨ i = 2 := by have : i < 3 := hi; omega
    rcases h with rfl | rfl | rfl <;> cases hn
    · exact .inl (by decide)
    · contradiction
    · contradiction

/-- The block of V-B2a after its last merge. -/
def merged : State := { small .bldMerge with node := arena, nNodes := 5, inpq := [(4, true)] }

theorem witness_BldMergeStep_finishes :
    merged.memoriesWf = true ∧ 4 < merged.nNodes ∧ merged.inpqAt 4 = true ∧
    ∀ i, i < merged.nNodes → merged.inpqAt i = true → i = 4 := by decide

/-- A block of V-B2a in a phase with a stack of `n + 1` entries. -/
def stacked (p : Phase) (e : StkEntry) (n : Nat) : State := { block p [] with stk := e :: List.replicate n e }

theorem witness_GenStep :
    (block .gen []).stk = [] ∧
    (stacked .gen (.pair 2 []) 0).stk = .pair 2 [] :: [] ∧
    (stacked .gen (.pair 2 []) 0).nodeAt 2 = some (.leaf 1 256) ∧ (256 : Symbol).toNat ≤ 256 ∧
    (stacked .gen (.pair 4 []) 512).stk = .pair 4 [] :: List.replicate 512 (.pair 4 []) ∧
    (stacked .gen (.pair 4 []) 512).nodeAt 4 = some (.internal 5 (some 3) (some 0)) ∧
    (List.replicate 512 (StkEntry.pair 4 [])).length + 2 ≤ (stacked .gen (.pair 4 []) 512).params.nodeCap + 1 :=
  ⟨rfl, rfl, rfl, by decide, rfl, rfl, by rw [List.length_replicate]; exact le_rfl⟩

theorem witness_FullStackRaisesTreeCapacity_gen (n : Nat) (h : n = 513 ∨ n = 514) :
    (stacked .gen (.pair 4 []) n).stk = .pair 4 [] :: List.replicate n (.pair 4 []) ∧
    (stacked .gen (.pair 4 []) n).nodeAt 4 = some (.internal 5 (some 3) (some 0)) ∧
    (stacked .gen (.pair 4 []) n).params.nodeCap ≤ (List.replicate n (StkEntry.pair 4 [])).length ∧
    (stacked .gen (.pair 4 []) n).answer ≠ .never :=
  ⟨rfl, rfl, by rw [List.length_replicate]; show 513 ≤ n; omega, IoAnswer.noConfusion⟩

theorem witness_FullStackRaisesTreeCapacity_wrHdr (n : Nat) (h : n = 513 ∨ n = 514) :
    (stacked .wrHdr (.index 4) n).stk = .index 4 :: List.replicate n (.index 4) ∧
    (stacked .wrHdr (.index 4) n).nodeAt 4 = some (.internal 5 (some 3) (some 0)) ∧
    (stacked .wrHdr (.index 4) n).params.nodeCap ≤ (List.replicate n (StkEntry.index 4)).length ∧
    (stacked .wrHdr (.index 4) n).snk.closed = false ∧ (stacked .wrHdr (.index 4) n).ioOk 1 = true ∧
    ((stacked .wrHdr (.index 4) n).afterWrite 1 0).answer ≠ .never :=
  ⟨rfl, rfl, by rw [List.length_replicate]; show 513 ≤ n; omega, rfl, rfl, IoAnswer.noConfusion⟩

theorem witness_WrMagicStep :
    ((block .wrMagic []).snk.closed = false ∧ (block .wrMagic []).ioOk 1 = true) ∧
    (failing .wrMagic).snk.closed = false ∧ (failing .wrMagic).answer = .fail ∧
    ((failing .wrMagic).issue (.write 32 (failing .wrMagic).params.magic.toNat false)).answer ≠ .never := by decide

theorem witness_WrHdrStep_writes :
    (block .wrHdr []).stk = [] ∧
    ((stacked .wrHdr (.index 2) 0).stk = [.index 2] ∧
      (stacked .wrHdr (.index 2) 0).nodeAt 2 = some (.leaf 1 256) ∧
      (stacked .wrHdr (.index 2) 0).snk.closed = false ∧ (stacked .wrHdr (.index 2) 0).ioOk 2 = true) ∧
    (stacked .wrHdr (.index 4) 512).stk = .index 4 :: List.replicate 512 (.index 4) ∧
    (stacked .wrHdr (.index 4) 512).nodeAt 4 = some (.internal 5 (some 3) (some 0)) ∧
    (stacked .wrHdr (.index 4) 512).snk.closed = false ∧ (stacked .wrHdr (.index 4) 512).ioOk 1 = true ∧
    (List.replicate 512 (StkEntry.index 4)).length + 2 ≤ (stacked .wrHdr (.index 4) 512).params.nodeCap + 1 :=
  ⟨rfl, ⟨rfl, rfl, rfl, rfl⟩, rfl, rfl, rfl, rfl, by rw [List.length_replicate]; exact le_rfl⟩

/-- A block in WR_HDR at node `i` whose calls are answered as listed. -/
def writing (i : Nat) (answers : List IoAnswer) : State :=
  { block .wrHdr [] with stk := [.index i], io := answers }

theorem witness_WrHdrStep_fails :
    ((writing 4 [.fail]).stk = [.index 4] ∧ (writing 4 [.fail]).nodeAt 4 = some (.internal 5 (some 3) (some 0)) ∧
      (writing 4 [.fail]).snk.closed = false ∧ (writing 4 [.fail]).answer = .fail ∧
      ((writing 4 [.fail]).issue (.write 1 0 false)).answer ≠ .never) ∧
    ((writing 2 [.fail]).nodeAt 2 = some (.leaf 1 256) ∧ (writing 2 [.fail]).answer = .fail) ∧
    (writing 2 [.ok, .fail]).stk = [.index 2] ∧ (writing 2 [.ok, .fail]).nodeAt 2 = some (.leaf 1 256) ∧
    (writing 2 [.ok, .fail]).snk.closed = false ∧ (writing 2 [.ok, .fail]).ioOk 1 = true ∧
    ((writing 2 [.ok, .fail]).afterWrite 1 1).answer = .fail ∧
    (((writing 2 [.ok, .fail]).afterWrite 1 1).issue (.write 9 (256 : Symbol).toNat false)).answer ≠ .never := by decide

theorem witness_RewindStep :
    (block .rewind []).ioOk 1 = true ∧
    (failing .rewind).answer = .fail ∧ ((failing .rewind).issue (.rewind false)).answer ≠ .never := by decide

/-- A block in ENC at the byte 42. -/
def encoding : State := block .enc (bits [0,1,0,0,0,0,1,0])

theorem witness_EncStep_writes :
    encoding.sourceStarts (bitsOf 8 (0x42 : Byte).toNat) ∧ encoding.codeAt (0x42 : Byte).toNat = some [false, false] ∧
    encoding.snk.closed = false ∧
    encoding.ioOk (1 + (codeChunks [false, false].length [false, false]).length) = true :=
  ⟨⟨[], by decide⟩, by decide, by decide, by decide⟩

theorem witness_EncStep_no_code :
    (block .enc (bits [0,1,0,0,0,0,1,1])).ioOk 1 = true ∧
    (block .enc (bits [0,1,0,0,0,0,1,1])).sourceStarts (bitsOf 8 (0x43 : Byte).toNat) ∧
    (block .enc (bits [0,1,0,0,0,0,1,1])).codeAt (0x43 : Byte).toNat = none ∧
    ((block .enc (bits [0,1,0,0,0,0,1,1])).afterRead 8 (0x43 : Byte).toNat).answer ≠ .never :=
  ⟨by decide, ⟨[], by decide⟩, by decide, by decide⟩

theorem witness_EncStep_read_fails :
    (failing .enc).answer = .fail ∧ ((failing .enc).afterMiss 8 .fail 0).answer ≠ .never := by decide

/-- A path of 33 bits: two chunks. -/
def longPath : BitString := List.replicate 33 true

/-- A block in a phase whose codes of 42 and of the sentinel have 33 bits, its source at the byte 42. -/
def longCode (p : Phase) (answers : List IoAnswer) : State :=
  { block p (bits [0,1,0,0,0,0,1,0]) with code := [(66, longPath), (256, longPath)], io := answers }

theorem longPath_chunks : codeChunks longPath.length longPath = [List.replicate 32 true] ++ [true] :: [] := by decide

/-- The second call of the code fails; in the last line the first does. -/
theorem witness_EncStep_write_fails :
    (longCode .enc [.ok, .ok, .fail]).ioOk (1 + [List.replicate 32 true].length) = true ∧
    (longCode .enc [.ok, .ok, .fail]).sourceStarts (bitsOf 8 (0x42 : Byte).toNat) ∧
    (longCode .enc [.ok, .ok, .fail]).codeAt (0x42 : Byte).toNat = some longPath ∧
    (longCode .enc [.ok, .ok, .fail]).snk.closed = false ∧
    codeChunks longPath.length longPath = [List.replicate 32 true] ++ [true] :: [] ∧
    (((longCode .enc [.ok, .ok, .fail]).afterRead 8 (0x42 : Byte).toNat).afterChunks [List.replicate 32 true]).answer
      = .fail ∧
    ((((longCode .enc [.ok, .ok, .fail]).afterRead 8 (0x42 : Byte).toNat).afterChunks [List.replicate 32 true]).issue
      (.write [true].length (valOf [true]) false)).answer ≠ .never ∧
    (((longCode .enc [.ok, .fail]).afterRead 8 (0x42 : Byte).toNat).afterChunks []).answer = .fail :=
  ⟨rfl, ⟨[], by decide⟩, by decide, rfl, longPath_chunks, rfl, IoAnswer.noConfusion, rfl⟩

theorem witness_EncEofStep :
    ((block .encEof []).codeAt 256 = some [false, true] ∧ (block .encEof []).snk.closed = false ∧
      (block .encEof []).ioOk (codeChunks [false, true].length [false, true]).length = true) ∧
    (longCode .encEof [.ok, .fail]).codeAt 256 = some longPath ∧ (longCode .encEof [.ok, .fail]).snk.closed = false ∧
    codeChunks longPath.length longPath = [List.replicate 32 true] ++ [true] :: [] ∧
    (longCode .encEof [.ok, .fail]).ioOk [List.replicate 32 true].length = true ∧
    ((longCode .encEof [.ok, .fail]).afterChunks [List.replicate 32 true]).answer = .fail ∧
    (((longCode .encEof [.ok, .fail]).afterChunks [List.replicate 32 true]).issue
      (.write [true].length (valOf [true]) false)).answer ≠ .never :=
  ⟨by decide, by decide, rfl, longPath_chunks, rfl, rfl, IoAnswer.noConfusion⟩

theorem witness_CodeIsWrittenInChunks :
    ((block .enc []).snk.closed = false ∧ (block .enc []).ioOk (codeChunks longPath.length longPath).length = true) ∧
    (∃ c, c ∈ codeChunks longPath.length longPath) ∧
    (longCode .enc [.ok, .fail]).snk.closed = false ∧
    codeChunks longPath.length longPath = [List.replicate 32 true] ++ [true] :: [] ∧
    (longCode .enc [.ok, .fail]).ioOk [List.replicate 32 true].length = true ∧
    ((longCode .enc [.ok, .fail]).afterChunks [List.replicate 32 true]).answer = .fail ∧
    (((longCode .enc [.ok, .fail]).afterChunks [List.replicate 32 true]).issue
      (.write [true].length (valOf [true]) false)).answer ≠ .never :=
  ⟨⟨rfl, rfl⟩, ⟨[true], by rw [longPath_chunks]; decide⟩, rfl, longPath_chunks, rfl, rfl, IoAnswer.noConfusion⟩

theorem witness_RdMagicStep_reads :
    ((block .rdMagic magicBits).ioOk 1 = true ∧
      (block .rdMagic magicBits).sourceStarts (bitsOf 32 (0xFACE8201 : BitVec 32).toNat) ∧
      (0xFACE8201 : BitVec 32) = (block .rdMagic magicBits).params.magic) ∧
    (block .rdMagic (bitsOf 32 0xFACE8200)).ioOk 1 = true ∧
    (block .rdMagic (bitsOf 32 0xFACE8200)).sourceStarts (bitsOf 32 (0xFACE8200 : BitVec 32).toNat) ∧
    (0xFACE8200 : BitVec 32) ≠ (block .rdMagic (bitsOf 32 0xFACE8200)).params.magic ∧
    ((block .rdMagic (bitsOf 32 0xFACE8200)).afterRead 32 (0xFACE8200 : BitVec 32).toNat).answer ≠ .never :=
  ⟨⟨by decide, ⟨[], by decide⟩, by decide⟩, by decide, ⟨[], by decide⟩, by decide, by decide⟩

theorem witness_RdMagicStep_misses :
    ((block .rdMagic (magicBits.take 31)).ioOk 1 = true ∧ (block .rdMagic (magicBits.take 31)).sourceShort 32 ∧
      (block .rdMagic (magicBits.take 31)).src.pos ≤ (block .rdMagic (magicBits.take 31)).src.bits.length ∧
      ((block .rdMagic (magicBits.take 31)).afterMiss 32 .eos 0).answer ≠ .never) ∧
    (failing .rdMagic).answer = .fail ∧ ((failing .rdMagic).afterMiss 32 .fail 0).answer ≠ .never :=
  ⟨⟨by decide, show 31 < 0 + 32 by decide, by decide, by decide⟩, by decide, by decide⟩

/-- A block in RD_HDR with `n` nodes, of which node 0 is internal, with these slots and source bits. -/
def reading (n : Nat) (stk : List StkEntry) (source : BitString) : State :=
  { small .rdHdr with
    node := [(0, .internal 0 none none)], nNodes := n, rootV := true, stk := stk, src := { bits := source, pos := 0 } }

/-- `n` open slots of node 0. -/
def slots (n : Nat) : List StkEntry := List.replicate n (.slot (.child 0 .R))

theorem witness_FullStackRaisesTreeCapacity_rdHdr (n : Nat) (h : n = 513 ∨ n = 514) :
    (reading 512 (.slot (.child 0 .L) :: slots n) [false]).stk = .slot (.child 0 .L) :: slots n ∧
    (reading 512 (.slot (.child 0 .L) :: slots n) [false]).nNodes <
      (reading 512 (.slot (.child 0 .L) :: slots n) [false]).params.nodeCap ∧
    (reading 512 (.slot (.child 0 .L) :: slots n) [false]).params.nodeCap ≤ (slots n).length ∧
    (reading 512 (.slot (.child 0 .L) :: slots n) [false]).ioOk 1 = true ∧
    (reading 512 (.slot (.child 0 .L) :: slots n) [false]).sourceStarts [false] ∧
    ((reading 512 (.slot (.child 0 .L) :: slots n) [false]).afterRead 1 0).answer ≠ .never :=
  ⟨rfl, show 512 < 513 by decide, by rw [slots, List.length_replicate]; show 513 ≤ n; omega, rfl, ⟨[], rfl⟩,
    IoAnswer.noConfusion⟩

theorem witness_RdHdrReadsOneToken_fill :
    (reading 1 [] []).nodeAt 0 = some (.internal 0 none none) := rfl

theorem witness_RdHdrReadsOneToken_internal :
    (reading 512 (.slot (.child 0 .L) :: slots 512) [false]).stk = .slot (.child 0 .L) :: slots 512 ∧
    slotOpen (reading 512 (.slot (.child 0 .L) :: slots 512) [false]) (.slot (.child 0 .L)) ∧
    (reading 512 (.slot (.child 0 .L) :: slots 512) [false]).nNodes <
      (reading 512 (.slot (.child 0 .L) :: slots 512) [false]).params.nodeCap ∧
    (slots 512).length + 2 ≤ (reading 512 (.slot (.child 0 .L) :: slots 512) [false]).params.nodeCap + 1 ∧
    (reading 512 (.slot (.child 0 .L) :: slots 512) [false]).ioOk 1 = true ∧
    (reading 512 (.slot (.child 0 .L) :: slots 512) [false]).sourceStarts [false] :=
  ⟨rfl, ⟨show 0 < 512 by decide, 0, none, none, rfl⟩, show 512 < 513 by decide,
    by rw [slots, List.length_replicate]; exact le_rfl, rfl, ⟨[], rfl⟩⟩

theorem witness_RdHdrReadsOneToken_root : slotOpen (reading 0 [.slot .root] [false]) (.slot .root) := trivial

theorem witness_RdHdrReadsOneToken_leaf :
    (reading 512 (slots 1) (true :: bitsOf 9 256)).stk = .slot (.child 0 .R) :: [] ∧
    slotOpen (reading 512 (slots 1) (true :: bitsOf 9 256)) (.slot (.child 0 .R)) ∧
    (reading 512 (slots 1) (true :: bitsOf 9 256)).nNodes <
      (reading 512 (slots 1) (true :: bitsOf 9 256)).params.nodeCap ∧
    (reading 512 (slots 1) (true :: bitsOf 9 256)).ioOk 2 = true ∧ (256 : Symbol).toNat ≤ 256 ∧
    (reading 512 (slots 1) (true :: bitsOf 9 256)).sourceStarts (true :: bitsOf 9 (256 : Symbol).toNat) :=
  ⟨rfl, ⟨show 0 < 512 by decide, 0, none, none, rfl⟩, show 512 < 513 by decide, rfl, by decide, ⟨[], rfl⟩⟩

/-- A block in RD_HDR after the last token, whose root is a lone leaf. -/
def loneLeaf (sym : Symbol) : State := { small .rdHdr with node := [(0, .leaf 0 sym)], nNodes := 1, rootV := true }

theorem witness_RdHdrFinishes :
    ((reading 1 [] []).stk = [] ∧ (reading 1 [] []).nodeAt (reading 1 [] []).root = some (.internal 0 none none)) ∧
    ((loneLeaf 256).stk = [] ∧ (loneLeaf 256).nodeAt (loneLeaf 256).root = some (.leaf 0 256) ∧
      (256 : Symbol).toNat = 256) ∧
    (loneLeaf 255).stk = [] ∧ (loneLeaf 255).nodeAt (loneLeaf 255).root = some (.leaf 0 255) ∧
    (255 : Symbol).toNat ≠ 256 ∧ (loneLeaf 255).answer ≠ .never := by decide

theorem witness_RdHdrErrors_eos :
    (reading 1 (slots 1) []).stk = .slot (.child 0 .R) :: [] ∧ (reading 1 (slots 1) []).ioOk 1 = true ∧
    (reading 1 (slots 1) []).sourceShort 1 ∧
    (reading 1 (slots 1) []).src.pos ≤ (reading 1 (slots 1) []).src.bits.length ∧
    ((reading 1 (slots 1) []).afterMiss 1 .eos 0).answer ≠ .never :=
  ⟨rfl, rfl, show 0 < 0 + 1 by decide, le_rfl, IoAnswer.noConfusion⟩

theorem witness_RdHdrErrors_capacity :
    (reading 513 (slots 1) [true]).stk = .slot (.child 0 .R) :: [] ∧ (reading 513 (slots 1) [true]).ioOk 1 = true ∧
    (reading 513 (slots 1) [true]).sourceStarts [true] ∧
    (reading 513 (slots 1) [true]).nNodes = (reading 513 (slots 1) [true]).params.nodeCap ∧
    ((reading 513 (slots 1) [true]).afterRead 1 0).answer ≠ .never :=
  ⟨rfl, rfl, ⟨[], rfl⟩, rfl, IoAnswer.noConfusion⟩

/-- Nine bits are left: a discriminator and eight bits of the field. -/
theorem witness_RdHdrErrors_eos_in_field :
    (reading 512 (slots 1) (true :: bitsOf 8 0)).stk = .slot (.child 0 .R) :: [] ∧
    (reading 512 (slots 1) (true :: bitsOf 8 0)).ioOk 2 = true ∧
    (reading 512 (slots 1) (true :: bitsOf 8 0)).sourceStarts [true] ∧
    (reading 512 (slots 1) (true :: bitsOf 8 0)).nNodes ≠
      (reading 512 (slots 1) (true :: bitsOf 8 0)).params.nodeCap ∧
    (reading 512 (slots 1) (true :: bitsOf 8 0)).sourceShort 10 ∧
    (((reading 512 (slots 1) (true :: bitsOf 8 0)).afterRead 1 1).afterMiss 9 .eos 0).answer ≠ .never :=
  ⟨rfl, rfl, ⟨bitsOf 8 0, rfl⟩, show (512 : Nat) ≠ 513 by decide, show 9 < 0 + 10 by decide, IoAnswer.noConfusion⟩

theorem witness_RdHdrErrors_reserved (v : Nat) (h : v = 257 ∨ v = 511) :
    (reading 1 (slots 1) (true :: bitsOf 9 v)).stk = .slot (.child 0 .R) :: [] ∧
    (reading 1 (slots 1) (true :: bitsOf 9 v)).ioOk 2 = true ∧ 256 < v ∧ v < 512 ∧
    (reading 1 (slots 1) (true :: bitsOf 9 v)).sourceStarts (true :: bitsOf 9 v) ∧
    (reading 1 (slots 1) (true :: bitsOf 9 v)).nNodes ≠ (reading 1 (slots 1) (true :: bitsOf 9 v)).params.nodeCap ∧
    (((reading 1 (slots 1) (true :: bitsOf 9 v)).afterRead 1 1).afterRead 9 v).answer ≠ .never :=
  ⟨rfl, rfl, by omega, by omega, ⟨[], by simp [reading, small]⟩, show (1 : Nat) ≠ 513 by decide,
    IoAnswer.noConfusion⟩

theorem witness_RdHdrErrors_fail :
    (State.stk { reading 1 (slots 1) [] with io := [.fail] } = .slot (.child 0 .R) :: [] ∧
      State.answer { reading 1 (slots 1) [] with io := [.fail] } = .fail ∧
      (State.afterMiss { reading 1 (slots 1) [] with io := [.fail] } 1 .fail 0).answer ≠ .never) ∧
    State.ioOk { reading 1 (slots 1) [true] with io := [.ok, .fail] } 1 = true ∧
    State.sourceStarts { reading 1 (slots 1) [true] with io := [.ok, .fail] } [true] ∧
    State.nNodes { reading 1 (slots 1) [true] with io := [.ok, .fail] } ≠ (small .rdHdr).params.nodeCap ∧
    (State.afterRead { reading 1 (slots 1) [true] with io := [.ok, .fail] } 1 1).answer = .fail ∧
    ((State.afterRead { reading 1 (slots 1) [true] with io := [.ok, .fail] } 1 1).afterMiss 9 .fail 0).answer ≠ .never :=
  ⟨⟨rfl, rfl, IoAnswer.noConfusion⟩, rfl, ⟨[], rfl⟩, show (1 : Nat) ≠ 513 by decide, rfl, IoAnswer.noConfusion⟩

/-- A block in DEC at node `i` of V-B2a, its source at these bits, its calls answered as listed. -/
def decoding (i : Nat) (source : BitString) (answers : List IoAnswer) : State :=
  { block .dec source with cur := i, io := answers }

theorem witness_DecStep_leaf :
    ((decoding 2 [] []).nodeAt (decoding 2 [] []).cur = some (.leaf 1 256) ∧ (256 : Symbol).toNat = 256) ∧
    ((decoding 0 [] []).nodeAt (decoding 0 [] []).cur = some (.leaf 3 65) ∧ (65 : Symbol).toNat ≠ 256 ∧
      (decoding 0 [] []).snk.closed = false ∧ (decoding 0 [] []).ioOk 1 = true) ∧
    (decoding 0 [] [.fail]).nodeAt (decoding 0 [] [.fail]).cur = some (.leaf 3 65) ∧
    (decoding 0 [] [.fail]).snk.closed = false ∧ (decoding 0 [] [.fail]).answer = .fail ∧
    ((decoding 0 [] [.fail]).issue (.write 8 ((65 : Symbol).toNat % 256) false)).answer ≠ .never := by decide

theorem witness_DecStep_internal :
    ((decoding 4 [true] []).nodeAt (decoding 4 [true] []).cur = some (.internal 5 (some 3) (some 0)) ∧
      (decoding 4 [true] []).ioOk 1 = true ∧ (decoding 4 [true] []).sourceStarts [true]) ∧
    ((decoding 4 [] []).nodeAt (decoding 4 [] []).cur = some (.internal 5 (some 3) (some 0)) ∧
      (decoding 4 [] []).ioOk 1 = true ∧ (decoding 4 [] []).src.pos = (decoding 4 [] []).src.bits.length ∧
      ((decoding 4 [] []).afterMiss 1 .eos 0).answer ≠ .never) ∧
    (decoding 4 [] [.fail]).nodeAt (decoding 4 [] [.fail]).cur = some (.internal 5 (some 3) (some 0)) ∧
    (decoding 4 [] [.fail]).answer = .fail ∧ ((decoding 4 [] [.fail]).afterMiss 1 .fail 0).answer ≠ .never :=
  ⟨⟨by decide, by decide, ⟨[], rfl⟩⟩, by decide, by decide, by decide, by decide⟩

theorem witness_CloseStep :
    (block .close []).ioOk 1 = true ∧ (failing .close).answer = .fail ∧ (failing .close).errcode = 0 := by decide

/-! ### Witnesses: the stream tokens and the stops -/

theorem witness_MagicToken :
    ((small .rdMagic).ioOk 1 = true ∧ (0xFACE8201 : BitVec 32) = (small .rdMagic).params.magic) ∧
    (0xFACE8200 : BitVec 32) ≠ (small .rdMagic).params.magic ∧
    ((small .rdMagic).afterRead 32 (0xFACE8200 : BitVec 32).toNat).answer ≠ .never := by decide

theorem witness_HeaderTokensFillTheSlot_root :
    (reading 0 [.slot .root] []).stk = .slot .root :: [] ∧
    (reading 0 [.slot .root] []).nNodes < (reading 0 [.slot .root] []).params.nodeCap ∧
    ([] : List StkEntry).length + 2 ≤ (reading 0 [.slot .root] []).params.nodeCap + 1 ∧ (256 : Symbol).toNat ≤ 256 ∧
    (reading 0 [.slot .root] []).ioOk 1 = true ∧ (reading 0 [.slot .root] []).ioOk 2 = true := by decide

theorem witness_HeaderTokensFillTheSlot_child :
    (reading 512 (slots 513) []).stk = .slot (.child 0 .R) :: slots 512 ∧ 0 ≠ (reading 512 (slots 513) []).nNodes ∧
    (reading 512 (slots 513) []).nodeAt 0 = some (.internal 0 none none) ∧
    (reading 512 (slots 513) []).nNodes < (reading 512 (slots 513) []).params.nodeCap ∧
    (slots 512).length + 2 ≤ (reading 512 (slots 513) []).params.nodeCap + 1 ∧ (256 : Symbol).toNat ≤ 256 ∧
    (reading 512 (slots 513) []).ioOk 1 = true ∧ (reading 512 (slots 513) []).ioOk 2 = true :=
  ⟨rfl, show (0 : Nat) ≠ 512 by decide, rfl, show 512 < 513 by decide,
    by rw [slots, List.length_replicate]; exact le_rfl, by decide, rfl, rfl⟩

theorem witness_BodyBitsDescend :
    ((decoding 4 [] []).nodeAt (decoding 4 [] []).cur = some (.internal 5 (some 3) (some 0)) ∧
      (decoding 4 [] []).ioOk 1 = true) ∧
    (decoding 2 [] []).nodeAt (decoding 2 [] []).cur = some (.leaf 1 256) := by decide

theorem witness_ByteTokenIsCountedOrEncoded_counts :
    ((counting 0xFFFFFFFE).phase = .cnt ∧ (counting 0xFFFFFFFE).ioOk 1 = true ∧
      ((counting 0xFFFFFFFE).freqAt (255 : Byte).toNat).toNat ≠ 2 ^ 32 - 1) ∧
    ((counting 0xFFFFFFFF).phase = .cnt ∧ (counting 0xFFFFFFFF).ioOk 1 = true ∧
      ((counting 0xFFFFFFFF).freqAt (255 : Byte).toNat).toNat = 2 ^ 32 - 1 ∧
      ((counting 0xFFFFFFFF).afterRead 8 (255 : Byte).toNat).answer ≠ .never) ∧
    (failing .cnt).phase = .cnt ∧ (failing .cnt).answer = .fail ∧
    ((failing .cnt).afterMiss 8 .fail 0).answer ≠ .never := by decide

theorem witness_ByteTokenIsCountedOrEncoded_encodes :
    (encoding.phase = .enc ∧ encoding.codeAt (0x42 : Byte).toNat = some [false, false] ∧
      encoding.snk.closed = false ∧
      encoding.ioOk (1 + (codeChunks [false, false].length [false, false]).length) = true) ∧
    (encoding.ioOk 1 = true ∧ encoding.codeAt (0x43 : Byte).toNat = none ∧
      (encoding.afterRead 8 (0x43 : Byte).toNat).answer ≠ .never) ∧
    ((failing .enc).phase = .enc ∧ (failing .enc).answer = .fail ∧
      ((failing .enc).afterMiss 8 .fail 0).answer ≠ .never) ∧
    (small .gen).phase ≠ .cnt ∧ (small .gen).phase ≠ .enc := by decide

/-- The other hypotheses of the clause are those of `witness_EncStep_write_fails`. -/
theorem witness_ByteTokenIsCountedOrEncoded_write_fails : (longCode .enc [.ok, .ok, .fail]).phase = .enc := rfl

theorem witness_NamedStops_first_call :
    (State.answer { small .cnt with io := [.never] } = .never ∧ State.phase { small .cnt with io := [.never] } = .cnt) ∧
    (State.answer { small .wrMagic with io := [.never] } = .never ∧ (small .wrMagic).snk.closed = false) ∧
    (State.answer { reading 1 (slots 1) [] with io := [.never] } = .never ∧
      State.stk { reading 1 (slots 1) [] with io := [.never] } = .slot (.child 0 .R) :: []) ∧
    ((writing 4 [.never]).stk = [.index 4] ∧ (writing 4 [.never]).nodeAt 4 = some (.internal 5 (some 3) (some 0)) ∧
      (writing 4 [.never]).snk.closed = false ∧ (writing 4 [.never]).answer = .never) ∧
    ((decoding 4 [] [.never]).answer = .never ∧
      (decoding 4 [] [.never]).nodeAt (decoding 4 [] [.never]).cur = some (.internal 5 (some 3) (some 0))) ∧
    (decoding 0 [] [.never]).answer = .never ∧
    (decoding 0 [] [.never]).nodeAt (decoding 0 [] [.never]).cur = some (.leaf 3 65) ∧ (65 : Symbol).toNat ≠ 256 ∧
    (decoding 0 [] [.never]).snk.closed = false := by decide

theorem witness_NamedStops_second_call :
    ((writing 2 [.ok, .never]).stk = [.index 2] ∧ (writing 2 [.ok, .never]).nodeAt 2 = some (.leaf 1 256) ∧
      (writing 2 [.ok, .never]).snk.closed = false ∧ (writing 2 [.ok, .never]).ioOk 1 = true ∧
      ((writing 2 [.ok, .never]).afterWrite 1 1).answer = .never) ∧
    State.stk { reading 1 (slots 1) [true] with io := [.ok, .never] } = .slot (.child 0 .R) :: [] ∧
    State.nNodes { reading 1 (slots 1) [true] with io := [.ok, .never] } ≠ (small .rdHdr).params.nodeCap ∧
    State.ioOk { reading 1 (slots 1) [true] with io := [.ok, .never] } 1 = true ∧
    (State.afterRead { reading 1 (slots 1) [true] with io := [.ok, .never] } 1 1).answer = .never ∧
    State.sourceStarts { reading 1 (slots 1) [true] with io := [.ok, .never] } [true] :=
  ⟨by decide, rfl, by decide, rfl, rfl, ⟨[], rfl⟩⟩

/-- At the second chunk; the chunks of `longPath` are those of `longPath_chunks`. -/
theorem witness_NamedStops_chunk :
    ((longCode .encEof [.ok, .never]).snk.closed = false ∧ (longCode .encEof [.ok, .never]).codeAt 256 = some longPath ∧
      (longCode .encEof [.ok, .never]).ioOk [List.replicate 32 true].length = true ∧
      ((longCode .encEof [.ok, .never]).afterChunks [List.replicate 32 true]).answer = .never) ∧
    (longCode .enc [.ok, .ok, .never]).snk.closed = false ∧
    (longCode .enc [.ok, .ok, .never]).codeAt (0x42 : Byte).toNat = some longPath ∧
    (longCode .enc [.ok, .ok, .never]).ioOk (1 + [List.replicate 32 true].length) = true ∧
    (((longCode .enc [.ok, .ok, .never]).afterRead 8 (0x42 : Byte).toNat).afterChunks [List.replicate 32 true]).answer =
      .never ∧
    (longCode .enc [.ok, .ok, .never]).phase = .enc ∧
    (longCode .enc [.ok, .ok, .never]).sourceStarts (bitsOf 8 (0x42 : Byte).toNat) :=
  ⟨⟨rfl, rfl, rfl, rfl⟩, rfl, rfl, rfl, rfl, rfl, ⟨[], by decide⟩⟩

theorem witness_NamedStops_excluded :
    ((∀ i, (small .bldMerge).inpqAt i = false) ∧ (small .bldMerge).memoriesWf = true) ∧
    256 < (State.sym { small .bldInit with sym := 257 }).toNat ∧
    (small .encEof).codeAt 256 = none ∧ (small .dec).nodeAt (small .dec).cur = none ∧ (small .rdHdr).stk = [] ∧
    (State.snk { small .wrMagic with snk := { bits := [], closed := true, pad := [] } }).closed = true ∧
    (State.busy { small .idle with cmd := some { offer 0 [] with shared := true } } = false ∧
      Offer.shared { offer 0 [] with shared := true } = true) :=
  ⟨⟨fun _ => rfl, by decide⟩, by decide, by decide, by decide, by decide, by decide, by decide⟩

/-! ### Witnesses: invariants -/

/-- The block's invariant of a block of V-B2a. -/
theorem block_inv (p : Phase) (source : BitString) (hc : compressPhase p = true) (hs : stackFits p []) :
    BlockInv (block p source) where
  capacity := le_rfl
  memories := by
    show State.memoriesWf (block .enc []) = true
    decide
  sentinelCount := rfl
  freqRange := by intro i v h; simp [block, small, State.reset, Config.eofSym] at h; omega
  codeRange := by
    intro i p h
    simp [block, codes] at h
    omega
  nodeRange := by
    intro i n h
    simp [block, arena, small] at h ⊢
    omega
  childRange := by
    intro i w l r h
    simp [block, arena, small] at h ⊢
    rcases h with h | h <;> simp [h]
  nodeCount := show 5 ≤ 513 by decide
  rootRange := fun _ => show 4 < 513 by decide
  curRange := fun _ => show 0 < 513 by decide
  stackBound := show 0 ≤ 514 by decide
  stackShape := hs
  stackHeld := fun _ => rfl
  errorCode := by
    show (0 : BitVec 4) = 0 ↔ p ≠ .err
    simp
    rintro rfl
    simp [compressPhase] at hc
  errorRange := show 0 ≤ 9 by decide
  modeCompress := fun _ => rfl
  modeDecompress := by
    intro h
    cases p <;> first | (simp [compressPhase] at hc; done) | (simp [decompressPhase, block, small] at h)
  position := ⟨Nat.zero_le _, fun _ h => nomatch h⟩
  closedAtEnd := by
    intro h
    rcases h with h | h <;> (simp [block, small] at h; subst h; simp [compressPhase] at hc)

theorem witness_StepKeepsInv : ∃ t, BlockInv (block .rewind []) ∧ step (block .rewind []) = .next t :=
  ⟨_, block_inv .rewind [] rfl rfl, rfl⟩

/-- The run invariant of a block of V-B2a in REWIND, with the sentinel's code recorded. -/
theorem witness_RunNeverStops : RunInv (block .rewind []) where
  block := block_inv .rewind [] rfl rfl
  phase := rfl
  sinkOpen := fun _ => rfl
  returns := rfl
  offer := fun _ h => nomatch h

/-- The nodes of V-B2a's arena. -/
theorem arena_cases {i : Nat} {n : Node} (h : Memory.find? arena i = some n) :
    i = 0 ∧ n = .leaf 3 65 ∨ i = 1 ∧ n = .leaf 1 66 ∨ i = 2 ∧ n = .leaf 1 256 ∨
      i = 3 ∧ n = .internal 2 (some 1) (some 2) ∨ i = 4 ∧ n = .internal 5 (some 3) (some 0) := by
  have := Memory.find?_mem h
  simpa [arena] using this

/-- The sentinel lies below the root of V-B2a. -/
theorem arena_sentinel : HasSentinel arena 4 :=
  .left (l := 3) (w := 5) (r := some 0) rfl
    (.right (w := 2) (l := some 1) (r := 2) rfl (.leaf (w := 1) (sym := 256) rfl rfl))

theorem arena_written {i : Nat} (h : i < 5) : ∃ n, Memory.find? arena i = some n := by
  have h : i = 0 ∨ i = 1 ∨ i = 2 ∨ i = 3 ∨ i = 4 := by omega
  rcases h with rfl | rfl | rfl | rfl | rfl <;> exact ⟨_, rfl⟩

theorem arena_below {i : Nat} {w : BitVec 41} {l r : Option Nat}
    (h : Memory.find? arena i = some (.internal w l r)) : ∃ a b, l = some a ∧ r = some b ∧ a < i ∧ b < i := by
  rcases arena_cases h with ⟨hi, hn⟩ | ⟨hi, hn⟩ | ⟨hi, hn⟩ | ⟨hi, hn⟩ | ⟨hi, hn⟩ <;> cases hn <;> subst hi <;>
    exact ⟨_, _, rfl, rfl, by decide, by decide⟩

theorem arena_legal {i : Nat} {w : BitVec 41} {sym : Symbol}
    (h : Memory.find? arena i = some (.leaf w sym)) : sym.toNat ≤ 256 := by
  rcases arena_cases h with ⟨_, hn⟩ | ⟨_, hn⟩ | ⟨_, hn⟩ | ⟨_, hn⟩ | ⟨_, hn⟩ <;> cases hn <;> decide

/-- The phase invariants of the compress side hold on V-B2a: before the last merge step and at its root in GEN. -/
theorem witness_PhaseInv_compress :
    PhaseInv merged ∧ PhaseInv (stacked .gen (.pair 4 []) 0) ∧ PhaseInv (stacked .wrHdr (.index 4) 0) :=
  ⟨⟨fun _ => arena_written, fun _ _ _ _ => arena_below, fun _ _ _ => arena_legal, by decide, 4, by decide,
      arena_sentinel⟩,
    ⟨fun _ => arena_written, fun _ _ _ _ => arena_below, fun _ _ _ => arena_legal, by decide,
      ⟨by decide, trivial⟩, .inl rfl⟩,
    ⟨fun _ => arena_written, fun _ _ _ _ => arena_below, ⟨by decide, trivial⟩, rfl⟩⟩

/-- The phase invariants of the decompress side: at the first token, and in DEC at the root of V-B2a. -/
theorem witness_PhaseInv_decompress :
    PhaseInv { small .rdHdr with stk := [.slot .root] } ∧ PhaseInv (decoding 4 [] []) := by
  refine ⟨⟨fun _ h => absurd h (Nat.not_lt_zero _), ?_, ?_, by decide, fun _ => rfl,
    fun h => absurd h (Nat.not_lt_zero _)⟩, ⟨fun _ => arena_written, ?_, by decide, by decide, ?_⟩⟩
  · intro e he
    simp at he
    subst he
    trivial
  · intro i w l r h
    exact absurd h (by simp [State.nodeAt, small, State.reset])
  · intro i w l r h
    rcases arena_cases h with ⟨hi, hn⟩ | ⟨hi, hn⟩ | ⟨hi, hn⟩ | ⟨hi, hn⟩ | ⟨hi, hn⟩ <;> cases hn <;>
      exact ⟨_, _, rfl, rfl, by decide, by decide⟩
  · intro w sym h
    rcases arena_cases h with ⟨hi, hn⟩ | ⟨hi, hn⟩ | ⟨hi, hn⟩ | ⟨hi, hn⟩ | ⟨hi, hn⟩ <;> cases hn <;>
      exact absurd hi (by decide)

theorem witness_SinkIsClosedOnceAndLast :
    ∃ t, State.closesOnce { block .close [] with trace := [.write 2 1 true] } ∧
      step { block .close [] with trace := [.write 2 1 true] } = .next t :=
  ⟨_, ⟨fun _ => rfl, fun h => by rcases h with h | h <;> exact absurd h (by decide)⟩, rfl⟩

theorem witness_CallsKeepTheContract :
    ∃ t, List.all (State.trace { block .rewind [] with trace := [.write 32 0xFFFFFFFF true, .read 8 (.value 255)] })
        callInContract = true ∧
      step { block .rewind [] with trace := [.write 32 0xFFFFFFFF true, .read 8 (.value 255)] } = .next t :=
  ⟨_, by decide, rfl⟩

theorem witness_OnlyItsWritersChangeARegister :
    ∃ t, (block .rewind []).busy = true ∧ (block .rewind []).rst = false ∧ step (block .rewind []) = .next t :=
  ⟨_, rfl, rfl, rfl⟩

theorem witness_NoSinkCallBeforeTheScanEnds :
    (∃ t, (block .cnt []).rst = false ∧ step (block .cnt []) = .next t ∧ t.phase ≠ .err ∧ t.phase = .bldInit ∧
      (block .cnt []).phase = .cnt) ∧
    ∃ t, step { block .gen [] with stk := [.pair 4 []] } = .next t ∧ t.phase ≠ .err :=
  ⟨⟨_, rfl, rfl, by decide, rfl, rfl⟩, ⟨_, rfl, by decide⟩⟩

theorem witness_SinkOnlyGrows :
    (∃ t, (block .encEof []).busy = true ∧ (block .encEof []).rst = false ∧ step (block .encEof []) = .next t ∧
      t.phase ≠ .err ∧ (block .encEof []).phase ≠ .close) ∧
    ∃ t, step (block .close []) = .next t ∧ t.phase ≠ .err :=
  ⟨⟨_, rfl, rfl, rfl, by decide, by decide⟩, ⟨_, rfl, by decide⟩⟩

/-- The service fails in REWIND. -/
theorem witness_ErrorsArePhaseErrors :
    RunInv { block .rewind [] with io := [.fail] } ∧
    ∃ t, State.busy { block .rewind [] with io := [.fail] } = true ∧
      State.rst { block .rewind [] with io := [.fail] } = false ∧
      step { block .rewind [] with io := [.fail] } = .next t ∧ t.phase = .err := by
  have h := block_inv .rewind [] rfl rfl
  refine ⟨⟨⟨h.capacity, h.memories, h.sentinelCount, h.freqRange, h.codeRange, h.nodeRange, h.childRange, h.nodeCount,
    h.rootRange, h.curRange, h.stackBound, h.stackShape, h.stackHeld, h.errorCode, h.errorRange, h.modeCompress, h.modeDecompress,
    h.position, h.closedAtEnd⟩, rfl, fun _ => rfl, rfl, fun _ h => nomatch h⟩, ⟨_, rfl, rfl, rfl, rfl⟩⟩

theorem witness_DecSucceedsOnlyOnTheSentinel :
    ∃ t, (decoding 2 [] []).phase = .dec ∧ (decoding 2 [] []).rst = false ∧ step (decoding 2 [] []) = .next t ∧
      t.phase = .close := ⟨_, rfl, rfl, rfl, rfl⟩

/-! ### Witnesses: whole runs -/

theorem witness_WrongMagicIsRejectedAfterOneRead :
    (Launched (launched 1 (magicBits.take 31)) (offer 1 (magicBits.take 31)) ∧ (offer 1 []).op = 1 ∧
      (offer 1 (magicBits.take 31)).src.bits.length < 32) ∧
    Launched (launched 1 (bitsOf 32 0xFACE8200)) (offer 1 (bitsOf 32 0xFACE8200)) ∧
    valOf ((offer 1 (bitsOf 32 0xFACE8200)).src.bits.take 32) ≠
      (launched 1 (bitsOf 32 0xFACE8200)).params.magic.toNat :=
  ⟨⟨launched_ok _ _ (fun h => absurd h (by decide)), rfl, by decide⟩,
    launched_ok _ _ (fun h => absurd h (by decide)), by decide⟩

theorem freqOf_input (v : Nat) : freqOf input v < 2 ^ 32 := by
  unfold freqOf
  split
  · decide
  · exact Nat.lt_of_le_of_lt (List.countP_le_length ..) (by decide)

theorem witness_CntComputesFreq :
    State.phase { small .cnt with src := { bits := bytesBits input, pos := 0 } } = .cnt ∧
    State.rst { small .cnt with src := { bits := bytesBits input, pos := 0 } } = false ∧
    State.ioAllOk { small .cnt with src := { bits := bytesBits input, pos := 0 } } = true ∧
    (∀ i, i < 256 → State.freqAt { small .cnt with src := { bits := bytesBits input, pos := 0 } } i = 0) ∧
    State.freqAt { small .cnt with src := { bits := bytesBits input, pos := 0 } } 256 = 1 ∧
    (∀ v, freqOf input v < 2 ^ 32) := by
  refine ⟨rfl, rfl, rfl, ?_, rfl, freqOf_input⟩
  intro i hi
  have h : i ≠ 256 := by omega
  simp [State.freqAt, small, State.reset, Memory.read, Memory.find?, h]

theorem witness_CompressRunWritesTheStream :
    Launched (launched 0 (bytesBits input)) (offer 0 (bytesBits input)) ∧ (offer 0 (bytesBits input)).op = 0 ∧
    (offer 0 (bytesBits input)).src.bits = bytesBits input ∧ (∀ v, freqOf input v < 2 ^ 32) :=
  ⟨launched_ok _ _ (fun _ => by decide), rfl, rfl, freqOf_input⟩

theorem witness_DecompressRunComputesItsResult :
    Launched (launched 1 magicBits) (offer 1 magicBits) ∧ (offer 1 magicBits).op = 1 :=
  ⟨launched_ok _ _ (fun h => absurd h (by decide)), rfl⟩

/-- What COMPRESS of the empty input writes (P3). -/
def emptyStream : BitString := magicBits ++ bits [1, 1,0,0,0,0,0,0,0,0]

/-- P3: 268 steps after the command is accepted. -/
theorem empty_run :
    holdsAfter (Host.Core.run Sys2Proof.core 269 (launched 0 []))
      (fun t => decide (t.phase = .done ∧ t.cmd = none ∧ t.snk.bits = emptyStream)) = true := by decide +kernel

theorem witness_RunsRoundTrip :
    Launched (launched 0 []) (offer 0 []) ∧ (offer 0 []).src.bits = bytesBits [] ∧ (∀ v, freqOf [] v < 2 ^ 32) ∧
    ∃ t, Reaches 269 (launched 0 []) t ∧ t.cmd = none ∧ t.phase = .done ∧
      Launched (launched 1 (emptyStream ++ bits [0,0,0,0,0,0])) (offer 1 (emptyStream ++ bits [0,0,0,0,0,0])) ∧
      (launched 1 (emptyStream ++ bits [0,0,0,0,0,0])).params = (launched 0 []).params ∧
      (offer 1 (emptyStream ++ bits [0,0,0,0,0,0])).src.bits = t.snk.bits ++ bits [0,0,0,0,0,0] := by
  refine ⟨launched_ok _ _ (fun _ => rfl), rfl, fun v => ?_, ?_⟩
  · unfold freqOf
    split <;> simp
  · have h := empty_run
    unfold holdsAfter at h
    split at h
    · next t ht =>
      simp only [decide_eq_true_eq] at h
      exact ⟨t, ht, h.2.1, h.1, launched_ok _ _ (fun h => absurd h (by decide)), rfl, by rw [h.2.2]; rfl⟩
    · simp at h
    · simp at h

theorem witness_EveryInvocationEnds :
    RunInv (block .rewind []) ∧ (block .rewind []).rst = false ∧ (block .rewind []).busy = true :=
  ⟨witness_RunNeverStops, rfl, rfl⟩

/-! ### Witnesses: the functions -/

theorem witness_RoundTrip : 513 ≤ (small .idle).params.nodeCap := le_rfl

theorem witness_FrequentSymbolsHaveShortCodes : freqOf input 256 = 1 ∧ codeOf (build (freqOf input)) 65 = some [true] ∧
    codeOf (build (freqOf input)) 66 = some [false, false] ∧ freqOf input 66 < freqOf input 65 ∧ (65 : Nat) ≠ 66 := by
  rw [test_build]
  decide

theorem witness_BuildHasTheCountedSymbols : freqOf input 256 = 1 := rfl

theorem witness_CodesArePrefixFree :
    (treeSymbols tree).Nodup ∧ codeOf tree 65 = some [true] ∧ codeOf tree 66 = some [false, false] ∧
    freqOf input 256 = 1 := by decide

theorem witness_HeaderIsSelfDelimiting : (∀ v ∈ treeSymbols tree, v ≤ 256) ∧ treeSize tree ≤ 5 := by decide

theorem witness_WalkReadsTheBodyBack :
    (treeSymbols tree).Nodup ∧ 256 ∈ treeSymbols tree ∧ ∀ b ∈ input, b.toNat ∈ treeSymbols tree := by decide

theorem witness_StackIsEmptyOutsideItsPhases_enters :
    (stackFits merged.phase merged.stk ∧ ∃ t, step merged = .next t ∧ t.phase = .gen) ∧
    (stackFits (block .wrMagic []).phase (block .wrMagic []).stk ∧
      ∃ t, step (block .wrMagic []) = .next t ∧ t.phase = .wrHdr) ∧
    stackFits (block .rdMagic magicBits).phase (block .rdMagic magicBits).stk ∧
      ∃ t, step (block .rdMagic magicBits) = .next t ∧ t.phase = .rdHdr :=
  ⟨⟨rfl, _, rfl, rfl⟩, ⟨rfl, _, rfl, rfl⟩, rfl, _, rfl, rfl⟩

/-- GEN is left with an empty stack; a write that fails in WR_HDR leaves an entry in the register, and none in the
stack. -/
theorem witness_StackIsEmptyOutsideItsPhases_leaves :
    (∃ t, step (block .gen []) = .next t ∧ t.phase = .wrMagic ∧ (block .gen []).stk = []) ∧
    stackFits (stacked .wrHdr (.index 4) 1).phase (stacked .wrHdr (.index 4) 1).stk ∧
    ∃ t, step { stacked .wrHdr (.index 4) 1 with io := [.fail] } = .next t ∧ t.phase = .err ∧
      t.stk = [] ∧ t.stkHeld = [.index 4] :=
  ⟨⟨_, rfl, rfl, rfl⟩, by intro e he; simp [stacked] at he; exact ⟨4, he⟩, _, rfl, rfl, rfl, rfl⟩

end Sys2Proof.Tests
end

/-! SUPPORT. The steps of a busy block and of a resting one: what a step can do, said once over all operations. -/

namespace Sys2Proof.Machine

variable {s t u : State}

/-! ### The steps of a busy block, said once

A step of a busy block is one of the constructors of `BusyStep`. What every step keeps is proved by cases on it, so the
operations are taken apart here and in no later proof. -/

/-- `u` is what a step of a busy block has made of `s` when it raises an error: it may have read, written, taken entries
off the stack or pushed one, loaded SYM with a byte, or stored the node of a `0` in the header. -/
def Partway (s u : State) : Prop :=
  ∃ pos sym stk node snk io trace draws,
    u = { s with
      src := { bits := s.src.bits, pos := pos }, sym := sym, stk := stk, node := node, snk := snk, io := io
      trace := trace, draws := draws } ∧
    (s.src.pos ≤ s.src.bits.length → pos ≤ s.src.bits.length) ∧
    (sym = s.sym ∨ s.phase = .cnt ∨ s.phase = .enc) ∧
    (stk = s.stk ∨ stackPhase s.phase = true) ∧
    (node = s.node ∨ s.phase = .rdHdr ∧ s.nNodes < s.params.nodeCap ∧
      node = Memory.put s.node s.nNodes (.internal 0 none none)) ∧
    io <:+ s.io

/-- The leaf of the symbol in SYM, made and queued (R152). -/
def State.withLeaf (s : State) : State :=
  { s with
    node := Memory.put s.node s.nNodes (.leaf ((s.freqAt s.sym.toNat).setWidth 41) s.sym)
    inpq := Memory.write false s.inpq s.nNodes true
    nNodes := s.nNodes + 1 }

/-- The node of weight `w` above `a` and `b`, made and queued in their place (R155). -/
def State.withMerge (s : State) (a b : Nat) (w : BitVec 41) : State :=
  { s with
    node := Memory.put s.node s.nNodes (.internal w (some a) (some b))
    inpq := Memory.write false (Memory.write false (Memory.write false s.inpq a false) b false) s.nNodes true
    nNodes := s.nNodes + 1 }

/-- Everything a step of a busy block that is not in reset can do. -/
inductive BusyStep (s : State) : State → Prop
  /-- CNT counts a byte (R141). -/
  | count (hp : s.phase = .cnt) (b : Nat) (hb : b < 2 ^ 8) (hpos : s.src.pos + 8 ≤ s.src.bits.length)
      (hv : b = valOf (s.nextBits 8)) (hf : s.freqAt b ≠ BitVec.allOnes Config.cntW) :
      BusyStep s { s.afterRead 8 b with
        sym := BitVec.ofNat 9 b, freq := Memory.write 0 s.freq b (s.freqAt b + 1) }
  /-- CNT finds the end of the source (R141). -/
  | countEnd (hp : s.phase = .cnt) (p : Nat) (hpos : s.src.pos ≤ s.src.bits.length → p ≤ s.src.bits.length)
      (hs : s.sourceShort 8) :
      BusyStep s { s.afterMiss 8 .eos p with phase := .bldInit, sym := 0 }
  /-- BLD_INIT finds a symbol that does not occur (R152). -/
  | skipSymbol (hp : s.phase = .bldInit) (hs : s.sym.toNat ≤ 256) (hf : s.freqAt s.sym.toNat = 0) :
      BusyStep s (nextSymbol s)
  /-- BLD_INIT makes the leaf of a symbol (R152). -/
  | leafSymbol (hp : s.phase = .bldInit) (hs : s.sym.toNat ≤ 256) (hf : s.freqAt s.sym.toNat ≠ 0)
      (hroom : s.nNodes < s.params.nodeCap) :
      BusyStep s (nextSymbol s.withLeaf)
  /-- BLD_MERGE merges the two least nodes (R155). -/
  | merge (hp : s.phase = .bldMerge) (a b : Nat) (wa wb : BitVec 41) (na nb : Node) (hlen : 2 ≤ s.pq.length)
      (ha : leastOf s.node s.pq = .ok (wa, a))
      (hb : leastOf s.node ({ s with inpq := Memory.write false s.inpq a false } : State).pq = .ok (wb, b))
      (hna : s.nodeAt a = some na) (hnb : s.nodeAt b = some nb) (hroom : s.nNodes < s.params.nodeCap) :
      BusyStep s (s.withMerge a b (nodeWeight na + nodeWeight nb))
  /-- BLD_MERGE finds the root and primes GEN's stack (R155, R26). -/
  | mergeEnd (hp : s.phase = .bldMerge) (r : Nat) (hr : s.pq = [r]) :
      BusyStep s { s with
        root := r, rootV := true, inpq := Memory.write false s.inpq r false, stk := [.pair r []], phase := .gen }
  /-- GEN records the path to a leaf (R173). -/
  | genLeaf (hp : s.phase = .gen) (i : Nat) (p : BitString) (rest : List StkEntry) (w : BitVec 41) (sym : Symbol)
      (hst : s.stk = .pair i p :: rest) (hn : s.nodeAt i = some (.leaf w sym)) (hs : sym.toNat ≤ 256) :
      BusyStep s { s with stk := rest, code := Memory.put s.code sym.toNat p }
  /-- GEN pushes the children of an internal node (R173). -/
  | genInternal (hp : s.phase = .gen) (i : Nat) (p : BitString) (rest : List StkEntry) (w : BitVec 41) (l r : Nat)
      (hst : s.stk = .pair i p :: rest) (hn : s.nodeAt i = some (.internal w (some l) (some r)))
      (hroom : rest.length + 1 ≤ s.params.nodeCap) :
      BusyStep s { s with stk := .pair l (p ++ [false]) :: .pair r (p ++ [true]) :: rest }
  /-- GEN ends with an empty stack (R173). -/
  | genEnd (hp : s.phase = .gen) (hst : s.stk = []) : BusyStep s { s with phase := .wrMagic }
  /-- WR_MAGIC writes MAGIC and primes WR_HDR's stack (R181, R26). -/
  | wrMagic (hp : s.phase = .wrMagic) (hc : s.snk.closed = false) :
      BusyStep s { s.afterWrite 32 s.params.magic.toNat with stk := [.index s.root], phase := .wrHdr }
  /-- WR_HDR writes the token of a leaf (R185). -/
  | wrLeaf (hp : s.phase = .wrHdr) (i : Nat) (rest : List StkEntry) (w : BitVec 41) (sym : Symbol)
      (hst : s.stk = .index i :: rest) (hn : s.nodeAt i = some (.leaf w sym)) (hc : s.snk.closed = false) :
      BusyStep s { (s.afterWrite 1 1).afterWrite 9 sym.toNat with stk := rest }
  /-- WR_HDR writes the token of an internal node and pushes its children (R185). -/
  | wrInternal (hp : s.phase = .wrHdr) (i : Nat) (rest : List StkEntry) (w : BitVec 41) (l r : Nat)
      (hst : s.stk = .index i :: rest) (hn : s.nodeAt i = some (.internal w (some l) (some r)))
      (hc : s.snk.closed = false) (hroom : rest.length + 1 ≤ s.params.nodeCap) :
      BusyStep s { s.afterWrite 1 0 with stk := .index l :: .index r :: rest }
  /-- WR_HDR ends with an empty stack (R185). -/
  | wrHdrEnd (hp : s.phase = .wrHdr) (hst : s.stk = []) : BusyStep s { s with phase := .rewind }
  /-- REWIND (R200). -/
  | rewind (hp : s.phase = .rewind) :
      BusyStep s { s.issue (.rewind true) with src := { bits := s.src.bits, pos := 0 }, phase := .enc }
  /-- ENC writes the code of a byte (R201). -/
  | encode (hp : s.phase = .enc) (b : Nat) (hb : b < 2 ^ 8) (hpos : s.src.pos + 8 ≤ s.src.bits.length)
      (hv : b = valOf (s.nextBits 8)) (p : BitString) (hcode : s.codeAt b = some p) (u : State)
      (hu : Wrote { s.afterRead 8 b with sym := BitVec.ofNat 9 b } u) : BusyStep s u
  /-- ENC finds the end of the source (R201). -/
  | encodeEnd (hp : s.phase = .enc) (p : Nat) (hpos : s.src.pos ≤ s.src.bits.length → p ≤ s.src.bits.length)
      (hs : s.sourceShort 8) :
      BusyStep s { s.afterMiss 8 .eos p with phase := .encEof }
  /-- ENC_EOF writes the code of the sentinel (R203). -/
  | encEof (hp : s.phase = .encEof) (p : BitString) (hcode : s.codeAt 256 = some p) (u : State)
      (hu : Wrote s u) : BusyStep s { u with phase := .close }
  /-- RD_MAGIC reads MAGIC and primes RD_HDR's stack (R188, R26). -/
  | rdMagic (hp : s.phase = .rdMagic) (hpos : s.src.pos + 32 ≤ s.src.bits.length)
      (hv : valOf (s.nextBits 32) = s.params.magic.toNat) :
      BusyStep s { s.afterRead 32 s.params.magic.toNat with stk := [.slot .root], phase := .rdHdr }
  /-- RD_HDR reads a `0` and fills the slot with an internal node (R192). -/
  | rdInternal (hp : s.phase = .rdHdr) (slot : Slot) (rest : List StkEntry) (hst : s.stk = .slot slot :: rest)
      (hpos : s.src.pos + 1 ≤ s.src.bits.length) (hroom : s.nNodes < s.params.nodeCap)
      (hpush : rest.length + 1 ≤ s.params.nodeCap) (t : State)
      (hfill : fill slot s.nNodes { s.afterRead 1 0 with
        node := Memory.put s.node s.nNodes (.internal 0 none none)
        nNodes := s.nNodes + 1
        stk := .slot (.child s.nNodes .L) :: .slot (.child s.nNodes .R) :: rest } = .next t) : BusyStep s t
  /-- RD_HDR reads a `1` with its symbol field and fills the slot with a leaf (R192). -/
  | rdLeaf (hp : s.phase = .rdHdr) (slot : Slot) (rest : List StkEntry) (v : Nat) (hst : s.stk = .slot slot :: rest)
      (hpos : s.src.pos + 10 ≤ s.src.bits.length) (hroom : s.nNodes < s.params.nodeCap) (hv : v ≤ 256) (t : State)
      (hfill : fill slot s.nNodes { (s.afterRead 1 1).afterRead 9 v with
        node := Memory.put s.node s.nNodes (.leaf 0 (BitVec.ofNat 9 v))
        sym := BitVec.ofNat 9 v
        nNodes := s.nNodes + 1
        stk := rest } = .next t) : BusyStep s t
  /-- RD_HDR ends with an empty stack (R192). -/
  | rdHdrEnd (hp : s.phase = .rdHdr) (hst : s.stk = []) (hroot : ∃ n, s.nodeAt s.root = some n)
      (hlone : ∀ w sym, s.nodeAt s.root = some (.leaf w sym) → sym.toNat = 256) :
      BusyStep s { s with cur := s.root, phase := .dec }
  /-- DEC finds the sentinel (R211). -/
  | decEnd (hp : s.phase = .dec) (w : BitVec 41) (sym : Symbol) (hn : s.nodeAt s.cur = some (.leaf w sym))
      (hs : sym.toNat = 256) : BusyStep s { s with phase := .close }
  /-- DEC writes the symbol of a leaf and goes back to the root (R211). -/
  | decLeaf (hp : s.phase = .dec) (w : BitVec 41) (sym : Symbol) (hn : s.nodeAt s.cur = some (.leaf w sym))
      (hs : sym.toNat ≠ 256) (hc : s.snk.closed = false) :
      BusyStep s { s.afterWrite 8 (sym.toNat % 256) with cur := s.root }
  /-- DEC descends to a child (R211). -/
  | decInternal (hp : s.phase = .dec) (w : BitVec 41) (l r : Option Nat) (d c : Nat)
      (hn : s.nodeAt s.cur = some (.internal w l r)) (hd : d = valOf (s.nextBits 1))
      (hc : (if d = 0 then l else r) = some c)
      (hpos : s.src.pos + 1 ≤ s.src.bits.length) : BusyStep s { s.afterRead 1 d with cur := c }
  /-- CLOSE (R128). -/
  | close (hp : s.phase = .close) (pad : BitString) :
      BusyStep s { s with
        phase := .done, snk := { bits := s.snk.bits, closed := true, pad := pad }, io := s.io.tail
        trace := .close true :: s.trace, draws := s.draws + 1 }
  /-- An error (R240). -/
  | raised (e : ErrKind) (u t : State) (hu : Partway s u) (ht : Raised e u t) : BusyStep s t

/-! ### What is done of a step when it raises an error -/

theorem Partway.refl (s : State) : Partway s s :=
  ⟨_, _, _, _, _, _, _, _, rfl, id, .inl rfl, .inl rfl, .inl rfl, List.suffix_refl _⟩

/-- A read that missed. -/
theorem partway_afterMiss (n : Nat) (a : ReadAnswer) {p : Nat}
    (hp : s.src.pos ≤ s.src.bits.length → p ≤ s.src.bits.length) : Partway s (s.afterMiss n a p) :=
  ⟨_, _, _, _, _, _, _, _, rfl, hp, .inl rfl, .inl rfl, .inl rfl, List.tail_suffix _⟩

/-- A call other than a read. -/
theorem partway_issue (c : Call) : Partway s (s.issue c) :=
  ⟨_, _, _, _, _, _, _, _, rfl, id, .inl rfl, .inl rfl, .inl rfl, List.tail_suffix _⟩

/-- A read of a value. -/
theorem partway_afterRead {n : Nat} (v : Nat) (hp : s.src.pos + n ≤ s.src.bits.length) :
    Partway s (s.afterRead n v) :=
  ⟨_, _, _, _, _, _, _, _, rfl, fun _ => hp, .inl rfl, .inl rfl, .inl rfl, List.tail_suffix _⟩

/-- A write of any bits. -/
theorem partway_afterWrite (n v : Nat) : Partway s (s.afterWrite n v) :=
  ⟨_, _, _, _, _, _, _, _, rfl, id, .inl rfl, .inl rfl, .inl rfl, List.tail_suffix _⟩

/-- Writes of a code. -/
theorem Wrote.partway (h : Wrote s u) : Partway s u := by
  obtain ⟨more, io, calls, rfl, hio, -⟩ := h
  exact ⟨_, _, _, _, _, _, _, _, rfl, id, .inl rfl, .inl rfl, .inl rfl, hio⟩

/-- CNT and ENC load SYM with the byte read. -/
theorem Partway.withSym (h : Partway s u) (hp : s.phase = .cnt ∨ s.phase = .enc) (sym : Symbol) :
    Partway s { u with sym := sym } := by
  obtain ⟨pos, _, stk, node, snk, io, trace, draws, rfl, hpos, -, hstk, hnode, hio⟩ := h
  exact ⟨_, _, _, _, _, _, _, _, rfl, hpos, .inr hp, hstk, hnode, hio⟩

/-- The phases that use the stack leave other entries on it. -/
theorem Partway.withStack (h : Partway s u) (hp : stackPhase s.phase = true) (stk : List StkEntry) :
    Partway s { u with stk := stk } := by
  obtain ⟨pos, sym, _, node, snk, io, trace, draws, rfl, hpos, hsym, -, hnode, hio⟩ := h
  exact ⟨_, _, _, _, _, _, _, _, rfl, hpos, hsym, .inr hp, hnode, hio⟩

/-- RD_HDR stores the node of a `0`. -/
theorem Partway.withNode (h : Partway s u) (hp : s.phase = .rdHdr) (hroom : s.nNodes < s.params.nodeCap) :
    Partway s { u with node := Memory.put s.node s.nNodes (.internal 0 none none) } := by
  obtain ⟨pos, sym, stk, _, snk, io, trace, draws, rfl, hpos, hsym, hstk, -, hio⟩ := h
  exact ⟨_, _, _, _, _, _, _, _, rfl, hpos, hsym, hstk, .inr ⟨hp, hroom, rfl⟩, hio⟩

/-- Two parts of a step, the first of which stores no node. -/
theorem Partway.trans {v : State} (h : Partway s u) (h' : Partway u v) (hn : u.node = s.node) : Partway s v := by
  obtain ⟨pos, sym, stk, node, snk, io, trace, draws, rfl, hpos, hsym, hstk, -, hio⟩ := h
  obtain rfl : node = s.node := hn
  obtain ⟨pos', sym', stk', node', snk', io', trace', draws', rfl, hpos', hsym', hstk', hnode', hio'⟩ := h'
  refine ⟨_, _, _, _, _, _, _, _, rfl, hpos' ∘ hpos, ?_, ?_, hnode', hio'.trans hio⟩
  · rcases hsym' with rfl | hp
    · exact hsym
    · exact .inr hp
  · rcases hstk' with rfl | hp
    · exact hstk
    · exact .inr hp

/-! ### Each operation is a `BusyStep` -/

theorem execCnt_busyStep (hp : s.phase = .cnt) (h : execCnt s = .next t) : BusyStep s t := by
  rcases onRead_srcRead_next (by omega) (by omega) h with ⟨b, hb, hpos, hv, h⟩ |
    ⟨p, -, hpos, hs, h⟩ | ⟨p, hpos, hr⟩
  · unfold countByte at h
    split at h
    · exact .raised _ _ _ ((partway_afterRead b hpos).withSym (.inl hp) _) (raise_raised h)
    · next hf =>
      cases h
      exact .count hp b hb hpos hv hf
  · cases h
    exact .countEnd hp p hpos hs
  · exact .raised _ _ _ (partway_afterMiss _ _ fun _ => hpos) hr

theorem execBldInit_busyStep (hp : s.phase = .bldInit) (h : execBldInit s = .next t) : BusyStep s t := by
  obtain ⟨hs, ⟨hf, rfl⟩ | ⟨hf, hroom, rfl⟩⟩ := execBldInit_next h
  · exact .skipSymbol hp hs hf
  · exact .leafSymbol hp hs hf hroom

theorem execBldMerge_busyStep (hp : s.phase = .bldMerge) (h : execBldMerge s = .next t) : BusyStep s t := by
  obtain ⟨r, hr, rfl⟩ | ⟨a, b, wa, wb, na, nb, hlen, ha, hb, hna, hnb, hroom, rfl⟩ := execBldMerge_next h
  · exact .mergeEnd hp r hr
  · exact .merge hp a b wa wb na nb hlen ha hb hna hnb hroom

theorem execGen_busyStep (hp : s.phase = .gen) (h : execGen s = .next t) : BusyStep s t := by
  rcases execGen_next h with ⟨hst, rfl⟩ | ⟨i, p, rest, w, sym, hst, hn, hs, rfl⟩ |
    ⟨i, p, rest, w, l, r, hst, hn, hroom, rfl⟩ | ⟨i, p, rest, w, l, r, stk, hst, hn, -, -, -, hr⟩
  · exact .genEnd hp hst
  · exact .genLeaf hp i p rest w sym hst hn hs
  · exact .genInternal hp i p rest w l r hst hn hroom
  · exact .raised _ _ _ ((Partway.refl s).withStack (by rw [hp]; rfl) stk) hr

theorem execWrMagic_busyStep (hp : s.phase = .wrMagic) (h : execWrMagic s = .next t) : BusyStep s t := by
  obtain ⟨hc, rfl | hr⟩ := execWrMagic_next h
  · exact .wrMagic hp hc
  · exact .raised _ _ _ (partway_issue _) hr

theorem execWrHdr_busyStep (hp : s.phase = .wrHdr) (h : execWrHdr s = .next t) : BusyStep s t := by
  have hstack : stackPhase s.phase = true := by rw [hp]; rfl
  rcases execWrHdr_next h with ⟨hst, rfl⟩ | ⟨i, rest, n, hst, hn, hc, ⟨w, sym, rfl, rfl | hr | hr⟩ |
    ⟨w, l, r, rfl, hroom, rfl⟩ | ⟨w, l, r, rfl, hr⟩ | ⟨w, l, r, stk, rfl, -, -, -, hr⟩⟩
  · exact .wrHdrEnd hp hst
  · exact .wrLeaf hp i rest w sym hst hn hc
  · exact .raised _ _ _ ((partway_issue _).withStack hstack rest) hr
  · exact .raised _ _ _
      (((partway_afterWrite 1 1).trans (partway_issue _) rfl).withStack hstack rest) hr
  · exact .wrInternal hp i rest w l r hst hn hc hroom
  · exact .raised _ _ _ ((partway_issue _).withStack hstack rest) hr
  · exact .raised _ _ _ ((partway_afterWrite 1 0).withStack hstack stk) hr

theorem execRewind_busyStep (hp : s.phase = .rewind) (h : execRewind s = .next t) : BusyStep s t := by
  obtain rfl | ⟨p, hpos, hr⟩ := execRewind_next h
  · exact .rewind hp
  · refine .raised _ _ _ ?_ hr
    exact ⟨_, _, _, _, _, _, _, _, rfl, fun _ => hpos, .inl rfl, .inl rfl, .inl rfl, List.tail_suffix _⟩

theorem execEnc_busyStep (hp : s.phase = .enc) (h : execEnc s = .next t) : BusyStep s t := by
  rcases onRead_srcRead_next (by omega) (by omega) h with ⟨b, hb, hpos, hv, h⟩ |
    ⟨p, -, hpos, hs, h⟩ | ⟨p, hpos, hr⟩
  · have hread : Partway s { s.afterRead 8 b with sym := BitVec.ofNat 9 b } :=
      (partway_afterRead b hpos).withSym (.inr hp) _
    unfold encodeByte at h
    split at h
    · exact .raised _ _ _ hread (raise_raised h)
    · next p hcode =>
      obtain ⟨u, hu, h | hr⟩ := onCall_writeCode_next h
      · cases h
        exact .encode hp b hb hpos hv p hcode t hu
      · exact .raised _ _ _ (hread.trans hu.partway rfl) hr
  · cases h
    exact .encodeEnd hp p hpos hs
  · exact .raised _ _ _ (partway_afterMiss _ _ fun _ => hpos) hr

theorem execEncEof_busyStep (hp : s.phase = .encEof) (h : execEncEof s = .next t) : BusyStep s t := by
  obtain ⟨p, u, hcode, hu, rfl | hr⟩ := execEncEof_next h
  · exact .encEof hp p hcode u hu
  · exact .raised _ _ _ hu.partway hr

theorem execRdMagic_busyStep (hp : s.phase = .rdMagic) (h : execRdMagic s = .next t) : BusyStep s t := by
  rcases onRead_srcRead_next (by omega) (by omega) h with ⟨v, -, hpos, hv, h⟩ |
    ⟨p, -, hpos, -, h⟩ | ⟨p, hpos, hr⟩
  · unfold checkMagic at h
    split at h
    · next hm =>
      obtain rfl : v = s.params.magic.toNat := hm
      cases h
      exact .rdMagic hp hpos hv.symm
    · exact .raised _ _ _ (partway_afterRead v hpos) (raise_raised h)
  · exact .raised _ _ _ (partway_afterMiss _ _ hpos) (raise_raised h)
  · exact .raised _ _ _ (partway_afterMiss _ _ fun _ => hpos) hr

theorem execRdHdr_busyStep (hp : s.phase = .rdHdr) (h : execRdHdr s = .next t) : BusyStep s t := by
  have hstack : stackPhase s.phase = true := by rw [hp]; rfl
  rcases execRdHdr_next h with ⟨hst, h⟩ | ⟨slot, rest, hst, ⟨hpos, h⟩ | ⟨hpos, -, hr⟩ |
    ⟨v, hv, hpos, -, h⟩ | ⟨p, hlow, hpos, hr⟩ | ⟨p, hpos, hr⟩ | ⟨p, -, hpos, hr⟩ | ⟨p, hpos, hr⟩⟩
  · obtain ⟨rfl, hroot, hlone⟩ | ⟨-, hr⟩ := finishHeader_next h
    · exact .rdHdrEnd hp hst hroot hlone
    · exact .raised _ _ _ (Partway.refl s) hr
  · have hread : Partway s { s.afterRead 1 0 with stk := rest } :=
      (partway_afterRead 0 hpos).withStack hstack rest
    rcases readInternal_next h with ⟨hroom, hpush, hfill⟩ | ⟨-, hr⟩ | ⟨stk, hroom, -, -, hr⟩
    · exact .rdInternal hp slot rest hst hpos hroom hpush t hfill
    · exact .raised _ _ _ hread hr
    · refine .raised _ _ _ ?_ hr
      exact ((partway_afterRead 0 hpos).withStack hstack stk).withNode hp hroom
  · exact .raised _ _ _ ((partway_afterRead 1 hpos).withStack hstack rest) hr
  · obtain ⟨-, hr⟩ | ⟨hv, hroom, hfill⟩ := readField_next h
    · have hread : Partway s ((s.afterRead 1 1).afterRead 9 v) :=
        (partway_afterRead 1 (by omega)).trans (partway_afterRead v hpos) rfl
      exact .raised _ _ _ (hread.withStack hstack rest) hr
    · exact .rdLeaf hp slot rest v hst hpos hroom hv t hfill
  · have hread : Partway s ((s.afterRead 1 1).afterMiss 9 .eos p) :=
      (partway_afterRead 1 (by omega)).trans (partway_afterMiss _ _ fun _ => hpos) rfl
    exact .raised _ _ _ (hread.withStack hstack rest) hr
  · refine .raised _ _ _ ?_ hr
    exact ⟨_, _, _, _, _, _, _, _, rfl, fun _ => hpos, .inl rfl, .inr hstack, .inl rfl,
      (List.tail_suffix _).trans (List.tail_suffix _)⟩
  · exact .raised _ _ _ ((partway_afterMiss _ _ hpos).withStack hstack rest) hr
  · exact .raised _ _ _ ((partway_afterMiss _ _ fun _ => hpos).withStack hstack rest) hr

theorem execDec_busyStep (hp : s.phase = .dec) (h : execDec s = .next t) : BusyStep s t := by
  rcases execDec_next h with ⟨w, sym, hn, ⟨hs, rfl⟩ | ⟨hs, hc, rfl | hr⟩⟩ |
    ⟨w, l, r, hn, ⟨d, c, -, hc, hd, hpos, rfl⟩ | ⟨p, -, hpos, -, hr⟩ | ⟨p, hpos, hr⟩⟩
  · exact .decEnd hp w sym hn hs
  · exact .decLeaf hp w sym hn hs hc
  · exact .raised _ _ _ (partway_issue _) hr
  · exact .decInternal hp w l r d c hn hd hc hpos
  · exact .raised _ _ _ (partway_afterMiss _ _ hpos) hr
  · exact .raised _ _ _ (partway_afterMiss _ _ fun _ => hpos) hr

theorem execClose_busyStep (hp : s.phase = .close) (h : execClose s = .next t) : BusyStep s t := by
  obtain ⟨pad, rfl⟩ | ⟨bits, pad, draws, rfl⟩ := execClose_next h
  · exact .close hp pad
  · exact .raised .ioFailure s _ (Partway.refl s) ⟨false, bits, pad, draws, rfl⟩

/-- A step of a busy block that is not in reset is a `BusyStep` (R100). -/
theorem busyStep_of_step (hb : s.busy = true) (hr : s.rst = false) (h : step s = .next t) : BusyStep s t := by
  rw [step_busy hr hb] at h
  cases hp : s.phase <;> simp only [hp, operationOf, exec] at h
  case idle | done | err => simp [State.busy, phaseBusy, hp] at hb
  case cnt => exact execCnt_busyStep hp h
  case bldInit => exact execBldInit_busyStep hp h
  case bldMerge => exact execBldMerge_busyStep hp h
  case gen => exact execGen_busyStep hp h
  case wrMagic => exact execWrMagic_busyStep hp h
  case wrHdr => exact execWrHdr_busyStep hp h
  case rewind => exact execRewind_busyStep hp h
  case enc => exact execEnc_busyStep hp h
  case encEof => exact execEncEof_busyStep hp h
  case rdMagic => exact execRdMagic_busyStep hp h
  case rdHdr => exact execRdHdr_busyStep hp h
  case dec => exact execDec_busyStep hp h
  case close => exact execClose_busyStep hp h

/-! ### A resting block -/

/-- The block that has accepted the offer `o` (R120). -/
def State.accepted (s : State) (o : Offer) : State :=
  { s.initBlock with
    mode := o.op, phase := if o.op = 0 then .cnt else .rdMagic, src := o.src, snk := o.snk, cmd := none, trace := [] }

/-- A step of a resting block that is not in reset waits or accepts the offer (R120, R129, R130). -/
theorem step_resting (hb : s.busy = false) (hr : s.rst = false) (h : step s = .next t) :
    t = s ∨ ∃ o, s.cmd = some o ∧ o.shared = false ∧ t = s.accepted o := by
  rw [step_selected hr] at h
  cases hc : s.cmd with
  | none =>
    rw [selected_waiting hc] at h
    unfold State.busy at hb
    cases hp : s.phase <;> rw [hp] at h hb <;> cases hb <;> cases h <;> exact .inl rfl
  | some o =>
    rw [selected_offered hb hc] at h
    have hoffer : offerCommand o.op s = .next t := by
      have hop : o.op = 0 ∨ o.op = 1 := by generalize o.op = x; revert x; decide
      rcases hop with hop | hop <;> simpa [hop, exec, execCompress, execDecompress] using h
    obtain rfl | ⟨o', -, hc', hsh, rfl⟩ := offerCommand_next hoffer
    · exact .inl rfl
    · obtain rfl : o' = o := by simpa [hc] using hc'.symm
      exact .inr ⟨o', rfl, hsh, rfl⟩

/-- Everything a step that answers a next state can do. -/
theorem step_cases (h : step s = .next t) :
    (s.rst = true ∧ t = s.takeReset) ∨ (s.rst = false ∧ s.busy = true ∧ BusyStep s t) ∨
    (s.rst = false ∧ s.busy = false ∧
      (t = s ∨ ∃ o, s.cmd = some o ∧ o.shared = false ∧ t = s.accepted o)) := by
  cases hr : s.rst with
  | true =>
    rw [step_reset hr] at h
    cases h
    exact .inl ⟨rfl, rfl⟩
  | false =>
    cases hb : s.busy with
    | true => exact .inr (.inl ⟨rfl, rfl, busyStep_of_step hb hr h⟩)
    | false => exact .inr (.inr ⟨rfl, rfl, step_resting hb hr h⟩)

end Sys2Proof.Machine

/-! SUPPORT. The block's invariant: the updates of the state that keep it, and the steps. -/

namespace Sys2Proof.Machine

variable {s t u : State}

/-! ### The block's invariant under the updates of the state -/

theorem State.memoriesWf_iff (s : State) : s.memoriesWf = true ↔
    Memory.wf (some 0) s.freq = true ∧ Memory.wf none s.node = true ∧ Memory.wf (some false) s.inpq = true ∧
      Memory.wf none s.code = true := by
  simp [State.memoriesWf, and_assoc]

/-- A node whose children are arena indices may be stored in the arena (R32). -/
theorem BlockInv.putNode (h : BlockInv s) {k : Nat} (hk : k < s.params.nodeCap) {n : Node}
    (hn : ∀ w l r, n = .internal w l r →
      (∀ c, l = some c → c < s.params.nodeCap) ∧ (∀ c, r = some c → c < s.params.nodeCap)) :
    BlockInv { s with node := Memory.put s.node k n } := by
  obtain ⟨hfreq, hnode, hinpq, hcode⟩ := s.memoriesWf_iff.1 h.memories
  refine { h with memories := ?_, nodeRange := ?_, childRange := ?_ }
  · exact (State.memoriesWf_iff _).2 ⟨hfreq, Memory.wf_put hnode k (by simp), hinpq, hcode⟩
  · intro i m hm
    rcases Memory.mem_put hm with e | hm
    · cases e; exact hk
    · exact h.nodeRange i m hm
  · intro i w l r hm
    rcases Memory.mem_put hm with e | hm
    · cases e; exact hn w l r rfl
    · exact h.childRange i w l r hm

theorem BlockInv.writeInpq (h : BlockInv s) (i : Nat) (v : Bool) :
    BlockInv { s with inpq := Memory.write false s.inpq i v } := by
  obtain ⟨hfreq, hnode, hinpq, hcode⟩ := s.memoriesWf_iff.1 h.memories
  exact { h with memories := (State.memoriesWf_iff _).2 ⟨hfreq, hnode, Memory.wf_write hinpq i v, hcode⟩ }

/-- The count of a byte may change (R30, R31). -/
theorem BlockInv.writeFreq (h : BlockInv s) {i : Nat} (hi : i < 256) (v : BitVec Config.cntW) :
    BlockInv { s with freq := Memory.write 0 s.freq i v } := by
  obtain ⟨hfreq, hnode, hinpq, hcode⟩ := s.memoriesWf_iff.1 h.memories
  refine { h with memories := ?_, sentinelCount := ?_, freqRange := ?_ }
  · exact (State.memoriesWf_iff _).2 ⟨Memory.wf_write hfreq i v, hnode, hinpq, hcode⟩
  · exact (Memory.read_write_other 0 s.freq v (by omega)).trans h.sentinelCount
  · intro j x hm
    rcases Memory.mem_write hm with e | hm
    · cases e; omega
    · exact h.freqRange j x hm

/-- A path may be recorded for a symbol (R36). -/
theorem BlockInv.putCode (h : BlockInv s) {i : Nat} (hi : i ≤ 256) (p : BitString) :
    BlockInv { s with code := Memory.put s.code i p } := by
  obtain ⟨hfreq, hnode, hinpq, hcode⟩ := s.memoriesWf_iff.1 h.memories
  refine { h with memories := ?_, codeRange := ?_ }
  · exact (State.memoriesWf_iff _).2 ⟨hfreq, hnode, hinpq, Memory.wf_put hcode i (by simp)⟩
  · intro j q hm
    rcases Memory.mem_put hm with e | hm
    · cases e; exact hi
    · exact h.codeRange j q hm

/-- The priority structure holds arena indices (R38). -/
theorem BlockInv.pq_lt (h : BlockInv s) {i : Nat} (hi : i ∈ s.pq) : i < s.params.nodeCap :=
  (State.mem_pq.1 hi).2.trans_le h.nodeCount

theorem BlockInv.node_lt (h : BlockInv s) {i : Nat} {n : Node} (hn : s.nodeAt i = some n) : i < s.params.nodeCap :=
  h.nodeRange i n (Memory.find?_mem hn)

/-- The reader may fill its slot with an arena index (R192). -/
theorem BlockInv.filled {q : Slot} {k : Nat} (hfill : fill q k s = .next t) (h : BlockInv s)
    (hk : k < s.params.nodeCap) : BlockInv t := by
  obtain ⟨-, rfl⟩ | ⟨i, side, n, n', -, hn, hchild, rfl⟩ := fill_next hfill
  · exact { h with rootRange := fun _ => hk }
  · refine h.putNode (h.node_lt hn) fun w l r hn' => ?_
    obtain ⟨w', l', r', rfl, hsides⟩ := nodeWithChild_some hchild
    obtain ⟨hl, hr⟩ := h.childRange i w' l' r' (Memory.find?_mem hn)
    rcases hsides with ⟨-, e⟩ | ⟨-, e⟩
    · obtain ⟨rfl, rfl, rfl⟩ : w' = w ∧ some k = l ∧ r' = r := by simpa [e] using hn'
      exact ⟨fun c hc => by cases hc; exact hk, hr⟩
    · obtain ⟨rfl, rfl, rfl⟩ : w' = w ∧ l' = l ∧ some k = r := by simpa [e] using hn'
      exact ⟨hl, fun c hc => by cases hc; exact hk⟩

/-! ### The invariant of a block at its initial values, and when a phase changes -/

/-- The block at its values of R45, at rest or at the first phase of a command. -/
theorem blockInv_initBlock (s : State) {p : Phase} {m : BitVec 1} (hcap : 513 ≤ s.params.nodeCap)
    (hpos : s.src.pos ≤ s.src.bits.length ∧ ∀ o, s.cmd = some o → o.src.pos ≤ o.src.bits.length)
    (hp : p = .idle ∨ (p = .cnt ∧ m = 0) ∨ (p = .rdMagic ∧ m = 1)) :
    BlockInv { s.initBlock with phase := p, mode := m } where
  capacity := hcap
  memories := rfl
  sentinelCount := rfl
  freqRange i v hm := by simp at hm; omega
  codeRange i q hm := by simp at hm
  nodeRange i n hm := by simp at hm
  childRange i w l r hm := by simp at hm
  nodeCount := Nat.zero_le _
  rootRange h := by rcases hp with rfl | ⟨rfl, -⟩ | ⟨rfl, -⟩ <;> simp at h
  curRange h := by rcases hp with rfl | ⟨rfl, -⟩ | ⟨rfl, -⟩ <;> cases h
  stackBound := Nat.zero_le _
  stackShape := by rcases hp with rfl | ⟨rfl, -⟩ | ⟨rfl, -⟩ <;> rfl
  stackHeld _ := rfl
  errorCode := by rcases hp with rfl | ⟨rfl, -⟩ | ⟨rfl, -⟩ <;> simp
  errorRange := by simp
  modeCompress h := by
    rcases hp with rfl | ⟨-, rfl⟩ | ⟨rfl, -⟩
    · cases h
    · rfl
    · cases h
  modeDecompress h := by
    rcases hp with rfl | ⟨rfl, -⟩ | ⟨-, rfl⟩
    · cases h
    · cases h
    · rfl
  position := hpos
  closedAtEnd h := by rcases hp with rfl | ⟨rfl, -⟩ | ⟨rfl, -⟩ <;> simp at h

/-- Both phases are busy, and the second belongs to a command only if the first does. -/
def goesOnTo (q p : Phase) : Bool :=
  phaseBusy q && phaseBusy p && (!compressPhase p || compressPhase q) && (!decompressPhase p || decompressPhase q)

theorem ne_err_of_phaseBusy {p : Phase} (hb : phaseBusy p = true) : p ≠ .err := by
  rintro rfl
  cases hb

/-- A run may go on to another phase, whose stack is primed (R26). -/
theorem BlockInv.enter (h : BlockInv s) {q p : Phase} (hq : s.phase = q) (hgo : goesOnTo q p = true)
    {stk : List StkEntry} (hfit : stackFits p stk) (hlen : stk.length ≤ s.params.nodeCap + 1)
    (hdec : p = .dec → s.root < s.params.nodeCap ∧ s.cur < s.params.nodeCap) : BlockInv (s.enter p stk) := by
  simp only [goesOnTo, Bool.and_eq_true, Bool.or_eq_true, Bool.not_eq_true', ← hq] at hgo
  obtain ⟨⟨⟨hbusy, hbusy'⟩, hcomp⟩, hdecomp⟩ := hgo
  have herr := ne_err_of_phaseBusy hbusy
  have herr' := ne_err_of_phaseBusy hbusy'
  have hdone' : p ≠ .done := by rintro rfl; cases hbusy'
  exact { h with
    rootRange := fun hr => hr.elim (fun hr => h.rootRange (.inl hr)) (fun hr => (hdec hr).1)
    curRange := fun hp => (hdec hp).2
    stackBound := hlen
    stackShape := hfit
    stackHeld := fun _ => h.stackHeld herr
    errorCode := iff_of_true (h.errorCode.2 herr) herr'
    modeCompress := fun hp => h.modeCompress (hcomp.resolve_left (by simp [show compressPhase p = true from hp]))
    modeDecompress := fun hp =>
      h.modeDecompress (hdecomp.resolve_left (by simp [show decompressPhase p = true from hp]))
    closedAtEnd := fun hp => (hp.elim hdone' herr').elim }

theorem errCode_ne_zero (e : ErrKind) : errCode e ≠ 0 := by cases e <;> decide

theorem errCode_le (e : ErrKind) : (errCode e).toNat ≤ 9 := by cases e <;> decide

theorem Raised.errcode {e : ErrKind} (h : Raised e s t) (hs : s.errcode = 0) : t.errcode = errCode e := by
  obtain ⟨answered, bits, pad, draws, rfl⟩ := h
  exact if_pos hs

/-- Taking an error keeps the invariant, whatever the step had done before (R240). -/
theorem BlockInv.raised {e : ErrKind} (h : BlockInv s) (hb : s.busy = true) (hu : Partway s u) (ht : Raised e u t) :
    BlockInv t := by
  have herr := ne_err_of_phaseBusy hb
  obtain ⟨pos, sym, stk, node, snk, io, trace, draws, rfl, hpos, -, -, hnode, -⟩ := hu
  have hcode : t.errcode = errCode e := ht.errcode (h.errorCode.2 herr)
  obtain ⟨answered, bits, pad, draws', rfl⟩ := ht
  have hmem : BlockInv { s with node := node } := by
    rcases hnode with rfl | ⟨-, hroom, rfl⟩
    · exact h
    · exact h.putNode hroom fun w l r hn => by cases hn; exact ⟨nofun, nofun⟩
  exact { hmem with
    rootRange := fun hr => hr.elim (fun hr => h.rootRange (.inl hr)) nofun
    curRange := nofun
    stackBound := Nat.zero_le _
    stackShape := rfl
    stackHeld := fun hp => absurd rfl hp
    errorCode := iff_of_false (fun h0 => errCode_ne_zero e (hcode.symm.trans h0)) (fun hp => hp rfl)
    errorRange := (congrArg BitVec.toNat hcode).trans_le (errCode_le e)
    modeCompress := nofun
    modeDecompress := nofun
    position := ⟨hpos h.position.1, h.position.2⟩
    closedAtEnd := fun _ => rfl }

/-- The run has ended, with an empty stack and a closed sink (R128, R129). -/
theorem BlockInv.close (h : BlockInv s) (hp : s.phase = .close) (pad : BitString) :
    BlockInv { s with phase := .done, snk := { bits := s.snk.bits, closed := true, pad := pad } } where
  __ := h
  rootRange hr := hr.elim (fun hr => h.rootRange (.inl hr)) nofun
  curRange := nofun
  stackShape := by have hfit := h.stackShape; rwa [hp] at hfit
  stackHeld _ := h.stackHeld (by simp [hp])
  errorCode := iff_of_true (h.errorCode.2 (by simp [hp])) nofun
  modeCompress := nofun
  modeDecompress := nofun
  closedAtEnd _ := rfl

/-! ### The shape of the stack -/

theorem stackFits_tail {p : Phase} {e : StkEntry} {rest : List StkEntry} (h : stackFits p (e :: rest)) :
    stackFits p rest := by
  cases p
  case gen | wrHdr | rdHdr => exact fun e he => h e (List.mem_cons_of_mem _ he)
  all_goals cases h

@[simp] theorem stackFits_gen_cons (i : Nat) (p : BitString) (rest : List StkEntry) :
    stackFits .gen (.pair i p :: rest) ↔ stackFits .gen rest := by
  simp [stackFits]

@[simp] theorem stackFits_wrHdr_cons (i : Nat) (rest : List StkEntry) :
    stackFits .wrHdr (.index i :: rest) ↔ stackFits .wrHdr rest := by
  simp [stackFits]

@[simp] theorem stackFits_rdHdr_cons (q : Slot) (rest : List StkEntry) :
    stackFits .rdHdr (.slot q :: rest) ↔ stackFits .rdHdr rest := by
  simp [stackFits]

@[simp] theorem stackFits_nil (p : Phase) : stackFits p [] := by cases p <;> simp [stackFits]

/-- The stack is empty outside the phases that use it (R26). -/
theorem stackFits.eq_nil {p : Phase} {stk : List StkEntry} (h : stackFits p stk) (hp : stackPhase p = false) :
    stk = [] := by
  cases p
  case gen | wrHdr | rdHdr => cases hp
  all_goals exact h

/-- An entry taken off the stack. -/
theorem BlockInv.pop (h : BlockInv s) {e : StkEntry} {rest : List StkEntry} (hst : s.stk = e :: rest) :
    BlockInv { s with stk := rest } := by
  have hfit := h.stackShape
  have hlen := h.stackBound
  rw [hst] at hfit hlen
  exact { h with stackShape := stackFits_tail hfit, stackBound := Nat.le_of_succ_le hlen }

/-! ### Every step keeps the invariant -/

/-- A BLD_INIT step ends by moving on to the next symbol or to BLD_MERGE (R152). -/
theorem BlockInv.nextSymbol (h : BlockInv s) (hp : s.phase = .bldInit) : BlockInv (nextSymbol s) := by
  have hempty : s.stk = [] := by simpa [hp, stackFits] using h.stackShape
  obtain ⟨-, e⟩ | ⟨-, e⟩ := nextSymbol_cases s <;> rw [e]
  · exact h.enter (p := .bldMerge) hp rfl hempty h.stackBound nofun
  · exact { h with }

theorem BlockInv.busyStep (h : BlockInv s) (hb : s.busy = true) (hst : BusyStep s t) : BlockInv t := by
  have hshape := h.stackShape
  cases hst with
  | count hp b hb8 hpos => exact { h.writeFreq (by omega) _ with position := ⟨hpos, h.position.2⟩ }
  | countEnd hp p hpos =>
    have hread : BlockInv { s.afterMiss 8 .eos p with sym := 0 } :=
      { h with position := ⟨hpos h.position.1, h.position.2⟩ }
    exact hread.enter (p := .bldInit) hp rfl (by rwa [hp] at hshape) h.stackBound nofun
  | skipSymbol hp => exact h.nextSymbol hp
  | leafSymbol hp hs hf hroom =>
    have hleaf := h.putNode hroom (n := .leaf ((s.freqAt s.sym.toNat).setWidth 41) s.sym) nofun
    have hqueued := hleaf.writeInpq s.nNodes true
    exact BlockInv.nextSymbol { hqueued with nodeCount := hroom } hp
  | merge hp a b wa wb na nb hlen ha hb' hna hnb hroom =>
    have hnode := h.putNode hroom (n := .internal (nodeWeight na + nodeWeight nb) (some a) (some b))
      fun w l r hn => by cases hn; exact ⟨by simpa using h.node_lt hna, by simpa using h.node_lt hnb⟩
    exact { ((hnode.writeInpq a false).writeInpq b false).writeInpq s.nNodes true with nodeCount := hroom }
  | mergeEnd hp r hr =>
    have hroot : r < s.params.nodeCap := h.pq_lt (by simp [hr])
    have hset : BlockInv { s with root := r, rootV := true, inpq := Memory.write false s.inpq r false } :=
      { h.writeInpq r false with rootRange := fun _ => hroot }
    exact hset.enter (p := .gen) hp rfl (by simp [stackFits]) (by simp) nofun
  | genLeaf hp i p rest w sym hst hn hs => exact (h.pop hst).putCode hs p
  | genInternal hp i p rest w l r hst hn hroom =>
    have hfit := (h.pop hst).stackShape
    exact { h with stackBound := Nat.succ_le_succ hroom, stackShape := by simpa [hp] using hfit }
  | genEnd hp hst => exact h.enter (p := .wrMagic) hp rfl hst h.stackBound nofun
  | wrMagic hp hc =>
    have hwrite : BlockInv (s.afterWrite 32 s.params.magic.toNat) := { h with }
    exact hwrite.enter (p := .wrHdr) hp rfl (by simp) (by simp) nofun
  | wrLeaf hp i rest w sym hst hn hc => exact { h.pop hst with }
  | wrInternal hp i rest w l r hst hn hc hroom =>
    have hfit := (h.pop hst).stackShape
    exact { h with stackBound := Nat.succ_le_succ hroom, stackShape := by simpa [hp, State.afterWrite] using hfit }
  | wrHdrEnd hp hst => exact h.enter (p := .rewind) hp rfl hst h.stackBound nofun
  | rewind hp =>
    have hrewound : BlockInv { s.issue (.rewind true) with src := { bits := s.src.bits, pos := 0 } } :=
      { h with position := ⟨Nat.zero_le _, h.position.2⟩ }
    exact hrewound.enter (p := .enc) hp rfl (h.stackShape.eq_nil (by rw [hp]; rfl)) h.stackBound nofun
  | encode hp b hb8 hpos hv p hcode t hu =>
    obtain ⟨more, io, calls, rfl, -, -⟩ := hu
    exact { h with position := ⟨hpos, h.position.2⟩ }
  | encodeEnd hp p hpos hs =>
    have hread : BlockInv (s.afterMiss 8 .eos p) := { h with position := ⟨hpos h.position.1, h.position.2⟩ }
    exact hread.enter (p := .encEof) hp rfl (h.stackShape.eq_nil (by rw [hp]; rfl)) h.stackBound nofun
  | encEof hp p hcode u hu =>
    obtain ⟨more, io, calls, rfl, -, -⟩ := hu
    have hwrite : BlockInv { s with
        snk := { s.snk with bits := s.snk.bits ++ more }, io := io, trace := calls ++ s.trace } :=
      { h with closedAtEnd := by simp [hp] }
    exact hwrite.enter (p := .close) hp rfl (h.stackShape.eq_nil (by rw [hp]; rfl)) h.stackBound nofun
  | rdMagic hp hpos hv =>
    have hread : BlockInv (s.afterRead 32 s.params.magic.toNat) := { h with position := ⟨hpos, h.position.2⟩ }
    exact hread.enter (p := .rdHdr) hp rfl (by simp) (by simp) nofun
  | rdInternal hp slot rest hst hpos hroom hpush t hfill =>
    have hnode := h.putNode hroom (n := .internal 0 none none) fun w l r hn => by cases hn; exact ⟨nofun, nofun⟩
    have hfit := (h.pop hst).stackShape
    refine BlockInv.filled hfill ?_ hroom
    exact { hnode with
      nodeCount := hroom
      stackBound := Nat.succ_le_succ hpush
      stackShape := by simpa [hp, State.afterRead] using hfit
      position := ⟨hpos, h.position.2⟩ }
  | rdLeaf hp slot rest v hst hpos hroom hv t hfill =>
    have hnode := (h.pop hst).putNode hroom (n := .leaf 0 (BitVec.ofNat 9 v)) nofun
    refine BlockInv.filled hfill ?_ hroom
    exact { hnode with nodeCount := hroom, position := ⟨hpos, h.position.2⟩ }
  | rdHdrEnd hp hst hroot hlone =>
    obtain ⟨n, hn⟩ := hroot
    have hcur : BlockInv { s with cur := s.root } := { h with curRange := fun _ => h.node_lt hn }
    exact hcur.enter (p := .dec) hp rfl hst h.stackBound fun _ => ⟨h.node_lt hn, h.node_lt hn⟩
  | decEnd hp w sym hn hs =>
    exact h.enter (p := .close) hp rfl (h.stackShape.eq_nil (by rw [hp]; rfl)) h.stackBound nofun
  | decLeaf hp w sym hn hs hc =>
    exact { h with curRange := fun _ => h.rootRange (.inr hp), closedAtEnd := fun he => h.closedAtEnd he }
  | decInternal hp w l r d c hn hd hc hpos =>
    obtain ⟨hl, hr⟩ := h.childRange _ w l r (Memory.find?_mem hn)
    have hchild : c < s.params.nodeCap := by
      split at hc
      · exact hl c hc
      · exact hr c hc
    exact { h with curRange := fun _ => hchild, position := ⟨hpos, h.position.2⟩ }
  | close hp pad => exact { h.close hp pad with }
  | raised e u t hu ht => exact h.raised hb hu ht

theorem BlockInv.takeReset (h : BlockInv s) : BlockInv s.takeReset := by
  unfold State.takeReset
  split
  · exact blockInv_initBlock s.drawSink h.capacity h.position (.inl rfl)
  · exact blockInv_initBlock s h.capacity h.position (.inl rfl)

theorem BlockInv.accepted (h : BlockInv s) {o : Offer} (ho : s.cmd = some o) : BlockInv (s.accepted o) := by
  refine blockInv_initBlock { s with src := o.src, snk := o.snk, cmd := none, trace := [] } h.capacity
    ⟨h.position.2 o ho, nofun⟩ (.inr ?_)
  generalize o.op = op
  revert op
  decide

/-- Settles O35: each step is a reset, a step of a busy block, a wait or the acceptance of an offer, and all four keep
the invariant. -/
theorem stepKeepsInv : Obligations.StepKeepsInv := by
  intro s t h hstep
  rcases step_cases hstep with ⟨-, rfl⟩ | ⟨-, hb, hbs⟩ | ⟨-, -, rfl | ⟨o, ho, -, rfl⟩⟩
  · exact h.takeReset
  · exact h.busyStep hb hbs
  · exact h
  · exact h.accepted ho

/-- Settles O36: the state after reset is its own `initBlock`, and R10 bounds NODE_CAP from below. -/
theorem resetMeetsInv : Obligations.ResetMeetsInv :=
  blockInv_initBlock State.reset (Nat.le_add_left 513 Config.extraNodes) ⟨le_rfl, nofun⟩ (.inl rfl)

end Sys2Proof.Machine

/-! SUPPORT. What a step of a busy block leaves alone: registers, memories and the sink. -/

namespace Sys2Proof.Machine

variable {s t u : State}

/-! ### What a step of a busy block leaves alone -/

/-- The end of a BLD_INIT step writes PHASE and SYM only (R152). -/
theorem nextSymbol_frame (s : State) : ∃ phase sym, nextSymbol s = { s with phase := phase, sym := sym } := by
  obtain ⟨-, e⟩ | ⟨-, e⟩ := nextSymbol_cases s
  · exact ⟨.bldMerge, s.sym, e⟩
  · exact ⟨s.phase, s.sym + 1, e⟩

/-- Filling a slot writes ROOT, ROOT_V and NODE only (R192). -/
theorem fill_frame {q : Slot} {k : Nat} (h : fill q k s = .next t) :
    ∃ root rootV node, t = { s with root := root, rootV := rootV, node := node } := by
  obtain ⟨-, rfl⟩ | ⟨i, side, n, n', -, -, -, rfl⟩ := fill_next h
  · exact ⟨k, true, s.node, rfl⟩
  · exact ⟨s.root, s.rootV, Memory.put s.node i n', rfl⟩

/-- What an error leaves of the state that the step began with (R240). -/
theorem Raised.frame {e : ErrKind} (hu : Partway s u) (ht : Raised e u t) :
    ∃ errcode pos sym stk node snk io trace draws,
      t = { s with
        errcode := errcode, phase := .err, src := { bits := s.src.bits, pos := pos }, sym := sym
        stk := [], stkHeld := stk ++ s.stkHeld, node := node, snk := snk, io := io, trace := trace, draws := draws } ∧
      (sym = s.sym ∨ s.phase = .cnt ∨ s.phase = .enc) ∧ (stk = s.stk ∨ stackPhase s.phase = true) ∧
      (node = s.node ∨ s.phase = .rdHdr) ∧ io <:+ s.io := by
  obtain ⟨pos, sym, stk, node, snk, io, trace, draws, rfl, -, hsym, hstk, hnode, hio⟩ := hu
  obtain ⟨answered, bits, pad, draws', rfl⟩ := ht
  exact ⟨_, _, _, _, _, _, _, _, _, rfl, hsym, hstk, hnode.imp_right And.left, (List.tail_suffix _).trans hio⟩

/-- Settles O41: by cases on what the step does. -/
theorem onlyItsWritersChangeARegister : Obligations.OnlyItsWritersChangeARegister := by
  intro s t hb hr hstep
  cases busyStep_of_step hb hr hstep with
  | count hp | countEnd hp | merge hp | mergeEnd hp | genLeaf hp | genInternal hp | genEnd hp | wrMagic hp | wrLeaf hp
  | wrInternal hp | wrHdrEnd hp | rewind hp | encodeEnd hp | rdMagic hp | rdHdrEnd hp | decEnd hp | decLeaf hp
  | decInternal hp | close hp =>
    simp [hp, State.afterRead, State.afterMiss, State.afterWrite, State.withMerge, State.stkContents]
  | skipSymbol hp =>
    obtain ⟨phase, sym, e⟩ := nextSymbol_frame s
    rw [e]
    simp [hp, State.stkContents]
  | leafSymbol hp =>
    obtain ⟨phase, sym, e⟩ := nextSymbol_frame s.withLeaf
    rw [e]
    simp [hp, State.withLeaf, State.stkContents]
  | encode hp _ _ _ _ _ _ _ hu =>
    obtain ⟨more, io, calls, rfl, -, -⟩ := hu
    simp [hp, State.afterRead, State.stkContents]
  | encEof hp _ _ _ hu =>
    obtain ⟨more, io, calls, rfl, -, -⟩ := hu
    simp [hp, State.stkContents]
  | rdInternal hp _ _ _ _ _ _ _ hfill =>
    obtain ⟨root, rootV, node, rfl⟩ := fill_frame hfill
    simp [hp, State.afterRead]
  | rdLeaf hp _ _ _ _ _ _ _ _ hfill =>
    obtain ⟨root, rootV, node, rfl⟩ := fill_frame hfill
    simp [hp, State.afterRead]
  | raised e u _ hu ht =>
    obtain ⟨errcode, pos, sym, stk, node, snk, io, trace, draws, rfl, hsym, hstk, hnode, -⟩ := Raised.frame hu ht
    refine ⟨rfl, rfl, rfl, rfl, rfl, fun _ => rfl, fun _ => rfl, fun _ _ => rfl, ?_, fun _ _ => ⟨rfl, rfl⟩,
      fun _ _ => rfl, ?_, ?_, fun hp => absurd rfl hp⟩
    · exact fun _ _ hp => ⟨hnode.resolve_right hp, rfl⟩
    · intro hcnt _ henc _
      exact hsym.resolve_right (not_or.2 ⟨hcnt, henc⟩)
    · intro _ hgen _ hwr _ hrd
      have hnone : ¬ stackPhase s.phase = true := by
        cases hp : s.phase <;> simp_all [stackPhase]
      exact ⟨congrArg (· ++ s.stkHeld) (hstk.resolve_right hnone), fun hp => absurd rfl hp⟩

/-- Settles O43: by cases on what the step does. -/
theorem sinkOnlyGrows : Obligations.SinkOnlyGrows := by
  intro s t hb hr hstep herr
  cases busyStep_of_step hb hr hstep with
  | count | countEnd | merge | mergeEnd | genLeaf | genInternal | genEnd | wrHdrEnd | rewind | encodeEnd | rdMagic
  | rdHdrEnd | decEnd | decInternal => exact ⟨⟨[], List.append_nil _⟩, fun _ => rfl⟩
  | wrMagic | wrInternal | decLeaf => exact ⟨⟨_, rfl⟩, fun _ => rfl⟩
  | wrLeaf => exact ⟨⟨_, (List.append_assoc ..).symm⟩, fun _ => rfl⟩
  | skipSymbol =>
    obtain ⟨phase, sym, e⟩ := nextSymbol_frame s
    rw [e]
    exact ⟨⟨[], List.append_nil _⟩, fun _ => rfl⟩
  | leafSymbol =>
    obtain ⟨phase, sym, e⟩ := nextSymbol_frame s.withLeaf
    rw [e]
    exact ⟨⟨[], List.append_nil _⟩, fun _ => rfl⟩
  | encode hp _ _ _ _ _ _ _ hu =>
    obtain ⟨more, io, calls, rfl, -, -⟩ := hu
    exact ⟨⟨_, rfl⟩, fun _ => rfl⟩
  | encEof hp _ _ _ hu =>
    obtain ⟨more, io, calls, rfl, -, -⟩ := hu
    exact ⟨⟨_, rfl⟩, fun _ => rfl⟩
  | rdInternal hp _ _ _ _ _ _ _ hfill =>
    obtain ⟨root, rootV, node, rfl⟩ := fill_frame hfill
    exact ⟨⟨[], List.append_nil _⟩, fun _ => rfl⟩
  | rdLeaf hp _ _ _ _ _ _ _ _ hfill =>
    obtain ⟨root, rootV, node, rfl⟩ := fill_frame hfill
    exact ⟨⟨[], List.append_nil _⟩, fun _ => rfl⟩
  | close hp => exact ⟨⟨[], List.append_nil _⟩, fun hn => absurd hp hn⟩
  | raised e u _ hu ht =>
    obtain ⟨errcode, pos, sym, stk, node, snk, io, trace, draws, rfl, -⟩ := Raised.frame hu ht
    exact absurd rfl herr

end Sys2Proof.Machine

/-! SUPPORT. The stack over a step, the end of a run, the state after reset, words of the spec, and a push onto a full
stack. -/

namespace Sys2Proof.Machine

variable {s t u : State}

/-! ### The stack over a step -/

theorem takeReset_stack (s : State) : s.takeReset.stk = [] ∧ s.takeReset.phase = .idle := by
  unfold State.takeReset
  split <;> exact ⟨rfl, rfl⟩

/-- The stack a phase starts with (R26). -/
def State.primedStack (s : State) : List StkEntry :=
  match s.phase with
  | .gen => [.pair s.root []]
  | .wrHdr => [.index s.root]
  | .rdHdr => [.slot .root]
  | _ => []

theorem State.primedStack_eq_nil (h : stackPhase s.phase = false) : s.primedStack = [] := by
  unfold State.primedStack
  cases hp : s.phase
  case gen | wrHdr | rdHdr => rw [hp] at h; cases h
  all_goals rfl

/-- What a primed stack holds in each phase (R26). -/
theorem stk_of_primed (h : t.stk = t.primedStack) : (stackPhase t.phase = false → t.stk = []) ∧
    (t.phase = .gen → t.stk = [.pair t.root []]) ∧ (t.phase = .wrHdr → t.stk = [.index t.root]) ∧
    (t.phase = .rdHdr → t.stk = [.slot .root]) := by
  refine ⟨fun hn => h.trans (State.primedStack_eq_nil hn), ?_, ?_, ?_⟩ <;> intro hp <;>
    rw [h, State.primedStack, hp]

/-- The stack over a step of a busy block: the step stays in its phase, or takes an error, or goes on to another phase
with the stack that phase starts with, which it leaves a phase that uses the stack for only when the stack is empty. -/
theorem BusyStep.stack (h : BusyStep s t) (hfit : stackFits s.phase s.stk) :
    (t.phase = s.phase ∧ (stackPhase s.phase = false → t.stk = s.stk)) ∨ (t.phase = .err ∧ t.stk = []) ∨
    ((stackPhase s.phase = true → s.stk = [] ∧ t.stk = []) ∧ t.stk = t.primedStack) := by
  cases h with
  | count | merge | decLeaf | decInternal => exact .inl ⟨rfl, fun _ => rfl⟩
  | genLeaf hp | genInternal hp | wrLeaf hp | wrInternal hp =>
    exact .inl ⟨rfl, fun h => by simp [hp, stackPhase] at h⟩
  | countEnd hp | rewind hp | encodeEnd hp | decEnd hp | close hp =>
    have hempty : s.stk = [] := hfit.eq_nil (by rw [hp]; rfl)
    exact .inr (.inr ⟨fun _ => ⟨hempty, hempty⟩, hempty⟩)
  | mergeEnd hp | wrMagic hp | rdMagic hp => exact .inr (.inr ⟨by simp [hp, stackPhase], rfl⟩)
  | genEnd hp hst | wrHdrEnd hp hst | rdHdrEnd hp hst => exact .inr (.inr ⟨fun _ => ⟨hst, hst⟩, hst⟩)
  | skipSymbol hp =>
    have hempty : s.stk = [] := hfit.eq_nil (by rw [hp]; rfl)
    obtain ⟨-, e⟩ | ⟨-, e⟩ := nextSymbol_cases s <;> rw [e]
    · exact .inr (.inr ⟨fun _ => ⟨hempty, hempty⟩, hempty⟩)
    · exact .inl ⟨rfl, fun _ => rfl⟩
  | leafSymbol hp =>
    have hempty : s.stk = [] := hfit.eq_nil (by rw [hp]; rfl)
    obtain ⟨-, e⟩ | ⟨-, e⟩ := nextSymbol_cases s.withLeaf <;> rw [e]
    · exact .inr (.inr ⟨fun _ => ⟨hempty, hempty⟩, hempty⟩)
    · exact .inl ⟨rfl, fun _ => rfl⟩
  | encode hp _ _ _ _ _ _ _ hu =>
    obtain ⟨more, io, calls, rfl, -, -⟩ := hu
    exact .inl ⟨rfl, fun _ => rfl⟩
  | encEof hp _ _ _ hu =>
    have hempty : s.stk = [] := hfit.eq_nil (by rw [hp]; rfl)
    obtain ⟨more, io, calls, rfl, -, -⟩ := hu
    exact .inr (.inr ⟨fun _ => ⟨hempty, hempty⟩, hempty⟩)
  | rdInternal hp _ _ _ _ _ _ _ hfill =>
    obtain ⟨root, rootV, node, rfl⟩ := fill_frame hfill
    exact .inl ⟨rfl, fun h => by simp [hp, stackPhase] at h⟩
  | rdLeaf hp _ _ _ _ _ _ _ _ hfill =>
    obtain ⟨root, rootV, node, rfl⟩ := fill_frame hfill
    exact .inl ⟨rfl, fun h => by simp [hp, stackPhase] at h⟩
  | raised e u _ hu ht =>
    obtain ⟨errcode, pos, sym, stk, node, snk, io, trace, draws, rfl, -⟩ := Raised.frame hu ht
    exact .inr (.inl ⟨rfl, rfl⟩)

/-- A block at rest is in no phase that uses the stack (R26, R27). -/
theorem stackPhase_of_resting (hb : s.busy = false) : stackPhase s.phase = false := by
  unfold State.busy at hb
  cases hp : s.phase
  case idle | done | err => rfl
  all_goals rw [hp] at hb; cases hb

/-- The first phase of a command uses no stack (R121, R125). -/
theorem stackPhase_accepted (s : State) (o : Offer) : stackPhase (s.accepted o).phase = false := by
  unfold State.accepted
  dsimp only
  split <;> rfl

/-- Settles O60: a reset and an accepted offer leave the stack empty, and `BusyStep.stack` says what a busy block
does. -/
theorem stackIsEmptyOutsideItsPhases : Obligations.StackIsEmptyOutsideItsPhases := by
  intro s t hfit hstep
  rcases step_cases hstep with ⟨hr, rfl⟩ | ⟨-, -, hbs⟩ | ⟨-, hb, rfl | ⟨o, -, -, rfl⟩⟩
  · obtain ⟨hstk, hphase⟩ := takeReset_stack s
    have hnone : stackPhase s.takeReset.phase = false := by rw [hphase]; rfl
    obtain ⟨hout, hin⟩ := stk_of_primed (hstk.trans (State.primedStack_eq_nil hnone).symm)
    exact ⟨hout, fun _ => hin, fun hr' => by rw [hr] at hr'; cases hr'⟩
  · rcases hbs.stack hfit with ⟨hphase, hstk⟩ | ⟨hphase, hstk⟩ | ⟨hleft, hstk⟩
    · refine ⟨fun hn => ?_, fun hne => absurd hphase.symm hne, fun _ _ hne => absurd hphase hne⟩
      rw [hphase] at hn
      rw [hstk hn, hfit.eq_nil hn]
    · have hnone : stackPhase t.phase = false := by rw [hphase]; rfl
      obtain ⟨hout, hin⟩ := stk_of_primed (hstk.trans (State.primedStack_eq_nil hnone).symm)
      exact ⟨hout, fun _ => hin, fun _ _ _ hne => absurd hphase hne⟩
    · obtain ⟨hout, hin⟩ := stk_of_primed hstk
      exact ⟨hout, fun _ => hin, fun _ hp _ _ => hleft hp⟩
  · exact ⟨hfit.eq_nil, fun hne => absurd rfl hne, fun _ _ hne => absurd rfl hne⟩
  · obtain ⟨hout, hin⟩ := stk_of_primed (t := s.accepted o) (State.primedStack_eq_nil (stackPhase_accepted s o)).symm
    exact ⟨hout, fun _ => hin, fun _ hp => by rw [stackPhase_of_resting hb] at hp; cases hp⟩

/-! ### The end of a run -/

/-- Settles O11: a block at rest waits or accepts the offer. -/
theorem endIsLeftByCommandOrReset : Obligations.EndIsLeftByCommandOrReset := by
  intro s t hend hstep hleft
  rcases step_cases hstep with ⟨hr, -⟩ | ⟨-, hb, -⟩ | ⟨-, -, rfl | ⟨o, ho, -, rfl⟩⟩
  · exact .inl hr
  · rcases hend with hp | hp <;> simp [State.busy, hp, phaseBusy] at hb
  · exact absurd rfl hleft
  · exact .inr ⟨o, ho, rfl, rfl⟩

/-! ### The state after reset -/

/-- The block at its values of R45. -/
theorem State.fresh_initBlock (s : State) : s.initBlock.fresh := by
  refine ⟨rfl, fun i hi => ?_, rfl, rfl, rfl, rfl, fun i => rfl, fun i => rfl⟩
  have hne : i ≠ 256 := by omega
  simp [State.freqAt, Memory.read, Memory.find?, hne]

/-- Settles O7: the state after reset is its own `initBlock`, and it waits. -/
theorem resetStateIsIdle : Obligations.ResetStateIsIdle :=
  ⟨rfl, rfl, State.fresh_initBlock State.reset, rfl⟩

/-! ### Words of the spec -/

/-- Settles O3: the decoder computes each word's operation. -/
theorem specWordsDecode : Obligations.SpecWordsDecode := by
  refine ⟨rfl, rfl, ?_, ?_, rfl, ?_, ?_, rfl, ?_⟩ <;> decide

/-! ### A push onto a full stack -/

/-- Two pushes where there is no room for both (R26): the first entry stays where it fits. -/
theorem push_push_full {e f : StkEntry} {k : State → Out} (hfull : s.params.nodeCap ≤ s.stk.length)
    (ha : s.answer ≠ .never) :
    ∃ t, push e s (fun u => push f u k) = .next t ∧ Raised .treeCapacity
      { s with stk := if s.stk.length = s.params.nodeCap then e :: s.stk else s.stk } t := by
  rcases push_cases e s fun u => push f u k with ⟨hroom, h⟩ | ⟨hover, h⟩
  · have hlen : s.stk.length = s.params.nodeCap := le_antisymm hroom hfull
    rcases push_cases f { s with stk := e :: s.stk } k with ⟨hroom', -⟩ | ⟨-, h'⟩
    · exact absurd (hfull.trans_lt hroom') (lt_irrefl _)
    · rw [h, h', if_pos hlen]
      exact raise_next .treeCapacity ha
  · rw [h, if_neg hover.ne']
    exact raise_next .treeCapacity ha

/-- GEN at a leaf records its path (R173). -/
theorem execGen_leaf {i : Nat} {p : BitString} {rest : List StkEntry} {w : BitVec 41} {sym : Symbol}
    (hst : s.stk = .pair i p :: rest) (hn : s.nodeAt i = some (.leaf w sym)) :
    execGen s = recordCode sym p { s with stk := rest } := by
  unfold execGen
  rw [hst]
  exact withNode_some hn _

/-- GEN at an internal node pushes the right child and then the left (R173). -/
theorem execGen_internal {i l r : Nat} {p : BitString} {rest : List StkEntry} {w : BitVec 41}
    (hst : s.stk = .pair i p :: rest) (hn : s.nodeAt i = some (.internal w (some l) (some r))) :
    execGen s = push (.pair r (p ++ [true])) { s with stk := rest } fun t =>
      push (.pair l (p ++ [false])) t .next := by
  unfold execGen
  rw [hst]
  exact withNode_some hn _

/-- WR_HDR at a leaf writes its token (R185). -/
theorem execWrHdr_leaf {i : Nat} {rest : List StkEntry} {w : BitVec 41} {sym : Symbol} (hst : s.stk = .index i :: rest)
    (hn : s.nodeAt i = some (.leaf w sym)) : execWrHdr s = writeLeaf sym { s with stk := rest } := by
  unfold execWrHdr
  rw [hst]
  exact withNode_some hn _

/-- WR_HDR at an internal node writes a `0` and pushes the right child and then the left (R185). -/
theorem execWrHdr_internal {i l r : Nat} {rest : List StkEntry} {w : BitVec 41} (hst : s.stk = .index i :: rest)
    (hn : s.nodeAt i = some (.internal w (some l) (some r))) :
    execWrHdr s = onCall (snkWrite 1 0 { s with stk := rest }) fun t =>
      push (.index r) t fun u => push (.index l) u .next := by
  unfold execWrHdr
  rw [hst]
  exact withNode_some hn _

/-- RD_HDR on a `0` with room in the arena stores the node and pushes its right slot and then its left (R192). -/
theorem execRdHdr_internal {slot : Slot} {rest : List StkEntry} (hst : s.stk = .slot slot :: rest)
    (hroom : s.nNodes < s.params.nodeCap) (ha : s.answer = .ok) (hs : s.sourceStarts [false]) :
    execRdHdr s = push (.slot (.child s.nNodes .R))
      { s.afterRead 1 0 with stk := rest, node := Memory.put s.node s.nNodes (.internal 0 none none) } fun u =>
        push (.slot (.child s.nNodes .L)) u fun v => fill slot s.nNodes { v with nNodes := s.nNodes + 1 } := by
  have hread : srcRead 1 { s with stk := rest } = .value 0 (({ s with stk := rest } : State).afterRead 1 0) :=
    (srcRead_starts (p := [false]) (n := 1) (s := { s with stk := rest }) rfl le_rfl (by omega) hs).trans
      (srcAnswer_ok ha)
  unfold execRdHdr
  rw [hst]
  show onRead (srcRead 1 { s with stk := rest }) _ _ = _
  rw [hread]
  show readInternal slot _ = _
  unfold readInternal
  rw [if_neg (by exact hroom.ne)]
  exact storeNode_room (by exact hroom) _

/-- Settles O17: in each of the three phases the step comes to two pushes. -/
theorem fullStackRaisesTreeCapacity : Obligations.FullStackRaisesTreeCapacity := by
  refine ⟨?_, ?_, ?_⟩
  · intro s i l r p rest w hst hn hfull ha
    show ∃ t, execGen s = .next t ∧ _
    rw [execGen_internal hst hn]
    exact push_push_full (s := { s with stk := rest }) hfull ha
  · intro s i l r rest w hst hn hfull hc hio ha
    show ∃ t, execWrHdr s = .next t ∧ _
    have hwrite : snkWrite 1 0 { s with stk := rest } = .ok { s.afterWrite 1 0 with stk := rest } :=
      snkWrite_ok (by omega) (by omega) (by omega) hc (State.ioOk_one.1 hio)
    rw [execWrHdr_internal hst hn, hwrite]
    exact push_push_full (s := { s.afterWrite 1 0 with stk := rest }) hfull ha
  · intro s slot rest hst hroom hfull hio hs ha
    have hstep := execRdHdr_internal hst hroom (State.ioOk_one.1 hio) hs
    obtain ⟨t, ht, hraised⟩ := push_push_full (e := .slot (.child s.nNodes .R)) (f := .slot (.child s.nNodes .L))
      (k := fun v => fill slot s.nNodes { v with nNodes := s.nNodes + 1 })
      (s := { s.afterRead 1 0 with stk := rest, node := Memory.put s.node s.nNodes (.internal 0 none none) }) hfull ha
    exact ⟨t, _, hstep.trans ht, hraised, Memory.find?_put_same _ _ _, fun k hk => Memory.find?_put_other _ _ hk⟩

end Sys2Proof.Machine

/-! SUPPORT. The facts that the run's invariant rests on: the arena after a store, the sentinel's place, and PQ. -/

namespace Sys2Proof.Machine

variable {s t u : State}

/-! ### The cells of a memory after one is put -/

theorem Memory.find?_put_some {α : Type} {m : Memory α} {k i : Nat} {v x : α}
    (h : Memory.find? (Memory.put m k v) i = some x) :
    (i = k ∧ x = v) ∨ (i ≠ k ∧ Memory.find? m i = some x) := by
  by_cases hi : i = k
  · subst hi
    rw [Memory.find?_put_same] at h
    exact .inl ⟨rfl, (Option.some.inj h).symm⟩
  · rw [Memory.find?_put_other m v hi] at h
    exact .inr ⟨hi, h⟩

theorem Memory.isSome_find?_put {α : Type} {m : Memory α} {i : Nat} (k : Nat) (v : α)
    (h : (Memory.find? m i).isSome = true) :
    (Memory.find? (Memory.put m k v) i).isSome = true := by
  by_cases hi : i = k
  · subst hi; simp
  · rwa [Memory.find?_put_other m v hi]

theorem Memory.rising_write {α : Type} [DecidableEq α] (d : α) {m : Memory α} (h : Memory.rising m = true) (i : Nat)
    (v : α) : Memory.rising (Memory.write d m i v) = true := by
  unfold Memory.write
  split
  · exact Memory.rising_drop h i
  · exact Memory.rising_put h i v

/-! ### The arena after a node is stored in the first free entry -/

/-- A node stored at N_NODES extends the written part of the arena (R32). -/
theorem State.arenaWritten.store (h : s.arenaWritten) (n : Node) :
    State.arenaWritten { s with node := Memory.put s.node s.nNodes n, nNodes := s.nNodes + 1 } := by
  intro i hi
  by_cases hk : i = s.nNodes
  · exact ⟨n, by subst hk; exact Memory.find?_put_same _ _ _⟩
  · obtain ⟨m, hm⟩ := h i (by have hi : i < s.nNodes + 1 := hi; omega)
    exact ⟨m, (Memory.find?_put_other _ n hk).trans hm⟩

/-- The children of a node stored at N_NODES lie below it (R33). -/
theorem State.childrenBelow.store (h : s.childrenBelow) {n : Node}
    (hn : ∀ w l r, n = .internal w l r → ∃ a b, l = some a ∧ r = some b ∧ a < s.nNodes ∧ b < s.nNodes) :
    State.childrenBelow { s with node := Memory.put s.node s.nNodes n } := by
  intro i w l r hi
  rcases Memory.find?_put_some hi with ⟨rfl, e⟩ | ⟨-, hi⟩
  · exact hn w l r e.symm
  · exact h i w l r hi

theorem State.leavesLegal.store (h : s.leavesLegal) {n : Node} (hn : ∀ w sym, n = .leaf w sym → sym.toNat ≤ 256) :
    State.leavesLegal { s with node := Memory.put s.node s.nNodes n } := by
  intro i w sym hi
  rcases Memory.find?_put_some hi with ⟨rfl, e⟩ | ⟨-, hi⟩
  · exact hn w sym e.symm
  · exact h i w sym hi

/-! ### Where the sentinel's leaf lies -/

theorem hasSentinel_leaf {node : Memory Node} {i : Nat} {w : BitVec 41} {sym : Symbol}
    (hn : Memory.find? node i = some (.leaf w sym)) (h : HasSentinel node i) : sym.toNat = 256 := by
  cases h with
  | leaf hi hs => rw [hn] at hi; cases hi; exact hs
  | left hi => rw [hn] at hi; cases hi
  | right hi => rw [hn] at hi; cases hi

theorem hasSentinel_internal {node : Memory Node} {i l r : Nat} {w : BitVec 41}
    (hn : Memory.find? node i = some (.internal w (some l) (some r))) (h : HasSentinel node i) :
    HasSentinel node l ∨ HasSentinel node r := by
  cases h with
  | leaf hi => rw [hn] at hi; cases hi
  | left hi hl => rw [hn] at hi; cases hi; exact .inl hl
  | right hi hr => rw [hn] at hi; cases hi; exact .inr hr

/-- Storing a node changes nothing below an entry that lies under it, because children lie below their node (R33). -/
theorem HasSentinel.store {i k : Nat} (h : HasSentinel s.node i) (hbelow : s.childrenBelow) (hi : i < k) (n : Node) :
    HasSentinel (Memory.put s.node k n) i := by
  have keep : ∀ {j m}, j < k → Memory.find? s.node j = some m → Memory.find? (Memory.put s.node k n) j = some m :=
    fun hj hm => (Memory.find?_put_other _ n hj.ne).trans hm
  induction h with
  | leaf hn hs => exact .leaf (keep hi hn) hs
  | left hn _ ih =>
    obtain ⟨a, b, ha, -, hlt, -⟩ := hbelow _ _ _ _ hn
    cases ha
    exact .left (keep hi hn) (ih (hlt.trans hi))
  | right hn _ ih =>
    obtain ⟨a, b, -, hb, -, hlt⟩ := hbelow _ _ _ _ hn
    cases hb
    exact .right (keep hi hn) (ih (hlt.trans hi))

/-! ### The priority structure (R38) -/

theorem BlockInv.inpq_rising (h : BlockInv s) : Memory.rising s.inpq = true := by
  obtain ⟨-, -, hinpq, -⟩ := s.memoriesWf_iff.1 h.memories
  exact ((Memory.wf_iff _ _).1 hinpq).1

/-- Membership in PQ, by the flag of the entry. -/
theorem State.mem_pq_iff (h : Memory.rising s.inpq = true) {i : Nat} :
    i ∈ s.pq ↔ s.inpqAt i = true ∧ i < s.nNodes := by
  have hflag : (i, true) ∈ s.inpq ↔ s.inpqAt i = true := by
    unfold State.inpqAt Memory.read
    constructor
    · intro hm
      rw [Memory.mem_find? h hm]; rfl
    · intro hread
      cases hf : Memory.find? s.inpq i with
      | none => simp [hf] at hread
      | some b => exact Memory.find?_mem (by simpa [hf] using hread)
  rw [State.mem_pq, hflag]

/-- PQ lists its members once. -/
theorem State.nodup_pq (h : Memory.rising s.inpq = true) : s.pq.Nodup := by
  rw [Memory.rising_iff] at h
  unfold State.pq
  refine List.pairwise_map.2 ((h.filter _).imp fun hlt => hlt.ne)

theorem State.length_pq_le (h : Memory.rising s.inpq = true) : s.pq.length ≤ s.nNodes := by
  have hsub : s.pq ⊆ List.range s.nNodes := fun i hi => List.mem_range.2 (State.mem_pq.1 hi).2
  simpa using ((State.nodup_pq h).subperm hsub).length_le

/-- `extract_min` takes the node it finds out of PQ (R154). -/
theorem State.mem_pq_extracted (h : Memory.rising s.inpq = true) {a i : Nat} :
    i ∈ (s.setInpq a false).pq ↔ i ∈ s.pq ∧ i ≠ a := by
  rw [State.mem_pq_iff (Memory.rising_write false h a false), State.mem_pq_iff h]
  by_cases hi : i = a
  · subst hi; simp
  · rw [State.inpqAt_setInpq_other s false hi]; simp [hi]

/-- The first two nodes that BLD_MERGE extracts are two members of PQ (R155). -/
theorem BlockInv.extracted (h : BlockInv s) {a b : Nat} {wa wb : BitVec 41} (ha : leastOf s.node s.pq = .ok (wa, a))
    (hb : leastOf s.node ({ s with inpq := Memory.write false s.inpq a false } : State).pq = .ok (wb, b)) :
    a ∈ s.pq ∧ b ∈ s.pq ∧ b ≠ a := by
  obtain ⟨hbm, hne⟩ := (State.mem_pq_extracted h.inpq_rising).1 (leastOf_mem hb).1
  exact ⟨(leastOf_mem ha).1, hbm, hne⟩

end Sys2Proof.Machine

/-! SUPPORT. What holds in each phase of a run, and that the compress side keeps it. -/

namespace Sys2Proof.Machine

variable {s t u : State}

/-! ### What holds in each phase of a run -/

theorem phaseInv_empty_arena (hp : s.phase = .cnt ∨ s.phase = .rdMagic) :
    PhaseInv s ↔ s.nNodes = 0 ∧ s.node = [] := by
  rcases hp with hp | hp <;> simp [PhaseInv, hp]

theorem phaseInv_bldInit (hp : s.phase = .bldInit) : PhaseInv s ↔
    s.sym.toNat ≤ 256 ∧ s.nNodes ≤ s.sym.toNat ∧ s.arenaWritten ∧ s.childrenBelow ∧ s.leavesLegal := by
  simp [PhaseInv, hp]

theorem phaseInv_bldMerge (hp : s.phase = .bldMerge) : PhaseInv s ↔
    s.arenaWritten ∧ s.childrenBelow ∧ s.leavesLegal ∧ s.pq.length + s.nNodes ≤ 514 ∧
      ∃ r ∈ s.pq, HasSentinel s.node r := by
  simp [PhaseInv, hp]

theorem phaseInv_gen (hp : s.phase = .gen) : PhaseInv s ↔
    s.arenaWritten ∧ s.childrenBelow ∧ s.leavesLegal ∧ s.root < s.nNodes ∧ stackDescends s.nNodes s.stk ∧
      ((s.codeAt 256).isSome = true ∨ ∃ i p, StkEntry.pair i p ∈ s.stk ∧ HasSentinel s.node i) := by
  simp [PhaseInv, hp]

theorem phaseInv_wrMagic (hp : s.phase = .wrMagic) : PhaseInv s ↔
    s.arenaWritten ∧ s.childrenBelow ∧ s.root < s.nNodes ∧ (s.codeAt 256).isSome = true := by
  simp [PhaseInv, hp]

theorem phaseInv_wrHdr (hp : s.phase = .wrHdr) : PhaseInv s ↔
    s.arenaWritten ∧ s.childrenBelow ∧ stackDescends s.nNodes s.stk ∧ (s.codeAt 256).isSome = true := by
  simp [PhaseInv, hp]

theorem phaseInv_coded (hp : s.phase = .rewind ∨ s.phase = .enc ∨ s.phase = .encEof) :
    PhaseInv s ↔ (s.codeAt 256).isSome = true := by
  rcases hp with hp | hp | hp <;> simp [PhaseInv, hp]

theorem phaseInv_rdHdr (hp : s.phase = .rdHdr) : PhaseInv s ↔
    s.arenaWritten ∧ (∀ e ∈ s.stk, slotOpen s e) ∧ s.childrenPending ∧ s.stk.length ≤ s.nNodes + 1 ∧
      (s.nNodes = 0 → s.stk = [.slot .root]) ∧ (0 < s.nNodes → s.root < s.nNodes) := by
  simp [PhaseInv, hp]

theorem phaseInv_dec (hp : s.phase = .dec) : PhaseInv s ↔
    s.arenaWritten ∧ s.childrenFilled ∧ s.root < s.nNodes ∧ s.cur < s.nNodes ∧
      ∀ w sym, s.nodeAt s.root = some (.leaf w sym) → sym.toNat = 256 := by
  simp [PhaseInv, hp]

theorem phaseInv_other (hp : s.phase = .idle ∨ s.phase = .done ∨ s.phase = .err ∨ s.phase = .close) :
    PhaseInv s := by
  rcases hp with hp | hp | hp | hp <;> simp [PhaseInv, hp]

/-! ### The tree builder -/

/-- The end of a BLD_INIT step, after which the sentinel's leaf waits in PQ if the symbol was the sentinel (R152). -/
theorem phaseInv_nextSymbol (hp : s.phase = .bldInit) (hrise : Memory.rising s.inpq = true) (hs : s.sym.toNat ≤ 256)
    (hcount : s.nNodes ≤ s.sym.toNat + 1) (hw : s.arenaWritten) (hb : s.childrenBelow) (hl : s.leavesLegal)
    (hlast : s.sym.toNat = 256 → ∃ r ∈ s.pq, HasSentinel s.node r) : PhaseInv (nextSymbol s) := by
  obtain ⟨hlast', e⟩ | ⟨hnot, e⟩ := nextSymbol_cases s <;> rw [e]
  · have hlen := State.length_pq_le hrise
    have hbound : s.pq.length + s.nNodes ≤ 514 := by omega
    exact (phaseInv_bldMerge rfl).2 ⟨hw, hb, hl, hbound, hlast hlast'⟩
  · have hsucc : (s.sym + 1).toNat = s.sym.toNat + 1 := by
      rw [BitVec.toNat_add]
      exact Nat.mod_eq_of_lt (show s.sym.toNat + 1 < 2 ^ 9 by omega)
    refine (phaseInv_bldInit (by exact hp)).2 ⟨?_, ?_, hw, hb, hl⟩
    · show (s.sym + 1).toNat ≤ 256
      omega
    · show s.nNodes ≤ (s.sym + 1).toNat
      omega

theorem phaseInv_leafSymbol (h : BlockInv s) (hp : s.phase = .bldInit) (hinv : PhaseInv s) :
    PhaseInv (nextSymbol s.withLeaf) := by
  obtain ⟨hs, hcount, hw, hb, hl⟩ := (phaseInv_bldInit hp).1 hinv
  have hrise : Memory.rising s.withLeaf.inpq = true := Memory.rising_write false h.inpq_rising s.nNodes true
  refine phaseInv_nextSymbol (s := s.withLeaf) hp hrise hs
    (Nat.succ_le_succ hcount) (hw.store _) (hb.store nofun) ?_ ?_
  · exact hl.store fun w sym e => by cases e; exact hs
  · intro hlast
    refine ⟨s.nNodes, ?_, .leaf (Memory.find?_put_same _ _ _) hlast⟩
    exact (State.mem_pq_iff hrise).2 ⟨State.inpqAt_setInpq_same s s.nNodes true, Nat.lt_succ_self _⟩

theorem BlockInv.rising_withMerge (h : BlockInv s) (a b : Nat) (w : BitVec 41) :
    Memory.rising (s.withMerge a b w).inpq = true :=
  Memory.rising_write false (Memory.rising_write false (Memory.rising_write false h.inpq_rising a false) b false) _ true

/-- What PQ holds after a merge: the new node and what was there but for the two that were merged (R155). -/
theorem BlockInv.mem_pq_withMerge (h : BlockInv s) {a b i : Nat} {w : BitVec 41} :
    i ∈ (s.withMerge a b w).pq ↔ i = s.nNodes ∨ (i ∈ s.pq ∧ i ≠ a ∧ i ≠ b) := by
  have hrise := Memory.rising_write false (Memory.rising_write false h.inpq_rising a false) b false
  refine (State.mem_pq_iff (h.rising_withMerge a b w)).trans ?_
  show (((s.setInpq a false).setInpq b false).setInpq s.nNodes true).inpqAt i = true ∧ i < s.nNodes + 1 ↔ _
  have hout : i ∈ ((s.setInpq a false).setInpq b false).pq ↔ i ∈ s.pq ∧ i ≠ a ∧ i ≠ b := by
    rw [State.mem_pq_extracted (Memory.rising_write false h.inpq_rising a false),
      State.mem_pq_extracted h.inpq_rising, and_assoc]
  by_cases hi : i = s.nNodes
  · subst hi; simp
  · rw [State.inpqAt_setInpq_other _ true hi, ← hout, State.mem_pq_iff hrise]
    show _ ∧ _ ↔ _ ∨ _ ∧ i < s.nNodes
    constructor
    · exact fun ⟨hf, hlt⟩ => .inr ⟨hf, by omega⟩
    · rintro (hn | ⟨hf, hlt⟩)
      · exact absurd hn hi
      · exact ⟨hf, by omega⟩

theorem phaseInv_merge (h : BlockInv s) (hp : s.phase = .bldMerge) (hinv : PhaseInv s) {a b : Nat}
    (ha : a ∈ s.pq) (hb : b ∈ s.pq) (hne : b ≠ a) (w : BitVec 41) :
    PhaseInv (s.withMerge a b w) := by
  obtain ⟨hw, hbelow, hl, hlen, r, hr, hsent⟩ := (phaseInv_bldMerge hp).1 hinv
  have halt : a < s.nNodes := (State.mem_pq.1 ha).2
  have hblt : b < s.nNodes := (State.mem_pq.1 hb).2
  have hrlt : r < s.nNodes := (State.mem_pq.1 hr).2
  refine (phaseInv_bldMerge (by exact hp)).2 ⟨hw.store _, hbelow.store ?_, hl.store (by simp), ?_, ?_⟩
  · intro w' l r' e
    cases e
    exact ⟨a, b, rfl, rfl, halt, hblt⟩
  · have hsub : (s.withMerge a b w).pq ⊆ s.nNodes :: (s.pq.erase a).erase b := by
      intro i hi
      obtain rfl | ⟨hi, hia, hib⟩ := h.mem_pq_withMerge.1 hi
      · exact List.mem_cons_self
      · exact List.mem_cons_of_mem _ ((List.mem_erase_of_ne hib).2 ((List.mem_erase_of_ne hia).2 hi))
    have hle := ((State.nodup_pq (h.rising_withMerge a b w)).subperm hsub).length_le
    have hpos : 0 < (s.pq.erase a).length := List.length_pos_of_mem ((List.mem_erase_of_ne hne).2 hb)
    rw [List.length_cons, List.length_erase_of_mem ((List.mem_erase_of_ne hne).2 hb),
      List.length_erase_of_mem ha] at hle
    rw [List.length_erase_of_mem ha] at hpos
    show _ + (s.nNodes + 1) ≤ 514
    omega
  · have hkeep := hsent.store hbelow hrlt (.internal w (some a) (some b))
    by_cases hra : r = a
    · subst hra
      exact ⟨s.nNodes, h.mem_pq_withMerge.2 (.inl rfl), .left (Memory.find?_put_same _ _ _) hkeep⟩
    · by_cases hrb : r = b
      · subst hrb
        exact ⟨s.nNodes, h.mem_pq_withMerge.2 (.inl rfl), .right (Memory.find?_put_same _ _ _) hkeep⟩
      · exact ⟨r, h.mem_pq_withMerge.2 (.inr ⟨hr, hra, hrb⟩), hkeep⟩

/-! ### GEN and WR_HDR -/

/-- The children of a node on the compress side, where both are there (R33). -/
theorem State.childrenBelow.lt (h : s.childrenBelow) {i l r : Nat} {w : BitVec 41}
    (hn : s.nodeAt i = some (.internal w (some l) (some r))) : l < i ∧ r < i := by
  obtain ⟨a, b, ha, hb, hlt⟩ := h i w _ _ hn
  cases ha
  cases hb
  exact hlt

/-- A node's two children take its place on a traversal stack (R173, R185). -/
theorem stackDescends_children {n : Nat} {e el er : StkEntry} {rest : List StkEntry}
    (h : stackDescends n (e :: rest)) (hl : entryIndex el < entryIndex e) (hr : entryIndex er < entryIndex e) :
    stackDescends n (el :: er :: rest) := by
  obtain ⟨htop, hrest⟩ := h
  refine ⟨?_, ?_, hrest⟩
  · rw [List.length_cons]; omega
  · omega

theorem phaseInv_genLeaf (hp : s.phase = .gen) (hinv : PhaseInv s) {i : Nat} {p : BitString} {rest : List StkEntry}
    {w : BitVec 41} {sym : Symbol} (hst : s.stk = .pair i p :: rest) (hn : s.nodeAt i = some (.leaf w sym)) :
    PhaseInv { s with stk := rest, code := Memory.put s.code sym.toNat p } := by
  obtain ⟨hw, hb, hl, hroot, hdesc, hcode⟩ := (phaseInv_gen hp).1 hinv
  rw [hst] at hdesc hcode
  refine (phaseInv_gen (by exact hp)).2 ⟨hw, hb, hl, hroot, hdesc.2, ?_⟩
  rcases hcode with hcode | ⟨j, q, hmem, hsent⟩
  · exact .inl (Memory.isSome_find?_put _ _ hcode)
  · rcases List.mem_cons.1 hmem with e | hmem
    · cases e
      have hs : sym.toNat = 256 := hasSentinel_leaf hn hsent
      refine .inl ?_
      show (Memory.find? (Memory.put s.code sym.toNat p) 256).isSome = true
      rw [hs, Memory.find?_put_same]
      rfl
    · exact .inr ⟨j, q, hmem, hsent⟩

theorem phaseInv_genInternal (hp : s.phase = .gen) (hinv : PhaseInv s) {i l r : Nat} {p : BitString}
    {rest : List StkEntry} {w : BitVec 41} (hst : s.stk = .pair i p :: rest)
    (hn : s.nodeAt i = some (.internal w (some l) (some r))) :
    PhaseInv { s with stk := .pair l (p ++ [false]) :: .pair r (p ++ [true]) :: rest } := by
  obtain ⟨hw, hb, hl, hroot, hdesc, hcode⟩ := (phaseInv_gen hp).1 hinv
  rw [hst] at hdesc hcode
  obtain ⟨hli, hri⟩ := hb.lt hn
  refine (phaseInv_gen (by exact hp)).2 ⟨hw, hb, hl, hroot, stackDescends_children hdesc hli hri, ?_⟩
  rcases hcode with hcode | ⟨j, q, hmem, hsent⟩
  · exact .inl hcode
  · rcases List.mem_cons.1 hmem with e | hmem
    · cases e
      rcases hasSentinel_internal hn hsent with hs | hs
      · exact .inr ⟨l, _, List.mem_cons_self, hs⟩
      · exact .inr ⟨r, _, List.mem_cons_of_mem _ List.mem_cons_self, hs⟩
    · exact .inr ⟨j, q, List.mem_cons_of_mem _ (List.mem_cons_of_mem _ hmem), hsent⟩

end Sys2Proof.Machine

/-! SUPPORT. What holds while the header is read, and that every step of a busy block keeps what holds in its phase. -/

namespace Sys2Proof.Machine

variable {s t u : State}

/-! ### RD_HDR -/

/-- What holds of the arena and the open slots while the header is read (R192). -/
structure HeaderInv (s : State) : Prop where
  written : s.arenaWritten
  slots : ∀ e ∈ s.stk, slotOpen s e
  pending : s.childrenPending

/-- A slot stays open when a node is stored in the first free entry. -/
theorem slotOpen.store {e : StkEntry} (h : slotOpen s e) (n : Node) :
    slotOpen { s with node := Memory.put s.node s.nNodes n, nNodes := s.nNodes + 1 } e := by
  match e, h with
  | .slot .root, _ => trivial
  | .slot (.child q side), ⟨hq, w, l, r, hn⟩ =>
    exact ⟨Nat.lt_succ_of_lt hq, w, l, r, (Memory.find?_put_other _ n hq.ne).trans hn⟩

/-- A leaf stored in the first free entry. -/
theorem HeaderInv.storeLeaf (h : HeaderInv s) (w : BitVec 41) (sym : Symbol) :
    HeaderInv { s with node := Memory.put s.node s.nNodes (.leaf w sym), nNodes := s.nNodes + 1 } where
  written := h.written.store _
  slots e he := (h.slots e he).store _
  pending := by
    intro i w' l r hi
    rcases Memory.find?_put_some hi with ⟨-, e⟩ | ⟨-, hi⟩
    · cases e
    · obtain ⟨hl, hl', hr, hr'⟩ := h.pending i w' l r hi
      exact ⟨hl, fun a ha => Nat.lt_succ_of_lt (hl' a ha), hr, fun b hb => Nat.lt_succ_of_lt (hr' b hb)⟩

/-- An internal node stored in the first free entry, whose two slots are opened below the top of the stack. -/
theorem HeaderInv.storeInternal (h : HeaderInv s) {e : StkEntry} {rest : List StkEntry} (hst : s.stk = e :: rest) :
    HeaderInv { s with
      node := Memory.put s.node s.nNodes (.internal 0 none none)
      nNodes := s.nNodes + 1
      stk := e :: .slot (.child s.nNodes .L) :: .slot (.child s.nNodes .R) :: rest } where
  written := h.written.store _
  slots := by
    have hnew : ∀ side, slotOpen { s with
        node := Memory.put s.node s.nNodes (.internal 0 none none), nNodes := s.nNodes + 1 }
        (.slot (.child s.nNodes side)) :=
      fun side => ⟨Nat.lt_succ_self _, 0, none, none, Memory.find?_put_same _ _ _⟩
    have hold : ∀ f ∈ e :: rest, slotOpen { s with
        node := Memory.put s.node s.nNodes (.internal 0 none none), nNodes := s.nNodes + 1 } f :=
      fun f hf => (h.slots f (hst ▸ hf)).store _
    intro f hf
    have hcase : f = .slot (.child s.nNodes .L) ∨ f = .slot (.child s.nNodes .R) ∨ f ∈ e :: rest := by
      simp only [List.mem_cons] at hf ⊢; tauto
    rcases hcase with rfl | rfl | hf
    · exact hnew .L
    · exact hnew .R
    · exact hold f hf
  pending := by
    intro i w l r hi
    rcases Memory.find?_put_some hi with ⟨rfl, e⟩ | ⟨-, hi⟩
    · cases e
      exact ⟨fun _ => by simp, nofun, fun _ => by simp, nofun⟩
    · have hmem : ∀ f ∈ s.stk, f ∈ e :: .slot (.child s.nNodes .L) :: .slot (.child s.nNodes .R) :: rest := by
        intro f hf
        rw [hst] at hf
        simp only [List.mem_cons] at hf ⊢; tauto
      obtain ⟨hl, hl', hr, hr'⟩ := h.pending i w l r hi
      exact ⟨fun e => hmem _ (hl e), fun a ha => Nat.lt_succ_of_lt (hl' a ha), fun e => hmem _ (hr e),
        fun b hb => Nat.lt_succ_of_lt (hr' b hb)⟩

/-- The slot on top of the stack is filled with an entry in use, and leaves the stack (R192). -/
theorem HeaderInv.filled {q : Slot} {k : Nat} (hfill : fill q k u = .next t)
    (h : HeaderInv { u with stk := .slot q :: u.stk }) (hk : k < u.nNodes) : HeaderInv t := by
  have hslots : ∀ e ∈ u.stk, slotOpen u e := fun e he => h.slots e (List.mem_cons_of_mem _ he)
  obtain ⟨rfl, rfl⟩ | ⟨i, side, n, n', rfl, hn, hchild, rfl⟩ := fill_next hfill
  · refine ⟨h.written, hslots, fun i w l r hi => ?_⟩
    obtain ⟨hl, hl', hr, hr'⟩ := h.pending i w l r hi
    exact ⟨fun e => by simpa using hl e, hl', fun e => by simpa using hr e, hr'⟩
  · obtain ⟨w, l, r, rfl, hsides⟩ := nodeWithChild_some hchild
    obtain ⟨w', l', r', rfl⟩ : ∃ w' l' r', n' = .internal w' l' r' := by
      rcases hsides with ⟨-, e⟩ | ⟨-, e⟩ <;> exact ⟨_, _, _, e⟩
    refine ⟨?_, ?_, ?_⟩
    · intro j hj
      by_cases hji : j = i
      · exact ⟨_, by rw [hji]; exact Memory.find?_put_same _ _ _⟩
      · obtain ⟨m, hm⟩ := h.written j hj
        exact ⟨m, (Memory.find?_put_other _ _ hji).trans hm⟩
    · intro e he
      match e, hslots e he with
      | .slot .root, _ => trivial
      | .slot (.child j side'), ⟨hj, w1, l1, r1, hn1⟩ =>
        by_cases hji : j = i
        · exact ⟨hj, w', l', r', by rw [hji]; exact Memory.find?_put_same _ _ _⟩
        · exact ⟨hj, w1, l1, r1, (Memory.find?_put_other _ _ hji).trans hn1⟩
    · intro j w1 l1 r1 hj
      rcases Memory.find?_put_some hj with ⟨rfl, e⟩ | ⟨hji, hj⟩
      · obtain ⟨hl, hl', hr, hr'⟩ := h.pending j w l r hn
        rcases hsides with ⟨rfl, e'⟩ | ⟨rfl, e'⟩
        · cases e.trans e'
          exact ⟨nofun, fun a ha => by cases ha; exact hk, fun e => by simpa using hr e, hr'⟩
        · cases e.trans e'
          exact ⟨fun e => by simpa using hl e, hl', nofun, fun b hb => by cases hb; exact hk⟩
      · obtain ⟨hl, hl', hr, hr'⟩ := h.pending j w1 l1 r1 hj
        exact ⟨fun e => by simpa [hji] using hl e, hl', fun e => by simpa [hji] using hr e, hr'⟩

/-- Filling a slot leaves N_NODES and the stack alone, and ROOT too unless it fills the root's slot (R192). -/
theorem fill_keeps {q : Slot} {k : Nat} (h : fill q k s = .next t) :
    t.phase = s.phase ∧ t.nNodes = s.nNodes ∧ t.stk = s.stk ∧ 
      ((q = .root ∧ t.root = k) ∨ (q ≠ .root ∧ t.root = s.root)) := by
  obtain ⟨rfl, rfl⟩ | ⟨i, side, n, n', rfl, -, -, rfl⟩ := fill_next h
  · exact ⟨rfl, rfl, rfl, .inl ⟨rfl, rfl⟩⟩
  · exact ⟨rfl, rfl, rfl, .inr ⟨nofun, rfl⟩⟩

/-- The phase invariant after a node has been stored in entry `u.nNodes - 1` and its slot filled with it. -/
theorem phaseInv_filled {q : Slot} {k : Nat} (hfill : fill q k u = .next t) (hp : u.phase = .rdHdr)
    (h : HeaderInv { u with stk := .slot q :: u.stk }) (hk : u.nNodes = k + 1) (hlen : u.stk.length ≤ u.nNodes + 1)
    (hroot : q = .root ∨ u.root < u.nNodes) : PhaseInv t := by
  obtain ⟨hphase, hcount, hstk, hr⟩ := fill_keeps hfill
  obtain ⟨hw, hslots, hpend⟩ := h.filled hfill (by omega)
  refine (phaseInv_rdHdr (hphase.trans hp)).2 ⟨hw, hslots, hpend, ?_, ?_, ?_⟩
  · rwa [hstk, hcount]
  · intro h0; omega
  · intro _
    rcases hr with ⟨-, hr⟩ | ⟨hq, hr⟩
    · omega
    · have hlt := hroot.resolve_left hq
      omega

/-- The last step of RD_HDR: with no slot open, every child is filled (R192). -/
theorem State.childrenPending.filled (h : s.childrenPending) (hst : s.stk = []) : s.childrenFilled := by
  intro i w l r hi
  obtain ⟨hl, hl', hr, hr'⟩ := h i w l r hi
  rw [hst] at hl hr
  cases l with
  | none => exact absurd (hl rfl) List.not_mem_nil
  | some a =>
    cases r with
    | none => exact absurd (hr rfl) List.not_mem_nil
    | some b => exact ⟨a, b, rfl, rfl, hl' a rfl, hr' b rfl⟩

/-- RD_HDR's invariant, taken apart at a step that reads a token for the slot on top of the stack. -/
theorem phaseInv_rdHdr_slot (hp : s.phase = .rdHdr) (hinv : PhaseInv s) {q : Slot} {rest : List StkEntry}
    (hst : s.stk = .slot q :: rest) :
    HeaderInv s ∧ rest.length ≤ s.nNodes ∧ (q = .root ∨ s.root < s.nNodes) := by
  obtain ⟨hw, hslots, hpend, hlen, hzero, hroot⟩ := (phaseInv_rdHdr hp).1 hinv
  refine ⟨⟨hw, hslots, hpend⟩, ?_, ?_⟩
  · rw [hst] at hlen
    exact Nat.le_of_succ_le_succ hlen
  · rcases Nat.eq_zero_or_pos s.nNodes with h0 | h0
    · have hone := hzero h0
      rw [hst] at hone
      cases hone
      exact .inl rfl
    · exact .inr (hroot h0)

/-! ### Every step of a busy block keeps what holds in the phase -/

theorem PhaseInv.busyStep (h : BlockInv s) (hinv : PhaseInv s) (hst : BusyStep s t) : PhaseInv t := by
  cases hst with
  | count hp =>
    exact (phaseInv_empty_arena (.inl (by exact hp))).2 ((phaseInv_empty_arena (.inl hp)).1 hinv)
  | countEnd hp p hpos hs =>
    obtain ⟨hcount, harena⟩ := (phaseInv_empty_arena (.inl hp)).1 hinv
    have hnone : ∀ i, s.nodeAt i = none := fun i => by simp [State.nodeAt, harena]
    refine (phaseInv_bldInit rfl).2 ⟨Nat.zero_le _, hcount.le, ?_, ?_, ?_⟩
    · intro i hi
      exact absurd (hi.trans_eq hcount) (Nat.not_lt_zero i)
    · intro i w l r hi
      cases (hnone i).symm.trans hi
    · intro i w sym hi
      cases (hnone i).symm.trans hi
  | skipSymbol hp hs hf =>
    obtain ⟨-, hcount, hw, hb, hl⟩ := (phaseInv_bldInit hp).1 hinv
    refine phaseInv_nextSymbol hp h.inpq_rising hs (by omega) hw hb hl fun hlast => ?_
    rw [hlast, h.sentinelCount] at hf
    exact absurd hf (by decide)
  | leafSymbol hp => exact phaseInv_leafSymbol h hp hinv
  | merge hp a b wa wb na nb hlen ha hb =>
    obtain ⟨ham, hbm, hne⟩ := h.extracted ha hb
    exact phaseInv_merge h hp hinv ham hbm hne _
  | mergeEnd hp r hr =>
    obtain ⟨hw, hb, hl, -, r', hr', hsent⟩ := (phaseInv_bldMerge hp).1 hinv
    have hrlt : r < s.nNodes := (State.mem_pq.1 (hr ▸ List.mem_singleton_self r)).2
    obtain rfl : r' = r := List.mem_singleton.1 (hr ▸ hr')
    exact (phaseInv_gen rfl).2
      ⟨hw, hb, hl, hrlt, ⟨hrlt, trivial⟩, .inr ⟨r', [], List.mem_singleton_self _, hsent⟩⟩
  | genLeaf hp i p rest w sym hst hn => exact phaseInv_genLeaf hp hinv hst hn
  | genInternal hp i p rest w l r hst hn => exact phaseInv_genInternal hp hinv hst hn
  | genEnd hp hst =>
    obtain ⟨hw, hb, hl, hroot, -, hcode⟩ := (phaseInv_gen hp).1 hinv
    refine (phaseInv_wrMagic rfl).2 ⟨hw, hb, hroot, hcode.resolve_right ?_⟩
    rintro ⟨i, p, hmem, -⟩
    rw [hst] at hmem
    exact absurd hmem List.not_mem_nil
  | wrMagic hp =>
    obtain ⟨hw, hb, hroot, hcode⟩ := (phaseInv_wrMagic hp).1 hinv
    exact (phaseInv_wrHdr rfl).2 ⟨hw, hb, ⟨hroot, trivial⟩, hcode⟩
  | wrLeaf hp i rest w sym hst =>
    obtain ⟨hw, hb, hdesc, hcode⟩ := (phaseInv_wrHdr hp).1 hinv
    rw [hst] at hdesc
    exact (phaseInv_wrHdr (by exact hp)).2 ⟨hw, hb, hdesc.2, hcode⟩
  | wrInternal hp i rest w l r hst hn =>
    obtain ⟨hw, hb, hdesc, hcode⟩ := (phaseInv_wrHdr hp).1 hinv
    rw [hst] at hdesc
    obtain ⟨hl, hr⟩ := hb.lt hn
    exact (phaseInv_wrHdr (by exact hp)).2 ⟨hw, hb, stackDescends_children hdesc hl hr, hcode⟩
  | wrHdrEnd hp =>
    obtain ⟨-, -, -, hcode⟩ := (phaseInv_wrHdr hp).1 hinv
    exact (phaseInv_coded (.inl rfl)).2 hcode
  | rewind hp => exact (phaseInv_coded (.inr (.inl rfl))).2 ((phaseInv_coded (.inl hp)).1 hinv)
  | encode hp b hb8 hpos hv p hcode t hu =>
    obtain ⟨more, io, calls, rfl, -, -⟩ := hu
    exact (phaseInv_coded (.inr (.inl (by exact hp)))).2 ((phaseInv_coded (.inr (.inl hp))).1 hinv)
  | encodeEnd hp => exact (phaseInv_coded (.inr (.inr rfl))).2 ((phaseInv_coded (.inr (.inl hp))).1 hinv)
  | rdMagic hp =>
    obtain ⟨hcount, harena⟩ := (phaseInv_empty_arena (.inr hp)).1 hinv
    refine (phaseInv_rdHdr rfl).2 ⟨?_, ?_, ?_, Nat.succ_le_succ (Nat.zero_le _), fun _ => rfl, ?_⟩
    · intro i hi
      exact absurd (hi.trans_eq hcount) (Nat.not_lt_zero i)
    · intro e he
      rw [List.mem_singleton.1 he]
      trivial
    · intro i w l r hi
      exact absurd hi (by simp [State.nodeAt, State.afterRead, harena])
    · intro hpos
      exact absurd (hpos.trans_eq hcount) (lt_irrefl _)
  | rdInternal hp slot rest hst hpos hroom hpush t hfill =>
    obtain ⟨hhdr, hlen, hroot⟩ := phaseInv_rdHdr_slot hp hinv hst
    refine phaseInv_filled hfill hp ?_ rfl (Nat.succ_le_succ (Nat.succ_le_succ hlen)) ?_
    · obtain ⟨hw, hslots, hpend⟩ := hhdr.storeInternal hst
      exact ⟨hw, hslots, hpend⟩
    · exact hroot.imp_right Nat.lt_succ_of_lt
  | rdLeaf hp slot rest v hst hpos hroom hv t hfill =>
    obtain ⟨hhdr, hlen, hroot⟩ := phaseInv_rdHdr_slot hp hinv hst
    refine phaseInv_filled hfill hp ?_ rfl (hlen.trans (by simp; omega)) ?_
    · obtain ⟨hw, hslots, hpend⟩ := hhdr.storeLeaf 0 (BitVec.ofNat 9 v)
      exact ⟨hw, hst ▸ hslots, hst ▸ hpend⟩
    · exact hroot.imp_right Nat.lt_succ_of_lt
  | rdHdrEnd hp hst hroot hlone =>
    obtain ⟨hw, -, hpend, -, hzero, hroot⟩ := (phaseInv_rdHdr hp).1 hinv
    have hpos : 0 < s.nNodes := by
      refine Nat.pos_of_ne_zero fun h0 => ?_
      have hone := hzero h0
      rw [hst] at hone
      cases hone
    exact (phaseInv_dec rfl).2 ⟨hw, hpend.filled hst, hroot hpos, hroot hpos, hlone⟩
  | decLeaf hp =>
    obtain ⟨hw, hfilled, hroot, -, hlone⟩ := (phaseInv_dec hp).1 hinv
    exact (phaseInv_dec (by exact hp)).2 ⟨hw, hfilled, hroot, hroot, hlone⟩
  | decInternal hp w l r d c hn hd hc =>
    obtain ⟨hw, hfilled, hroot, -, hlone⟩ := (phaseInv_dec hp).1 hinv
    obtain ⟨a, b, rfl, rfl, ha, hb⟩ := hfilled _ w l r hn
    refine (phaseInv_dec (by exact hp)).2 ⟨hw, hfilled, hroot, ?_, hlone⟩
    split at hc <;> cases hc
    · exact ha
    · exact hb
  | encEof | decEnd => exact phaseInv_other (.inr (.inr (.inr rfl)))
  | close => exact phaseInv_other (.inr (.inl rfl))
  | raised e u t hu ht =>
    obtain ⟨answered, bits, pad, draws, rfl⟩ := ht
    exact phaseInv_other (.inr (.inr (.inl rfl)))

end Sys2Proof.Machine

/-! SUPPORT. In a run no operation stops: each comes to a next state. -/

namespace Sys2Proof.Machine

variable {s t u : State}

/-! ### Operations that come to a next state where every call returns -/

/-- The outcome is a next state. -/
def Answers (o : Out) : Prop := ∃ t, o = .next t

theorem answers_next (s : State) : Answers (.next s) := ⟨s, rfl⟩

/-- Calls that have been made leave the premise that every call returns (R274). -/
theorem State.ioReturns_of_suffix (h : s.ioReturns = true) (hio : u.io <:+ s.io) : u.ioReturns = true := by
  unfold State.ioReturns at *
  rw [List.all_eq_true] at *
  exact fun a ha => h a (hio.subset ha)

theorem raise_answers (e : ErrKind) (h : s.ioReturns = true) : Answers (raise e s) := by
  obtain ⟨t, ht, -⟩ := raise_next e (State.answer_ne_never h)
  exact ⟨t, ht⟩

/-- A read goes on where both its continuations do. -/
theorem onRead_answers {n : Nat} {onValue : Nat → State → Out} {onEos : State → Out} (h1 : 1 ≤ n) (h2 : n ≤ 32)
    (hr : s.ioReturns = true) (hp : s.src.pos ≤ s.src.bits.length)
    (hv : ∀ v, v < 2 ^ n → s.src.pos + n ≤ s.src.bits.length → Answers (onValue v (s.afterRead n v)))
    (he : ∀ p, Answers (onEos (s.afterMiss n .eos p))) : Answers (onRead (srcRead n s) onValue onEos) := by
  rcases srcRead_cases h1 h2 hp with ⟨-, hlen, e⟩ | ⟨-, -, p, -, -, e⟩ | ⟨-, p, -, e⟩ | ⟨ha, -⟩
  · rw [e]
    exact hv _ (valOf_lt_of_length (State.length_nextBits hlen)) hlen
  · rw [e]
    exact he p
  · rw [e]
    exact raise_answers _ (s.ioReturns_of_suffix hr (List.tail_suffix _))
  · exact absurd ha (State.answer_ne_never hr)

/-- A write to an open sink goes on where its continuation does. -/
theorem onCall_snkWrite_answers {n v : Nat} {k : State → Out} (h1 : 1 ≤ n) (h2 : n ≤ 32) (hv : v < 2 ^ n)
    (hc : s.snk.closed = false) (hr : s.ioReturns = true) (hk : Answers (k (s.afterWrite n v))) :
    Answers (onCall (snkWrite n v s) k) := by
  rcases snkWrite_cases h1 h2 hv s with ⟨-, -, e⟩ | ⟨-, -, e⟩ | ⟨-, ha, -⟩ | ⟨hc', -⟩
  · rw [e]
    exact hk
  · rw [e]
    exact raise_answers _ (s.ioReturns_of_suffix hr (List.tail_suffix _))
  · exact absurd ha (State.answer_ne_never hr)
  · rw [hc] at hc'
    cases hc'

/-- The writes of a code to an open sink go on where their continuation does. -/
theorem onCall_writeCode_answers {p : BitString} {k : State → Out} (hc : s.snk.closed = false)
    (hr : s.ioReturns = true) (hk : ∀ u, Answers (k u)) : Answers (onCall (writeCode p s) k) := by
  unfold writeCode
  rcases writeChunks_cases p.length p s hc with ⟨bits, io, trace, e | e, hio, -⟩ | ⟨-, hmem⟩
  · rw [e]
    exact hk _
  · rw [e]
    exact raise_answers _ (s.ioReturns_of_suffix hr hio)
  · have hne := List.all_eq_true.1 hr _ hmem
    simp at hne

theorem leastOf_pq_answers (hw : s.arenaWritten) (hne : s.pq ≠ []) : ∃ w m, leastOf s.node s.pq = .ok (w, m) :=
  leastOf_ok hne fun i hi => hw i (State.mem_pq.1 hi).2

theorem extractMin_ok {w : BitVec 41} {m : Nat} (h : leastOf s.node s.pq = .ok (w, m)) (k : Nat → State → Out) :
    extractMin s k = k m (s.setInpq m false) := by
  unfold extractMin
  rw [h]

/-! ### No operation of a run stops -/

theorem execCnt_answers (hr : s.ioReturns = true) (hpos : s.src.pos ≤ s.src.bits.length) : Answers (execCnt s) := by
  refine onRead_answers (by omega) (by omega) hr hpos (fun v _ _ => ?_) (fun p => answers_next _)
  unfold countByte
  dsimp only
  split
  · exact raise_answers _ (s.ioReturns_of_suffix hr (List.tail_suffix _))
  · exact answers_next _

theorem execBldInit_answers (hs : s.sym.toNat ≤ 256) (hroom : s.nNodes < s.params.nodeCap) :
    Answers (execBldInit s) := by
  unfold execBldInit
  rw [if_pos hs]
  split
  · exact answers_next _
  · rw [storeNode_room hroom]
    exact answers_next _

/-- A member of PQ is left after the first of two is extracted (R155). -/
theorem BlockInv.pq_extracted_ne_nil (h : BlockInv s) (hlen : 2 ≤ s.pq.length) (a : Nat) :
    (s.setInpq a false).pq ≠ [] := by
  have hnodup := State.nodup_pq h.inpq_rising
  have hother : ∃ i ∈ s.pq, i ≠ a := by
    match hpq : s.pq, hlen with
    | x :: y :: zs, _ =>
      rw [hpq] at hnodup
      by_cases hx : x = a
      · refine ⟨y, by simp, fun hy => ?_⟩
        simp [hx, hy] at hnodup
      · exact ⟨x, by simp, hx⟩
  obtain ⟨i, hi, hne⟩ := hother
  exact List.ne_nil_of_mem ((State.mem_pq_extracted h.inpq_rising).2 ⟨hi, hne⟩)

theorem mergeTwo_answers (h : BlockInv s) (hw : s.arenaWritten) (hlen : 2 ≤ s.pq.length)
    (hroom : s.nNodes < s.params.nodeCap) : Answers (mergeTwo s) := by
  obtain ⟨wa, a, ha⟩ := leastOf_pq_answers hw (List.ne_nil_of_length_pos (by omega))
  obtain ⟨wb, b, hb⟩ := leastOf_pq_answers (s := s.setInpq a false) hw (h.pq_extracted_ne_nil hlen a)
  obtain ⟨-, na, hna, -⟩ := leastOf_mem ha
  obtain ⟨-, nb, hnb, -⟩ := leastOf_mem hb
  unfold mergeTwo
  rw [extractMin_ok ha, extractMin_ok hb, withNode_some (by exact hna), withNode_some (by exact hnb),
    storeNode_room (by exact hroom)]
  exact answers_next _

theorem execBldMerge_answers (h : BlockInv s) (hp : s.phase = .bldMerge) (hinv : PhaseInv s) :
    Answers (execBldMerge s) := by
  obtain ⟨hw, -, -, hlen, r, hr, -⟩ := (phaseInv_bldMerge hp).1 hinv
  have hcap := h.capacity
  unfold execBldMerge
  split
  · next hpq => rw [hpq] at hr; cases hr
  · exact answers_next _
  · next hpq =>
    have htwo : 2 ≤ s.pq.length := by simp [hpq]
    exact mergeTwo_answers h hw htwo (by omega)

theorem execGen_answers (h : BlockInv s) (hp : s.phase = .gen) (hinv : PhaseInv s) : Answers (execGen s) := by
  obtain ⟨hw, hb, hl, -, hdesc, -⟩ := (phaseInv_gen hp).1 hinv
  have hfit := h.stackShape
  have hcap := h.nodeCount
  rw [hp] at hfit
  cases hst : s.stk with
  | nil => exact ⟨_, by unfold execGen; rw [hst]⟩
  | cons e rest =>
    rw [hst] at hfit hdesc
    obtain ⟨i, p, rfl⟩ := hfit e List.mem_cons_self
    obtain ⟨htop, -⟩ := hdesc
    have htop : i + rest.length + 1 ≤ s.nNodes := htop
    obtain ⟨n, hn⟩ := hw i (by omega)
    cases n with
    | leaf w sym =>
      rw [execGen_leaf hst hn]
      exact ⟨_, if_pos (hl i w sym hn)⟩
    | internal w l r =>
      obtain ⟨a, b, rfl, rfl, -, -⟩ := hb i w l r hn
      rw [execGen_internal hst hn, push_room (by exact (by omega : rest.length ≤ s.params.nodeCap)),
        push_room (by exact (by omega : rest.length + 1 ≤ s.params.nodeCap))]
      exact answers_next _

theorem execWrMagic_answers (hr : s.ioReturns = true) (hc : s.snk.closed = false) : Answers (execWrMagic s) :=
  onCall_snkWrite_answers (by omega) (by omega) s.params.magic.isLt hc hr (answers_next _)

theorem execWrHdr_answers (h : BlockInv s) (hp : s.phase = .wrHdr) (hinv : PhaseInv s) (hr : s.ioReturns = true)
    (hc : s.snk.closed = false) : Answers (execWrHdr s) := by
  obtain ⟨hw, hb, hdesc, -⟩ := (phaseInv_wrHdr hp).1 hinv
  have hfit := h.stackShape
  have hcap := h.nodeCount
  rw [hp] at hfit
  cases hst : s.stk with
  | nil => exact ⟨_, by unfold execWrHdr; rw [hst]⟩
  | cons e rest =>
    rw [hst] at hfit hdesc
    obtain ⟨i, rfl⟩ := hfit e List.mem_cons_self
    obtain ⟨htop, -⟩ := hdesc
    have htop : i + rest.length + 1 ≤ s.nNodes := htop
    obtain ⟨n, hn⟩ := hw i (by omega)
    cases n with
    | leaf w sym =>
      rw [execWrHdr_leaf hst hn]
      refine onCall_snkWrite_answers (by omega) (by omega) (by omega) hc hr ?_
      exact onCall_snkWrite_answers (by omega) (by omega) sym.isLt hc
        (State.ioReturns_of_suffix hr (List.tail_suffix _)) (answers_next _)
    | internal w l r =>
      obtain ⟨a, b, rfl, rfl, -, -⟩ := hb i w l r hn
      rw [execWrHdr_internal hst hn]
      refine onCall_snkWrite_answers (by omega) (by omega) (by omega) hc hr ?_
      rw [push_room (by exact (by omega : rest.length ≤ s.params.nodeCap)),
        push_room (by exact (by omega : rest.length + 1 ≤ s.params.nodeCap))]
      exact answers_next _

theorem execRewind_answers (hr : s.ioReturns = true) : Answers (execRewind s) := by
  unfold execRewind
  rcases s.answer_cases with ha | ha | ha
  · rw [srcRewind_ok ha]
    exact answers_next _
  · obtain ⟨p, -, e⟩ := srcRewind_fail ha
    rw [e]
    exact raise_answers _ (State.ioReturns_of_suffix hr (List.tail_suffix _))
  · exact absurd ha (State.answer_ne_never hr)

theorem execEnc_answers (hr : s.ioReturns = true) (hpos : s.src.pos ≤ s.src.bits.length) (hc : s.snk.closed = false) :
    Answers (execEnc s) := by
  refine onRead_answers (by omega) (by omega) hr hpos (fun v _ _ => ?_) (fun p => answers_next _)
  have hr' : (s.afterRead 8 v).ioReturns = true := State.ioReturns_of_suffix hr (List.tail_suffix _)
  unfold encodeByte
  dsimp only
  split
  · exact raise_answers _ hr'
  · exact onCall_writeCode_answers hc hr' fun u => answers_next u

theorem execEncEof_answers (hr : s.ioReturns = true) (hc : s.snk.closed = false)
    (hcode : (s.codeAt 256).isSome = true) : Answers (execEncEof s) := by
  unfold execEncEof
  split
  · next hnone => rw [hnone] at hcode; cases hcode
  · exact onCall_writeCode_answers hc hr fun u => answers_next _

theorem execRdMagic_answers (hr : s.ioReturns = true) (hpos : s.src.pos ≤ s.src.bits.length) :
    Answers (execRdMagic s) := by
  have hr' : ∀ {u : State}, u.io = s.io.tail → u.ioReturns = true := fun e =>
    State.ioReturns_of_suffix hr (e ▸ List.tail_suffix _)
  refine onRead_answers (by omega) (by omega) hr hpos (fun v _ _ => ?_) (fun p => raise_answers _ (hr' rfl))
  unfold checkMagic
  split
  · exact answers_next _
  · exact raise_answers _ (hr' rfl)

/-- An open slot can be filled (R192). -/
theorem fill_answers {q : Slot} (h : slotOpen s (.slot q)) (k : Nat) : Answers (fill q k s) := by
  cases q with
  | root => exact answers_next _
  | child i side =>
    obtain ⟨-, w, l, r, hn⟩ := h
    unfold fill
    dsimp only
    rw [withNode_some hn, nodeWithChild_internal]
    exact answers_next _

theorem readInternal_answers {q : Slot} (hr : s.ioReturns = true) (hq : slotOpen s (.slot q))
    (hcap : s.nNodes ≤ s.params.nodeCap) (hlen : s.stk.length ≤ s.nNodes) : Answers (readInternal q s) := by
  unfold readInternal
  split
  · exact raise_answers _ hr
  · have hroom : s.nNodes < s.params.nodeCap := by omega
    rw [storeNode_room hroom, push_room (by exact (by omega : s.stk.length ≤ s.params.nodeCap)),
      push_room (by exact (by omega : s.stk.length + 1 ≤ s.params.nodeCap))]
    exact fill_answers (by exact hq.store _) _

theorem readField_answers {q : Slot} {v : Nat} (hr : s.ioReturns = true) (hq : slotOpen s (.slot q))
    (hroom : s.nNodes < s.params.nodeCap) : Answers (readField q v s) := by
  unfold readField
  split
  · exact raise_answers _ hr
  · rw [storeNode_room (by exact hroom)]
    exact fill_answers (by exact hq.store _) _

theorem readLeaf_answers {q : Slot} (hr : s.ioReturns = true) (hq : slotOpen s (.slot q))
    (hcap : s.nNodes ≤ s.params.nodeCap) (hpos : s.src.pos ≤ s.src.bits.length) :
    Answers (readLeaf q (srcRead 9) s) := by
  have hr' : ∀ {u : State}, u.io = s.io.tail → u.ioReturns = true := fun e =>
    State.ioReturns_of_suffix hr (e ▸ List.tail_suffix _)
  unfold readLeaf
  split
  · exact raise_answers _ hr
  · exact onRead_answers (by omega) (by omega) hr hpos
      (fun v _ _ => readField_answers (hr' rfl) (by exact hq) (by exact (by omega : s.nNodes < s.params.nodeCap)))
      (fun p => raise_answers _ (hr' rfl))

theorem finishHeader_answers (hr : s.ioReturns = true) (hw : s.arenaWritten) (hroot : s.root < s.nNodes) :
    Answers (finishHeader s) := by
  obtain ⟨n, hn⟩ := hw _ hroot
  unfold finishHeader
  rw [withNode_some hn]
  cases n with
  | leaf w sym =>
    dsimp only
    split
    · exact answers_next _
    · exact raise_answers _ hr
  | internal w l r => exact answers_next _

theorem execRdHdr_answers (h : BlockInv s) (hp : s.phase = .rdHdr) (hinv : PhaseInv s) (hr : s.ioReturns = true) :
    Answers (execRdHdr s) := by
  have hfit := h.stackShape
  rw [hp] at hfit
  have hr' : ∀ {u : State}, u.io = s.io.tail → u.ioReturns = true := fun e =>
    State.ioReturns_of_suffix hr (e ▸ List.tail_suffix _)
  unfold execRdHdr
  cases hst : s.stk with
  | nil =>
    obtain ⟨hw, -, -, -, hzero, hroot⟩ := (phaseInv_rdHdr hp).1 hinv
    refine finishHeader_answers hr hw (hroot (Nat.pos_of_ne_zero fun h0 => ?_))
    have hone := hzero h0
    rw [hst] at hone
    cases hone
  | cons e rest =>
    rw [hst] at hfit
    obtain ⟨q, rfl⟩ := hfit e List.mem_cons_self
    obtain ⟨hhdr, hlen, -⟩ := phaseInv_rdHdr_slot hp hinv hst
    have hq : slotOpen s (.slot q) := hhdr.slots _ (hst ▸ List.mem_cons_self)
    refine onRead_answers (by omega) (by omega) (by exact hr) (by exact h.position.1) (fun v _ hpos => ?_)
      (fun p => raise_answers _ (hr' rfl))
    split
    · exact readInternal_answers (hr' rfl) (by exact hq) (by exact h.nodeCount) (by exact hlen)
    · exact readLeaf_answers (hr' rfl) (by exact hq) (by exact h.nodeCount) (by exact hpos)

theorem execDec_answers (h : BlockInv s) (hp : s.phase = .dec) (hinv : PhaseInv s) (hr : s.ioReturns = true)
    (hc : s.snk.closed = false) : Answers (execDec s) := by
  obtain ⟨hw, hfilled, -, hcur, -⟩ := (phaseInv_dec hp).1 hinv
  obtain ⟨n, hn⟩ := hw _ hcur
  unfold execDec
  rw [withNode_some hn]
  cases n with
  | leaf w sym =>
    dsimp only
    unfold emitLeaf
    split
    · exact answers_next _
    · exact onCall_snkWrite_answers (by omega) (by omega) (by omega) hc hr (answers_next _)
  | internal w l r =>
    obtain ⟨a, b, rfl, rfl, -, -⟩ := hfilled _ w l r hn
    refine onRead_answers (by omega) (by omega) hr h.position.1 (fun v _ _ => ?_)
      (fun p => raise_answers _ (State.ioReturns_of_suffix hr (List.tail_suffix _)))
    unfold descend
    split <;> exact answers_next _

theorem execClose_answers (hr : s.ioReturns = true) : Answers (execClose s) := by
  unfold execClose
  rcases s.answer_cases with ha | ha | ha
  · rw [snkClose_ok ha]
    exact answers_next _
  · rw [snkClose_fail ha]
    exact answers_next _
  · exact absurd ha (State.answer_ne_never hr)

/-- The step of a busy block in a run answers a next state. -/
theorem step_busy_answers (h : RunInv s) (hb : s.busy = true) (hrst : s.rst = false) : Answers (step s) := by
  obtain ⟨hblock, hinv, hopen, hr, -⟩ := h
  have hpos := hblock.position.1
  have hc := hopen hb
  rw [step_busy hrst hb]
  cases hp : s.phase <;> simp only [operationOf, exec]
  case idle | done | err => simp [State.busy, phaseBusy, hp] at hb
  case cnt => exact execCnt_answers hr hpos
  case bldInit =>
    obtain ⟨hs, hcount, -⟩ := (phaseInv_bldInit hp).1 hinv
    have hcap := hblock.capacity
    exact execBldInit_answers hs (by omega)
  case bldMerge => exact execBldMerge_answers hblock hp hinv
  case gen => exact execGen_answers hblock hp hinv
  case wrMagic => exact execWrMagic_answers hr hc
  case wrHdr => exact execWrHdr_answers hblock hp hinv hr hc
  case rewind => exact execRewind_answers hr
  case enc => exact execEnc_answers hr hpos hc
  case encEof => exact execEncEof_answers hr hc ((phaseInv_coded (.inr (.inr hp))).1 hinv)
  case rdMagic => exact execRdMagic_answers hr hpos
  case rdHdr => exact execRdHdr_answers hblock hp hinv hr
  case dec => exact execDec_answers hblock hp hinv hr hc
  case close => exact execClose_answers hr

/-- The step of a resting block answers a next state, where an offer's streams share no storage (R120). -/
theorem step_resting_answers (hb : s.busy = false) (hrst : s.rst = false)
    (hoffer : ∀ o, s.cmd = some o → o.shared = false) : Answers (step s) := by
  have hcommand : ∀ op, Answers (offerCommand op s) := by
    intro op
    rcases offerCommand_cases op s with ⟨-, e⟩ | ⟨-, -, e⟩ | ⟨o, -, ho, e⟩ <;> rw [e]
    · exact answers_next _
    · exact answers_next _
    · rw [accept_next (hoffer o ho)]
      exact answers_next _
  rw [step_selected hrst]
  cases hc : s.cmd with
  | none =>
    rw [selected_waiting hc]
    unfold State.busy at hb
    cases hp : s.phase <;> rw [hp] at hb <;> cases hb <;> exact answers_next _
  | some o =>
    rw [selected_offered hb hc]
    split
    · exact hcommand 0
    · exact hcommand 1

end Sys2Proof.Machine

/-! SUPPORT. The invariant of a run over every step. -/

namespace Sys2Proof.Machine

variable {s t u : State}

/-! ### The premises on the environment over a step -/

/-- A step uses up answers of the service, and adds none (R82; log 9). -/
theorem BusyStep.io (h : BusyStep s t) : t.io <:+ s.io := by
  cases h with
  | merge | mergeEnd | genLeaf | genInternal | genEnd | wrHdrEnd | rdHdrEnd | decEnd => exact List.suffix_refl _
  | count | countEnd | wrMagic | wrInternal | rewind | encodeEnd | rdMagic | decLeaf | decInternal | close =>
    exact List.tail_suffix _
  | wrLeaf => exact (List.tail_suffix _).trans (List.tail_suffix _)
  | skipSymbol =>
    obtain ⟨phase, sym, e⟩ := nextSymbol_frame s
    rw [e]
  | leafSymbol =>
    obtain ⟨phase, sym, e⟩ := nextSymbol_frame s.withLeaf
    rw [e]
    exact List.suffix_refl _
  | encode hp _ _ _ _ _ _ _ hu =>
    obtain ⟨more, io, calls, rfl, hio, -⟩ := hu
    exact hio.trans (List.tail_suffix _)
  | encEof hp _ _ _ hu =>
    obtain ⟨more, io, calls, rfl, hio, -⟩ := hu
    exact hio
  | rdInternal hp _ _ _ _ _ _ _ hfill =>
    obtain ⟨root, rootV, node, rfl⟩ := fill_frame hfill
    exact List.tail_suffix _
  | rdLeaf hp _ _ _ _ _ _ _ _ hfill =>
    obtain ⟨root, rootV, node, rfl⟩ := fill_frame hfill
    exact (List.tail_suffix _).trans (List.tail_suffix _)
  | raised e u _ hu ht =>
    obtain ⟨errcode, pos, sym, stk, node, snk, io, trace, draws, rfl, -, -, -, hio⟩ := Raised.frame hu ht
    exact hio

/-- CLOSE ends the run (R128). -/
theorem resting_after_close (hp : s.phase = .close) (hr : s.rst = false) (hstep : step s = .next t) :
    t.busy = false := by
  rw [step_busy hr (by rw [State.busy, hp]; rfl), hp] at hstep
  obtain ⟨pad, rfl⟩ | ⟨bits, pad, draws, rfl⟩ := execClose_next hstep <;> rfl

/-- A step of a busy block keeps the invariant of a run. -/
theorem RunInv.busyStep (h : RunInv s) (hb : s.busy = true) (hr : s.rst = false) (hstep : step s = .next t) :
    RunInv t := by
  have hst := busyStep_of_step hb hr hstep
  obtain ⟨-, -, -, hcmd, -⟩ := onlyItsWritersChangeARegister s t hb hr hstep
  refine ⟨h.block.busyStep hb hst, h.phase.busyStep h.block hst, fun hbt => ?_,
    State.ioReturns_of_suffix h.returns hst.io, by rw [hcmd]; exact h.offer⟩
  obtain ⟨-, hclosed⟩ := sinkOnlyGrows s t hb hr hstep (ne_err_of_phaseBusy hbt)
  rw [hclosed fun hp => ?_]
  · exact h.sinkOpen hb
  · rw [resting_after_close hp hr hstep] at hbt
    cases hbt

theorem RunInv.takeReset (h : RunInv s) : RunInv s.takeReset where
  block := h.block.takeReset
  phase := phaseInv_other (.inl (takeReset_stack s).2)
  sinkOpen hb := by rw [State.busy, (takeReset_stack s).2] at hb; cases hb
  returns := by unfold State.takeReset; split <;> exact h.returns
  offer := by unfold State.takeReset; split <;> exact h.offer

theorem RunInv.accepted (h : RunInv s) {o : Offer} (ho : s.cmd = some o) : RunInv (s.accepted o) where
  block := h.block.accepted ho
  phase := by
    refine (phaseInv_empty_arena ?_).2 ⟨rfl, rfl⟩
    unfold State.accepted
    split <;> simp
  sinkOpen _ := (h.offer o ho).2
  returns := h.returns
  offer := nofun

/-- Settles O37: no operation of a run stops, and each step keeps the run's invariant. -/
theorem runNeverStops : Obligations.RunNeverStops := by
  intro s h
  have hanswers : Answers (step s) := by
    cases hr : s.rst with
    | true => exact ⟨_, step_reset hr⟩
    | false =>
      cases hb : s.busy with
      | true => exact step_busy_answers h hb hr
      | false => exact step_resting_answers hb hr fun o ho => (h.offer o ho).1
  obtain ⟨t, ht⟩ := hanswers
  refine ⟨t, ht, ?_⟩
  rcases step_cases ht with ⟨-, rfl⟩ | ⟨hr, hb, -⟩ | ⟨-, -, rfl | ⟨o, ho, -, rfl⟩⟩
  · exact h.takeReset
  · exact h.busyStep hb hr ht
  · exact h
  · exact h.accepted ho

/-- Settles O38: beside O36, no offer is there, no call fails and the block is not busy (logs 9 and 11). -/
theorem resetMeetsRunInv : Obligations.ResetMeetsRunInv where
  block := resetMeetsInv
  phase := trivial
  sinkOpen := nofun
  returns := rfl
  offer := nofun

end Sys2Proof.Machine

/-! SUPPORT. The service calls of a step: what it adds to the trace before SnkClose, and when it ends with SnkClose. -/

namespace Sys2Proof.Machine

variable {s t u : State}

/-! ### The calls a step issues -/

/-- `new` is the trace `old` with newer calls before it, none of them SnkClose: reads, rewinds and writes that keep the
contract of R61, R67 and R73. (`Partway` leaves the trace open, so it does not say this of a step that raises an error.) -/
inductive Issued (old : List Call) : List Call → Prop
  | none : Issued old old
  | read {new : List Call} (h : Issued old new) {n v : Nat} (hn : n = 1 ∨ n = 8 ∨ n = 9 ∨ n = 32) (hv : v < 2 ^ n) :
      Issued old (.read n (.value v) :: new)
  | miss {new : List Call} (h : Issued old new) {n : Nat} (hn : n = 1 ∨ n = 8 ∨ n = 9 ∨ n = 32) {a : ReadAnswer}
      (ha : a = .eos ∨ a = .fail) : Issued old (.read n a :: new)
  | rewind {new : List Call} (h : Issued old new) (ok : Bool) : Issued old (.rewind ok :: new)
  | write {new : List Call} (h : Issued old new) {n v : Nat} (ok : Bool) (h1 : 1 ≤ n) (h2 : n ≤ 32) (hv : v < 2 ^ n) :
      Issued old (.write n v ok :: new)

/-- None of the calls is SnkClose. -/
theorem Issued.closeCount_eq {old new : List Call} (h : Issued old new) : closeCount new = closeCount old := by
  induction h with
  | none => rfl
  | read _ _ _ ih | miss _ _ _ ih | rewind _ _ ih | write _ _ _ _ _ ih => simpa [closeCount] using ih

/-- All of the calls keep the contract. -/
theorem Issued.inContract {old new : List Call} (h : Issued old new) (hold : old.all callInContract = true) :
    new.all callInContract = true := by
  induction h with
  | none => exact hold
  | read _ hn hv ih => simpa [callInContract, or_assoc, ih] using ⟨hn, hv⟩
  | miss _ hn ha ih => rcases ha with rfl | rfl <;> simpa [callInContract, or_assoc, ih] using hn
  | rewind _ ok ih => simpa [callInContract] using ih
  | write _ ok h1 h2 hv ih => simpa [callInContract, ih] using ⟨h1, h2, hv⟩

/-- `write_code` issues writes only (R202). -/
theorem Wrote.issued {old : List Call} (hu : Wrote s u) (h : Issued old s.trace) : Issued old u.trace := by
  obtain ⟨more, io, calls, rfl, -, hcalls⟩ := hu
  show Issued old (calls ++ s.trace)
  induction calls with
  | nil => exact h
  | cons c calls ih =>
    obtain ⟨n, v, ok, rfl, h1, h2, hv⟩ := hcalls c List.mem_cons_self
    exact (ih fun c hc => hcalls c (List.mem_cons_of_mem _ hc)).write ok h1 h2 hv

/-- The calls of a step of a busy block: either the run goes on and SnkClose was not called, or SnkClose was the step's
last call, the sink is closed and the run has ended (R68, R128, R240). -/
inductive StepCalls (s t : State) : Prop
  | goesOn (hb : t.busy = true) (h : Issued s.trace t.trace)
  | ends (hb : t.busy = false) (answered : Bool) {calls : List Call} (h : Issued s.trace calls)
      (ht : t.trace = .close answered :: calls) (hc : t.snk.closed = true)

/-- An error calls SnkClose after the calls that were made before it (R240). -/
theorem Raised.stepCalls {e : ErrKind} (ht : Raised e u t) (h : Issued s.trace u.trace) : StepCalls s t := by
  obtain ⟨answered, bits, pad, draws, rfl⟩ := ht
  exact .ends rfl answered h rfl rfl

/-! ### The calls of each operation -/

theorem execCnt_stepCalls (hb : s.busy = true) (h : execCnt s = .next t) : StepCalls s t := by
  rcases execCnt_next h with ⟨b, hv, rfl⟩ | ⟨b, hv, hr⟩ | ⟨p, -, -, -, rfl⟩ | ⟨p, -, hr⟩
  · exact .goesOn hb (Issued.none.read (by simp) hv)
  · exact hr.stepCalls (Issued.none.read (by simp) hv)
  · exact .goesOn rfl (Issued.none.miss (by simp) (.inl rfl))
  · exact hr.stepCalls (Issued.none.miss (by simp) (.inr rfl))

/-- The end of a BLD_INIT step issues no call, and the run goes on (R152). -/
theorem nextSymbol_stepCalls (hb : u.busy = true) (htr : u.trace = s.trace) : StepCalls s (nextSymbol u) := by
  have hnone : Issued s.trace u.trace := htr ▸ .none
  obtain ⟨-, e⟩ | ⟨-, e⟩ := nextSymbol_cases u <;> rw [e]
  · exact .goesOn rfl hnone
  · exact .goesOn hb hnone

theorem execBldInit_stepCalls (hb : s.busy = true) (h : execBldInit s = .next t) : StepCalls s t := by
  obtain ⟨-, ⟨-, rfl⟩ | ⟨-, -, rfl⟩⟩ := execBldInit_next h
  · exact nextSymbol_stepCalls hb rfl
  · exact nextSymbol_stepCalls hb rfl

theorem execBldMerge_stepCalls (hb : s.busy = true) (h : execBldMerge s = .next t) : StepCalls s t := by
  obtain ⟨r, -, rfl⟩ | ⟨a, b, wa, wb, na, nb, -, -, -, -, -, -, rfl⟩ := execBldMerge_next h
  · exact .goesOn rfl .none
  · exact .goesOn hb .none

theorem execGen_stepCalls (hb : s.busy = true) (h : execGen s = .next t) : StepCalls s t := by
  rcases execGen_next h with ⟨-, rfl⟩ | ⟨i, p, rest, w, sym, -, -, -, rfl⟩ | ⟨i, p, rest, w, l, r, -, -, -, rfl⟩ |
    ⟨i, p, rest, w, l, r, stk, -, -, -, -, -, hr⟩
  · exact .goesOn rfl .none
  · exact .goesOn hb .none
  · exact .goesOn hb .none
  · exact hr.stepCalls .none

theorem execWrMagic_stepCalls (h : execWrMagic s = .next t) : StepCalls s t := by
  have hwrite (ok : Bool) : Issued s.trace (.write 32 s.params.magic.toNat ok :: s.trace) :=
    Issued.none.write ok (by omega) (by omega) s.params.magic.isLt
  obtain ⟨-, rfl | hr⟩ := execWrMagic_next h
  · exact .goesOn rfl (hwrite true)
  · exact hr.stepCalls (hwrite false)

theorem execWrHdr_stepCalls (hb : s.busy = true) (h : execWrHdr s = .next t) : StepCalls s t := by
  have hbit {d : Nat} (hd : d < 2 ^ 1) (ok : Bool) : Issued s.trace (.write 1 d ok :: s.trace) :=
    Issued.none.write ok (by omega) (by omega) hd
  have hleaf (sym : Symbol) (ok : Bool) : Issued s.trace (.write 9 sym.toNat ok :: .write 1 1 true :: s.trace) :=
    (hbit (by omega) true).write ok (by omega) (by omega) sym.isLt
  rcases execWrHdr_next h with ⟨-, rfl⟩ | ⟨i, rest, n, -, -, -, ⟨w, sym, -, rfl | hr | hr⟩ |
    ⟨w, l, r, -, -, rfl⟩ | ⟨w, l, r, -, hr⟩ | ⟨w, l, r, stk, -, -, -, -, hr⟩⟩
  · exact .goesOn rfl .none
  · exact .goesOn hb (hleaf sym true)
  · exact hr.stepCalls (hbit (by omega) false)
  · exact hr.stepCalls (hleaf sym false)
  · exact .goesOn hb (hbit (by omega) true)
  · exact hr.stepCalls (hbit (by omega) false)
  · exact hr.stepCalls (hbit (by omega) true)

theorem execRewind_stepCalls (h : execRewind s = .next t) : StepCalls s t := by
  obtain rfl | ⟨p, -, hr⟩ := execRewind_next h
  · exact .goesOn rfl (Issued.none.rewind true)
  · exact hr.stepCalls (Issued.none.rewind false)

theorem execEnc_stepCalls (hb : s.busy = true) (h : execEnc s = .next t) : StepCalls s t := by
  rcases execEnc_next h with ⟨b, hv, u, hu, hend⟩ | ⟨b, hv, -, hr⟩ | ⟨p, -, -, -, rfl⟩ | ⟨p, -, hr⟩
  · have hwrote : Issued s.trace u.trace := hu.issued (Issued.none.read (by simp) hv)
    obtain rfl | hr := hend
    · obtain ⟨more, io, calls, rfl, -⟩ := hu
      exact .goesOn hb hwrote
    · exact hr.stepCalls hwrote
  · exact hr.stepCalls (Issued.none.read (by simp) hv)
  · exact .goesOn rfl (Issued.none.miss (by simp) (.inl rfl))
  · exact hr.stepCalls (Issued.none.miss (by simp) (.inr rfl))

theorem execEncEof_stepCalls (h : execEncEof s = .next t) : StepCalls s t := by
  obtain ⟨p, u, -, hu, rfl | hr⟩ := execEncEof_next h
  · exact .goesOn rfl (hu.issued .none)
  · exact hr.stepCalls (hu.issued .none)

theorem execRdMagic_stepCalls (h : execRdMagic s = .next t) : StepCalls s t := by
  rcases execRdMagic_next h with ⟨-, -, rfl⟩ | ⟨v, hv, -, hr⟩ | ⟨p, -, -, -, hr⟩ | ⟨p, -, hr⟩
  · exact .goesOn rfl (Issued.none.read (by simp) s.params.magic.isLt)
  · exact hr.stepCalls (Issued.none.read (by simp) hv)
  · exact hr.stepCalls (Issued.none.miss (by simp) (.inl rfl))
  · exact hr.stepCalls (Issued.none.miss (by simp) (.inr rfl))

theorem readInternal_stepCalls {slot : Slot} (h : readInternal slot u = .next t) (hb : u.busy = true)
    (hcalls : Issued s.trace u.trace) : StepCalls s t := by
  rcases readInternal_next h with ⟨-, -, hfill⟩ | ⟨-, hr⟩ | ⟨stk, -, -, -, hr⟩
  · obtain ⟨root, rootV, node, rfl⟩ := fill_frame hfill
    exact .goesOn hb hcalls
  · exact hr.stepCalls hcalls
  · exact hr.stepCalls hcalls

theorem readField_stepCalls {slot : Slot} {v : Nat} (h : readField slot v u = .next t) (hb : u.busy = true)
    (hcalls : Issued s.trace u.trace) : StepCalls s t := by
  obtain ⟨-, hr⟩ | ⟨-, -, hfill⟩ := readField_next h
  · exact hr.stepCalls hcalls
  · obtain ⟨root, rootV, node, rfl⟩ := fill_frame hfill
    exact .goesOn hb hcalls

theorem execRdHdr_stepCalls (hb : s.busy = true) (h : execRdHdr s = .next t) : StepCalls s t := by
  have hbit {d : Nat} (hd : d < 2 ^ 1) : Issued s.trace (.read 1 (.value d) :: s.trace) :=
    Issued.none.read (by simp) hd
  rcases execRdHdr_next h with ⟨-, h⟩ | ⟨slot, rest, -, ⟨-, h⟩ | ⟨-, -, hr⟩ | ⟨v, hv, -, -, h⟩ | ⟨p, -, -, hr⟩ |
    ⟨p, -, hr⟩ | ⟨p, -, -, hr⟩ | ⟨p, -, hr⟩⟩
  · obtain ⟨rfl, -, -⟩ | ⟨-, hr⟩ := finishHeader_next h
    · exact .goesOn rfl .none
    · exact hr.stepCalls .none
  · exact readInternal_stepCalls h hb (hbit (by omega))
  · exact hr.stepCalls (hbit (by omega))
  · exact readField_stepCalls h hb ((hbit (by omega)).read (by simp) hv)
  · exact hr.stepCalls ((hbit (by omega)).miss (by simp) (.inl rfl))
  · exact hr.stepCalls ((hbit (by omega)).miss (by simp) (.inr rfl))
  · exact hr.stepCalls (Issued.none.miss (by simp) (.inl rfl))
  · exact hr.stepCalls (Issued.none.miss (by simp) (.inr rfl))

theorem execDec_stepCalls (hb : s.busy = true) (h : execDec s = .next t) : StepCalls s t := by
  have hwrite (sym : Symbol) (ok : Bool) : Issued s.trace (.write 8 (sym.toNat % 256) ok :: s.trace) :=
    Issued.none.write ok (by omega) (by omega) (by omega)
  rcases execDec_next h with ⟨w, sym, -, ⟨-, rfl⟩ | ⟨-, -, rfl | hr⟩⟩ |
    ⟨w, l, r, -, ⟨d, c, hd, -, -, -, rfl⟩ | ⟨p, -, -, -, hr⟩ | ⟨p, -, hr⟩⟩
  · exact .goesOn rfl .none
  · exact .goesOn hb (hwrite sym true)
  · exact hr.stepCalls (hwrite sym false)
  · exact .goesOn hb (Issued.none.read (by simp) hd)
  · exact hr.stepCalls (Issued.none.miss (by simp) (.inl rfl))
  · exact hr.stepCalls (Issued.none.miss (by simp) (.inr rfl))

theorem execClose_stepCalls (h : execClose s = .next t) : StepCalls s t := by
  obtain ⟨pad, rfl⟩ | ⟨bits, pad, draws, rfl⟩ := execClose_next h
  · exact .ends rfl true .none rfl rfl
  · exact .ends rfl false .none rfl rfl

/-- The calls of every step of a busy block that is not in reset (R100). -/
theorem stepCalls_of_step (hb : s.busy = true) (hr : s.rst = false) (h : step s = .next t) : StepCalls s t := by
  rw [step_busy hr hb] at h
  cases hp : s.phase <;> simp only [hp, operationOf, exec] at h
  case idle | done | err => simp [State.busy, phaseBusy, hp] at hb
  case cnt => exact execCnt_stepCalls hb h
  case bldInit => exact execBldInit_stepCalls hb h
  case bldMerge => exact execBldMerge_stepCalls hb h
  case gen => exact execGen_stepCalls hb h
  case wrMagic => exact execWrMagic_stepCalls h
  case wrHdr => exact execWrHdr_stepCalls hb h
  case rewind => exact execRewind_stepCalls h
  case enc => exact execEnc_stepCalls hb h
  case encEof => exact execEncEof_stepCalls h
  case rdMagic => exact execRdMagic_stepCalls h
  case rdHdr => exact execRdHdr_stepCalls hb h
  case dec => exact execDec_stepCalls hb h
  case close => exact execClose_stepCalls h

/-! ### SnkClose is called once -/

/-- A busy block has not called SnkClose, so SnkClose is called at most once (R68). -/
theorem State.closesOnce_of_busy (hb : s.busy = true) (h : closeCount s.trace = 0) : s.closesOnce := by
  refine ⟨fun _ => h, fun hend => ?_⟩
  unfold State.busy at hb
  rcases hend with hp | hp <;> rw [hp] at hb <;> cases hb

theorem State.closesOnce.busyStep (h : s.closesOnce) (hb : s.busy = true) (hcalls : StepCalls s t) :
    t.closesOnce := by
  have hopen : closeCount s.trace = 0 := h.1 hb
  cases hcalls with
  | goesOn hbt hnew => exact closesOnce_of_busy hbt (hnew.closeCount_eq.trans hopen)
  | ends hbt answered hnew htr hc =>
    exact ⟨fun hb' => absurd hb' (by simp [hbt]),
      fun _ => ⟨answered, _, htr, hnew.closeCount_eq.trans hopen, hc⟩⟩

/-- A reset leaves the block neither busy nor at an end (R260). -/
theorem closesOnce_takeReset (s : State) : s.takeReset.closesOnce := by
  have hidle := (takeReset_stack s).2
  simp [State.closesOnce, State.busy, phaseBusy, hidle]

theorem busy_accepted (s : State) (o : Offer) : (s.accepted o).busy = true := by
  unfold State.accepted State.busy
  split <;> rfl

/-- Settles O39: a step that goes on adds no SnkClose to the trace, and one that ends the run adds it last. -/
theorem sinkIsClosedOnceAndLast : Obligations.SinkIsClosedOnceAndLast := by
  intro s t h hstep
  rcases step_cases hstep with ⟨-, rfl⟩ | ⟨hr, hb, -⟩ | ⟨-, -, rfl | ⟨o, -, -, rfl⟩⟩
  · exact closesOnce_takeReset s
  · exact h.busyStep hb (stepCalls_of_step hb hr hstep)
  · exact h
  · exact State.closesOnce_of_busy (busy_accepted s o) rfl

/-! ### Calls keep the contract -/

/-- A reset makes no call (R261). -/
@[simp] theorem takeReset_trace (s : State) : s.takeReset.trace = s.trace := by
  unfold State.takeReset
  split <;> rfl

theorem StepCalls.inContract (hcalls : StepCalls s t) (h : s.trace.all callInContract = true) :
    t.trace.all callInContract = true := by
  cases hcalls with
  | goesOn _ hnew => exact hnew.inContract h
  | ends _ answered hnew htr => simpa [htr, callInContract] using hnew.inContract h

/-- Settles O40: reads, rewinds and writes are issued within the contract, and SnkClose is always within it. -/
theorem callsKeepTheContract : Obligations.CallsKeepTheContract := by
  intro s t h hstep
  rcases step_cases hstep with ⟨-, rfl⟩ | ⟨hr, hb, -⟩ | ⟨-, -, rfl | ⟨o, -, -, rfl⟩⟩
  · simpa using h
  · exact (stepCalls_of_step hb hr hstep).inContract h
  · exact h
  · rfl

end Sys2Proof.Machine

/-! SUPPORT. The decoder on an operation's bits and back, and a phase's step on the token it reads. -/

namespace Sys2Proof

variable {f : Format} {i : Instr} {bits rest : BitString}

/-! ### A field of `n` bits -/

/-- A word's bits are read back as the word (R12). -/
theorem ofNat_valOf_bitsOf {n : Nat} (b : BitVec n) : BitVec.ofNat n (valOf (bitsOf n b.toNat)) = b := by
  rw [valOf_bitsOf b.isLt, BitVec.ofNat_toNat, BitVec.setWidth_eq]

/-- The first `n` bits, read as a number and written again, are the bits read (R12). -/
theorem bitsOf_valOf_take_append_drop {n : Nat} (h : n ≤ bits.length) :
    bitsOf n (valOf (bits.take n)) ++ bits.drop n = bits := by
  rw [bitsOf_valOf_of_length (List.length_take_of_le h), List.take_append_drop]

/-- A word of `n` bits holds the number that `n` bits stand for (R12). -/
theorem toNat_ofNat_valOf_take {n : Nat} (h : n ≤ bits.length) :
    (BitVec.ofNat n (valOf (bits.take n))).toNat = valOf (bits.take n) := by
  rw [BitVec.toNat_ofNat, Nat.mod_eq_of_lt (valOf_lt_of_length (List.length_take_of_le h))]

/-- The word of the first `n` bits is written as the bits read (R12). -/
theorem bitsOf_ofNat_valOf_take_append_drop {n : Nat} (h : n ≤ bits.length) :
    bitsOf n (BitVec.ofNat n (valOf (bits.take n))).toNat ++ bits.drop n = bits := by
  rw [toNat_ofNat_valOf_take h, bitsOf_valOf_take_append_drop h]

/-! ### The decoder on an operation's bits -/

/-- The encoding of a phase operation is the code that selects it (R24, R100). -/
theorem phaseOperation_of_formatOf (h : formatOf i = .phase) :
    ∃ v, v < 2 ^ 4 ∧ encode i = bitsOf 4 v ∧ phaseOperation v = some i := by
  cases i with
  | idle | cnt | bldInit | bldMerge | gen | wrMagic | wrHdr | rewind | enc | encEof | rdMagic | rdHdr | dec | close
  | done | err => exact ⟨_, by decide, rfl, rfl⟩
  | compress | decompress | magic | hdrInternal | hdrLeaf | bit0 | bit1 | byte | code => cases h

theorem decode_phase_append (h : formatOf i = .phase) (rest : BitString) :
    decode .phase (encode i ++ rest) = .ok (i, rest) := by
  obtain ⟨v, hv, he, hop⟩ := phaseOperation_of_formatOf h
  simp [decode, decodePhase, he, valOf_bitsOf hv, hop]

theorem decode_magic_append (m : BitVec 32) (rest : BitString) :
    decode .magic (encode (.magic m) ++ rest) = .ok (.magic m, rest) := by
  simp [decode, decodeMagic, encode, ofNat_valOf_bitsOf]

theorem decode_byte_append (b : Byte) (rest : BitString) :
    decode .byte (encode (.byte b) ++ rest) = .ok (.byte b, rest) := by
  simp [decode, decodeByte, encode, ofNat_valOf_bitsOf]

/-- A symbol field of at most 256 is accepted (R95, R104). -/
theorem decode_hdrLeaf_append {sym : Symbol} (h : sym.toNat ≤ Config.eofSym) (rest : BitString) :
    decode .header (encode (.hdrLeaf sym) ++ rest) = .ok (.hdrLeaf sym, rest) := by
  have hval : valOf (bitsOf 9 sym.toNat) = sym.toNat := valOf_bitsOf sym.isLt
  simp [decode, decodeHeader, encode, hval, h]

theorem decode_code_of_length (h : bits.length ≤ 256) : decode .code bits = .ok (.code bits, []) := if_pos h

theorem decode_encode_append (hwf : i.wf = true) (hcode : formatOf i ≠ .code) (rest : BitString) :
    decode (formatOf i) (encode i ++ rest) = .ok (i, rest) := by
  cases i with
  | compress | decompress | hdrInternal | bit0 | bit1 => rfl
  | idle | cnt | bldInit | bldMerge | gen | wrMagic | wrHdr | rewind | enc | encEof | rdMagic | rdHdr | dec | close
  | done | err => exact decode_phase_append rfl rest
  | magic m => exact decode_magic_append m rest
  | hdrLeaf sym => exact decode_hdrLeaf_append (of_decide_eq_true hwf) rest
  | byte b => exact decode_byte_append b rest
  | code => exact absurd rfl hcode

/-- Settles O1: by cases on the operation, each format's field being read back as it was written. -/
theorem decodeOfEncode : Obligations.DecodeOfEncode :=
  ⟨fun _ rest hwf hcode => decode_encode_append hwf hcode rest,
    fun _ hwf => decode_code_of_length (of_decide_eq_true hwf)⟩

/-! ### What the decoder accepts -/

/-- The bits `bits` are those of the operation `i`, well formed and of the format `f`, and then `rest`. -/
def ReadsAs (f : Format) (bits : BitString) (i : Instr) (rest : BitString) : Prop :=
  formatOf i = f ∧ i.wf = true ∧ encode i ++ rest = bits

/-- The code of a selected operation is its encoding (R24, R100). -/
theorem encode_of_phaseOperation {v : Nat} (h : phaseOperation v = some i) :
    formatOf i = .phase ∧ i.wf = true ∧ encode i = bitsOf 4 v := by
  unfold phaseOperation at h
  split at h <;> cases h <;> exact ⟨rfl, rfl, rfl⟩

theorem readsAs_of_decodeCmd (h : decodeCmd bits = .ok (i, rest)) : ReadsAs .cmd bits i rest := by
  match bits with
  | [] => cases h
  | false :: _ | true :: _ => cases h; exact ⟨rfl, rfl, rfl⟩

theorem readsAs_of_decodeBody (h : decodeBody bits = .ok (i, rest)) : ReadsAs .body bits i rest := by
  match bits with
  | [] => cases h
  | false :: _ | true :: _ => cases h; exact ⟨rfl, rfl, rfl⟩

theorem readsAs_of_decodePhase (h : decodePhase bits = .ok (i, rest)) : ReadsAs .phase bits i rest := by
  unfold decodePhase at h
  split at h
  · cases h
  next hlen =>
    split at h
    next hop =>
      cases h
      obtain ⟨hf, hwf, he⟩ := encode_of_phaseOperation hop
      exact ⟨hf, hwf, he ▸ bitsOf_valOf_take_append_drop (Nat.not_lt.1 hlen)⟩
    · cases h

theorem readsAs_of_decodeMagic (h : decodeMagic bits = .ok (i, rest)) : ReadsAs .magic bits i rest := by
  unfold decodeMagic at h
  split at h
  · cases h
  next hlen => cases h; exact ⟨rfl, rfl, bitsOf_ofNat_valOf_take_append_drop (Nat.not_lt.1 hlen)⟩

theorem readsAs_of_decodeByte (h : decodeByte bits = .ok (i, rest)) : ReadsAs .byte bits i rest := by
  unfold decodeByte at h
  split at h
  · cases h
  next hlen => cases h; exact ⟨rfl, rfl, bitsOf_ofNat_valOf_take_append_drop (Nat.not_lt.1 hlen)⟩

/-- A leaf is accepted where its symbol field is at most 256 (R104). -/
theorem readsAs_of_decodeHeader (h : decodeHeader bits = .ok (i, rest)) : ReadsAs .header bits i rest := by
  match bits with
  | [] => cases h
  | false :: _ => cases h; exact ⟨rfl, rfl, rfl⟩
  | true :: field =>
    simp only [decodeHeader] at h
    split at h
    · cases h
    next hlen =>
      split at h
      · cases h
      next hsym =>
        cases h
        have hlen := Nat.not_lt.1 hlen
        refine ⟨rfl, decide_eq_true ?_, congrArg (true :: ·) (bitsOf_ofNat_valOf_take_append_drop hlen)⟩
        rw [toNat_ofNat_valOf_take hlen]
        exact Nat.not_lt.1 hsym

theorem readsAs_of_decodeCode (h : decodeCode bits = .ok (i, rest)) : ReadsAs .code bits i rest := by
  unfold decodeCode at h
  split at h
  next hlen => cases h; exact ⟨rfl, decide_eq_true hlen, List.append_nil bits⟩
  · cases h

theorem readsAs_of_decode (h : decode f bits = .ok (i, rest)) : ReadsAs f bits i rest := by
  cases f with
  | cmd => exact readsAs_of_decodeCmd h
  | phase => exact readsAs_of_decodePhase h
  | magic => exact readsAs_of_decodeMagic h
  | header => exact readsAs_of_decodeHeader h
  | body => exact readsAs_of_decodeBody h
  | byte => exact readsAs_of_decodeByte h
  | code => exact readsAs_of_decodeCode h

/-- Settles O2: by cases on the format, the bits of each field being written back as they were read. -/
theorem encodeOfDecode : Obligations.EncodeOfDecode := fun _ _ _ _ h => readsAs_of_decode h

end Sys2Proof

namespace Sys2Proof.Machine

variable {s : State}

/-! ### The token a phase reads -/

/-- Which phases read a token of which format (R100). -/
theorem tokenFormat_cases {f : Format} (h : tokenFormat s = some f) :
    (s.phase = .cnt ∧ f = .byte) ∨ (s.phase = .enc ∧ f = .byte) ∨ (s.phase = .rdMagic ∧ f = .magic) ∨
    (s.phase = .rdHdr ∧ f = .header ∧ ∃ slot stk, s.stk = .slot slot :: stk) ∨
    (s.phase = .dec ∧ f = .body ∧ ∃ w l r, s.nodeAt s.cur = some (.internal w l r)) := by
  unfold tokenFormat at h
  split at h
  next hp => cases h; exact .inl ⟨hp, rfl⟩
  next hp => cases h; exact .inr (.inl ⟨hp, rfl⟩)
  next hp => cases h; exact .inr (.inr (.inl ⟨hp, rfl⟩))
  next hp =>
    split at h
    next slot stk hst => cases h; exact .inr (.inr (.inr (.inl ⟨hp, rfl, slot, stk, hst⟩)))
    · cases h
  next hp =>
    split at h
    next w l r hn => cases h; exact .inr (.inr (.inr (.inr ⟨hp, rfl, w, l, r, hn⟩)))
    · cases h
  all_goals cases h

/-- The bits at the source's position start with the encoding of the token found there, which has the phase's
format. -/
theorem fetchToken_some {i : Instr} (h : fetchToken s = some i) :
    tokenFormat s = some (formatOf i) ∧ s.sourceStarts (encode i) := by
  unfold fetchToken at h
  split at h
  · cases h
  next f hf =>
    split at h
    next rest hdec =>
      cases h
      obtain ⟨hfmt, -, hbits⟩ := readsAs_of_decode hdec
      exact ⟨hfmt ▸ hf, rest, hbits⟩
    · cases h

theorem eq_byte_of_formatOf {i : Instr} (h : formatOf i = .byte) : ∃ b, i = .byte b := by
  cases i with
  | byte b => exact ⟨b, rfl⟩
  | _ => cases h

theorem eq_magic_of_formatOf {i : Instr} (h : formatOf i = .magic) : ∃ m, i = .magic m := by
  cases i with
  | magic m => exact ⟨m, rfl⟩
  | _ => cases h

theorem eq_header_of_formatOf {i : Instr} (h : formatOf i = .header) :
    i = .hdrInternal ∨ ∃ sym, i = .hdrLeaf sym := by
  cases i with
  | hdrInternal => exact .inl rfl
  | hdrLeaf sym => exact .inr ⟨sym, rfl⟩
  | _ => cases h

theorem eq_bit_of_formatOf {i : Instr} (h : formatOf i = .body) : i = .bit0 ∨ i = .bit1 := by
  cases i with
  | bit0 => exact .inl rfl
  | bit1 => exact .inr rfl
  | _ => cases h

/-! ### A read that finds the token -/

theorem srcRead_of_sourceStarts_bitsOf {n v : Nat} (h1 : 1 ≤ n) (h2 : n ≤ 32) (hv : v < 2 ^ n)
    (hs : s.sourceStarts (bitsOf n v)) : srcRead n s = srcAnswer n v s := by
  rw [srcRead_starts (length_bitsOf n v) h1 h2 hs, valOf_bitsOf hv]

theorem srcRead_of_sourceStarts_single {d : Bool} (hs : s.sourceStarts [d]) :
    srcRead 1 s = srcAnswer 1 (if d then 1 else 0) s := by
  rw [srcRead_starts (p := [d]) (n := 1) rfl le_rfl (by omega) hs, valOf_single]

/-- After the first bits of a token are read, the source starts with the rest of it (R62). -/
theorem State.sourceStarts_afterRead {n v : Nat} {p q : BitString} (hp : p.length = n)
    (hs : s.sourceStarts (p ++ q)) : (s.afterRead n v).sourceStarts q := by
  have h := hs.drop n
  rwa [← hp, List.drop_left, List.drop_drop, hp] at h

/-- A read that is answered in one way goes on in one way where both continuations agree on the value. -/
theorem onRead_srcAnswer_congr {n v : Nat} {f g : Nat → State → Out} {onEos : State → Out}
    (h : f v (s.afterRead n v) = g v (s.afterRead n v)) :
    onRead (srcAnswer n v s) f onEos = onRead (srcAnswer n v s) g onEos := by
  rcases srcAnswer_cases n v s with ⟨-, e⟩ | ⟨-, p, -, e⟩ | ⟨-, e⟩
  · rw [e]; exact h
  · rw [e]; rfl
  · rw [e]; rfl

/-! ### The step of a phase on its token -/

theorem execCnt_eq_execByte {b : Byte} (hp : s.phase = .cnt) (hs : s.sourceStarts (bitsOf 8 b.toNat)) :
    execCnt s = execByte b s := by
  simp only [execCnt, execByte, hp, srcRead_of_sourceStarts_bitsOf (by omega) (by omega) b.isLt hs]

theorem execEnc_eq_execByte {b : Byte} (hp : s.phase = .enc) (hs : s.sourceStarts (bitsOf 8 b.toNat)) :
    execEnc s = execByte b s := by
  simp only [execEnc, execByte, hp, srcRead_of_sourceStarts_bitsOf (by omega) (by omega) b.isLt hs]

theorem execRdMagic_eq_execMagic {m : BitVec 32} (hs : s.sourceStarts (bitsOf 32 m.toNat)) :
    execRdMagic s = execMagic m s := by
  rw [execRdMagic, execMagic, srcRead_of_sourceStarts_bitsOf (by omega) (by omega) m.isLt hs]

theorem readLeaf_congr (slot : Slot) {field field' : State → ReadResult} (h : field s = field' s) :
    readLeaf slot field s = readLeaf slot field' s := by
  rw [readLeaf, readLeaf, h]

theorem execRdHdr_eq_execHdrInternal {slot : Slot} {stk : List StkEntry} (hst : s.stk = .slot slot :: stk)
    (hs : s.sourceStarts [false]) : execRdHdr s = execHdrInternal s := by
  have hread : srcRead 1 { s with stk := stk } = srcAnswer 1 0 { s with stk := stk } :=
    srcRead_of_sourceStarts_single (s := { s with stk := stk }) hs
  simp only [execRdHdr, execHdrInternal, hst, hread]
  exact onRead_srcAnswer_congr (if_pos rfl)

/-- RD_HDR reads a leaf's token in two calls, the bit that marks it and its symbol field (R192). -/
theorem execRdHdr_eq_execHdrLeaf {slot : Slot} {stk : List StkEntry} {sym : Symbol} (hst : s.stk = .slot slot :: stk)
    (hs : s.sourceStarts (true :: bitsOf 9 sym.toNat)) : execRdHdr s = execHdrLeaf sym s := by
  have hmark : s.sourceStarts [true] := (List.prefix_append [true] (bitsOf 9 sym.toNat)).trans hs
  have hread : srcRead 1 { s with stk := stk } = srcAnswer 1 1 { s with stk := stk } :=
    srcRead_of_sourceStarts_single (s := { s with stk := stk }) hmark
  have hrest : (s.afterRead 1 1).sourceStarts (bitsOf 9 sym.toNat) :=
    State.sourceStarts_afterRead (p := [true]) rfl hs
  have hfield := srcRead_of_sourceStarts_bitsOf (s := { s.afterRead 1 1 with stk := stk }) (by omega) (by omega)
    sym.isLt hrest
  simp only [execRdHdr, execHdrLeaf, hst, hread]
  exact onRead_srcAnswer_congr ((if_neg one_ne_zero).trans (readLeaf_congr slot hfield))

theorem execDec_eq_execBit0 {w : BitVec Config.wtW} {l r : Option Nat} (hn : s.nodeAt s.cur = some (.internal w l r))
    (hs : s.sourceStarts [false]) : execDec s = execBit0 s := by
  have hread : srcRead 1 s = srcAnswer 1 0 s := srcRead_of_sourceStarts_single hs
  simp only [execDec, execBit0, withNode_some hn, hread]

theorem execDec_eq_execBit1 {w : BitVec Config.wtW} {l r : Option Nat} (hn : s.nodeAt s.cur = some (.internal w l r))
    (hs : s.sourceStarts [true]) : execDec s = execBit1 s := by
  have hread : srcRead 1 s = srcAnswer 1 1 s := srcRead_of_sourceStarts_single hs
  simp only [execDec, execBit1, withNode_some hn, hread]

/-- Settles O5: by cases on the phase that reads, whose call answers the token at the source's position. -/
theorem phaseStepIsItsTokensMeaning : Obligations.PhaseStepIsItsTokensMeaning := by
  intro s i h
  obtain ⟨hf, hs⟩ := fetchToken_some h
  rcases tokenFormat_cases hf with ⟨hp, hi⟩ | ⟨hp, hi⟩ | ⟨hp, hi⟩ | ⟨hp, hi, slot, stk, hst⟩ |
    ⟨hp, hi, w, l, r, hn⟩ <;> rw [hp]
  · obtain ⟨b, rfl⟩ := eq_byte_of_formatOf hi
    exact execCnt_eq_execByte hp hs
  · obtain ⟨b, rfl⟩ := eq_byte_of_formatOf hi
    exact execEnc_eq_execByte hp hs
  · obtain ⟨m, rfl⟩ := eq_magic_of_formatOf hi
    exact execRdMagic_eq_execMagic hs
  · rcases eq_header_of_formatOf hi with rfl | ⟨sym, rfl⟩
    · exact execRdHdr_eq_execHdrInternal hst hs
    · exact execRdHdr_eq_execHdrLeaf hst hs
  · rcases eq_bit_of_formatOf hi with rfl | rfl
    · exact execDec_eq_execBit0 hn hs
    · exact execDec_eq_execBit1 hn hs

/-! ### The operation a step runs -/

/-- Settles O4: the selecting bits decode to the operation selected, which the step runs. -/
theorem stepRunsTheDecodedOperation : Obligations.StepRunsTheDecodedOperation := by
  intro s i rest hr h
  obtain ⟨rfl, -⟩ := Prod.mk.inj (Except.ok.inj ((fetch_selected s).symm.trans h))
  exact step_selected hr

end Sys2Proof.Machine

/-! SUPPORT. The functions of a tree: its codes (R170), the walk over a code (R210), and the parse of its header
(R190). -/

namespace Sys2Proof.Machine

/-! ### Codes (R170) -/

theorem Memory.find?_append {α : Type} (m m' : Memory α) (i : Nat) :
    Memory.find? (m ++ m') i = (Memory.find? m i).or (Memory.find? m' i) := by
  induction m with
  | nil => rfl
  | cons c m ih =>
    obtain ⟨j, a⟩ := c
    rw [List.cons_append, Memory.find?_cons, Memory.find?_cons, ih]
    split <;> rfl

/-- The paths from a path on are the paths from the root, each after that path. -/
theorem find?_treePaths (t : Tree) (p : BitString) (v : Nat) :
    Memory.find? (treePaths t p) v = (codeOf t v).map (p ++ ·) := by
  unfold codeOf
  induction t generalizing p with
  | leaf sym => simp only [treePaths, Memory.find?_cons]; split <;> simp
  | internal l r ihl ihr =>
    simp only [treePaths, Memory.find?_append]
    rw [ihl, ihr, ihl ([] ++ [false]), ihr ([] ++ [true])]
    cases Memory.find? (treePaths l []) v <;> cases Memory.find? (treePaths r []) v <;> simp

theorem codeOf_leaf (sym : Symbol) (v : Nat) : codeOf (.leaf sym) v = if v = sym.toNat then some [] else none := rfl

/-- A code of an internal node goes left or right, and then is a code of the child. -/
theorem codeOf_internal {l r : Tree} {v : Nat} {p : BitString} (h : codeOf (.internal l r) v = some p) :
    (∃ q, codeOf l v = some q ∧ p = false :: q) ∨ (∃ q, codeOf r v = some q ∧ p = true :: q) := by
  have hor : codeOf (.internal l r) v = ((codeOf l v).map ([false] ++ ·)).or ((codeOf r v).map ([true] ++ ·)) := by
    rw [← find?_treePaths, ← find?_treePaths, ← Memory.find?_append]; rfl
  rw [hor] at h
  cases hl : codeOf l v with
  | some q => rw [hl] at h; cases h; exact .inl ⟨q, rfl, rfl⟩
  | none =>
    cases hr : codeOf r v with
    | some q => rw [hl, hr] at h; cases h; exact .inr ⟨q, rfl, rfl⟩
    | none => rw [hl, hr] at h; cases h

/-- The symbols listed with their paths are those of the leaves. -/
theorem map_fst_treePaths (t : Tree) (p : BitString) : (treePaths t p).map Prod.fst = treeSymbols t := by
  induction t generalizing p with
  | leaf sym => rfl
  | internal l r ihl ihr => simp [treePaths, treeSymbols, ihl, ihr]

theorem Memory.exists_find?_of_mem {α : Type} {m : Memory α} {i : Nat} (h : i ∈ m.map Prod.fst) :
    ∃ a, Memory.find? m i = some a := by
  induction m with
  | nil => cases h
  | cons c m ih =>
    obtain ⟨j, a⟩ := c
    rw [Memory.find?_cons]
    split
    · exact ⟨a, rfl⟩
    next hij => exact ih ((List.mem_cons.1 h).resolve_left hij)

/-- Every symbol of a tree has a code. -/
theorem exists_codeOf {t : Tree} {v : Nat} (h : v ∈ treeSymbols t) : ∃ p, codeOf t v = some p :=
  Memory.exists_find?_of_mem (by rwa [map_fst_treePaths])

/-- A code that begins another code is the code of the same symbol (R133): it ends at a leaf. -/
theorem eq_of_codeOf_prefix {t : Tree} {a b : Nat} {p q : BitString} (hp : codeOf t a = some p)
    (hq : codeOf t b = some q) (h : p <+: q) : a = b := by
  induction t generalizing p q with
  | leaf sym =>
    rw [codeOf_leaf] at hp hq
    split at hp <;> cases hp
    split at hq <;> cases hq
    next ha hb => exact ha.trans hb.symm
  | internal l r ihl ihr =>
    obtain ⟨p', hp', rfl⟩ | ⟨p', hp', rfl⟩ := codeOf_internal hp <;>
      obtain ⟨q', hq', rfl⟩ | ⟨q', hq', rfl⟩ := codeOf_internal hq
    · exact ihl hp' hq' (List.cons_prefix_cons.1 h).2
    · cases (List.cons_prefix_cons.1 h).1
    · cases (List.cons_prefix_cons.1 h).1
    · exact ihr hp' hq' (List.cons_prefix_cons.1 h).2

/-- Settles O55: of any tree, and so of one with distinct leaf symbols or one that `build` gives. -/
theorem codesArePrefixFree : Obligations.CodesArePrefixFree :=
  ⟨fun _ _ _ _ _ _ hp hq hne h => hne (eq_of_codeOf_prefix hp hq h),
    fun _ _ _ _ _ _ hp hq hne h => hne (eq_of_codeOf_prefix hp hq h)⟩

/-! ### The walk over the codes (R210) -/

/-- The walk over a code comes to the symbol's leaf, with the bits after the code still to come. -/
theorem walkFrom_codeOf (root : Tree) {t : Tree} {v : Nat} {p : BitString} (h : codeOf t v = some p)
    (bits : BitString) :
    ∃ sym, sym.toNat = v ∧ walkFrom root t (p ++ bits) = walkFrom root (.leaf sym) bits := by
  induction t generalizing p with
  | leaf sym =>
    rw [codeOf_leaf] at h
    split at h <;> cases h
    next hv => exact ⟨sym, hv.symm, rfl⟩
  | internal l r ihl ihr =>
    obtain ⟨q, hq, rfl⟩ | ⟨q, hq, rfl⟩ := codeOf_internal h
    · exact ihl hq
    · exact ihr hq

/-- At the sentinel's leaf the walk ends. -/
theorem walkFrom_sentinel (root : Tree) {sym : Symbol} (h : sym.toNat = 256) (bits : BitString) :
    walkFrom root (.leaf sym) bits = .ok ([], bits) := by
  cases bits <;> simp [walkFrom, h]

/-- At another leaf the walk gives the symbol and goes on from the root, which is an internal node. -/
theorem walkFrom_byte {l r : Tree} {sym : Symbol} (h : sym.toNat ≠ 256) (bits : BitString) :
    walkFrom (.internal l r) (.leaf sym) bits =
      (walkFrom (.internal l r) (.internal l r) bits).map fun (out, rest) => (sym.toNat :: out, rest) := by
  cases bits with
  | nil => simp [walkFrom, h, Except.map]
  | cons b bits =>
    simp only [walkFrom, h, if_false]
    cases walkFrom (.internal l r) (if b then r else l) bits <;> rfl

theorem bodyBits_nil (t : Tree) : bodyBits t [] = (codeOf t 256).getD [] := rfl

theorem bodyBits_cons (t : Tree) (b : Byte) (bytes : List Byte) :
    bodyBits t (b :: bytes) = (codeOf t b.toNat).getD [] ++ bodyBits t bytes := by
  simp [bodyBits]

/-- A tree with the sentinel and a byte is no leaf. -/
theorem exists_internal {t : Tree} (hs : 256 ∈ treeSymbols t) {b : Byte} (hb : b.toNat ∈ treeSymbols t) :
    ∃ l r, t = .internal l r := by
  cases t with
  | leaf sym =>
    have hlt := b.isLt
    rw [treeSymbols, List.mem_singleton] at hs hb
    omega
  | internal l r => exact ⟨l, r, rfl⟩

/-- The walk over a body reads its bytes back, and stops after the sentinel's code (R210). -/
theorem walk_bodyBits {t : Tree} {bytes : List Byte} (hs : 256 ∈ treeSymbols t)
    (hb : ∀ b ∈ bytes, b.toNat ∈ treeSymbols t) (after : BitString) :
    walk t (bodyBits t bytes ++ after) = .ok (bytes.map BitVec.toNat, after) := by
  induction bytes with
  | nil =>
    obtain ⟨p, hp⟩ := exists_codeOf hs
    obtain ⟨sym, hsym, hwalk⟩ := walkFrom_codeOf t hp after
    rw [walk, bodyBits_nil, hp, Option.getD_some, hwalk, walkFrom_sentinel t hsym]
    rfl
  | cons b bytes ih =>
    have hbt := hb b List.mem_cons_self
    obtain ⟨l, r, rfl⟩ := exists_internal hs hbt
    obtain ⟨p, hp⟩ := exists_codeOf hbt
    obtain ⟨sym, hsym, hwalk⟩ := walkFrom_codeOf (.internal l r) hp (bodyBits (.internal l r) bytes ++ after)
    have hne : sym.toNat ≠ 256 := by have := b.isLt; omega
    have hrest := ih fun b hb' => hb b (List.mem_cons_of_mem _ hb')
    rw [walk] at hrest ⊢
    rw [bodyBits_cons, hp, Option.getD_some, List.append_assoc, hwalk, walkFrom_byte hne, hrest]
    simp [Except.map, hsym]

/-! ### The parse of a header (R183, R190) -/

theorem treeSize_internal (l r : Tree) : treeSize (.internal l r) = treeSize l + treeSize r + 1 := by
  simp only [treeSize, treeLeaves, treeInternals]; omega

theorem treeSize_le_length_hdr (t : Tree) : treeSize t ≤ (hdr t).length := by
  induction t with
  | leaf sym => simp [treeSize, treeLeaves, treeInternals, hdr]
  | internal l r ihl ihr => rw [treeSize_internal]; simp [hdr]; omega

/-- A header is parsed to its tree, whatever follows, where its tokens and the arena's entries are enough
(R191). -/
theorem parseTree_hdr {t : Tree} {cap fuel n : Nat} (hsym : ∀ v ∈ treeSymbols t, v ≤ 256) (hcap : n + treeSize t ≤ cap)
    (hfuel : treeSize t ≤ fuel) (rest : BitString) :
    parseTree cap fuel n (hdr t ++ rest) = .ok (t, n + treeSize t, rest) := by
  induction t generalizing fuel n rest with
  | leaf sym =>
    have hsize : treeSize (.leaf sym) = 1 := rfl
    obtain ⟨fuel, rfl⟩ : ∃ k, fuel = k + 1 := Nat.exists_eq_succ_of_ne_zero (by omega)
    have hn : n ≠ cap := by omega
    have hv : sym.toNat ≤ 256 := hsym _ (by simp [treeSymbols])
    have hval : valOf (bitsOf 9 sym.toNat) = sym.toNat := valOf_bitsOf sym.isLt
    simp [hdr, parseTree, hn, hval, hv, hsize]
  | internal l r ihl ihr =>
    rw [treeSize_internal] at *
    obtain ⟨fuel, rfl⟩ : ∃ k, fuel = k + 1 := Nat.exists_eq_succ_of_ne_zero (by omega)
    have hn : n ≠ cap := by omega
    have hl := ihl (fuel := fuel) (n := n + 1) (fun v hv => hsym v (List.mem_append_left _ hv)) (by omega) (by omega)
      (hdr r ++ rest)
    have hr := ihr (fuel := fuel) (n := n + 1 + treeSize l) (fun v hv => hsym v (List.mem_append_right _ hv))
      (by omega) (by omega) rest
    simp only [hdr, List.cons_append, List.append_assoc, parseTree, hn, hl, hr]
    simp
    omega

end Sys2Proof.Machine

/-! SUPPORT. The tree that `build` gives: what one merge does to the waiting items, and what follows for the whole
(R150 to R160). -/

namespace Sys2Proof.Machine

/-! ### The first item in the order of R153 -/

/-- `a` is one of the items and comes before every other. -/
def IsLeast (a : Item) (items : List Item) : Prop :=
  a ∈ items ∧ ∀ x ∈ items, x = a ∨ itemBefore a x = true

/-- The items but for that of node `i`. -/
def dropItem (i : Nat) (items : List Item) : List Item := items.filter (fun y => y.index ≠ i)

/-- The items' indices are below `k`, each used once. -/
def Numbered (k : Nat) (items : List Item) : Prop := (items.map Item.index).Nodup ∧ ∀ x ∈ items, x.index < k

theorem itemBefore_iff {x y : Item} :
    itemBefore x y = true ↔ x.weight < y.weight ∨ (x.weight = y.weight ∧ x.index < y.index) :=
  decide_eq_true_iff

/-- An item that comes before another weighs no more. -/
theorem weight_le_of_itemBefore {x y : Item} (h : itemBefore x y = true) : x.weight ≤ y.weight := by
  rw [itemBefore_iff] at h; omega

theorem IsLeast.weight_le {a x : Item} {items : List Item} (h : IsLeast a items) (hx : x ∈ items) :
    a.weight ≤ x.weight := by
  obtain rfl | hb := h.2 x hx
  · exact le_rfl
  · exact weight_le_of_itemBefore hb

theorem isLeast_leastItem (x : Item) (xs : List Item) (hnodup : ((x :: xs).map Item.index).Nodup) :
    IsLeast (leastItem x xs) (x :: xs) := by
  induction xs generalizing x with
  | nil => exact ⟨List.mem_singleton_self x, fun y hy => .inl (List.mem_singleton.1 hy)⟩
  | cons y ys ih =>
    obtain ⟨hx, hnodup⟩ := List.nodup_cons.1 hnodup
    obtain ⟨hmem, hleast⟩ := ih y hnodup
    have hne : x.index ≠ (leastItem y ys).index := fun e => hx (e ▸ List.mem_map_of_mem hmem)
    unfold leastItem
    split
    next hb =>
      refine ⟨List.mem_cons_self, fun z hz => ?_⟩
      rcases List.mem_cons.1 hz with rfl | hz
      · exact .inl rfl
      · rcases hleast z hz with rfl | hz
        · exact .inr hb
        · rw [itemBefore_iff] at *; omega
    next hb =>
      refine ⟨List.mem_cons_of_mem _ hmem, fun z hz => ?_⟩
      rcases List.mem_cons.1 hz with rfl | hz
      · rw [itemBefore_iff] at *; omega
      · exact hleast z hz

/-- Taking an item out leaves the others. -/
theorem perm_cons_dropItem {a : Item} {items : List Item} (hnodup : (items.map Item.index).Nodup) (ha : a ∈ items) :
    items.Perm (a :: dropItem a.index items) := by
  have herase : dropItem a.index items = items.erase a := by
    rw [(hnodup.of_map _).erase_eq_filter]
    refine List.filter_congr fun y hy => ?_
    have hinj : y.index = a.index ↔ y = a := ⟨fun e => List.inj_on_of_nodup_map hnodup hy ha e, fun e => e ▸ rfl⟩
    by_cases hya : y = a <;> simp [hinj, hya]
  exact herase ▸ List.perm_cons_erase ha

theorem mem_dropItem {i : Nat} {x : Item} {items : List Item} :
    x ∈ dropItem i items ↔ x ∈ items ∧ x.index ≠ i := by
  simp [dropItem]

theorem Numbered.dropItem {k : Nat} {items : List Item} (h : Numbered k items) (i : Nat) :
    Numbered k (dropItem i items) :=
  ⟨h.1.sublist (List.filter_sublist.map _), fun x hx => h.2 x (mem_dropItem.1 hx).1⟩

/-! ### One merge (R155, R156) -/

/-- The node `k` above the first and the second item. -/
def mergedItem (a b : Item) (k : Nat) : Item :=
  { weight := a.weight + b.weight, index := k, tree := .internal a.tree b.tree }

/-- The items after `a` and `b` are merged to node `k`. -/
def mergedItems (a b : Item) (k : Nat) (items : List Item) : List Item :=
  dropItem b.index (dropItem a.index items) ++ [mergedItem a b k]

/-- One step of `mergeItems`. -/
theorem mergeItems_step (fuel : Nat) {k : Nat} {items : List Item} (h : Numbered k items) (hlen : 2 ≤ items.length) :
    ∃ a b, IsLeast a items ∧ IsLeast b (dropItem a.index items) ∧
      mergeItems (fuel + 1) k items = mergeItems fuel (k + 1) (mergedItems a b k items) := by
  match items, hlen with
  | x :: y :: zs, _ =>
    have ha := isLeast_leastItem x (y :: zs) h.1
    generalize hga : leastItem x (y :: zs) = a at ha
    have hperm := perm_cons_dropItem h.1 ha.1
    have htake : takeItem x (y :: zs) = (a, dropItem a.index (x :: y :: zs)) := by rw [takeItem, hga]; rfl
    cases hrest : dropItem a.index (x :: y :: zs) with
    | nil => rw [hrest] at hperm; cases hperm.length_eq
    | cons u us =>
      have hb : IsLeast (leastItem u us) (dropItem a.index (x :: y :: zs)) :=
        hrest ▸ isLeast_leastItem u us (hrest ▸ (h.dropItem a.index).1)
      refine ⟨a, leastItem u us, ha, hb, ?_⟩
      rw [mergeItems, htake, hrest]
      simp only [mergedItems, hrest]
      rfl

/-- The two items merged, and the others. -/
theorem perm_of_merge {a b : Item} {k : Nat} {items : List Item} (h : Numbered k items) (ha : IsLeast a items)
    (hb : IsLeast b (dropItem a.index items)) :
    items.Perm (a :: b :: dropItem b.index (dropItem a.index items)) :=
  (perm_cons_dropItem h.1 ha.1).trans ((perm_cons_dropItem (h.dropItem a.index).1 hb.1).cons a)

/-- The items after a merge are the merged one and the others. -/
theorem mergedItems_perm (a b : Item) (k : Nat) (items : List Item) :
    (mergedItems a b k items).Perm (mergedItem a b k :: dropItem b.index (dropItem a.index items)) :=
  List.perm_append_singleton _ _

theorem length_mergedItems {a b : Item} {k : Nat} {items : List Item} (h : Numbered k items) (ha : IsLeast a items)
    (hb : IsLeast b (dropItem a.index items)) : (mergedItems a b k items).length + 1 = items.length := by
  rw [(mergedItems_perm a b k items).length_eq, (perm_of_merge h ha hb).length_eq]
  rfl

theorem Numbered.merged {k : Nat} {items : List Item} (h : Numbered k items) (a b : Item) :
    Numbered (k + 1) (mergedItems a b k items) := by
  obtain ⟨hnodup, hlt⟩ := (h.dropItem a.index).dropItem b.index
  refine ⟨?_, fun x hx => ?_⟩
  · rw [mergedItems, List.map_append, List.map_singleton]
    refine hnodup.append (List.nodup_singleton _) fun i hi hk => ?_
    obtain ⟨x, hx, rfl⟩ := List.mem_map.1 hi
    exact (hlt x hx).ne (List.mem_singleton.1 hk)
  · rcases List.mem_append.1 hx with hx | hx
    · exact Nat.lt_succ_of_lt (hlt x hx)
    · rw [List.mem_singleton.1 hx]; exact Nat.lt_succ_self k

/-- What every merge keeps holds when one item is left, whose tree is the result. -/
theorem mergeItems_induction {I : Nat → List Item → Prop}
    (hstep : ∀ k items a b, Numbered k items → IsLeast a items → IsLeast b (dropItem a.index items) → I k items →
      I (k + 1) (mergedItems a b k items)) {fuel k : Nat} {items : List Item} (hne : items ≠ [])
    (hfuel : items.length ≤ fuel) (hnum : Numbered k items) (h : I k items) :
    ∃ k' x, mergeItems fuel k items = some x.tree ∧ I k' [x] := by
  induction fuel generalizing k items with
  | zero => exact absurd (List.eq_nil_of_length_eq_zero (Nat.le_zero.1 hfuel)) hne
  | succ fuel ih =>
    match items, hne with
    | [x], _ => exact ⟨k, x, rfl, h⟩
    | x :: y :: zs, _ =>
      obtain ⟨a, b, ha, hb, heq⟩ := mergeItems_step fuel hnum (Nat.le_add_left 2 zs.length)
      have hlen := length_mergedItems hnum ha hb
      rw [heq]
      refine ih (fun e => ?_) (by omega) (hnum.merged a b) (hstep k _ a b hnum ha hb h)
      rw [e] at hlen
      cases hlen

/-! ### The leaves (R151, R152) -/

/-- The leaf that waits for a symbol. -/
def leafItem (F : Nat → Nat) (k sym : Nat) : Item := { weight := F sym, index := k, tree := .leaf (BitVec.ofNat 9 sym) }

theorem leafItems_append (F : Nat → Nat) (k : Nat) (syms : List Nat) (v : Nat) :
    leafItems F k (syms ++ [v]) = leafItems F k syms ++
      if F v = 0 then [] else [leafItem F (k + (leafItems F k syms).length) v] := by
  induction syms generalizing k with
  | nil => simp only [List.nil_append, leafItems]; split <;> rfl
  | cons sym syms ih =>
    simp only [List.cons_append, leafItems]
    split
    · exact ih k
    · rw [ih (k + 1), List.length_cons, Nat.add_assoc, Nat.add_comm 1]; rfl

theorem mem_leafItems {F : Nat → Nat} {k : Nat} {syms : List Nat} {x : Item} (h : x ∈ leafItems F k syms) :
    k ≤ x.index ∧ x.index < k + (leafItems F k syms).length ∧
      ∃ v ∈ syms, x.weight = F v ∧ x.tree = .leaf (BitVec.ofNat 9 v) := by
  induction syms generalizing k with
  | nil => cases h
  | cons sym syms ih =>
    simp only [leafItems] at h ⊢
    split at h
    next hz =>
      obtain ⟨h1, h2, v, hv, hx⟩ := ih h
      simp only [if_pos hz]
      exact ⟨h1, h2, v, List.mem_cons_of_mem _ hv, hx⟩
    next hz =>
      simp only [if_neg hz, List.length_cons]
      rcases List.mem_cons.1 h with rfl | h
      · exact ⟨le_rfl, by simp, sym, List.mem_cons_self, rfl, rfl⟩
      · obtain ⟨h1, h2, v, hv, hx⟩ := ih h
        exact ⟨by omega, by omega, v, List.mem_cons_of_mem _ hv, hx⟩

theorem map_index_leafItems (F : Nat → Nat) (k : Nat) (syms : List Nat) :
    (leafItems F k syms).map Item.index = List.range' k (leafItems F k syms).length := by
  induction syms generalizing k with
  | nil => rfl
  | cons sym syms ih =>
    simp only [leafItems]
    split
    · exact ih k
    · rw [List.map_cons, ih, List.length_cons, List.range'_succ]

theorem numbered_leafItems (F : Nat → Nat) (syms : List Nat) :
    Numbered (leafItems F 0 syms).length (leafItems F 0 syms) := by
  refine ⟨map_index_leafItems F 0 syms ▸ List.nodup_range', fun x hx => ?_⟩
  obtain ⟨-, hlt, -⟩ := mem_leafItems hx
  omega

/-- The symbols on the leaves of the items. -/
def itemSymbols (items : List Item) : List Nat := items.flatMap fun x => treeSymbols x.tree

theorem itemSymbols_leafItems (F : Nat → Nat) (k : Nat) {syms : List Nat} (h : ∀ v ∈ syms, v < 2 ^ 9) :
    itemSymbols (leafItems F k syms) = syms.filter fun v => decide (F v ≠ 0) := by
  induction syms generalizing k with
  | nil => rfl
  | cons sym syms ih =>
    have ih := fun k => ih k fun v hv => h v (List.mem_cons_of_mem _ hv)
    have hsym : sym % 512 = sym := Nat.mod_eq_of_lt (h sym List.mem_cons_self)
    simp only [leafItems]
    split
    next hz => rw [ih, List.filter_cons_of_neg (by simpa using hz)]
    next hz =>
      rw [List.filter_cons_of_pos (by simpa using hz), ← ih (k + 1)]
      simp [itemSymbols, treeSymbols, hsym]

theorem leafItems_ne_nil {F : Nat → Nat} (h : F 256 = 1) : leafItems F 0 (List.range 257) ≠ [] := by
  rw [List.range_succ, leafItems_append, if_neg (by omega)]
  simp

/-! ### The whole (R150) -/

/-- What holds of the leaves and is kept by every merge holds of the tree of a table that counts the sentinel. -/
theorem build_induction {F : Nat → Nat} (hF : F 256 = 1) {I : Nat → List Item → Prop}
    (h : I (leafItems F 0 (List.range 257)).length (leafItems F 0 (List.range 257)))
    (hstep : ∀ k items a b, Numbered k items → IsLeast a items → IsLeast b (dropItem a.index items) → I k items →
      I (k + 1) (mergedItems a b k items)) :
    ∃ k x, build F = x.tree ∧ I k [x] := by
  obtain ⟨k, x, heq, hx⟩ := mergeItems_induction hstep (leafItems_ne_nil hF) le_rfl (numbered_leafItems F _) h
  exact ⟨k, x, by rw [build]; simp only [Config.nSym, heq]; rfl, hx⟩

/-- The leaves of the tree are the symbols that occur, each once (R158). -/
theorem treeSymbols_build {F : Nat → Nat} (hF : F 256 = 1) :
    (treeSymbols (build F)).Perm ((List.range 257).filter fun v => decide (F v ≠ 0)) := by
  obtain ⟨-, x, hx, hperm⟩ := build_induction hF
    (I := fun _ items => (itemSymbols items).Perm ((List.range 257).filter fun v => decide (F v ≠ 0)))
    (by rw [itemSymbols_leafItems F 0 fun v hv => by have := List.mem_range.1 hv; omega])
    (fun k items a b hnum ha hb hI => by
      refine List.Perm.trans ?_ hI
      refine ((mergedItems_perm a b k items).flatMap_right _).trans ?_
      refine .trans ?_ ((perm_of_merge hnum ha hb).flatMap_right _).symm
      simp [mergedItem, treeSymbols])
  rw [hx]
  simpa [itemSymbols] using hperm

theorem mem_treeSymbols_build {F : Nat → Nat} (hF : F 256 = 1) {v : Nat} :
    v ∈ treeSymbols (build F) ↔ v ≤ 256 ∧ F v ≠ 0 := by
  rw [(treeSymbols_build hF).mem_iff]
  simp [Nat.lt_succ_iff]

theorem nodup_treeSymbols_build {F : Nat → Nat} (hF : F 256 = 1) : (treeSymbols (build F)).Nodup :=
  (treeSymbols_build hF).nodup_iff.2 (List.nodup_range.filter _)

theorem length_treeSymbols (t : Tree) : (treeSymbols t).length = treeLeaves t := by
  induction t with
  | leaf sym => rfl
  | internal l r ihl ihr => simp [treeSymbols, treeLeaves, ihl, ihr]

theorem treeInternals_succ (t : Tree) : treeInternals t + 1 = treeLeaves t := by
  induction t with
  | leaf sym => rfl
  | internal l r ihl ihr => simp only [treeInternals, treeLeaves]; omega

/-- The tree needs no more entries than the arena has (R10). -/
theorem treeSize_build_le {F : Nat → Nat} (hF : F 256 = 1) : treeSize (build F) ≤ 513 := by
  have hlen := (treeSymbols_build hF).length_eq
  have hle := List.length_filter_le (fun v => decide (F v ≠ 0)) (List.range 257)
  have hin := treeInternals_succ (build F)
  rw [length_treeSymbols] at hlen
  rw [List.length_range] at hle
  unfold treeSize
  omega

theorem freqOf_sentinel (bytes : List Byte) : freqOf bytes 256 = 1 := rfl

theorem freqOf_byte (bytes : List Byte) (b : Byte) : freqOf bytes b.toNat = bytes.count b := by
  have hlt := b.isLt
  rw [freqOf, if_neg (by simp only [Config.eofSym]; omega), List.count]
  refine List.countP_congr fun c _ => ?_
  simp [BitVec.toNat_inj]

/-- Every byte of the input is on a leaf of its tree, and so is the sentinel. -/
theorem byte_mem_build {bytes : List Byte} {b : Byte} (h : b ∈ bytes) :
    b.toNat ∈ treeSymbols (build (freqOf bytes)) := by
  refine (mem_treeSymbols_build (freqOf_sentinel bytes)).2 ⟨by have := b.isLt; omega, ?_⟩
  rw [freqOf_byte]
  exact (List.count_pos_iff.2 h).ne'

theorem sentinel_mem_build (bytes : List Byte) : 256 ∈ treeSymbols (build (freqOf bytes)) :=
  (mem_treeSymbols_build (freqOf_sentinel bytes)).2 ⟨le_rfl, one_ne_zero⟩

end Sys2Proof.Machine

/-! SUPPORT. The stream of COMPRESS is read back by DECOMPRESS (R131), and the lengths of the codes (R137). -/

namespace Sys2Proof.Machine

/-! ### Decompressing what compressing gives (R131) -/

theorem parseTree_header (magic : BitVec 32) {cap : Nat} (hcap : 513 ≤ cap) (bytes : List Byte) (rest : BitString) :
    parseTree cap ((bitsOf 32 magic.toNat ++ (hdr (build (freqOf bytes)) ++ rest)).length + 1) 0
      (hdr (build (freqOf bytes)) ++ rest) =
    .ok (build (freqOf bytes), treeSize (build (freqOf bytes)), rest) := by
  have hF := freqOf_sentinel bytes
  have hsize := treeSize_build_le hF
  have hlen := treeSize_le_length_hdr (build (freqOf bytes))
  rw [parseTree_hdr (fun v hv => ((mem_treeSymbols_build hF).1 hv).1) (by omega)
    (by simp only [List.length_append]; omega), Nat.zero_add]

/-- The source does not start with MAGIC. -/
def lacksMagic (magic : BitVec 32) (bits : BitString) : Prop := bits.length < 32 ∨ valOf (bits.take 32) ≠ magic.toNat

/-- What DECOMPRESS comes to after the header `t`, with `rest` still to read (R126). -/
def afterHeader (t : Tree) (rest : BitString) : Except ErrKind (List Nat) :=
  match t with
  | .leaf sym => if sym.toNat = 256 then .ok [] else .error .degenerateTree
  | .internal _ _ => (walk t rest).map Prod.fst

section Result

variable {magic : BitVec 32} {cap n : Nat} {bits rest : BitString} {t : Tree}

theorem decompressResult_lacks (h : lacksMagic magic bits) :
    decompressResult magic cap bits = .error .badHeaderMagic := if_pos h

theorem decompressResult_error (h : ¬ lacksMagic magic bits) {e : ErrKind}
    (hparse : parseTree cap (bits.length + 1) 0 (bits.drop 32) = .error e) :
    decompressResult magic cap bits = .error e := by
  rw [decompressResult, if_neg (by exact h), hparse]

theorem decompressResult_ok (h : ¬ lacksMagic magic bits)
    (hparse : parseTree cap (bits.length + 1) 0 (bits.drop 32) = .ok (t, n, rest)) :
    decompressResult magic cap bits = afterHeader t rest := by
  rw [decompressResult, if_neg (by exact h), hparse]
  cases t with
  | leaf sym => rfl
  | internal l r =>
    simp only [afterHeader]
    cases walk (.internal l r) rest <;> rfl

/-- A source that does not lack MAGIC starts with it. -/
theorem starts_of_not_lacksMagic (h : ¬ lacksMagic magic bits) : bits = bitsOf 32 magic.toNat ++ bits.drop 32 := by
  obtain ⟨hlen, hv⟩ := not_or.1 h
  rw [← not_not.1 hv, bitsOf_valOf_of_length (List.length_take_of_le (Nat.not_lt.1 hlen)), List.take_append_drop]

theorem not_lacksMagic (magic : BitVec 32) (rest : BitString) : ¬ lacksMagic magic (bitsOf 32 magic.toNat ++ rest) := by
  rw [lacksMagic, take_bitsOf_append, valOf_bitsOf magic.isLt, List.length_append, length_bitsOf]
  omega

/-- After the header of a tree with the sentinel, DECOMPRESS gives what the walk does, also where the tree is a lone
leaf. -/
theorem afterHeader_of_walk {out : List Nat} {after : BitString} (hs : 256 ∈ treeSymbols t)
    (hwalk : walk t rest = .ok (out, after)) : afterHeader t rest = .ok out := by
  cases t with
  | leaf sym =>
    have hsym : sym.toNat = 256 := (List.mem_singleton.1 hs).symm
    rw [walk, walkFrom_sentinel _ hsym] at hwalk
    cases hwalk
    exact if_pos hsym
  | internal l r => rw [afterHeader, hwalk]; rfl

end Result

/-- Settles O50: the header is parsed to its tree, and the walk reads the body back. -/
theorem roundTrip : Obligations.RoundTrip := by
  intro magic cap bytes padding hcap
  have hwalk := walk_bodyBits (sentinel_mem_build bytes) (fun _ hb => byte_mem_build hb) padding
  have hparse := parseTree_header magic hcap bytes (bodyBits (build (freqOf bytes)) bytes ++ padding)
  rw [compressBits, List.append_assoc, List.append_assoc,
    decompressResult_ok (not_lacksMagic magic _) (by rw [drop_bitsOf_append]; exact hparse)]
  exact afterHeader_of_walk (sentinel_mem_build bytes) hwalk

/-! ### The weights in a tree of merges -/

/-- The sum of the counts of a tree's symbols. -/
def treeWeight (F : Nat → Nat) : Tree → Nat
  | .leaf sym => F sym.toNat
  | .internal l r => treeWeight F l + treeWeight F r

/-- The weights of the two children of each internal node. -/
def childWeights (F : Nat → Nat) : Tree → List (Nat × Nat)
  | .leaf _ => []
  | .internal l r => (treeWeight F l, treeWeight F r) :: (childWeights F l ++ childWeights F r)

/-- Both of one pair weigh no more than either of the other: that pair was merged before the other, or after it. -/
def Apart (P Q : Nat × Nat) : Prop := max P.1 P.2 ≤ min Q.1 Q.2 ∨ max Q.1 Q.2 ≤ min P.1 P.2

theorem Apart.symm {P Q : Nat × Nat} (h : Apart P Q) : Apart Q P := Or.symm h

/-- `u` is the tree below a node of `t` at depth `n`. -/
inductive AtDepth (u : Tree) : Nat → Tree → Prop
  | root : AtDepth u 0 u
  | left {n : Nat} {l r : Tree} (h : AtDepth u n l) : AtDepth u (n + 1) (.internal l r)
  | right {n : Nat} {l r : Tree} (h : AtDepth u n r) : AtDepth u (n + 1) (.internal l r)

theorem AtDepth.weight_le (F : Nat → Nat) {u t : Tree} {n : Nat} (h : AtDepth u n t) :
    treeWeight F u ≤ treeWeight F t := by
  induction h with
  | root => exact le_rfl
  | left _ ih => exact ih.trans (Nat.le_add_right _ _)
  | right _ ih => exact ih.trans (Nat.le_add_left _ _)

/-- A node below the root is a child of a node one level up. -/
theorem AtDepth.parent {u t : Tree} {n : Nat} (h : AtDepth u (n + 1) t) :
    ∃ l r, AtDepth (.internal l r) n t ∧ (u = l ∨ u = r) := by
  induction t generalizing n with
  | leaf sym => cases h
  | internal l r ihl ihr =>
    cases n with
    | zero =>
      refine ⟨l, r, .root, ?_⟩
      cases h with
      | left h => cases h; exact .inl rfl
      | right h => cases h; exact .inr rfl
    | succ n =>
      cases h with
      | left h => obtain ⟨l', r', h, hu⟩ := ihl h; exact ⟨l', r', .left h, hu⟩
      | right h => obtain ⟨l', r', h, hu⟩ := ihr h; exact ⟨l', r', .right h, hu⟩

theorem AtDepth.mem_childWeights (F : Nat → Nat) {l r t : Tree} {n : Nat} (h : AtDepth (.internal l r) n t) :
    (treeWeight F l, treeWeight F r) ∈ childWeights F t := by
  generalize hu : Tree.internal l r = u at h
  induction h with
  | root => rw [← hu]; exact List.mem_cons_self
  | left _ ih => exact List.mem_cons_of_mem _ (List.mem_append_left _ ih)
  | right _ ih => exact List.mem_cons_of_mem _ (List.mem_append_right _ ih)

/-- Nodes at two depths are two nodes, so their pairs of children are apart where all pairs are. -/
theorem apart_of_depth_ne {F : Nat → Nat} {t l r l' r' : Tree} {m n : Nat} (ht : (childWeights F t).Pairwise Apart)
    (h : AtDepth (.internal l r) m t) (h' : AtDepth (.internal l' r') n t) (hne : m ≠ n) :
    Apart (treeWeight F l, treeWeight F r) (treeWeight F l', treeWeight F r') := by
  induction t generalizing m n with
  | leaf sym => cases h
  | internal tl tr ihl ihr =>
    obtain ⟨hroot, hbelow⟩ := List.pairwise_cons.1 ht
    obtain ⟨htl, htr, hcross⟩ := List.pairwise_append.1 hbelow
    cases h with
    | root =>
      cases h' with
      | root => exact absurd rfl hne
      | left h' => exact hroot _ (List.mem_append_left _ (h'.mem_childWeights F))
      | right h' => exact hroot _ (List.mem_append_right _ (h'.mem_childWeights F))
    | left h =>
      cases h' with
      | root => exact (hroot _ (List.mem_append_left _ (h.mem_childWeights F))).symm
      | left h' => exact ihl htl h h' (by omega)
      | right h' => exact hcross _ (h.mem_childWeights F) _ (h'.mem_childWeights F)
    | right h =>
      cases h' with
      | root => exact (hroot _ (List.mem_append_right _ (h.mem_childWeights F))).symm
      | left h' => exact (hcross _ (h'.mem_childWeights F) _ (h.mem_childWeights F)).symm
      | right h' => exact ihr htr h h' (by omega)

/-- A node nearer to the root weighs at least as much: if the deeper node's parent weighs no more than the other's, and
the two pairs of children are apart, then no child of the first weighs more than a child of the other. -/
theorem weight_le_of_deeper {F : Nat → Nat} {t u v : Tree} {m n : Nat} (ht : (childWeights F t).Pairwise Apart)
    (hu : AtDepth u m t) (hv : AtDepth v n t) (hmn : m < n) : treeWeight F v ≤ treeWeight F u := by
  induction m generalizing n u v with
  | zero => cases hu; exact hv.weight_le F
  | succ m ih =>
    obtain ⟨n, rfl⟩ : ∃ k, n = k + 1 := Nat.exists_eq_succ_of_ne_zero (by omega)
    obtain ⟨l, r, hp, hu⟩ := hu.parent
    obtain ⟨l', r', hp', hv⟩ := hv.parent
    have hparents := ih hp hp' (by omega)
    have hapart := apart_of_depth_ne ht hp hp' (by omega)
    simp only [treeWeight, Apart] at hparents hapart
    rcases hu with rfl | rfl <;> rcases hv with rfl | rfl <;> omega

/-- The code of a symbol leads to its leaf. -/
theorem atDepth_of_codeOf {t : Tree} {v : Nat} {p : BitString} (h : codeOf t v = some p) :
    ∃ sym, sym.toNat = v ∧ AtDepth (.leaf sym) p.length t := by
  induction t generalizing p with
  | leaf sym =>
    rw [codeOf_leaf] at h
    split at h <;> cases h
    next hv => exact ⟨sym, hv.symm, .root⟩
  | internal l r ihl ihr =>
    obtain ⟨q, hq, rfl⟩ | ⟨q, hq, rfl⟩ := codeOf_internal h
    · obtain ⟨sym, hsym, hd⟩ := ihl hq; exact ⟨sym, hsym, .left hd⟩
    · obtain ⟨sym, hsym, hd⟩ := ihr hq; exact ⟨sym, hsym, .right hd⟩

/-! ### Merging the two least keeps the pairs apart (R137) -/

/-- The pairs of children in the items' trees. -/
def itemPairs (F : Nat → Nat) (items : List Item) : List (Nat × Nat) := items.flatMap fun x => childWeights F x.tree

/-- What holds of the items: each weighs what its symbols count, the pairs merged are apart, and no item weighs less
than one that was merged. -/
structure MergedInOrder (F : Nat → Nat) (items : List Item) : Prop where
  weights : ∀ x ∈ items, x.weight = treeWeight F x.tree
  apart : (itemPairs F items).Pairwise Apart
  heavier : ∀ P ∈ itemPairs F items, ∀ x ∈ items, max P.1 P.2 ≤ x.weight

theorem MergedInOrder.leafItems (F : Nat → Nat) (k : Nat) {syms : List Nat} (h : ∀ v ∈ syms, v < 2 ^ 9) :
    MergedInOrder F (leafItems F k syms) := by
  have hnone : itemPairs F (Machine.leafItems F k syms) = [] := by
    refine List.flatMap_eq_nil_iff.2 fun x hx => ?_
    obtain ⟨-, -, v, -, -, htree⟩ := mem_leafItems hx
    rw [htree]; rfl
  refine ⟨fun x hx => ?_, by rw [hnone]; exact .nil, by rw [hnone]; exact nofun⟩
  obtain ⟨-, -, v, hv, hweight, htree⟩ := mem_leafItems hx
  rw [hweight, htree, treeWeight, BitVec.toNat_ofNat, Nat.mod_eq_of_lt (h v hv)]

/-- A merge adds the pair of the two that it merges. -/
theorem itemPairs_merged {F : Nat → Nat} {k : Nat} {items : List Item} {a b : Item} (hnum : Numbered k items)
    (ha : IsLeast a items) (hb : IsLeast b (dropItem a.index items)) :
    (itemPairs F (mergedItems a b k items)).Perm ((treeWeight F a.tree, treeWeight F b.tree) :: itemPairs F items) := by
  refine ((mergedItems_perm a b k items).flatMap_right _).trans ?_
  refine .trans ?_ (((perm_of_merge hnum ha hb).flatMap_right _).symm.cons _)
  simp [mergedItem, childWeights]

theorem mem_mergedItems {k : Nat} {items : List Item} {a b x : Item} (h : x ∈ mergedItems a b k items) :
    x = mergedItem a b k ∨ x ∈ dropItem a.index items := by
  rcases List.mem_cons.1 ((mergedItems_perm a b k items).mem_iff.1 h) with rfl | h
  · exact .inl rfl
  · exact .inr (mem_dropItem.1 h).1

theorem MergedInOrder.merge {F : Nat → Nat} {k : Nat} {items : List Item} {a b : Item} (h : MergedInOrder F items)
    (hnum : Numbered k items) (ha : IsLeast a items) (hb : IsLeast b (dropItem a.index items)) :
    MergedInOrder F (mergedItems a b k items) := by
  obtain ⟨hweights, hapart, hheavier⟩ := h
  have hpairs := itemPairs_merged (F := F) hnum ha hb
  have hbmem : b ∈ items := (mem_dropItem.1 hb.1).1
  have hab := ha.weight_le hbmem
  have hwa := hweights a ha.1
  have hwb := hweights b hbmem
  refine ⟨fun x hx => ?_, ?_, fun P hP x hx => ?_⟩
  · rcases mem_mergedItems hx with rfl | hx
    · simp only [mergedItem, treeWeight, hwa, hwb]
    · exact hweights x (mem_dropItem.1 hx).1
  · rw [hpairs.pairwise_iff fun h => h.symm]
    refine List.pairwise_cons.2 ⟨fun P hP => .inr ?_, hapart⟩
    have := hheavier P hP a ha.1
    omega
  · have hx : b.weight ≤ x.weight := by
      rcases mem_mergedItems hx with rfl | hx
      · exact Nat.le_add_left _ _
      · exact hb.weight_le hx
    rcases List.mem_cons.1 (hpairs.mem_iff.1 hP) with rfl | hP
    · simp only; omega
    · exact (hheavier P hP b hbmem).trans hx

/-- Settles O54: the pairs merged for `build F` are apart, so a leaf nearer to the root weighs at least as much. -/
theorem frequentSymbolsHaveShortCodes : Obligations.FrequentSymbolsHaveShortCodes := by
  intro F a b p q hF hp hq hlt
  obtain ⟨-, x, hx, hmerged⟩ := build_induction hF (I := fun _ items => MergedInOrder F items)
    (.leafItems F 0 fun v hv => by have := List.mem_range.1 hv; omega)
    (fun k items a b hnum ha hb h => h.merge hnum ha hb)
  have hapart : (childWeights F (build F)).Pairwise Apart := by
    rw [hx]; simpa [itemPairs] using hmerged.apart
  obtain ⟨syma, rfl, ha⟩ := atDepth_of_codeOf hp
  obtain ⟨symb, rfl, hb⟩ := atDepth_of_codeOf hq
  by_contra hlen
  exact absurd (weight_le_of_deeper hapart hb ha (Nat.not_le.1 hlen)) (Nat.not_le.2 hlt)

end Sys2Proof.Machine

/-! SUPPORT. The commands: acceptance, the resting phases, CLOSE, and the phases a step leads to. -/

namespace Sys2Proof.Machine

variable {s t u : State}

/-! ### Commands and resting phases -/

theorem busy_eq {p : Phase} (hp : s.phase = p) : s.busy = phaseBusy p := congrArg phaseBusy hp

/-- A command that is accepted leaves the block at its values of R45 (R120). -/
theorem offerCommand_accepts {o : Offer} (hb : s.busy = false) (ho : s.cmd = some o) (hsh : o.shared = false)
    (op : BitVec 1) :
    offerCommand op s = .next { s.initBlock with
      mode := op, phase := if op = 0 then .cnt else .rdMagic, src := o.src, snk := o.snk, cmd := none,
      trace := [] } := by
  rcases offerCommand_cases op s with ⟨hb', -⟩ | ⟨-, ho', -⟩ | ⟨o', -, ho', h⟩
  · rw [hb] at hb'; cases hb'
  · rw [ho] at ho'; cases ho'
  · rw [ho] at ho'; cases ho'
    rw [h, accept_next hsh]

/-- A command word while the block is busy, or with nothing offered, changes nothing (R268; log 14). -/
theorem offerCommand_waits (h : s.busy = true ∨ s.cmd = none) (op : BitVec 1) : offerCommand op s = .next s := by
  rcases offerCommand_cases op s with ⟨-, e⟩ | ⟨-, -, e⟩ | ⟨o, hb, ho, -⟩
  · exact e
  · exact e
  · rcases h with h | h
    · rw [hb] at h; cases h
    · rw [ho] at h; cases h

/-- Settles O8: both commands are `offerCommand`, which accepts the offer or waits. -/
theorem commandIsAccepted : Obligations.CommandIsAccepted := by
  refine ⟨fun s o hb ho hsh => ⟨?_, ?_⟩, fun s h => ⟨offerCommand_waits h 0, offerCommand_waits h 1⟩⟩
  · exact ⟨_, offerCommand_accepts hb ho hsh 0, s.fresh_initBlock, rfl, rfl, rfl, rfl, rfl, rfl, rfl, rfl⟩
  · exact ⟨_, offerCommand_accepts hb ho hsh 1, s.fresh_initBlock, rfl, rfl, rfl, rfl, rfl, rfl, rfl, rfl⟩

/-- A block at rest with no command and no reset stays where it is (R129, R130; log 14). -/
theorem step_waits (hb : s.busy = false) (hr : s.rst = false) (hc : s.cmd = none) : step s = .next s := by
  rw [step_selected hr, selected_waiting hc]
  cases hp : s.phase <;> cases hb.symm.trans (busy_eq hp) <;> rfl

/-- Settles O10: each of the three operations answers the same state, and one of them is selected. -/
theorem restingPhasesWait : Obligations.RestingPhasesWait := fun _ => ⟨rfl, rfl, rfl, step_waits⟩

/-! ### CLOSE -/

/-- The padding fills the last byte (R69). -/
theorem padLength_fills (n : Nat) : (n + padLength n) % 8 = 0 ∧ padLength n < 8 := by
  unfold padLength; omega

/-- CLOSE where the service answers normally: the sink is closed and padded, and the run has ended (R128, R69). -/
theorem execClose_ok (ha : s.answer = .ok) :
    ∃ pad, execClose s = .next { s with
      phase := .done, snk := { bits := s.snk.bits, closed := true, pad := pad }, io := s.io.tail
      trace := .close true :: s.trace, draws := s.draws + 1 } ∧
      pad.length = padLength s.snk.bits.length :=
  ⟨_, by rw [execClose, snkClose_ok ha]; rfl, length_bitsOf _ _⟩

/-- CLOSE where the close fails: the error is taken, and SnkClose is not called again (R240). -/
theorem execClose_fail (ha : s.answer = .fail) (he : s.errcode = 0) :
    execClose s = .next ({ (s.issue (.close false)).closeSink with errcode := 4 } : State).enterErr := by
  have hrecord : ((s.issue (.close false)).closeSink).recordErr .ioFailure =
      { (s.issue (.close false)).closeSink with errcode := 4 } := if_pos he
  rw [execClose, snkClose_fail ha]
  simp only [raiseClosed, hrecord]

/-- Settles O29: the sink's service answers the close, or fails it. -/
theorem closeStep : Obligations.CloseStep := by
  refine ⟨fun s hio => ?_, fun s ha he => ⟨_, _, _, execClose_fail ha he⟩⟩
  obtain ⟨pad, hstep, hpad⟩ := execClose_ok (State.ioOk_one.1 hio)
  exact ⟨pad, hstep, hpad ▸ padLength_fills s.snk.bits.length⟩

/-! ### The phases a step leads to -/

theorem Raised.phase_eq {e : ErrKind} (h : Raised e s t) : t.phase = .err := by
  obtain ⟨answered, bits, pad, draws, rfl⟩ := h
  rfl

/-- BLD_INIT goes on to the next symbol or to BLD_MERGE, and raises no error (R152, R231). -/
theorem execBldInit_phase (hp : s.phase = .bldInit) (h : execBldInit s = .next t) :
    t.phase ∈ successors .bldInit := by
  have hnext : ∀ u : State, u.phase = .bldInit → (nextSymbol u).phase ∈ successors .bldInit := fun u hu => by
    obtain ⟨-, e⟩ | ⟨-, e⟩ := nextSymbol_cases u <;> rw [e] <;> simp [successors, hu]
  obtain ⟨-, ⟨-, rfl⟩ | ⟨-, -, rfl⟩⟩ := execBldInit_next h
  · exact hnext s hp
  · exact hnext _ hp

/-- BLD_MERGE merges or goes on to GEN, and raises no error (R155, R231). -/
theorem execBldMerge_phase (hp : s.phase = .bldMerge) (h : execBldMerge s = .next t) :
    t.phase ∈ successors .bldMerge := by
  obtain ⟨r, -, rfl⟩ | ⟨a, b, wa, wb, na, nb, -, -, -, -, -, -, rfl⟩ := execBldMerge_next h
  · simp [successors]
  · simp [successors, hp]

/-- The phases but BLD_INIT and BLD_MERGE have an error exit (R121, R125, R240). -/
theorem err_mem_successors {p : Phase} (hb : phaseBusy p = true) (hinit : p ≠ .bldInit) (hmerge : p ≠ .bldMerge) :
    .err ∈ successors p := by
  cases p <;> simp_all [phaseBusy, successors]

/-- Settles O12: by cases on what the step does, where BLD_INIT and BLD_MERGE raise no error. -/
theorem phasesFollowTheControlFlow : Obligations.PhasesFollowTheControlFlow := by
  intro s t hb hr hstep
  by_cases hinit : s.phase = .bldInit
  · rw [step_busy hr hb, hinit] at hstep
    exact hinit ▸ execBldInit_phase hinit hstep
  by_cases hmerge : s.phase = .bldMerge
  · rw [step_busy hr hb, hmerge] at hstep
    exact hmerge ▸ execBldMerge_phase hmerge hstep
  cases busyStep_of_step hb hr hstep with
  | skipSymbol hp | leafSymbol hp => exact absurd hp hinit
  | merge hp | mergeEnd hp => exact absurd hp hmerge
  | count hp | countEnd hp | genLeaf hp | genInternal hp | genEnd hp | wrMagic hp | wrLeaf hp | wrInternal hp
  | wrHdrEnd hp | rewind hp | encodeEnd hp | rdMagic hp | rdHdrEnd hp | decEnd hp | decLeaf hp | decInternal hp
  | close hp => simp [successors, State.afterRead, State.afterWrite, hp]
  | encode hp _ _ _ _ _ _ _ hu =>
    obtain ⟨more, io, calls, rfl, -, -⟩ := hu
    simp [successors, State.afterRead, hp]
  | encEof hp => simp [successors, hp]
  | rdInternal hp _ _ _ _ _ _ _ hfill | rdLeaf hp _ _ _ _ _ _ _ _ hfill =>
    have hphase := (fill_keeps hfill).1
    simp [hphase, successors, State.afterRead, hp]
  | raised e u _ _ ht => exact ht.phase_eq ▸ err_mem_successors hb hinit hmerge

/-- Settles O42: by cases on what the step does. -/
theorem noSinkCallBeforeTheScanEnds : Obligations.NoSinkCallBeforeTheScanEnds := by
  intro s t hr hstep herr
  refine ⟨fun hearly => ?_, fun hcnt hinit => ?_⟩
  · have hb : s.busy = true := by rcases hearly with hp | hp | hp | hp <;> exact busy_eq hp
    cases busyStep_of_step hb hr hstep with
    | count | countEnd | merge | mergeEnd | genLeaf | genInternal | genEnd => rfl
    | skipSymbol =>
      obtain ⟨phase, sym, e⟩ := nextSymbol_frame s
      rw [e]
    | leafSymbol =>
      obtain ⟨phase, sym, e⟩ := nextSymbol_frame s.withLeaf
      rw [e]; rfl
    | raised e u _ _ ht => exact absurd ht.phase_eq herr
    | wrMagic hp | wrLeaf hp | wrInternal hp | wrHdrEnd hp | rewind hp | encode hp | encodeEnd hp | encEof hp | rdMagic hp
    | rdInternal hp | rdLeaf hp | rdHdrEnd hp | decEnd hp | decLeaf hp | decInternal hp | close hp => simp [hp] at hearly
  · rw [step_busy hr (busy_eq hcnt), hcnt] at hstep
    rcases execCnt_next hstep with ⟨b, -, rfl⟩ | ⟨b, -, ht⟩ | ⟨p, -, -, -, rfl⟩ | ⟨p, -, ht⟩
    · cases hcnt.symm.trans hinit
    · exact absurd ht.phase_eq herr
    · rfl
    · exact absurd ht.phase_eq herr

/-- Settles O45: by cases on what DEC does (R211). -/
theorem decSucceedsOnlyOnTheSentinel : Obligations.DecSucceedsOnlyOnTheSentinel := by
  intro s t hp hr hstep hclose
  rw [step_busy hr (busy_eq hp), hp] at hstep
  rcases execDec_next hstep with ⟨w, sym, hn, ⟨hs, rfl⟩ | ⟨-, -, rfl | ht⟩⟩ |
    ⟨w, l, r, -, ⟨d, c, -, -, -, -, rfl⟩ | ⟨p, -, -, -, ht⟩ | ⟨p, -, ht⟩⟩
  · exact ⟨⟨w, sym, hn, hs⟩, rfl⟩
  · cases hp.symm.trans hclose
  · cases ht.phase_eq.symm.trans hclose
  · cases hp.symm.trans hclose
  · cases ht.phase_eq.symm.trans hclose
  · cases ht.phase_eq.symm.trans hclose

end Sys2Proof.Machine

/-! SUPPORT. Runs: steps one after another, and what a run launched under the premises keeps while it goes on. -/

namespace Sys2Proof.Machine

variable {s t u : State}

/-! ### Steps one after another -/

theorem reaches_zero : Reaches 0 s t ↔ s = t :=
  ⟨fun h => by cases h; rfl, fun h => by subst h; rfl⟩

/-- A run of one step more is a step and then the run. -/
theorem run_succ_next (M : Host.Core) {k : Nat} {a c : M.State} :
    M.run (k + 1) a = .next c ↔ ∃ b, M.step a = .next b ∧ M.run k b = .next c := by
  rw [Host.Core.run]
  cases M.step a <;> simp

theorem reaches_succ {k : Nat} : Reaches (k + 1) s t ↔ ∃ u, step s = .next u ∧ Reaches k u t := run_succ_next core

theorem Reaches.trans {k m : Nat} (h : Reaches k s t) (h' : Reaches m t u) : Reaches (k + m) s u := by
  induction k generalizing s with
  | zero => obtain rfl := reaches_zero.1 h; rwa [Nat.zero_add]
  | succ k ih =>
    obtain ⟨v, hv, h⟩ := reaches_succ.1 h
    rw [Nat.succ_add]
    exact reaches_succ.2 ⟨v, hv, ih h⟩

/-- Some number of steps leads from `s` to `t`. -/
def Leads (s t : State) : Prop := ∃ k, Reaches k s t

theorem Leads.refl (s : State) : Leads s s := ⟨0, rfl⟩

theorem Leads.trans (h : Leads s t) (h' : Leads t u) : Leads s u := by
  obtain ⟨k, h⟩ := h
  obtain ⟨m, h'⟩ := h'
  exact ⟨k + m, h.trans h'⟩

theorem Leads.of_step (h : step s = .next t) : Leads s t := ⟨1, reaches_succ.2 ⟨t, h, rfl⟩⟩

theorem Leads.head (h : step s = .next t) (h' : Leads t u) : Leads s u := (Leads.of_step h).trans h'

/-- A block at rest with no command and no reset is where every further step leads (R129, R130; log 14). -/
theorem eq_of_reaches_waiting (hb : s.busy = false) (hr : s.rst = false) (hc : s.cmd = none) {k : Nat}
    (h : Reaches k s t) : t = s := by
  induction k with
  | zero => exact (reaches_zero.1 h).symm
  | succ k ih =>
    obtain ⟨u, hu, h⟩ := reaches_succ.1 h
    rw [step_waits hb hr hc] at hu
    cases hu
    exact ih h

/-! ### A run that goes on -/

/-- What holds of a run launched under the premises while it goes on: every call is answered normally, the parameters
are `params`, the source holds `input` and the sink `out`. -/
structure Ongoing (params : Params) (input out : BitString) (s : State) : Prop where
  inv : RunInv s
  noReset : s.rst = false
  noOffer : s.cmd = none
  answered : s.ioAllOk = true
  params_eq : s.params = params
  input_eq : s.src.bits = input
  out_eq : s.snk.bits = out

section Ongoing

variable {params : Params} {input out out' : BitString}

theorem Ongoing.answer (h : Ongoing params input out s) : s.answer = .ok := State.answer_ok_of_all h.answered

theorem ioAllOk_of_suffix (h : s.ioAllOk = true) (hio : u.io <:+ s.io) : u.ioAllOk = true := by
  unfold State.ioAllOk at *
  rw [List.all_eq_true] at *
  exact fun a ha => h a (hio.subset ha)

theorem ioOk_of_all (h : s.ioAllOk = true) (k : Nat) : s.ioOk k = true := by
  unfold State.ioAllOk State.ioOk at *
  rw [List.all_eq_true] at *
  exact fun a ha => h a (List.take_subset k _ ha)

/-- Where every call is answered normally, every call returns. -/
theorem ioReturns_of_all (h : s.ioAllOk = true) : s.ioReturns = true := by
  unfold State.ioAllOk State.ioReturns at *
  rw [List.all_eq_true] at *
  exact fun a ha => decide_eq_true fun hnever => IoAnswer.noConfusion ((of_decide_eq_true (h a ha)).symm.trans hnever)

theorem Ongoing.position (h : Ongoing params input out s) : s.src.pos ≤ s.src.bits.length := h.inv.block.position.1

theorem Ongoing.sinkOpen (h : Ongoing params input out s) (hb : s.busy = true) : s.snk.closed = false :=
  h.inv.sinkOpen hb

theorem Ongoing.errcode (h : Ongoing params input out s) (hb : s.busy = true) : s.errcode = 0 :=
  h.inv.block.errorCode.2 (ne_err_of_phaseBusy hb)

/-- A step of a busy block keeps all of it but what is in the sink. -/
theorem Ongoing.after (h : Ongoing params input out s) (hb : s.busy = true) (hstep : step s = .next t)
    (hout : t.snk.bits = out') : Ongoing params input out' t := by
  obtain ⟨hparams, -, hrst, hcmd, hbits, -⟩ := onlyItsWritersChangeARegister s t hb h.noReset hstep
  exact ⟨h.inv.busyStep hb h.noReset hstep, hrst.trans h.noReset, hcmd.trans h.noOffer,
    ioAllOk_of_suffix h.answered (busyStep_of_step hb h.noReset hstep).io, hparams.trans h.params_eq,
    hbits.trans h.input_eq, hout⟩

/-- A step of a phase operation. -/
theorem Ongoing.stepExec (h : Ongoing params input out s) {p : Phase} (hp : s.phase = p) (hb : phaseBusy p = true)
    (hexec : exec (operationOf p) s = .next t) (hout : t.snk.bits = out') :
    step s = .next t ∧ Ongoing params input out' t := by
  have hbusy : s.busy = true := (busy_eq hp).trans hb
  have hstep : step s = .next t := by rw [step_busy h.noReset hbusy, hp]; exact hexec
  exact ⟨hstep, h.after hbusy hstep hout⟩

/-! ### The bits not read yet -/

/-- The bits of the source from the position on. -/
def State.remaining (s : State) : BitString := s.src.bits.drop s.src.pos

/-- A read takes the first bits of those that remain (R62). -/
theorem srcRead_remaining {n : Nat} {p rest : BitString} (hrem : s.remaining = p ++ rest) (hp : p.length = n)
    (h1 : 1 ≤ n) (h2 : n ≤ 32) (ha : s.answer = .ok) :
    srcRead n s = .value (valOf p) (s.afterRead n (valOf p)) ∧ (s.afterRead n (valOf p)).remaining = rest := by
  refine ⟨?_, ?_⟩
  · rw [srcRead_starts hp h1 h2 ⟨rest, hrem.symm⟩, srcAnswer_ok ha]
  · show s.src.bits.drop (s.src.pos + n) = rest
    rw [← List.drop_drop]
    show s.remaining.drop n = rest
    rw [hrem, ← hp, List.drop_left]

/-- A read of the next bit. -/
theorem srcRead_bit {b : Bool} {rest : BitString} (hrem : s.remaining = b :: rest) (ha : s.answer = .ok) :
    srcRead 1 s = .value (if b then 1 else 0) (s.afterRead 1 (if b then 1 else 0)) ∧
      (s.afterRead 1 (if b then 1 else 0)).remaining = rest := by
  have h := srcRead_remaining (n := 1) (p := [b]) hrem rfl le_rfl (by omega) ha
  rwa [valOf_single] at h

/-- A read misses where too few bits remain (R63). -/
theorem srcRead_exhausted {n : Nat} (hrem : s.remaining.length < n) (h1 : 1 ≤ n) (h2 : n ≤ 32) (ha : s.answer = .ok)
    (hp : s.src.pos ≤ s.src.bits.length) : ∃ p, srcRead n s = .eos (s.afterMiss n .eos p) := by
  have hshort : s.sourceShort n := by
    rw [State.remaining, List.length_drop] at hrem
    unfold State.sourceShort
    omega
  obtain ⟨p, -, -, h⟩ := srcRead_eos h1 h2 ha hshort hp
  exact ⟨p, h⟩

/-! ### The start and the ends of a run -/

/-- The first step of a run accepts the offer, and the run goes on (R120, R263). -/
theorem Launched.accept {o : Offer} (h : Launched s o) :
    step s = .next (s.accepted o) ∧ Ongoing s.params o.src.bits [] (s.accepted o) := by
  obtain ⟨hb, hr, hc, ⟨hpos, hout, hopen, hsh, -⟩, hio, hcap⟩ := h
  have hstep : step s = .next (s.accepted o) := by
    have hop : o.op = 0 ∨ o.op = 1 := by generalize o.op = x; revert x; decide
    rw [step_selected hr, selected_offered hb hc]
    rcases hop with hop | hop
    · rw [if_pos hop]
      exact (offerCommand_accepts hb hc hsh 0).trans (by rw [State.accepted, hop])
    · rw [if_neg (by rw [hop]; decide)]
      exact (offerCommand_accepts hb hc hsh 1).trans (by rw [State.accepted, hop])
  refine ⟨hstep, ?_, hr, rfl, hio, rfl, rfl, hout⟩
  refine ⟨?_, ?_, fun _ => hopen, ?_, nofun⟩
  · refine blockInv_initBlock { s with src := o.src, snk := o.snk, cmd := none, trace := [] } hcap
      ⟨by simp [hpos], nofun⟩ (.inr ?_)
    generalize o.op = op
    revert op
    decide
  · refine (phaseInv_empty_arena ?_).2 ⟨rfl, rfl⟩
    unfold State.accepted
    split <;> simp
  · exact ioReturns_of_all hio

/-- The run has ended with the error `e`. -/
def EndsWith (e : ErrKind) (t : State) : Prop := t.phase = .err ∧ t.errcode = errCode e ∧ t.snk.closed = true

theorem Raised.endsWith {e : ErrKind} (h : Raised e s t) (he : s.errcode = 0) : EndsWith e t := by
  obtain ⟨answered, bits, pad, draws, rfl⟩ := h
  exact ⟨rfl, if_pos he, rfl⟩

/-- An operation that raises an error ends the run with it, where the service answers (R240). -/
theorem raise_endsWith (e : ErrKind) (hio : s.ioAllOk = true) (he : s.errcode = 0) :
    ∃ t, raise e s = .next t ∧ EndsWith e t := by
  obtain ⟨t, ht, hraised⟩ := raise_next e (by rw [State.answer_ok_of_all hio]; nofun)
  exact ⟨t, ht, hraised.endsWith he⟩

/-- CLOSE ends the run with what the sink holds (R128). -/
theorem Ongoing.close (h : Ongoing params input out s) (hp : s.phase = .close) :
    ∃ t, Leads s t ∧ t.phase = .done ∧ t.errcode = 0 ∧ t.snk.closed = true ∧ t.snk.bits = out ∧ t.cmd = none ∧
      t.rst = false := by
  obtain ⟨pad, hexec, -⟩ := execClose_ok h.answer
  obtain ⟨hstep, hon⟩ := h.stepExec hp rfl hexec h.out_eq
  have hbusy : s.busy = true := busy_eq hp
  exact ⟨_, .of_step hstep, rfl, h.errcode hbusy, rfl, h.out_eq, hon.noOffer, hon.noReset⟩

end Ongoing

end Sys2Proof.Machine

/-! SUPPORT. RD_MAGIC in a run, and a stream without MAGIC (R135, R188, R189). -/

namespace Sys2Proof.Machine

variable {s t u : State} {params : Params} {input out : BitString}

theorem ioAllOk_tail (h : s.ioAllOk = true) (hio : u.io = s.io.tail) : u.ioAllOk = true :=
  ioAllOk_of_suffix h (hio ▸ List.tail_suffix _)

theorem Raised.readCount_eq {e : ErrKind} (h : Raised e s t) : readCount t.trace = readCount s.trace := by
  obtain ⟨answered, bits, pad, draws, rfl⟩ := h
  rfl

theorem readCount_read (n : Nat) (a : ReadAnswer) (calls : List Call) :
    readCount (.read n a :: calls) = readCount calls + 1 := List.countP_cons_of_pos rfl

/-- RD_MAGIC on a source that does not start with MAGIC raises BadHeaderMagic after one read (R188, R189). -/
theorem Ongoing.rdMagic_lacks (h : Ongoing params input out s) (hp : s.phase = .rdMagic)
    (hbad : lacksMagic params.magic s.remaining) :
    ∃ t, step s = .next t ∧ EndsWith .badHeaderMagic t ∧ readCount t.trace = readCount s.trace + 1 := by
  have hbusy : s.busy = true := busy_eq hp
  have hstep : step s = execRdMagic s := by rw [step_busy h.noReset hbusy, hp]; rfl
  have hraise : ∀ u : State, u.io = s.io.tail → u.errcode = s.errcode → readCount u.trace = readCount s.trace + 1 →
      ∃ t, raise .badHeaderMagic u = .next t ∧ EndsWith .badHeaderMagic t ∧
        readCount t.trace = readCount s.trace + 1 := by
    intro u hio he hcount
    obtain ⟨t, ht, hr⟩ := raise_next .badHeaderMagic (s := u)
      (by rw [State.answer_ok_of_all (ioAllOk_tail h.answered hio)]; nofun)
    exact ⟨t, ht, hr.endsWith (he.trans (h.errcode hbusy)), hr.readCount_eq.trans hcount⟩
  rw [hstep, execRdMagic]
  by_cases hlen : s.remaining.length < 32
  · obtain ⟨p, hread⟩ := srcRead_exhausted hlen (by omega) (by omega) h.answer h.position
    rw [hread]
    exact hraise (s.afterMiss 32 .eos p) rfl rfl (readCount_read _ _ _)
  · have hlen := Nat.not_lt.1 hlen
    obtain ⟨hread, -⟩ := srcRead_remaining (s := s) (List.take_append_drop 32 s.remaining).symm
      (List.length_take_of_le hlen) (by omega) (by omega) h.answer
    have hne : valOf (s.remaining.take 32) ≠ s.params.magic.toNat :=
      h.params_eq ▸ hbad.resolve_left (Nat.not_lt.2 hlen)
    rw [hread, onRead_value, checkMagic, if_neg (by exact hne)]
    exact hraise _ rfl rfl (readCount_read _ _ _)

/-- RD_MAGIC on a source that starts with MAGIC goes on to RD_HDR with the root's slot open (R188). -/
theorem Ongoing.rdMagic (h : Ongoing params input out s) (hp : s.phase = .rdMagic) {rest : BitString}
    (hrem : s.remaining = bitsOf 32 params.magic.toNat ++ rest) :
    ∃ t, step s = .next t ∧ Ongoing params input out t ∧ t.phase = .rdHdr ∧ t.stk = [.slot .root] ∧
      t.nNodes = s.nNodes ∧ t.remaining = rest := by
  obtain ⟨hread, hrest⟩ := srcRead_remaining hrem (length_bitsOf _ _) (by omega) (by omega) h.answer
  rw [valOf_bitsOf params.magic.isLt] at hread hrest
  have hexec : exec (operationOf .rdMagic) s =
      .next ((s.afterRead 32 params.magic.toNat).enter .rdHdr [.slot .root]) := by
    show execRdMagic s = _
    rw [execRdMagic, hread, onRead_value, checkMagic, if_pos (by rw [← h.params_eq]; rfl)]
  obtain ⟨hstep, hon⟩ := h.stepExec hp rfl hexec h.out_eq
  exact ⟨_, hstep, hon, rfl, rfl, rfl, hrest⟩

theorem accepted_decompress {o : Offer} (hop : o.op = 1) (s : State) : (s.accepted o).phase = .rdMagic :=
  if_neg (by rw [hop]; decide)

theorem accepted_compress {o : Offer} (hop : o.op = 0) (s : State) : (s.accepted o).phase = .cnt := if_pos hop

theorem Launched.remaining {o : Offer} (h : Launched s o) : (s.accepted o).remaining = o.src.bits := by
  obtain ⟨-, -, -, ⟨hpos, -⟩, -⟩ := h
  show o.src.bits.drop o.src.pos = _
  rw [hpos, List.drop_zero]

/-- Settles O46: the offer is accepted, RD_MAGIC raises the error, and ERR waits. -/
theorem wrongMagicIsRejectedAfterOneRead : Obligations.WrongMagicIsRejectedAfterOneRead := by
  intro s o h hop hbad
  obtain ⟨haccept, hon⟩ := h.accept
  have hp := accepted_decompress hop s
  obtain ⟨t, hstep, ⟨herr, hcode, hclosed⟩, hcount⟩ := hon.rdMagic_lacks hp (h.remaining.symm ▸ hbad)
  obtain ⟨-, -, hrst, hcmd, -⟩ := onlyItsWritersChangeARegister _ t (busy_accepted s o) hon.noReset hstep
  refine ⟨t, reaches_succ.2 ⟨_, haccept, reaches_succ.2 ⟨_, hstep, rfl⟩⟩, herr, hcode, hcount, hclosed,
    fun k u hu => ?_⟩
  obtain rfl := eq_of_reaches_waiting (busy_eq herr) (hrst.trans hon.noReset)
    (hcmd.trans hon.noOffer) hu
  exact ⟨herr, hcount⟩

end Sys2Proof.Machine

/-! SUPPORT. The trees in the arena, and DEC in a run: it comes to what the walk of R210 gives. -/

namespace Sys2Proof.Machine

variable {s t u : State} {params : Params} {input out : BitString}

/-! ### The trees in the arena (R34) -/

/-- `tree(i)` of an arena (R34), all of whose nodes lie in the entries from `lo` to below `hi`. -/
inductive TreeIn (node : Memory Node) (lo hi : Nat) : Nat → Tree → Prop
  | leaf {i : Nat} {w : BitVec 41} {sym : Symbol} (hlo : lo ≤ i) (hhi : i < hi)
      (hn : Memory.find? node i = some (.leaf w sym)) : TreeIn node lo hi i (.leaf sym)
  | internal {i l r : Nat} {w : BitVec 41} {tl tr : Tree} (hlo : lo ≤ i) (hhi : i < hi)
      (hn : Memory.find? node i = some (.internal w (some l) (some r))) (hl : TreeIn node lo hi l tl)
      (hr : TreeIn node lo hi r tr) : TreeIn node lo hi i (.internal tl tr)

/-- A tree stands in every arena that has the same entries there. -/
theorem TreeIn.keep {node node' : Memory Node} {lo hi lo' hi' i : Nat} {t : Tree} (h : TreeIn node lo hi i t)
    (hlo : lo' ≤ lo) (hhi : hi ≤ hi')
    (hsame : ∀ j, lo ≤ j → j < hi → Memory.find? node' j = Memory.find? node j) : TreeIn node' lo' hi' i t := by
  induction h with
  | leaf h1 h2 hn => exact .leaf (hlo.trans h1) (h2.trans_le hhi) ((hsame _ h1 h2).trans hn)
  | internal h1 h2 hn _ _ ihl ihr => exact .internal (hlo.trans h1) (h2.trans_le hhi) ((hsame _ h1 h2).trans hn) ihl ihr

/-! ### DEC, one step (R211) -/

theorem execDec_sentinel {w : BitVec 41} {sym : Symbol} (hn : s.nodeAt s.cur = some (.leaf w sym))
    (hs : sym.toNat = 256) : execDec s = .next { s with phase := .close } := by
  rw [execDec, withNode_some hn]
  exact if_pos hs

theorem execDec_byte {w : BitVec 41} {sym : Symbol} (hn : s.nodeAt s.cur = some (.leaf w sym)) (hs : sym.toNat ≠ 256)
    (hc : s.snk.closed = false) (ha : s.answer = .ok) :
    execDec s = .next { s.afterWrite 8 (sym.toNat % 256) with cur := s.root } := by
  rw [execDec, withNode_some hn]
  refine (if_neg hs).trans ?_
  rw [snkWrite_ok (by omega) (by omega) (by omega) hc ha]
  rfl

theorem execDec_internal {w : BitVec 41} {l r : Nat} {b : Bool} {rest : BitString}
    (hn : s.nodeAt s.cur = some (.internal w (some l) (some r))) (hrem : s.remaining = b :: rest) (ha : s.answer = .ok) :
    ∃ v, execDec s = .next { s.afterRead 1 v with cur := if b then r else l } ∧ (s.afterRead 1 v).remaining = rest := by
  obtain ⟨hread, hrest⟩ := srcRead_bit hrem ha
  refine ⟨_, ?_, hrest⟩
  rw [execDec, withNode_some hn]
  simp only [hread]
  cases b <;> rfl

theorem execDec_exhausted {w : BitVec 41} {l r : Option Nat} (hn : s.nodeAt s.cur = some (.internal w l r))
    (hrem : s.remaining = []) (ha : s.answer = .ok) (hp : s.src.pos ≤ s.src.bits.length) :
    ∃ p, execDec s = raise .missingSentinel (s.afterMiss 1 .eos p) := by
  obtain ⟨p, hread⟩ := srcRead_exhausted (n := 1) (by rw [hrem]; exact Nat.one_pos) le_rfl (by omega) ha hp
  refine ⟨p, ?_⟩
  rw [execDec, withNode_some hn]
  simp only [hread]
  rfl

/-! ### DEC in a run -/

/-- An operation of a run that raises an error ends the run with it. -/
theorem Ongoing.raises (h : Ongoing params input out s) {p : Phase} (hp : s.phase = p) (hb : phaseBusy p = true)
    {e : ErrKind} (hexec : exec (operationOf p) s = raise e u) (hio : u.io <:+ s.io) (he : u.errcode = s.errcode) :
    ∃ t, Leads s t ∧ EndsWith e t := by
  have hbusy : s.busy = true := (busy_eq hp).trans hb
  obtain ⟨t, ht, hend⟩ := raise_endsWith e (ioAllOk_of_suffix h.answered hio) (he.trans (h.errcode hbusy))
  exact ⟨t, .of_step (by rw [step_busy h.noReset hbusy, hp, hexec, ht]), hend⟩

/-- The run comes to what the walk gives: CLOSE with the bytes written, or the error (R210). -/
def WalkEnds (params : Params) (input out : BitString) (s : State) : Except ErrKind (List Nat × BitString) → Prop
  | .ok (bytes, _) =>
    ∃ t, Leads s t ∧ Ongoing params input (out ++ bytes.flatMap (bitsOf 8)) t ∧ t.phase = .close
  | .error e => ∃ t, Leads s t ∧ EndsWith e t

theorem WalkEnds.head {result : Except ErrKind (List Nat × BitString)} (hstep : step s = .next t)
    (h : WalkEnds params input out t result) : WalkEnds params input out s result := by
  cases result with
  | ok result => obtain ⟨u, hl, h⟩ := h; exact ⟨u, .head hstep hl, h⟩
  | error e => obtain ⟨u, hl, h⟩ := h; exact ⟨u, .head hstep hl, h⟩

/-- The walk that goes on after a byte gives that byte first. -/
theorem WalkEnds.byte {v : Nat} {result : Except ErrKind (List Nat × BitString)}
    (h : WalkEnds params input (out ++ bitsOf 8 v) s result) :
    WalkEnds params input out s (result.map fun (bytes, rest) => (v :: bytes, rest)) := by
  cases result with
  | ok result =>
    obtain ⟨bytes, rest⟩ := result
    obtain ⟨t, hl, hon, hp⟩ := h
    exact ⟨t, hl, by simpa [List.flatMap_cons] using hon, hp⟩
  | error e => exact h

/-- The run is in DEC, the tree of ROOT is `root`, the tree of CUR is `t`, and `bits` remain in the source. -/
structure Decoding (params : Params) (input out : BitString) (root t : Tree) (bits : BitString) (s : State) : Prop where
  ongoing : Ongoing params input out s
  phase_eq : s.phase = .dec
  rootTree : TreeIn s.node 0 s.nNodes s.root root
  curTree : TreeIn s.node 0 s.nNodes s.cur t
  remaining_eq : s.remaining = bits

section Decoding

variable {root l r : Tree} {sym : Symbol} {b : Bool} {bits : BitString}

theorem Decoding.sinkOpen {t : Tree} (h : Decoding params input out root t bits s) : s.snk.closed = false :=
  h.ongoing.sinkOpen (busy_eq h.phase_eq)

theorem Decoding.sentinel (h : Decoding params input out root (.leaf sym) bits s) (hs : sym.toNat = 256) :
    ∃ t, Leads s t ∧ Ongoing params input out t ∧ t.phase = .close := by
  obtain ⟨hon, hp, hroot, ⟨-, -, hn⟩, hrem⟩ := h
  obtain ⟨hstep, hon'⟩ := hon.stepExec hp rfl (execDec_sentinel hn hs) hon.out_eq
  exact ⟨_, .of_step hstep, hon', rfl⟩

theorem Decoding.byte (h : Decoding params input out root (.leaf sym) bits s) (hs : sym.toNat ≠ 256) :
    ∃ t, step s = .next t ∧ Decoding params input (out ++ bitsOf 8 sym.toNat) root root bits t := by
  have hopen := h.sinkOpen
  obtain ⟨hon, hp, hroot, ⟨-, -, hn⟩, hrem⟩ := h
  have hout : s.snk.bits ++ bitsOf 8 (sym.toNat % 256) = out ++ bitsOf 8 sym.toNat := by
    rw [hon.out_eq, show 256 = 2 ^ 8 from rfl, bitsOf_mod 8 8 _ le_rfl]
  obtain ⟨hstep, hon'⟩ := hon.stepExec hp rfl (execDec_byte hn hs hopen hon.answer) hout
  exact ⟨_, hstep, hon', hp, hroot, hroot, hrem⟩

theorem Decoding.child (h : Decoding params input out root (.internal l r) (b :: bits) s) :
    ∃ t, step s = .next t ∧ Decoding params input out root (if b then r else l) bits t := by
  obtain ⟨hon, hp, hroot, hcur, hrem⟩ := h
  cases hcur with
  | internal _ _ hn hl hr =>
    obtain ⟨v, hexec, hrest⟩ := execDec_internal hn hrem hon.answer
    obtain ⟨hstep, hon'⟩ := hon.stepExec hp rfl hexec hon.out_eq
    refine ⟨_, hstep, hon', hp, hroot, ?_, hrest⟩
    cases b
    · exact hl
    · exact hr

theorem Decoding.exhausted (h : Decoding params input out root (.internal l r) [] s) :
    ∃ t, Leads s t ∧ EndsWith .missingSentinel t := by
  obtain ⟨hon, hp, hroot, hcur, hrem⟩ := h
  cases hcur with
  | internal _ _ hn =>
    obtain ⟨p, hexec⟩ := execDec_exhausted hn hrem hon.answer hon.position
    exact hon.raises hp rfl hexec (List.tail_suffix _) rfl

/-- At a leaf DEC ends or goes on from the root, so it comes to what the walk gives if it does from internal nodes. -/
theorem Decoding.ends_of_internal {tl tr t : Tree} (h : Decoding params input out (.internal tl tr) t bits s)
    (hinternal : ∀ {s out l r}, Decoding params input out (.internal tl tr) (.internal l r) bits s →
      WalkEnds params input out s (walkFrom (.internal tl tr) (.internal l r) bits)) :
    WalkEnds params input out s (walkFrom (.internal tl tr) t bits) := by
  cases t with
  | leaf sym =>
    by_cases hs : sym.toNat = 256
    · rw [walkFrom_sentinel _ hs]
      obtain ⟨t, hl, hon, hp⟩ := h.sentinel hs
      exact ⟨t, hl, by simpa using hon, hp⟩
    · rw [walkFrom_byte hs]
      obtain ⟨t, hstep, h⟩ := h.byte hs
      exact (hinternal h).byte.head hstep
  | internal l r => exact hinternal h

/-- DEC comes to what the walk gives (R210, R211). -/
theorem Decoding.ends {tl tr t : Tree} (h : Decoding params input out (.internal tl tr) t bits s) :
    WalkEnds params input out s (walkFrom (.internal tl tr) t bits) := by
  induction bits generalizing s t out with
  | nil => exact h.ends_of_internal fun h => h.exhausted
  | cons b bits ih =>
    refine h.ends_of_internal fun h => ?_
    obtain ⟨t, hstep, h⟩ := h.child
    exact (ih h).head hstep

end Decoding

end Sys2Proof.Machine

/-! SUPPORT. RD_HDR in a run: it comes to what the parse of R190 gives. -/

namespace Sys2Proof.Machine

variable {s t u : State} {params : Params} {input out : BitString}

/-! ### One token (R192) -/

/-- Entry `j` once the slot is filled with `k`, where it held `n`. -/
def slotEntry (q : Slot) (k j : Nat) (n : Option Node) : Option Node :=
  match q with
  | .root => n
  | .child i side => if j = i then n.bind (nodeWithChild side k) else n

theorem slotEntry_other {i j k : Nat} {side : Side} (h : j ≠ i) (n : Option Node) :
    slotEntry (.child i side) k j n = n := if_neg h

theorem slotEntry_same (i k : Nat) (side : Side) (n : Option Node) :
    slotEntry (.child i side) k i n = n.bind (nodeWithChild side k) := if_pos rfl

/-- The slot is filled with the first free entry of `s`, and the other entries below that are as in `s`. -/
structure Filled (q : Slot) (s t : State) : Prop where
  more : s.nNodes < t.nNodes
  below : ∀ j, j < s.nNodes → t.nodeAt j = slotEntry q s.nNodes j (s.nodeAt j)
  root_eq : t.root = if q = .root then s.nNodes else s.root

/-- What a fill does to each entry (R192). -/
theorem fill_entries {q : Slot} {k : Nat} (h : fill q k s = .next t) :
    (∀ j, t.nodeAt j = slotEntry q k j (s.nodeAt j)) ∧ t.root = if q = .root then k else s.root := by
  obtain ⟨rfl, rfl⟩ | ⟨i, side, n, n', rfl, hn, hchild, rfl⟩ := fill_next h
  · exact ⟨fun j => rfl, rfl⟩
  · refine ⟨fun j => ?_, rfl⟩
    by_cases hj : j = i
    · rw [hj, slotEntry_same, hn, State.nodeAt_setNode_same]
      exact hchild.symm
    · rw [slotEntry_other hj, State.nodeAt_setNode_other _ _ hj]

/-- A node is stored in the first free entry, and the open slot is filled with it. -/
theorem fill_stored {q : Slot} (hq : slotOpen s (.slot q)) {n : Node} (hnode : u.node = Memory.put s.node s.nNodes n)
    (hcount : u.nNodes = s.nNodes + 1) (hroot : u.root = s.root) :
    ∃ t, fill q s.nNodes u = .next t ∧ Filled q s t ∧ t.nNodes = s.nNodes + 1 ∧ t.nodeAt s.nNodes = some n := by
  have hslot : slotOpen u (.slot q) := by
    cases q with
    | root => trivial
    | child i side =>
      obtain ⟨hi, w, l, r, hn⟩ := hq
      exact ⟨by omega, w, l, r, by rw [State.nodeAt, hnode]; exact (Memory.find?_put_other _ n hi.ne).trans hn⟩
  obtain ⟨t, ht⟩ := fill_answers hslot s.nNodes
  obtain ⟨hentries, hroot'⟩ := fill_entries ht
  have hmore : t.nNodes = s.nNodes + 1 := (fill_keeps ht).2.1.trans hcount
  have hlast : u.nodeAt s.nNodes = some n := by rw [State.nodeAt, hnode]; exact Memory.find?_put_same _ _ _
  refine ⟨t, ht, ⟨by omega, fun j hj => ?_, by rw [hroot', hroot]⟩, hmore, ?_⟩
  · rw [hentries, State.nodeAt, hnode, Memory.find?_put_other _ n hj.ne]; rfl
  · rw [hentries, hlast]
    cases q with
    | root => rfl
    | child i side => exact slotEntry_other (Nat.ne_of_gt hq.1) _

/-- The run is in RD_HDR, with the slot `q` on top of `stk`, and `bits` remain in the source. -/
structure Reading (params : Params) (input out : BitString) (stk : List StkEntry) (bits : BitString) (s : State) :
    Prop where
  ongoing : Ongoing params input out s
  phase_eq : s.phase = .rdHdr
  stk_eq : s.stk = stk
  remaining_eq : s.remaining = bits

section Reading

variable {q : Slot} {stk : List StkEntry} {bits : BitString}

theorem Reading.slotOpen (h : Reading params input out (.slot q :: stk) bits s) : slotOpen s (.slot q) := by
  obtain ⟨hhdr, -⟩ := phaseInv_rdHdr_slot h.phase_eq h.ongoing.inv.phase h.stk_eq
  exact hhdr.slots _ (h.stk_eq ▸ List.mem_cons_self)

theorem Reading.room (h : Reading params input out (.slot q :: stk) bits s) :
    stk.length ≤ s.nNodes ∧ s.nNodes ≤ s.params.nodeCap :=
  ⟨(phaseInv_rdHdr_slot h.phase_eq h.ongoing.inv.phase h.stk_eq).2.1, h.ongoing.inv.block.nodeCount⟩

/-- RD_HDR finds no bit for the slot (R193). -/
theorem Reading.exhausted (h : Reading params input out (.slot q :: stk) [] s) :
    ∃ t, Leads s t ∧ EndsWith .streamTruncatedHeader t := by
  obtain ⟨hon, hp, hst, hrem⟩ := h
  obtain ⟨p, hread⟩ := srcRead_exhausted (s := { s with stk := stk }) (n := 1)
    (by show s.remaining.length < 1; rw [hrem]; exact Nat.one_pos) le_rfl (by omega) hon.answer hon.position
  refine hon.raises hp rfl (e := .streamTruncatedHeader) (u := ({ s with stk := stk } : State).afterMiss 1 .eos p) ?_
    (List.tail_suffix _) rfl
  show execRdHdr s = _
  rw [execRdHdr, hst]
  simp only [hread]
  rfl

/-- RD_HDR reads the first bit of a token. -/
theorem Reading.token {b : Bool} (h : Reading params input out (.slot q :: stk) (b :: bits) s) :
    ∃ u, execRdHdr s = (if b then readLeaf q (srcRead 9) u else readInternal q u) ∧
      u = { s.afterRead 1 (if b then 1 else 0) with stk := stk } ∧ u.remaining = bits := by
  obtain ⟨hon, hp, hst, hrem⟩ := h
  obtain ⟨hread, hrest⟩ := srcRead_bit (s := { s with stk := stk }) hrem hon.answer
  refine ⟨_, ?_, rfl, hrest⟩
  rw [execRdHdr, hst]
  simp only [hread]
  cases b <;> rfl

/-- RD_HDR finds the arena full (R195). -/
theorem Reading.full {b : Bool} (h : Reading params input out (.slot q :: stk) (b :: bits) s)
    (hfull : s.nNodes = params.nodeCap) : ∃ t, Leads s t ∧ EndsWith .treeCapacity t := by
  obtain ⟨u, hexec, rfl, -⟩ := h.token
  refine h.ongoing.raises h.phase_eq rfl (u := { s.afterRead 1 (if b then 1 else 0) with stk := stk })
    (hexec.trans ?_) (List.tail_suffix _) rfl
  have hcap : s.nNodes = s.params.nodeCap := hfull.trans (h.ongoing.params_eq ▸ rfl)
  cases b
  · exact if_pos hcap
  · exact if_pos hcap

/-- RD_HDR reads a `0`: the node is stored with both its slots open, and the slot is filled with it (R192). -/
theorem Reading.internal (h : Reading params input out (.slot q :: stk) (false :: bits) s)
    (hroom : s.nNodes ≠ params.nodeCap) :
    ∃ t, step s = .next t ∧
      Reading params input out (.slot (.child s.nNodes .L) :: .slot (.child s.nNodes .R) :: stk) bits t ∧
      Filled q s t ∧ t.nNodes = s.nNodes + 1 ∧ t.nodeAt s.nNodes = some (.internal 0 none none) := by
  obtain ⟨hlen, hcap⟩ := h.room
  have hroom : s.nNodes < s.params.nodeCap := lt_of_le_of_ne hcap (h.ongoing.params_eq ▸ hroom)
  obtain ⟨u, hexec, rfl, hrem⟩ := h.token
  obtain ⟨t, hfill, hfilled, hcount, hlast⟩ := fill_stored h.slotOpen (n := .internal 0 none none)
    (u := { s.afterRead 1 0 with
      node := Memory.put s.node s.nNodes (.internal 0 none none)
      stk := .slot (.child s.nNodes .L) :: .slot (.child s.nNodes .R) :: stk
      nNodes := s.nNodes + 1 }) rfl rfl rfl
  have hexec' : execRdHdr s = .next t := by
    rw [hexec, if_neg Bool.false_ne_true, readInternal, if_neg (by exact hroom.ne), storeNode_room (by exact hroom),
      push_room (by exact hlen.trans hcap), push_room (by exact Nat.succ_le_of_lt (hlen.trans_lt hroom))]
    exact hfill
  obtain ⟨root, rootV, node, rfl⟩ := fill_frame hfill
  obtain ⟨hstep, hon⟩ := h.ongoing.stepExec h.phase_eq rfl hexec' h.ongoing.out_eq
  exact ⟨_, hstep, ⟨hon, h.phase_eq, rfl, hrem⟩, hfilled, hcount, hlast⟩

/-- RD_HDR reads a `1` and finds no symbol field (R193). -/
theorem Reading.leaf_truncated (h : Reading params input out (.slot q :: stk) (true :: bits) s)
    (hroom : s.nNodes ≠ params.nodeCap) (hlen : bits.length < 9) :
    ∃ t, Leads s t ∧ EndsWith .streamTruncatedHeader t := by
  obtain ⟨u, hexec, hu, hrem⟩ := h.token
  have hpos : u.src.pos ≤ u.src.bits.length := by
    have hp := h.ongoing.position
    have hr := congrArg List.length h.remaining_eq
    rw [State.remaining, List.length_drop, List.length_cons] at hr
    rw [hu]
    show s.src.pos + 1 ≤ s.src.bits.length
    omega
  have ha : u.answer = .ok := State.answer_ok_of_all (ioAllOk_tail h.ongoing.answered (by rw [hu]; rfl))
  obtain ⟨p, hread⟩ := srcRead_exhausted (n := 9) (by rwa [hrem]) (by omega) (by omega) ha hpos
  refine h.ongoing.raises h.phase_eq rfl (e := .streamTruncatedHeader) (u := u.afterMiss 9 .eos p) (hexec.trans ?_) ?_ ?_
  · rw [if_pos rfl, readLeaf, if_neg (by rw [hu]; exact h.ongoing.params_eq ▸ hroom), hread]
    rfl
  · rw [hu]; exact (List.tail_suffix _).trans (List.tail_suffix _)
  · rw [hu]; rfl

/-- RD_HDR reads a `1` and the symbol field (R192). -/
theorem Reading.field (h : Reading params input out (.slot q :: stk) (true :: bits) s)
    (hroom : s.nNodes ≠ params.nodeCap) (hlen : 9 ≤ bits.length) :
    ∃ u, execRdHdr s = readField q (valOf (bits.take 9)) u ∧
      u = { (s.afterRead 1 1).afterRead 9 (valOf (bits.take 9)) with stk := stk } ∧ u.remaining = bits.drop 9 := by
  obtain ⟨u, hexec, hu, hrem⟩ := h.token
  have ha : u.answer = .ok := State.answer_ok_of_all (ioAllOk_tail h.ongoing.answered (by rw [hu]; rfl))
  obtain ⟨hread, hrest⟩ := srcRead_remaining (s := u) (hrem.trans (List.take_append_drop 9 bits).symm)
    (List.length_take_of_le hlen) (by omega) (by omega) ha
  refine ⟨_, hexec.trans ?_, by rw [hu]; rfl, hrest⟩
  rw [if_pos rfl, readLeaf, if_neg (by rw [hu]; exact h.ongoing.params_eq ▸ hroom), hread]
  rfl

/-- RD_HDR reads a symbol field above 256 (R194). -/
theorem Reading.leaf_badSymbol (h : Reading params input out (.slot q :: stk) (true :: bits) s)
    (hroom : s.nNodes ≠ params.nodeCap) (hlen : 9 ≤ bits.length) (hv : 256 < valOf (bits.take 9)) :
    ∃ t, Leads s t ∧ EndsWith .badSymbol t := by
  obtain ⟨u, hexec, rfl, -⟩ := h.field hroom hlen
  exact h.ongoing.raises h.phase_eq rfl (hexec.trans (if_pos hv)) ((List.tail_suffix _).trans (List.tail_suffix _)) rfl

/-- RD_HDR reads a leaf: it is stored, and the slot is filled with it (R192). -/
theorem Reading.leaf (h : Reading params input out (.slot q :: stk) (true :: bits) s)
    (hroom : s.nNodes ≠ params.nodeCap) (hlen : 9 ≤ bits.length) (hv : valOf (bits.take 9) ≤ 256) :
    ∃ t, step s = .next t ∧ Reading params input out stk (bits.drop 9) t ∧ Filled q s t ∧ t.nNodes = s.nNodes + 1 ∧
      t.nodeAt s.nNodes = some (.leaf 0 (BitVec.ofNat 9 (valOf (bits.take 9)))) := by
  have hroom' : s.nNodes < s.params.nodeCap := lt_of_le_of_ne h.room.2 (h.ongoing.params_eq ▸ hroom)
  obtain ⟨u, hexec, rfl, hrem⟩ := h.field hroom hlen
  obtain ⟨t, hfill, hfilled, hcount, hlast⟩ := fill_stored h.slotOpen
    (n := .leaf 0 (BitVec.ofNat 9 (valOf (bits.take 9))))
    (u := { (s.afterRead 1 1).afterRead 9 (valOf (bits.take 9)) with
      stk := stk
      sym := BitVec.ofNat 9 (valOf (bits.take 9))
      node := Memory.put s.node s.nNodes (.leaf 0 (BitVec.ofNat 9 (valOf (bits.take 9))))
      nNodes := s.nNodes + 1 }) rfl rfl rfl
  have hexec' : execRdHdr s = .next t := by
    rw [hexec, readField, if_neg (Nat.not_lt.2 hv), storeNode_room (by exact hroom')]
    exact hfill
  obtain ⟨root, rootV, node, rfl⟩ := fill_frame hfill
  obtain ⟨hstep, hon⟩ := h.ongoing.stepExec h.phase_eq rfl hexec' h.ongoing.out_eq
  exact ⟨_, hstep, ⟨hon, h.phase_eq, rfl, hrem⟩, hfilled, hcount, hlast⟩

/-! ### A whole tree (R190) -/

/-- The run comes to what the parse gives: the tree in the arena and its slot filled, or the error. -/
def ParseEnds (params : Params) (input out : BitString) (q : Slot) (stk : List StkEntry) (s : State) :
    Except ErrKind (Tree × Nat × BitString) → Prop
  | .ok (tree, n, bits) =>
    ∃ t, Leads s t ∧ Reading params input out stk bits t ∧ Filled q s t ∧ t.nNodes = n ∧
      TreeIn t.node s.nNodes n s.nNodes tree
  | .error e => ∃ t, Leads s t ∧ EndsWith e t

/-- The node of two subtrees, once both its slots are filled. -/
theorem Filled.internal {s₀ s₁ s₂ s₃ : State} {l r : Tree} (h₁ : Filled q s₀ s₁) (hcount : s₁.nNodes = s₀.nNodes + 1)
    (hnode : s₁.nodeAt s₀.nNodes = some (.internal 0 none none)) (h₂ : Filled (.child s₀.nNodes .L) s₁ s₂)
    (hl : TreeIn s₂.node s₁.nNodes s₂.nNodes s₁.nNodes l) (h₃ : Filled (.child s₀.nNodes .R) s₂ s₃)
    (hr : TreeIn s₃.node s₂.nNodes s₃.nNodes s₂.nNodes r) :
    Filled q s₀ s₃ ∧ TreeIn s₃.node s₀.nNodes s₃.nNodes s₀.nNodes (.internal l r) := by
  have hm₂ := h₂.more
  have hm₃ := h₃.more
  have hleft : s₂.nodeAt s₀.nNodes = some (.internal 0 (some s₁.nNodes) none) := by
    rw [h₂.below _ (by omega), slotEntry_same, hnode]; rfl
  have hboth : s₃.nodeAt s₀.nNodes = some (.internal 0 (some s₁.nNodes) (some s₂.nNodes)) := by
    rw [h₃.below _ (by omega), slotEntry_same, hleft]; rfl
  refine ⟨⟨by omega, fun j hj => ?_, ?_⟩, ?_⟩
  · rw [h₃.below j (by omega), slotEntry_other hj.ne, h₂.below j (by omega), slotEntry_other hj.ne, h₁.below j hj]
  · rw [h₃.root_eq, if_neg nofun, h₂.root_eq, if_neg nofun, h₁.root_eq]
  · refine .internal le_rfl (by omega) hboth (hl.keep (by omega) hm₃.le fun j hlo hhi => ?_)
      (hr.keep (by omega) le_rfl fun _ _ _ => rfl)
    exact (h₃.below j hhi).trans (slotEntry_other (by omega) _)

theorem length_parseTree {cap fuel n : Nat} {tree : Tree} {m : Nat} {rest : BitString}
    (h : parseTree cap fuel n bits = .ok (tree, m, rest)) : rest.length ≤ bits.length := by
  induction fuel generalizing n bits tree m rest with
  | zero => cases h
  | succ fuel ih =>
    cases bits with
    | nil => cases h
    | cons b bits =>
      simp only [parseTree] at h
      split_ifs at h
      · cases h; simp; omega
      · split at h
        · cases h
        next l n1 bits1 hl =>
          split at h
          · cases h
          next r n2 bits2 hr => cases h; exact (ih hr).trans ((ih hl).trans (Nat.le_succ _))

/-- RD_HDR comes to what the parse of a tree gives, for the slot on top of the stack (R190, R192). -/
theorem Reading.ends {fuel : Nat} (h : Reading params input out (.slot q :: stk) bits s) (hfuel : bits.length < fuel) :
    ParseEnds params input out q stk s (parseTree params.nodeCap fuel s.nNodes bits) := by
  induction fuel generalizing s q stk bits with
  | zero => omega
  | succ fuel ih =>
    cases bits with
    | nil => exact h.exhausted
    | cons b bits =>
      rw [parseTree]
      by_cases hfull : s.nNodes = params.nodeCap
      · rw [if_pos hfull]
        exact h.full hfull
      rw [if_neg hfull]
      have hfuel' : bits.length < fuel := Nat.lt_of_succ_lt_succ hfuel
      cases b with
      | true =>
        rw [if_pos rfl]
        by_cases hlen : bits.length < 9
        · rw [if_pos hlen]
          exact h.leaf_truncated hfull hlen
        rw [if_neg hlen]
        by_cases hv : 256 < valOf (bits.take 9)
        · rw [if_pos hv]
          exact h.leaf_badSymbol hfull (Nat.not_lt.1 hlen) hv
        rw [if_neg hv]
        obtain ⟨t, hstep, hread, hfilled, hcount, hlast⟩ := h.leaf hfull (Nat.not_lt.1 hlen) (Nat.not_lt.1 hv)
        exact ⟨t, .of_step hstep, hread, hfilled, hcount, .leaf le_rfl (Nat.lt_succ_self _) hlast⟩
      | false =>
        rw [if_neg Bool.false_ne_true]
        obtain ⟨s₁, hstep, hread₁, hfilled₁, hcount, hnode⟩ := h.internal hfull
        have hl := ih hread₁ hfuel'
        rw [hcount] at hl
        cases hparse : parseTree params.nodeCap fuel (s.nNodes + 1) bits with
        | error e =>
          rw [hparse] at hl
          obtain ⟨t, hlead, hend⟩ := hl
          exact ⟨t, .head hstep hlead, hend⟩
        | ok result =>
          obtain ⟨l, n₁, bits₁⟩ := result
          rw [hparse] at hl
          obtain ⟨s₂, hlead₂, hread₂, hfilled₂, rfl, htree₂⟩ := hl
          have hr := ih hread₂ ((length_parseTree hparse).trans_lt hfuel')
          dsimp only
          cases hparse' : parseTree params.nodeCap fuel s₂.nNodes bits₁ with
          | error e =>
            rw [hparse'] at hr
            obtain ⟨t, hlead, hend⟩ := hr
            exact ⟨t, .head hstep (hlead₂.trans hlead), hend⟩
          | ok result =>
            obtain ⟨r, n₂, bits₂⟩ := result
            rw [hparse'] at hr
            obtain ⟨s₃, hlead₃, hread₃, hfilled₃, rfl, htree₃⟩ := hr
            obtain ⟨hfilled, htree⟩ := hfilled₁.internal hcount hnode hfilled₂ htree₂ hfilled₃ htree₃
            exact ⟨s₃, .head hstep (hlead₂.trans hlead₃), hread₃, hfilled, rfl, htree⟩

end Reading

end Sys2Proof.Machine

/-! SUPPORT. DECOMPRESS as a whole run: it comes to what the function of R126 says. -/

namespace Sys2Proof.Machine

variable {s t u : State} {params : Params} {input out : BitString}

/-! ### The end of the header (R192, R196) -/

theorem execRdHdr_finish (hst : s.stk = []) : execRdHdr s = finishHeader s := by rw [execRdHdr, hst]

/-- RD_HDR ends at a tree that is an internal node, and DEC begins. -/
theorem Reading.finish_internal {bits : BitString} {l r : Tree} (h : Reading params input out [] bits s)
    (hroot : TreeIn s.node 0 s.nNodes s.root (.internal l r)) :
    ∃ t, step s = .next t ∧ Decoding params input out (.internal l r) (.internal l r) bits t := by
  obtain ⟨hon, hp, hst, hrem⟩ := h
  have hexec : execRdHdr s = .next { s with cur := s.root, phase := .dec } := by
    cases hroot with
    | internal _ _ hn => exact (execRdHdr_finish hst).trans (withNode_some hn _)
  obtain ⟨hstep, hon'⟩ := hon.stepExec hp rfl hexec hon.out_eq
  exact ⟨_, hstep, hon', rfl, hroot, hroot, hrem⟩

/-- RD_HDR ends at the sentinel's lone leaf, where DEC ends at once (R211). -/
theorem Reading.finish_sentinel {bits : BitString} {sym : Symbol} (h : Reading params input out [] bits s)
    (hroot : TreeIn s.node 0 s.nNodes s.root (.leaf sym)) (hs : sym.toNat = 256) :
    ∃ t, Leads s t ∧ Ongoing params input out t ∧ t.phase = .close := by
  obtain ⟨hon, hp, hst, hrem⟩ := h
  have hexec : execRdHdr s = .next { s with cur := s.root, phase := .dec } := by
    cases hroot with
    | leaf _ _ hn => exact (execRdHdr_finish hst).trans ((withNode_some hn _).trans (if_pos hs))
  obtain ⟨hstep, hon'⟩ := hon.stepExec hp rfl hexec hon.out_eq
  have hdec : Decoding params input out (.leaf sym) (.leaf sym) bits { s with cur := s.root, phase := .dec } :=
    ⟨hon', rfl, hroot, hroot, hrem⟩
  obtain ⟨t, hlead, h⟩ := hdec.sentinel hs
  exact ⟨t, .head hstep hlead, h⟩

/-- RD_HDR refuses another lone leaf (R196). -/
theorem Reading.finish_degenerate {bits : BitString} {sym : Symbol} (h : Reading params input out [] bits s)
    (hroot : TreeIn s.node 0 s.nNodes s.root (.leaf sym)) (hs : sym.toNat ≠ 256) :
    ∃ t, Leads s t ∧ EndsWith .degenerateTree t := by
  obtain ⟨hon, hp, hst, hrem⟩ := h
  refine hon.raises hp rfl (e := .degenerateTree) (u := s) ?_ (List.suffix_refl _) rfl
  cases hroot with
  | leaf _ _ hn => exact (execRdHdr_finish hst).trans ((withNode_some hn _).trans (if_neg hs))

/-! ### The whole run (R125, R126) -/

/-- The run comes to what the function gives: CLOSE with the bytes written, or the error. -/
def ResultEnds (params : Params) (input : BitString) (s : State) : Except ErrKind (List Nat) → Prop
  | .ok bytes => ∃ t, Leads s t ∧ Ongoing params input (bytes.flatMap (bitsOf 8)) t ∧ t.phase = .close
  | .error e => ∃ t, Leads s t ∧ EndsWith e t

theorem ResultEnds.trans {result : Except ErrKind (List Nat)} (hlead : Leads s t)
    (h : ResultEnds params input t result) :
    ResultEnds params input s result := by
  cases result with
  | ok bytes => obtain ⟨u, hl, h⟩ := h; exact ⟨u, hlead.trans hl, h⟩
  | error e => obtain ⟨u, hl, h⟩ := h; exact ⟨u, hlead.trans hl, h⟩

/-- From the end of RD_HDR on the run comes to what the function gives of the tree and the bits that remain. -/
theorem Reading.afterHeader {bits : BitString} {tree : Tree} (h : Reading params input [] [] bits s)
    (hroot : TreeIn s.node 0 s.nNodes s.root tree) : ResultEnds params input s (afterHeader tree bits) := by
  cases tree with
  | leaf sym =>
    by_cases hs : sym.toNat = 256
    · rw [Machine.afterHeader, if_pos hs]
      exact h.finish_sentinel hroot hs
    · rw [Machine.afterHeader, if_neg hs]
      exact h.finish_degenerate hroot hs
  | internal l r =>
    obtain ⟨t, hstep, hdec⟩ := h.finish_internal hroot
    have hends := hdec.ends
    refine ResultEnds.trans (.of_step hstep) ?_
    show ResultEnds params input t ((walk (.internal l r) bits).map Prod.fst)
    rw [walk]
    cases hw : walkFrom (.internal l r) (.internal l r) bits with
    | ok result =>
      obtain ⟨bytes, rest⟩ := result
      rw [hw] at hends
      obtain ⟨u, hl, hon, hp⟩ := hends
      exact ⟨u, hl, by simpa using hon, hp⟩
    | error e => rw [hw] at hends; exact hends

/-- The run from RD_MAGIC on (R125). -/
theorem Ongoing.decompress (h : Ongoing params input [] s) (hp : s.phase = .rdMagic) (hempty : s.nNodes = 0)
    (hrem : s.remaining = input) :
    ResultEnds params input s (decompressResult params.magic params.nodeCap input) := by
  by_cases hbad : lacksMagic params.magic input
  · obtain ⟨t, hstep, hend, -⟩ := h.rdMagic_lacks hp (hrem.symm ▸ hbad)
    rw [decompressResult_lacks hbad]
    exact ⟨t, .of_step hstep, hend⟩
  · obtain ⟨t, hstep, hon, hpt, hst, hcount, hrest⟩ := h.rdMagic hp (hrem.trans (starts_of_not_lacksMagic hbad))
    have hread : Reading params input [] [.slot .root] (input.drop 32) t := ⟨hon, hpt, hst, hrest⟩
    have hends := hread.ends (fuel := input.length + 1) (by rw [List.length_drop]; omega)
    refine ResultEnds.trans (.of_step hstep) ?_
    rw [hcount.trans hempty] at hends
    cases hparse : parseTree params.nodeCap (input.length + 1) 0 (input.drop 32) with
    | error e =>
      rw [hparse] at hends
      rw [decompressResult_error hbad hparse]
      exact hends
    | ok result =>
      obtain ⟨tree, n, rest⟩ := result
      rw [hparse] at hends
      rw [decompressResult_ok hbad hparse]
      obtain ⟨u, hlead, hreadu, hfilled, rfl, htree⟩ := hends
      have hroot : u.root = 0 := hfilled.root_eq.trans (hcount.trans hempty)
      rw [hcount.trans hempty] at htree
      exact ResultEnds.trans hlead (hreadu.afterHeader (hroot.symm ▸ htree))

/-- Settles O49: the run follows the parse and the walk, and ends with CLOSE or the error. -/
theorem decompressRunComputesItsResult : Obligations.DecompressRunComputesItsResult := by
  intro s o h hop
  obtain ⟨haccept, hon⟩ := h.accept
  have hends := (hon.decompress (accepted_decompress hop s) rfl h.remaining).trans (.of_step haccept)
  cases hresult : decompressResult s.params.magic s.params.nodeCap o.src.bits with
  | ok bytes =>
    rw [hresult] at hends
    obtain ⟨t, hlead, hont, hpt⟩ := hends
    obtain ⟨u, hlast, hdone, herr, hclosed, hbits, -⟩ := hont.close hpt
    obtain ⟨k, hk⟩ := hlead.trans hlast
    exact ⟨k, u, hk, hclosed, hdone, herr, hbits⟩
  | error e =>
    rw [hresult] at hends
    obtain ⟨t, ⟨k, hk⟩, hp, hcode, hclosed⟩ := hends
    exact ⟨k, t, hk, hclosed, hp, hcode⟩

end Sys2Proof.Machine

/-! SUPPORT. CNT in a run: it leaves the table of `freq` (R140, R142). -/

namespace Sys2Proof.Machine

variable {s t u : State} {params : Params} {input out : BitString}

/-! ### CNT, one step (R141) -/

theorem execCnt_byte {b : Byte} {rest : BitString} (hrem : s.remaining = bitsOf 8 b.toNat ++ rest) (ha : s.answer = .ok)
    (hroom : s.freqAt b.toNat ≠ BitVec.allOnes Config.cntW) :
    execCnt s = .next { s.afterRead 8 b.toNat with
      sym := BitVec.ofNat 9 b.toNat, freq := Memory.write 0 s.freq b.toNat (s.freqAt b.toNat + 1) } ∧
    (s.afterRead 8 b.toNat).remaining = rest := by
  obtain ⟨hread, hrest⟩ := srcRead_remaining hrem (length_bitsOf _ _) (by omega) (by omega) ha
  rw [valOf_bitsOf b.isLt] at hread hrest
  refine ⟨?_, hrest⟩
  rw [execCnt, hread]
  exact if_neg hroom

theorem execCnt_end (hrem : s.remaining = []) (ha : s.answer = .ok) (hp : s.src.pos ≤ s.src.bits.length) :
    ∃ p, execCnt s = .next { s.afterMiss 8 .eos p with phase := .bldInit, sym := 0 } := by
  obtain ⟨p, hread⟩ := srcRead_exhausted (n := 8) (by rw [hrem]; exact Nat.succ_pos 7) (by omega) (by omega) ha hp
  exact ⟨p, by rw [execCnt, hread]; rfl⟩

/-! ### The whole pass -/

/-- One byte more is counted in its own cell (R140). -/
theorem freqOf_append_singleton (bytes : List Byte) (b : Byte) (v : Nat) :
    freqOf (bytes ++ [b]) v = freqOf bytes v + if v = b.toNat then 1 else 0 := by
  have hlt := b.isLt
  unfold freqOf
  by_cases hv : v = 256
  · rw [if_pos hv, if_pos hv, if_neg (by omega)]
  · rw [if_neg hv, if_neg hv, List.countP_append, List.countP_singleton]
    simp [eq_comm]

theorem freqOf_le_append (bytes more : List Byte) (v : Nat) : freqOf bytes v ≤ freqOf (bytes ++ more) v := by
  unfold freqOf
  split
  · exact le_rfl
  · rw [List.countP_append]; exact Nat.le_add_right _ _

/-- The registers of the tree builder and of GEN hold what R45 gives. -/
structure Unbuilt (s : State) : Prop where
  count : s.nNodes = 0
  queue : s.inpq = []
  code : s.code = []

/-- The table in FREQ is `F` (R30). -/
def Tabled (F : Nat → Nat) (s : State) : Prop := ∀ v, v ≤ 256 → (s.freqAt v).toNat = F v

/-- The run is in CNT: `done` is counted, and `todo` remains in the source. -/
structure Counting (params : Params) (input : BitString) (done todo : List Byte) (s : State) : Prop where
  ongoing : Ongoing params input [] s
  phase_eq : s.phase = .cnt
  unbuilt : Unbuilt s
  remaining_eq : s.remaining = bytesBits todo
  table : Tabled (freqOf done) s

theorem Counting.byte {done todo : List Byte} {b : Byte} (h : Counting params input done (b :: todo) s)
    (hfew : freqOf (done ++ b :: todo) b.toNat < 2 ^ 32) :
    ∃ t, step s = .next t ∧ Counting params input (done ++ [b]) todo t := by
  obtain ⟨hon, hp, hunbuilt, hrem, htable⟩ := h
  have hlt := b.isLt
  have hcount := htable b.toNat (by omega)
  have hnext : freqOf done b.toNat + 1 < 2 ^ 32 := by
    have hle := freqOf_le_append (done ++ [b]) todo b.toNat
    rw [List.append_assoc, List.singleton_append, freqOf_append_singleton, if_pos rfl] at hle
    exact hle.trans_lt hfew
  have hroom : s.freqAt b.toNat ≠ BitVec.allOnes Config.cntW := by
    intro e
    rw [e, BitVec.toNat_allOnes] at hcount
    have hfull : 2 ^ 32 - 1 = freqOf done b.toNat := hcount
    omega
  obtain ⟨hexec, hrest⟩ := execCnt_byte hrem hon.answer hroom
  obtain ⟨hstep, hon'⟩ := hon.stepExec hp rfl hexec hon.out_eq
  refine ⟨_, hstep, hon', hp, ⟨hunbuilt.count, hunbuilt.queue, hunbuilt.code⟩, hrest, fun v hv => ?_⟩
  rw [freqOf_append_singleton]
  by_cases hvb : v = b.toNat
  · subst hvb
    have hread : (Memory.read 0 (Memory.write 0 s.freq b.toNat (s.freqAt b.toNat + 1)) b.toNat).toNat =
        freqOf done b.toNat + 1 := by
      rw [Memory.read_write_same, BitVec.toNat_add, hcount]
      exact Nat.mod_eq_of_lt hnext
    rw [if_pos rfl]
    exact hread
  · rw [if_neg hvb, Nat.add_zero, ← htable v hv]
    exact congrArg BitVec.toNat (Memory.read_write_other 0 s.freq _ hvb)

/-- CNT reads the whole source and goes on to BLD_INIT with the table of `freq` (R142). -/
theorem Counting.ends {done todo : List Byte} (h : Counting params input done todo s)
    (hfew : ∀ v, freqOf (done ++ todo) v < 2 ^ 32) :
    ∃ t, Leads s t ∧ Ongoing params input [] t ∧ t.phase = .bldInit ∧ t.sym = 0 ∧ Unbuilt t ∧
      Tabled (freqOf (done ++ todo)) t := by
  induction todo generalizing s done with
  | nil =>
    obtain ⟨hon, hp, hunbuilt, hrem, htable⟩ := h
    obtain ⟨p, hexec⟩ := execCnt_end hrem hon.answer hon.position
    obtain ⟨hstep, hon'⟩ := hon.stepExec hp rfl hexec hon.out_eq
    rw [List.append_nil]
    exact ⟨_, .of_step hstep, hon', rfl, rfl, ⟨hunbuilt.count, hunbuilt.queue, hunbuilt.code⟩, htable⟩
  | cons b todo ih =>
    obtain ⟨t, hstep, h⟩ := h.byte (hfew _)
    have hassoc : done ++ b :: todo = (done ++ [b]) ++ todo := by simp
    rw [hassoc] at hfew ⊢
    obtain ⟨u, hlead, hu⟩ := ih h hfew
    exact ⟨u, .head hstep hlead, hu⟩

/-- The run begins with nothing counted but the sentinel (R31, R45). -/
theorem Launched.counting {o : Offer} {bytes : List Byte} (h : Launched s o) (hop : o.op = 0)
    (hsrc : o.src.bits = bytesBits bytes) :
    step s = .next (s.accepted o) ∧ Counting s.params o.src.bits [] bytes (s.accepted o) := by
  obtain ⟨hstep, hon⟩ := h.accept
  refine ⟨hstep, hon, accepted_compress hop s, ⟨rfl, rfl, rfl⟩, h.remaining.trans hsrc, fun v hv => ?_⟩
  by_cases hs : v = 256
  · subst hs; rfl
  · have hread : (s.accepted o).freqAt v = 0 := by
      show Memory.read 0 [(256, 1)] v = 0
      simp [Memory.read, Memory.find?_cons, hs]
    rw [hread, freqOf, if_neg hs]
    rfl

end Sys2Proof.Machine

/-! SUPPORT. BLD_INIT and BLD_MERGE in a run: they make the tree that `build` gives (R150 to R157). -/

namespace Sys2Proof.Machine

variable {s t u : State} {params : Params} {input out : BitString}

/-! ### The items that wait in PQ -/

/-- The entry of an item: a node of its weight, the root of its tree (R34, R153). -/
def EntryOf (s : State) (x : Item) : Prop :=
  ∃ n, s.nodeAt x.index = some n ∧ (nodeWeight n).toNat = x.weight ∧ TreeIn s.node 0 s.nNodes x.index x.tree

/-- PQ holds the items, in the order of their indices. -/
structure Waiting (items : List Item) (s : State) : Prop where
  queue : s.pq = items.map Item.index
  entries : ∀ x ∈ items, EntryOf s x

theorem pairwise_pq (hrise : Memory.rising s.inpq = true) : s.pq.Pairwise (· < ·) := by
  rw [Memory.rising_iff] at hrise
  exact List.pairwise_map.2 (hrise.filter _)

/-- PQ is the rising list of its members. -/
theorem pq_eq_of_mem_iff (hrise : Memory.rising s.inpq = true) {l : List Nat} (hl : l.Pairwise (· < ·))
    (h : ∀ i, i ∈ s.pq ↔ i ∈ l) : s.pq = l :=
  (pairwise_pq hrise).eq_of_mem_iff hl h

theorem mem_map_index_dropItem {i j : Nat} {items : List Item} :
    j ∈ (dropItem i items).map Item.index ↔ j ∈ items.map Item.index ∧ j ≠ i := by
  simp only [List.mem_map, mem_dropItem]
  constructor
  · rintro ⟨x, ⟨hx, hne⟩, rfl⟩; exact ⟨⟨x, hx, rfl⟩, hne⟩
  · rintro ⟨⟨x, hx, rfl⟩, hne⟩; exact ⟨x, ⟨hx, hne⟩, rfl⟩

section Waiting

variable {items : List Item}

theorem Waiting.of_same (h : Waiting items s) (hnode : t.node = s.node) (hinpq : t.inpq = s.inpq)
    (hcount : t.nNodes = s.nNodes) : Waiting items t := by
  refine ⟨by rw [State.pq, hinpq, hcount]; exact h.queue, fun x hx => ?_⟩
  obtain ⟨n, hn, hw, htree⟩ := h.entries x hx
  exact ⟨n, by rw [State.nodeAt, hnode]; exact hn, hw, by rw [hnode, hcount]; exact htree⟩

theorem Waiting.mem_pq (h : Waiting items s) {x : Item} (hx : x ∈ items) : x.index ∈ s.pq :=
  h.queue ▸ List.mem_map_of_mem hx

theorem Waiting.index_lt (h : Waiting items s) {x : Item} (hx : x ∈ items) : x.index < s.nNodes :=
  (State.mem_pq.1 (h.mem_pq hx)).2

/-- Any of the items are in the order of their indices. -/
theorem Waiting.pairwise_index (h : Waiting items s) (hrise : Memory.rising s.inpq = true) {kept : List Item}
    (hkept : kept.Sublist items) : (kept.map Item.index).Pairwise (· < ·) :=
  (h.queue ▸ pairwise_pq hrise : (items.map Item.index).Pairwise (· < ·)).sublist (hkept.map _)

/-- An item taken out (R154). -/
theorem Waiting.drop (h : Waiting items s) (hrise : Memory.rising s.inpq = true) (i : Nat) :
    Waiting (dropItem i items) (s.setInpq i false) := by
  refine ⟨pq_eq_of_mem_iff (Memory.rising_write false hrise i false)
    (h.pairwise_index hrise List.filter_sublist) fun j => ?_, fun x hx => h.entries x (mem_dropItem.1 hx).1⟩
  rw [State.mem_pq_extracted hrise, h.queue, mem_map_index_dropItem]

/-- The node that `extract_min` finds is the entry of the first item (R153, R154). -/
theorem Waiting.least (h : Waiting items s) {a : Item} (ha : IsLeast a items) {w : BitVec 41} {i : Nat}
    (hleast : leastOf s.node s.pq = .ok (w, i)) : i = a.index := by
  obtain ⟨hi, n, hn, hw⟩ := leastOf_mem hleast
  rw [h.queue] at hi
  obtain ⟨x, hx, rfl⟩ := List.mem_map.1 hi
  obtain ⟨n', hn', hweight, -⟩ := h.entries x hx
  obtain ⟨na, hna, hweighta, -⟩ := h.entries a ha.1
  obtain rfl : n = n' := Option.some.inj (hn.symm.trans hn')
  rcases leastOf_least hleast a.index (h.mem_pq ha.1) na hna with e | hbefore
  · exact e.symm
  rcases ha.2 x hx with rfl | hbefore'
  · rfl
  rw [comesBefore, decide_eq_true_eq] at hbefore
  rw [itemBefore_iff] at hbefore'
  rw [hw] at hweight
  omega

/-- Entries stay as they are when a node is stored in the first free one. -/
theorem EntryOf.store {x : Item} (h : EntryOf s x) (hlt : x.index < s.nNodes) {n : Node}
    (hnode : t.node = Memory.put s.node s.nNodes n) (hcount : t.nNodes = s.nNodes + 1) : EntryOf t x := by
  obtain ⟨m, hm, hw, htree⟩ := h
  refine ⟨m, ?_, hw, htree.keep le_rfl (by omega) fun j _ hj => ?_⟩
  · rw [State.nodeAt, hnode]; exact (Memory.find?_put_other _ n hlt.ne).trans hm
  · rw [hnode]; exact Memory.find?_put_other _ n hj.ne

/-- A node stored in the first free entry waits after the items that are kept (R38). -/
theorem Waiting.store (h : Waiting items s) (hrise : Memory.rising s.inpq = true) {kept : List Item}
    (hkept : kept.Sublist items) {x : Item} (hindex : x.index = s.nNodes) {n : Node}
    (hnode : t.node = Memory.put s.node s.nNodes n) (hcount : t.nNodes = s.nNodes + 1)
    (hrise' : Memory.rising t.inpq = true) (hmem : ∀ i, i ∈ t.pq ↔ i = s.nNodes ∨ i ∈ kept.map Item.index)
    (hx : EntryOf t x) : Waiting (kept ++ [x]) t := by
  refine ⟨pq_eq_of_mem_iff hrise' ?_ fun i => ?_, fun y hy => ?_⟩
  · rw [List.map_append, List.pairwise_append]
    refine ⟨h.pairwise_index hrise hkept, List.pairwise_singleton _ _, fun i hi j hj => ?_⟩
    obtain ⟨y, hy, rfl⟩ := List.mem_map.1 hi
    rw [List.map_singleton, List.mem_singleton, hindex] at hj
    exact hj ▸ h.index_lt (hkept.subset hy)
  · rw [hmem, List.map_append, List.mem_append, List.map_singleton, List.mem_singleton, hindex, or_comm]
  · rcases List.mem_append.1 hy with hy | hy
    · have hy := hkept.subset hy
      exact (h.entries y hy).store (h.index_lt hy) hnode hcount
    · exact List.mem_singleton.1 hy ▸ hx

end Waiting

/-! ### Steps that make no call -/

/-- In a run every operation answers (R274). -/
theorem Ongoing.answers (h : Ongoing params input out s) {p : Phase} (hp : s.phase = p) (hb : phaseBusy p = true) :
    ∃ t, step s = .next t ∧ exec (operationOf p) s = .next t := by
  obtain ⟨t, ht⟩ := step_busy_answers h.inv ((busy_eq hp).trans hb) h.noReset
  refine ⟨t, ht, ?_⟩
  rw [← hp, ← step_busy h.noReset ((busy_eq hp).trans hb)]
  exact ht

theorem Ongoing.busy_next (h : Ongoing params input out s) {p : Phase} (hp : s.phase = p) (hb : phaseBusy p = true)
    (hstep : step s = .next t) (hout : t.snk.bits = s.snk.bits) : Ongoing params input out t :=
  h.after ((busy_eq hp).trans hb) hstep (hout.trans h.out_eq)

/-! ### BLD_INIT (R152) -/

/-- The table is `F`, and the leaves of the symbols below `v` wait in PQ. -/
structure Leaved (F : Nat → Nat) (v : Nat) (s : State) : Prop where
  table : Tabled F s
  code : s.code = []
  count : s.nNodes = (leafItems F 0 (List.range v)).length
  waiting : Waiting (leafItems F 0 (List.range v)) s

/-- The run is in BLD_INIT, at the symbol `v`. -/
structure Leafing (params : Params) (input : BitString) (F : Nat → Nat) (v : Nat) (s : State) : Prop where
  ongoing : Ongoing params input [] s
  phase_eq : s.phase = .bldInit
  sym_eq : s.sym.toNat = v
  leaved : Leaved F v s

/-- The run is in BLD_MERGE with the items in PQ, and node `k` is the next. -/
structure Merging (params : Params) (input : BitString) (k : Nat) (items : List Item) (s : State) : Prop where
  ongoing : Ongoing params input [] s
  phase_eq : s.phase = .bldMerge
  code : s.code = []
  count : s.nNodes = k
  waiting : Waiting items s

theorem mem_pq_withLeaf (hrise : Memory.rising s.inpq = true) {i : Nat} :
    i ∈ s.withLeaf.pq ↔ i = s.nNodes ∨ i ∈ s.pq := by
  rw [State.mem_pq_iff (Memory.rising_write false hrise s.nNodes true), State.mem_pq_iff hrise]
  show (s.setInpq s.nNodes true).inpqAt i = true ∧ i < s.nNodes + 1 ↔ _
  by_cases hi : i = s.nNodes
  · subst hi; simp
  · rw [State.inpqAt_setInpq_other s true hi]
    simp only [hi, false_or]
    exact and_congr_right fun _ => by omega

theorem leafItems_range_succ (F : Nat → Nat) (v : Nat) :
    leafItems F 0 (List.range (v + 1)) = leafItems F 0 (List.range v) ++
      if F v = 0 then [] else [leafItem F (leafItems F 0 (List.range v)).length v] := by
  rw [List.range_succ, leafItems_append, Nat.zero_add]

/-- A symbol that does not occur leaves no leaf (R152). -/
theorem Leaved.skip {F : Nat → Nat} {v : Nat} (h : Leaved F v s) (hF : F v = 0) : Leaved F (v + 1) s := by
  have hitems : leafItems F 0 (List.range (v + 1)) = leafItems F 0 (List.range v) := by
    rw [leafItems_range_succ, if_pos hF, List.append_nil]
  exact ⟨h.table, h.code, hitems ▸ h.count, hitems ▸ h.waiting⟩

/-- The leaf of a symbol that occurs waits after the leaves before it (R152). -/
theorem Leaved.leaf {F : Nat → Nat} {v : Nat} (h : Leaved F v s) (hrise : Memory.rising s.inpq = true)
    (hsym : s.sym.toNat = v) (hv : v ≤ 256) (hF : F v ≠ 0) : Leaved F (v + 1) s.withLeaf := by
  have hitems : leafItems F 0 (List.range (v + 1)) =
      leafItems F 0 (List.range v) ++ [leafItem F s.nNodes v] := by
    rw [leafItems_range_succ, if_neg hF, h.count]
  have hlast : s.withLeaf.nodeAt s.nNodes = some (.leaf ((s.freqAt s.sym.toNat).setWidth 41) s.sym) :=
    Memory.find?_put_same _ _ _
  have hleaf : s.sym = BitVec.ofNat 9 v := by rw [← hsym, BitVec.ofNat_toNat, BitVec.setWidth_eq]
  have hweight : ((s.freqAt s.sym.toNat).setWidth 41).toNat = F v := by
    have hlt : (s.freqAt s.sym.toNat).toNat < 2 ^ 41 := (s.freqAt s.sym.toNat).isLt.trans (by decide)
    rw [BitVec.toNat_setWidth, Nat.mod_eq_of_lt hlt, hsym, h.table v hv]
  refine ⟨h.table, h.code, ?_, hitems ▸ ?_⟩
  · rw [hitems, List.length_append, ← h.count]
    rfl
  · refine h.waiting.store hrise (List.Sublist.refl _) rfl rfl rfl
      (Memory.rising_write false hrise s.nNodes true) (fun i => ?_) ⟨_, hlast, hweight, ?_⟩
    · rw [mem_pq_withLeaf hrise, h.waiting.queue]
    · show TreeIn s.withLeaf.node 0 (s.nNodes + 1) s.nNodes (.leaf (BitVec.ofNat 9 v))
      rw [← hleaf]
      exact .leaf (Nat.zero_le _) (Nat.lt_succ_self _) hlast

/-- A step of BLD_INIT: the leaf of the symbol waits if it occurs, and SYM moves on (R152). -/
theorem Leafing.next {F : Nat → Nat} {v : Nat} (h : Leafing params input F v s) :
    ∃ u, step s = .next (nextSymbol u) ∧ Ongoing params input [] (nextSymbol u) ∧ u.phase = .bldInit ∧
      u.sym.toNat = v ∧ Leaved F (v + 1) u := by
  obtain ⟨t, hstep, hexec⟩ := h.ongoing.answers h.phase_eq rfl
  obtain ⟨hv, hcases⟩ := execBldInit_next hexec
  rw [h.sym_eq] at hv
  have hzero : s.freqAt s.sym.toNat = 0 ↔ F v = 0 := by
    rw [h.sym_eq, ← h.leaved.table v hv, ← BitVec.toNat_inj]
    rfl
  have hon : ∀ u : State, t = nextSymbol u → u.snk = s.snk → Ongoing params input [] (nextSymbol u) := by
    rintro u rfl hsnk
    obtain ⟨phase, sym, e⟩ := nextSymbol_frame u
    exact h.ongoing.busy_next h.phase_eq rfl hstep (by rw [e]; exact congrArg Snk.bits hsnk)
  rcases hcases with ⟨hf, rfl⟩ | ⟨hf, -, rfl⟩
  · exact ⟨s, hstep, hon s rfl rfl, h.phase_eq, h.sym_eq, h.leaved.skip (hzero.1 hf)⟩
  · exact ⟨s.withLeaf, hstep, hon s.withLeaf rfl rfl, h.phase_eq, h.sym_eq,
      h.leaved.leaf h.ongoing.inv.block.inpq_rising h.sym_eq hv fun e => hf (hzero.2 e)⟩

/-- BLD_INIT goes on to BLD_MERGE with a leaf for each symbol that occurs (R151, R152). -/
theorem Leafing.ends {F : Nat → Nat} {v : Nat} (h : Leafing params input F v s) (hv : v ≤ 256) :
    ∃ t, Leads s t ∧ Merging params input (leafItems F 0 (List.range 257)).length (leafItems F 0 (List.range 257)) t := by
  induction hv using Nat.decreasingInduction generalizing s with
  | self =>
    obtain ⟨u, hstep, hon, hp, hsym, hleaved⟩ := h.next
    rcases nextSymbol_cases u with ⟨-, e⟩ | ⟨hne, -⟩
    · rw [e] at hstep hon
      exact ⟨_, .of_step hstep, hon, rfl, hleaved.code, hleaved.count, hleaved.waiting.of_same rfl rfl rfl⟩
    · exact absurd hsym hne
  | of_succ v hlt ih =>
    obtain ⟨u, hstep, hon, hp, hsym, hleaved⟩ := h.next
    rcases nextSymbol_cases u with ⟨hlast, -⟩ | ⟨-, e⟩
    · omega
    · rw [e] at hstep hon
      have hsucc : (u.sym + 1).toNat = v + 1 := by
        rw [BitVec.toNat_add, hsym]
        show (v + 1) % 512 = v + 1
        omega
      obtain ⟨t, hlead, ht⟩ := ih ⟨hon, hp, hsucc, hleaved.table, hleaved.code, hleaved.count,
        hleaved.waiting.of_same rfl rfl rfl⟩
      exact ⟨t, .head hstep hlead, ht⟩

end Sys2Proof.Machine

/-! SUPPORT. BLD_MERGE in a run, merge by merge, up to the root (R155, R157). -/

namespace Sys2Proof.Machine

variable {s t u : State} {params : Params} {input out : BitString}

/-! ### One merge (R155, R156) -/

section Merge

variable {k : Nat} {items : List Item} {a b : Item}

theorem mem_map_index_merged {i : Nat} :
    i ∈ (dropItem b.index (dropItem a.index items)).map Item.index ↔
      i ∈ items.map Item.index ∧ i ≠ a.index ∧ i ≠ b.index := by
  rw [mem_map_index_dropItem, mem_map_index_dropItem, and_assoc]

/-- The node above two items is the entry of their merged item, where its weight does not wrap (R155). -/
theorem EntryOf.merged (ha : EntryOf s a) (hb : EntryOf s b) (hla : a.index < s.nNodes) (hlb : b.index < s.nNodes)
    {na nb : Node} (hna : s.nodeAt a.index = some na) (hnb : s.nodeAt b.index = some nb)
    (hsum : a.weight + b.weight < 2 ^ 41) :
    EntryOf (s.withMerge a.index b.index (nodeWeight na + nodeWeight nb)) (mergedItem a b s.nNodes) := by
  obtain ⟨-, -, -, hta⟩ := ha.store (t := s.withMerge a.index b.index (nodeWeight na + nodeWeight nb)) hla rfl rfl
  obtain ⟨-, -, -, htb⟩ := hb.store (t := s.withMerge a.index b.index (nodeWeight na + nodeWeight nb)) hlb rfl rfl
  obtain ⟨na', hna', hwa, -⟩ := ha
  obtain ⟨nb', hnb', hwb, -⟩ := hb
  obtain rfl : na = na' := Option.some.inj (hna.symm.trans hna')
  obtain rfl : nb = nb' := Option.some.inj (hnb.symm.trans hnb')
  have hlast : (s.withMerge a.index b.index (nodeWeight na + nodeWeight nb)).nodeAt s.nNodes =
      some (.internal (nodeWeight na + nodeWeight nb) (some a.index) (some b.index)) := Memory.find?_put_same _ _ _
  refine ⟨_, hlast, ?_, .internal (Nat.zero_le _) (Nat.lt_succ_self _) hlast hta htb⟩
  show (nodeWeight na + nodeWeight nb).toNat = a.weight + b.weight
  rw [BitVec.toNat_add, hwa, hwb]
  exact Nat.mod_eq_of_lt hsum

/-- A step of BLD_MERGE merges the first two items (R155). -/
theorem Merging.merge (h : Merging params input k items s) (hnum : Numbered k items) (ha : IsLeast a items)
    (hb : IsLeast b (dropItem a.index items)) (hsum : a.weight + b.weight < 2 ^ 41) :
    ∃ t, step s = .next t ∧ Merging params input (k + 1) (mergedItems a b k items) t := by
  obtain ⟨t, hstep, hexec⟩ := h.ongoing.answers h.phase_eq rfl
  have hblock := h.ongoing.inv.block
  have hwait := h.waiting
  have hbmem : b ∈ items := (mem_dropItem.1 hb.1).1
  obtain ⟨r, hr, -⟩ | ⟨i, j, wi, wj, na, nb, -, hi, hj, hna, hnb, -, ht⟩ := execBldMerge_next hexec
  · have hlen := (perm_of_merge hnum ha hb).length_eq
    have hone := congrArg List.length (hwait.queue.symm.trans hr)
    rw [List.length_map, hlen] at hone
    cases hone
  · obtain rfl := hwait.least ha hi
    obtain rfl := (hwait.drop hblock.inpq_rising a.index).least hb hj
    obtain rfl : t = s.withMerge a.index b.index (nodeWeight na + nodeWeight nb) := ht
    have hentry := (hwait.entries a ha.1).merged (hwait.entries b hbmem) (hwait.index_lt ha.1) (hwait.index_lt hbmem)
      hna hnb hsum
    refine ⟨_, hstep, h.ongoing.busy_next h.phase_eq rfl hstep rfl, h.phase_eq, h.code, congrArg (· + 1) h.count, ?_⟩
    have hkept : (dropItem b.index (dropItem a.index items)).Sublist items :=
      List.filter_sublist.trans List.filter_sublist
    rw [mergedItems, ← h.count]
    refine hwait.store hblock.inpq_rising hkept rfl rfl rfl
      (hblock.rising_withMerge _ _ _) (fun i => ?_) hentry
    rw [hblock.mem_pq_withMerge, mem_map_index_merged, hwait.queue]

end Merge

/-! ### All merges (R157) -/

/-- The sum of the items' weights. -/
def totalWeight (items : List Item) : Nat := (items.map Item.weight).sum

theorem totalWeight_perm {items items' : List Item} (h : items.Perm items') : totalWeight items = totalWeight items' :=
  (h.map _).sum_eq

/-- A merge leaves the sum of the weights. -/
theorem totalWeight_merged {k : Nat} {items : List Item} {a b : Item} (hnum : Numbered k items) (ha : IsLeast a items)
    (hb : IsLeast b (dropItem a.index items)) :
    totalWeight (mergedItems a b k items) = totalWeight items := by
  rw [totalWeight_perm (mergedItems_perm a b k items), totalWeight_perm (perm_of_merge hnum ha hb)]
  simp only [totalWeight, List.map_cons, List.sum_cons, mergedItem]
  omega

theorem totalWeight_leafItems (F : Nat → Nat) (k : Nat) (syms : List Nat) :
    totalWeight (leafItems F k syms) = (syms.map F).sum := by
  induction syms generalizing k with
  | nil => rfl
  | cons sym syms ih =>
    simp only [leafItems]
    split
    next hz => rw [ih, List.map_cons, List.sum_cons, hz, Nat.zero_add]
    next hz => rw [List.map_cons, List.sum_cons, ← ih (k + 1)]; rfl

/-- Counters of 32 bits add up to less than 2^41 (R10, D6). -/
theorem sum_counts_lt {F : Nat → Nat} (hF : ∀ v, F v < 2 ^ 32) : ((List.range 257).map F).sum < 2 ^ 41 := by
  have hle := List.sum_le_card_nsmul ((List.range 257).map F) (2 ^ 32) fun c hc => by
    obtain ⟨v, -, rfl⟩ := List.mem_map.1 hc
    exact (hF v).le
  rw [List.length_map, List.length_range, smul_eq_mul] at hle
  omega

/-- The run is in GEN with the root on the stack, and the tree of ROOT is `tree`. -/
structure Rooted (params : Params) (input : BitString) (tree : Tree) (s : State) : Prop where
  ongoing : Ongoing params input [] s
  phase_eq : s.phase = .gen
  code : s.code = []
  stk_eq : s.stk = [.pair s.root []]
  rootTree : TreeIn s.node 0 s.nNodes s.root tree

/-- The last step of BLD_MERGE: the item that is left is the root (R155). -/
theorem Merging.root {k : Nat} {x : Item} (h : Merging params input k [x] s) :
    ∃ t, step s = .next t ∧ Rooted params input x.tree t := by
  obtain ⟨t, hstep, hexec⟩ := h.ongoing.answers h.phase_eq rfl
  have hqueue : s.pq = [x.index] := h.waiting.queue
  obtain ⟨r, hr, rfl⟩ | ⟨i, j, wi, wj, na, nb, hlen, -⟩ := execBldMerge_next hexec
  · obtain rfl : x.index = r := List.singleton_inj.1 (hqueue.symm.trans hr)
    obtain ⟨-, -, -, htree⟩ := h.waiting.entries x (List.mem_singleton_self x)
    exact ⟨_, hstep, h.ongoing.busy_next h.phase_eq rfl hstep rfl, rfl, h.code, rfl, htree⟩
  · rw [hqueue] at hlen
    exact absurd hlen (by simp)

/-- From BLD_INIT on the run makes the tree that `build` gives (R150). -/
theorem Leafing.builds {F : Nat → Nat} (h : Leafing params input F 0 s) (hF : F 256 = 1) (hfew : ∀ v, F v < 2 ^ 32) :
    ∃ t, Leads s t ∧ Rooted params input (build F) t := by
  obtain ⟨k, x, hx, -, t, hlead, hmerging⟩ := build_induction hF
    (I := fun k items => totalWeight items < 2 ^ 41 ∧ ∃ t, Leads s t ∧ Merging params input k items t)
    ⟨by rw [totalWeight_leafItems]; exact sum_counts_lt hfew, h.ends (Nat.zero_le _)⟩
    (fun k items a b hnum ha hb ⟨htotal, t, hlead, hmerging⟩ => by
      have hsum : a.weight + b.weight < 2 ^ 41 := by
        rw [totalWeight_perm (perm_of_merge hnum ha hb)] at htotal
        simp only [totalWeight, List.map_cons, List.sum_cons] at htotal
        omega
      obtain ⟨u, hstep, hu⟩ := hmerging.merge hnum ha hb hsum
      exact ⟨(totalWeight_merged hnum ha hb).trans_lt htotal, u, hlead.trans (.of_step hstep), hu⟩)
  obtain ⟨u, hstep, hu⟩ := hmerging.root
  exact ⟨u, hlead.trans (.of_step hstep), hx ▸ hu⟩

end Sys2Proof.Machine

/-! SUPPORT. GEN and WR_HDR in a run: the two walks over the tree on the stack (R170, R183). -/

namespace Sys2Proof.Machine

variable {s t u : State} {params : Params} {input out : BitString}

/-! ### The code table after GEN -/

/-- The code table with a path recorded for each leaf, one after another (R173). -/
def recordPaths (paths : List (Nat × BitString)) (code : Memory BitString) : Memory BitString :=
  paths.foldl (fun m c => Memory.put m c.1 c.2) code

theorem find?_recordPaths {paths : List (Nat × BitString)} (h : (paths.map Prod.fst).Nodup) (code : Memory BitString)
    (v : Nat) : Memory.find? (recordPaths paths code) v = (Memory.find? paths v).or (Memory.find? code v) := by
  induction paths generalizing code with
  | nil => rfl
  | cons c paths ih =>
    obtain ⟨j, p⟩ := c
    obtain ⟨hj, h⟩ := List.nodup_cons.1 h
    rw [recordPaths, List.foldl_cons, ← recordPaths, ih h, Memory.find?_cons]
    by_cases hv : v = j
    · subst hv
      have hj : v ∉ paths.map Prod.fst := hj
      have hnone : Memory.find? paths v = none :=
        Option.eq_none_iff_forall_ne_some.2 fun p' hp => hj (List.mem_map_of_mem (f := Prod.fst) (Memory.find?_mem hp))
      rw [hnone, if_pos rfl, Memory.find?_put_same]
      rfl
    · rw [if_neg hv, Memory.find?_put_other _ _ hv]

/-- The code table holds the codes of the tree (R170). -/
def Coded (tree : Tree) (s : State) : Prop := ∀ v, s.codeAt v = codeOf tree v

/-! ### GEN (R173) -/

/-- The arena and the root are the same. -/
structure SameArena (s t : State) : Prop where
  node : t.node = s.node
  count : t.nNodes = s.nNodes
  root_eq : t.root = s.root

theorem SameArena.trans (h : SameArena s t) (h' : SameArena t u) : SameArena s u :=
  ⟨h'.node.trans h.node, h'.count.trans h.count, h'.root_eq.trans h.root_eq⟩

theorem SameArena.treeIn (h : SameArena s t) {i : Nat} {tree : Tree} (htree : TreeIn s.node 0 s.nNodes i tree) :
    TreeIn t.node 0 t.nNodes i tree := by rwa [h.node, h.count]

/-- The children of the node on top of a traversal stack fit on it in its place (R26). -/
theorem stack_room {e : StkEntry} {rest : List StkEntry} (hblock : BlockInv s)
    (h : stackDescends s.nNodes (e :: rest)) : rest.length + 1 ≤ s.params.nodeCap := by
  obtain ⟨htop, -⟩ := h
  exact le_trans (by omega) hblock.nodeCount

/-- GEN records the paths of the tree on top of the stack (R170, R173). -/
theorem Ongoing.gen (h : Ongoing params input out s) (hp : s.phase = .gen) {tree : Tree} {i : Nat} {p : BitString}
    {rest : List StkEntry} (hst : s.stk = .pair i p :: rest) (htree : TreeIn s.node 0 s.nNodes i tree) :
    ∃ t, Leads s t ∧ Ongoing params input out t ∧ t.phase = .gen ∧ t.stk = rest ∧ SameArena s t ∧
      t.code = recordPaths (treePaths tree p) s.code := by
  induction tree generalizing s i p rest with
  | leaf sym =>
    obtain ⟨-, -, hlegal, -⟩ := (phaseInv_gen hp).1 h.inv.phase
    obtain ⟨-, -, hn⟩ := htree
    obtain ⟨hstep, hon⟩ := h.stepExec hp rfl ((execGen_leaf hst hn).trans (if_pos (hlegal _ _ _ hn))) h.out_eq
    exact ⟨_, .of_step hstep, hon, hp, rfl, ⟨rfl, rfl, rfl⟩, rfl⟩
  | internal l r ihl ihr =>
    obtain ⟨-, -, -, -, hdesc, -⟩ := (phaseInv_gen hp).1 h.inv.phase
    have hroom := stack_room h.inv.block (hst ▸ hdesc)
    cases htree with
    | @internal _ il ir w _ _ _ _ hn hl hr =>
      have hexec : execGen s = .next { s with
          stk := .pair il (p ++ [false]) :: .pair ir (p ++ [true]) :: rest } := by
        rw [execGen_internal hst hn, push_room (by exact Nat.le_of_succ_le hroom), push_room (by exact hroom)]
      obtain ⟨hstep, hon⟩ := h.stepExec hp rfl hexec h.out_eq
      obtain ⟨t, hlead, hon, hpt, hstt, hsame, hcode⟩ := ihl hon hp rfl hl
      obtain ⟨u, hlead', hon, hpu, hstu, hsame', hcode'⟩ := ihr hon hpt hstt (hsame.treeIn hr)
      refine ⟨u, .head hstep (hlead.trans hlead'), hon, hpu, hstu, .trans ⟨hsame.node, hsame.count, hsame.root_eq⟩ hsame', ?_⟩
      rw [hcode', hcode, treePaths, recordPaths, recordPaths, recordPaths, List.foldl_append]

/-- GEN ends with the code of every symbol in the table (R170, R175). -/
theorem Rooted.gen {tree : Tree} (h : Rooted params input tree s) (hnodup : (treeSymbols tree).Nodup) :
    ∃ t, Leads s t ∧ Ongoing params input [] t ∧ t.phase = .wrMagic ∧ TreeIn t.node 0 t.nNodes t.root tree ∧
      Coded tree t := by
  obtain ⟨t, hlead, hon, hp, hst, hsame, hcode⟩ := h.ongoing.gen h.phase_eq h.stk_eq h.rootTree
  have hexec : execGen t = .next { t with phase := .wrMagic } := by unfold execGen; rw [hst]
  obtain ⟨hstep, hon'⟩ := hon.stepExec hp rfl hexec hon.out_eq
  refine ⟨_, hlead.trans (.of_step hstep), hon', rfl, ?_, fun v => ?_⟩
  · have hroot := hsame.treeIn h.rootTree
    rwa [← hsame.root_eq] at hroot
  · show Memory.find? t.code v = codeOf tree v
    rw [hcode, h.code, find?_recordPaths (by rwa [map_fst_treePaths])]
    exact Option.or_none

/-! ### WR_MAGIC and WR_HDR (R181, R183, R185) -/

/-- WR_HDR writes the header of the tree on top of the stack (R183, R185). -/
theorem Ongoing.wrHdr (h : Ongoing params input out s) (hp : s.phase = .wrHdr) {tree : Tree} {i : Nat}
    {rest : List StkEntry} (hst : s.stk = .index i :: rest) (htree : TreeIn s.node 0 s.nNodes i tree) :
    ∃ t, Leads s t ∧ Ongoing params input (out ++ hdr tree) t ∧ t.phase = .wrHdr ∧ t.stk = rest ∧ SameArena s t ∧
      t.code = s.code := by
  induction tree generalizing s i out rest with
  | leaf sym =>
    have hopen := h.sinkOpen (busy_eq hp)
    obtain ⟨-, -, hn⟩ := htree
    have hexec : execWrHdr s = .next { (s.afterWrite 1 1).afterWrite 9 sym.toNat with stk := rest } := by
      rw [execWrHdr_leaf hst hn, writeLeaf, snkWrite_ok (by omega) (by omega) (by omega) (by exact hopen) (by exact h.answer),
        onCall_ok, snkWrite_ok (by omega) (by omega) sym.isLt (by exact hopen)
          (State.answer_ok_of_all (ioAllOk_tail h.answered rfl))]
      rfl
    have hout : (s.snk.bits ++ bitsOf 1 1) ++ bitsOf 9 sym.toNat = out ++ hdr (.leaf sym) := by
      rw [h.out_eq, List.append_assoc]
      rfl
    obtain ⟨hstep, hon⟩ := h.stepExec hp rfl hexec hout
    exact ⟨_, .of_step hstep, hon, hp, rfl, ⟨rfl, rfl, rfl⟩, rfl⟩
  | internal l r ihl ihr =>
    have hopen := h.sinkOpen (busy_eq hp)
    obtain ⟨-, -, hdesc, -⟩ := (phaseInv_wrHdr hp).1 h.inv.phase
    have hroom := stack_room h.inv.block (hst ▸ hdesc)
    cases htree with
    | @internal _ il ir w _ _ _ _ hn hl hr =>
      have hexec : execWrHdr s = .next { s.afterWrite 1 0 with stk := .index il :: .index ir :: rest } := by
        rw [execWrHdr_internal hst hn, snkWrite_ok (by omega) (by omega) (by omega) (by exact hopen) (by exact h.answer),
          onCall_ok, push_room (by exact Nat.le_of_succ_le hroom), push_room (by exact hroom)]
        rfl
      have hout : s.snk.bits ++ bitsOf 1 0 = out ++ [false] := by rw [h.out_eq]; rfl
      obtain ⟨hstep, hon⟩ := h.stepExec hp rfl hexec hout
      obtain ⟨t, hlead, hon, hpt, hstt, hsame, hcode⟩ := ihl hon hp rfl hl
      obtain ⟨u, hlead', hon, hpu, hstu, hsame', hcode'⟩ := ihr hon hpt hstt (hsame.treeIn hr)
      refine ⟨u, .head hstep (hlead.trans hlead'), ?_, hpu, hstu, .trans ⟨hsame.node, hsame.count, hsame.root_eq⟩ hsame',
        hcode'.trans hcode⟩
      simpa [hdr] using hon

/-- WR_MAGIC writes MAGIC, and WR_HDR the header (R181, R183). -/
theorem Ongoing.writesHeader (h : Ongoing params input [] s) (hp : s.phase = .wrMagic) {tree : Tree}
    (htree : TreeIn s.node 0 s.nNodes s.root tree) :
    ∃ t, Leads s t ∧ Ongoing params input (bitsOf 32 params.magic.toNat ++ hdr tree) t ∧ t.phase = .rewind ∧
      t.code = s.code := by
  have hopen := h.sinkOpen (busy_eq hp)
  have hexec : execWrMagic s = .next ((s.afterWrite 32 s.params.magic.toNat).enter .wrHdr [.index s.root]) := by
    rw [execWrMagic, snkWrite_ok (by omega) (by omega) s.params.magic.isLt hopen h.answer]
    rfl
  have hout : s.snk.bits ++ bitsOf 32 s.params.magic.toNat = bitsOf 32 params.magic.toNat := by
    rw [h.out_eq, h.params_eq]; rfl
  obtain ⟨hstep, hon⟩ := h.stepExec hp rfl hexec hout
  obtain ⟨t, hlead, hont, hpt, hst, -, hcode⟩ := hon.wrHdr rfl rfl htree
  have hexec' : execWrHdr t = .next { t with phase := .rewind } := by unfold execWrHdr; rw [hst]
  obtain ⟨hstep', hon'⟩ := hont.stepExec hpt rfl hexec' hont.out_eq
  exact ⟨_, .head hstep (hlead.trans (.of_step hstep')), hon', rfl, hcode⟩

end Sys2Proof.Machine

/-! SUPPORT. The second pass and COMPRESS as a whole run (R124), and the two runs after each other (R131). -/

namespace Sys2Proof.Machine

variable {s t u : State} {params : Params} {input out : BitString}

/-! ### ENC and ENC_EOF (R201 to R203) -/

theorem writeCode_run {p : BitString} (hopen : s.snk.closed = false) (hio : s.ioAllOk = true) :
    writeCode p s = .ok (s.afterCode p) := writeCode_ok hopen (ioOk_of_all hio _)

/-- ENC writes the code of the byte it reads (R201). -/
theorem Ongoing.enc_byte (h : Ongoing params input out s) (hp : s.phase = .enc) {b : Byte} {rest p : BitString}
    (hrem : s.remaining = bitsOf 8 b.toNat ++ rest) (hcode : s.codeAt b.toNat = some p) :
    ∃ t, step s = .next t ∧ Ongoing params input (out ++ p) t ∧ t.phase = .enc ∧ t.remaining = rest ∧
      t.code = s.code := by
  obtain ⟨hread, hrest⟩ := srcRead_remaining hrem (length_bitsOf _ _) (by omega) (by omega) h.answer
  rw [valOf_bitsOf b.isLt] at hread hrest
  have hwrite : writeCode p { s.afterRead 8 b.toNat with sym := BitVec.ofNat 9 b.toNat } =
      .ok (({ s.afterRead 8 b.toNat with sym := BitVec.ofNat 9 b.toNat } : State).afterCode p) :=
    writeCode_run (by exact h.sinkOpen (busy_eq hp)) (ioAllOk_tail h.answered rfl)
  have hexec : execEnc s =
      .next (({ s.afterRead 8 b.toNat with sym := BitVec.ofNat 9 b.toNat } : State).afterCode p) := by
    have hcode' : (s.afterRead 8 b.toNat).codeAt b.toNat = some p := hcode
    rw [execEnc, hread, onRead_value, encodeByte]
    simp only [hcode', hwrite]
    rfl
  obtain ⟨hstep, hon⟩ := h.stepExec hp rfl hexec (congrArg (· ++ p) h.out_eq)
  exact ⟨_, hstep, hon, hp, hrest, rfl⟩

/-- ENC ends at the end of the source (R201). -/
theorem Ongoing.enc_end (h : Ongoing params input out s) (hp : s.phase = .enc) (hrem : s.remaining = []) :
    ∃ t, step s = .next t ∧ Ongoing params input out t ∧ t.phase = .encEof ∧ t.code = s.code := by
  obtain ⟨p, hread⟩ := srcRead_exhausted (n := 8) (by rw [hrem]; exact Nat.succ_pos 7) (by omega) (by omega) h.answer
    h.position
  have hexec : execEnc s = .next { s.afterMiss 8 .eos p with phase := .encEof } := by rw [execEnc, hread]; rfl
  obtain ⟨hstep, hon⟩ := h.stepExec hp rfl hexec h.out_eq
  exact ⟨_, hstep, hon, rfl, rfl⟩

/-- ENC writes one code for each byte (R204). -/
theorem Ongoing.enc (h : Ongoing params input out s) (hp : s.phase = .enc) {tree : Tree} (hcoded : Coded tree s)
    {bytes : List Byte} (hrem : s.remaining = bytesBits bytes) (hb : ∀ b ∈ bytes, b.toNat ∈ treeSymbols tree) :
    ∃ t, Leads s t ∧ Ongoing params input (out ++ bytes.flatMap fun b => (codeOf tree b.toNat).getD []) t ∧
      t.phase = .encEof ∧ Coded tree t := by
  induction bytes generalizing s out with
  | nil =>
    obtain ⟨t, hstep, hon, hpt, hcode⟩ := h.enc_end hp hrem
    exact ⟨t, .of_step hstep, by simpa using hon, hpt, fun v => by rw [State.codeAt, hcode]; exact hcoded v⟩
  | cons b bytes ih =>
    obtain ⟨p, hcode⟩ := exists_codeOf (hb b List.mem_cons_self)
    obtain ⟨t, hstep, hon, hpt, hrest, hsame⟩ := h.enc_byte hp hrem ((hcoded _).trans hcode)
    obtain ⟨u, hlead, honu, hpu, hcodedu⟩ := ih hon hpt (fun v => by rw [State.codeAt, hsame]; exact hcoded v) hrest
      fun b hmem => hb b (List.mem_cons_of_mem _ hmem)
    refine ⟨u, .head hstep hlead, ?_, hpu, hcodedu⟩
    rw [List.flatMap_cons, hcode, Option.getD_some, ← List.append_assoc]
    exact honu

/-- ENC_EOF writes the sentinel's code (R203). -/
theorem Ongoing.encEof (h : Ongoing params input out s) (hp : s.phase = .encEof) {p : BitString}
    (hcode : s.codeAt 256 = some p) :
    ∃ t, step s = .next t ∧ Ongoing params input (out ++ p) t ∧ t.phase = .close := by
  have hwrite : writeCode p s = .ok (s.afterCode p) :=
    writeCode_run (h.sinkOpen (busy_eq hp)) h.answered
  have hexec : execEncEof s = .next { s.afterCode p with phase := .close } := by
    rw [execEncEof, hcode]
    simp only [hwrite]
    rfl
  obtain ⟨hstep, hon⟩ := h.stepExec hp rfl hexec (congrArg (· ++ p) h.out_eq)
  exact ⟨_, hstep, hon, rfl⟩

/-- From REWIND on the run writes the body (R200, R204). -/
theorem Ongoing.writesBody (h : Ongoing params input out s) (hp : s.phase = .rewind) {tree : Tree}
    (hcoded : Coded tree s) {bytes : List Byte} (hinput : input = bytesBits bytes) (hs : 256 ∈ treeSymbols tree)
    (hb : ∀ b ∈ bytes, b.toNat ∈ treeSymbols tree) :
    ∃ t, Leads s t ∧ Ongoing params input (out ++ bodyBits tree bytes) t ∧ t.phase = .close := by
  have hexec : execRewind s =
      .next { s.issue (.rewind true) with src := { bits := s.src.bits, pos := 0 }, phase := .enc } := by
    rw [execRewind, srcRewind_ok h.answer]; rfl
  obtain ⟨hstep, hon⟩ := h.stepExec hp rfl hexec h.out_eq
  obtain ⟨t, hlead, hont, hpt, hcodedt⟩ := hon.enc rfl (by exact hcoded) (h.input_eq.trans hinput) hb
  obtain ⟨p, hcode⟩ := exists_codeOf hs
  obtain ⟨u, hstep', honu, hpu⟩ := hont.encEof hpt ((hcodedt 256).trans hcode)
  refine ⟨u, .head hstep (hlead.trans (.of_step hstep')), ?_, hpu⟩
  rw [bodyBits, hcode, Option.getD_some, ← List.append_assoc]
  exact honu

/-! ### COMPRESS (R121, R124) -/

/-- COMPRESS ends with its stream in the closed sink, and the block at rest. -/
theorem Launched.compress {o : Offer} {bytes : List Byte} (h : Launched s o) (hop : o.op = 0)
    (hsrc : o.src.bits = bytesBits bytes) (hfew : ∀ v, freqOf bytes v < 2 ^ 32) :
    ∃ t, Leads s t ∧ t.phase = .done ∧ t.errcode = 0 ∧ t.snk.closed = true ∧
      t.snk.bits = compressBits s.params.magic bytes ∧ t.cmd = none ∧ t.rst = false := by
  have hF := freqOf_sentinel bytes
  obtain ⟨haccept, hcounting⟩ := h.counting hop hsrc
  obtain ⟨s₁, hlead₁, hon₁, hp₁, hsym, hunbuilt, htable⟩ := hcounting.ends hfew
  have hleafing : Leafing s.params o.src.bits (freqOf bytes) 0 s₁ :=
    ⟨hon₁, hp₁, by rw [hsym]; rfl, htable, hunbuilt.code, hunbuilt.count,
      by rw [State.pq, hunbuilt.queue]; rfl, nofun⟩
  obtain ⟨s₂, hlead₂, hrooted⟩ := hleafing.builds hF hfew
  obtain ⟨s₃, hlead₃, hon₃, hp₃, hroot, hcoded⟩ := hrooted.gen (nodup_treeSymbols_build hF)
  obtain ⟨s₄, hlead₄, hon₄, hp₄, hcode⟩ := hon₃.writesHeader hp₃ hroot
  obtain ⟨s₅, hlead₅, hon₅, hp₅⟩ := hon₄.writesBody hp₄ (fun v => by rw [State.codeAt, hcode]; exact hcoded v) hsrc
    (sentinel_mem_build bytes) fun _ hb => byte_mem_build hb
  obtain ⟨t, hlead₆, hend⟩ := hon₅.close hp₅
  exact ⟨t, .head haccept (hlead₁.trans (hlead₂.trans (hlead₃.trans (hlead₄.trans (hlead₅.trans hlead₆))))), hend⟩

/-- Settles O48: phase by phase, from CNT to CLOSE. -/
theorem compressRunWritesTheStream : Obligations.CompressRunWritesTheStream := by
  intro s o bytes h hop hsrc hfew
  obtain ⟨t, ⟨k, hk⟩, hdone, herr, hclosed, hbits, -⟩ := h.compress hop hsrc hfew
  exact ⟨k, t, hk, hdone, herr, hclosed, hbits⟩

/-! ### The two runs (R131) -/

theorem reaches_add {k m : Nat} (h : Reaches (k + m) s u) : ∃ t, Reaches k s t ∧ Reaches m t u := by
  induction k generalizing s with
  | zero => exact ⟨s, rfl, by rwa [Nat.zero_add] at h⟩
  | succ k ih =>
    rw [Nat.succ_add] at h
    obtain ⟨v, hv, h⟩ := reaches_succ.1 h
    obtain ⟨t, hk, hm⟩ := ih h
    exact ⟨t, reaches_succ.2 ⟨v, hv, hk⟩, hm⟩

theorem step_rst (hstep : step s = .next t) : t.rst = s.rst := by
  rcases step_cases hstep with ⟨-, rfl⟩ | ⟨hr, hb, -⟩ | ⟨-, -, rfl | ⟨o, -, -, rfl⟩⟩
  · unfold State.takeReset; split <;> rfl
  · obtain ⟨-, -, hrst, -⟩ := onlyItsWritersChangeARegister s t hb hr hstep
    exact hrst
  · rfl
  · rfl

theorem reaches_rst {k : Nat} (h : Reaches k s t) : t.rst = s.rst := by
  induction k generalizing s with
  | zero => rw [reaches_zero.1 h]
  | succ k ih =>
    obtain ⟨u, hu, h⟩ := reaches_succ.1 h
    exact (ih h).trans (step_rst hu)

/-- A run comes to rest, with no command on the port, in one state only. -/
theorem eq_of_reaches_rest {k m : Nat} (hk : Reaches k s t) (hm : Reaches m s u) (hr : s.rst = false)
    (hbt : t.busy = false) (hct : t.cmd = none) (hbu : u.busy = false) (hcu : u.cmd = none) : t = u := by
  rcases Nat.le_total k m with hle | hle
  · obtain ⟨v, hv, hrest⟩ := reaches_add (Nat.add_sub_cancel' hle ▸ hm)
    obtain rfl : v = t := Host.Outcome.next.inj (hv.symm.trans hk)
    exact (eq_of_reaches_waiting hbt ((reaches_rst hk).trans hr) hct hrest).symm
  · obtain ⟨v, hv, hrest⟩ := reaches_add (Nat.add_sub_cancel' hle ▸ hk)
    obtain rfl : v = u := Host.Outcome.next.inj (hv.symm.trans hm)
    exact eq_of_reaches_waiting hbu ((reaches_rst hm).trans hr) hcu hrest

theorem flatMap_bitsOf_toNat (bytes : List Byte) : (bytes.map BitVec.toNat).flatMap (bitsOf 8) = bytesBits bytes := by
  rw [List.flatMap_map]; rfl

/-- Settles O51: the COMPRESS run ends in one state, whose sink holds what the function gives, and the functions
round-trip. -/
theorem runsRoundTrip : Obligations.RunsRoundTrip := by
  intro s t o bytes k s' o' padding h hop hsrc hfew hk hcmd hdone h' hop' hparams hsrc'
  obtain ⟨t₀, ⟨m, hm⟩, hdone₀, -, -, hbits, hcmd₀, -⟩ := h.compress hop hsrc hfew
  obtain ⟨-, hr, -⟩ := h
  have ⟨_, _, _, _, _, hcap⟩ := h'
  obtain rfl : t = t₀ := eq_of_reaches_rest hk hm hr (busy_eq hdone) hcmd
    (busy_eq hdone₀) hcmd₀
  have hresult := roundTrip s'.params.magic s'.params.nodeCap bytes padding hcap
  obtain ⟨k', t', hk', hclosed, hend⟩ := decompressRunComputesItsResult s' o' h' hop'
  rw [hsrc', hbits, ← hparams, hresult] at hend
  obtain ⟨hdone', -, hbits'⟩ := hend
  exact ⟨k', t', hk', hdone', hclosed, hbits'.trans (flatMap_bitsOf_toNat bytes)⟩

end Sys2Proof.Machine

/-! SUPPORT. A byte counted and a byte encoded: what CNT, ENC and the BYTE token do with the byte read (R141, R143,
R201, R205). -/

namespace Sys2Proof.Machine

variable {s t : State}

/-! ### Counting the byte read (R141, R143) -/

/-- A counter is full when all its bits are set (R143). -/
theorem counter_full_iff {c : BitVec Config.cntW} : c.toNat = 2 ^ 32 - 1 ↔ c = BitVec.allOnes Config.cntW := by
  rw [← BitVec.toNat_inj, BitVec.toNat_allOnes]

theorem toNat_counter_succ {c : BitVec Config.cntW} (h : c.toNat ≠ 2 ^ 32 - 1) : (c + 1).toNat = c.toNat + 1 := by
  have hlt : c.toNat < 2 ^ 32 := c.isLt
  rw [BitVec.toNat_add]
  exact Nat.mod_eq_of_lt (by change c.toNat + 1 < 2 ^ 32; omega)

/-- A counter with room grows by one, and the other cells of FREQ stay (R141). -/
theorem countByte_counts (b : Byte) (h : (s.freqAt b.toNat).toNat ≠ 2 ^ 32 - 1) :
    ∃ f, countByte b.toNat s = .next { s with sym := b.setWidth 9, freq := f } ∧
      (Memory.read 0 f b.toNat).toNat = (s.freqAt b.toNat).toNat + 1 ∧
      ∀ k, k ≠ b.toNat → Memory.read 0 f k = s.freqAt k := by
  refine ⟨Memory.write 0 s.freq b.toNat (s.freqAt b.toNat + 1), ?_, ?_, fun k => Memory.read_write_other 0 s.freq _⟩
  · rw [countByte, if_neg (mt counter_full_iff.2 h), BitVec.ofNat_toNat]
    rfl
  · rw [Memory.read_write_same, toNat_counter_succ h]

/-- A full counter raises CountOverflow (R143). -/
theorem countByte_overflows (b : Byte) (h : (s.freqAt b.toNat).toNat = 2 ^ 32 - 1) (hclose : s.answer ≠ .never) :
    ∃ t, countByte b.toNat s = .next t ∧ Raised .countOverflow { s with sym := b.setWidth 9 } t := by
  rw [countByte, if_pos (counter_full_iff.1 h), BitVec.ofNat_toNat]
  exact raise_next _ hclose

/-- CNT counts the byte that the source starts with (R141). -/
theorem execCnt_reads {b : Byte} (ha : s.answer = .ok) (hs : s.sourceStarts (bitsOf 8 b.toNat)) :
    execCnt s = countByte b.toNat (s.afterRead 8 b.toNat) := by
  rw [execCnt, srcRead_of_sourceStarts_bitsOf (by omega) (by omega) b.isLt hs, srcAnswer_ok ha, onRead_value]

/-! ### The whole pass of CNT (R140, R142) -/

theorem freqOf_lt_append_cons (done todo : List Byte) (b : Byte) :
    freqOf done b.toNat < freqOf (done ++ b :: todo) b.toNat := by
  have hle := freqOf_le_append (done ++ [b]) todo b.toNat
  rw [List.append_assoc, List.singleton_append, freqOf_append_singleton, if_pos rfl] at hle
  exact hle

/-- The table of `done` becomes that of `done` and `b` where the counter of `b` grows by one. -/
theorem Tabled.count {done : List Byte} {b : Byte} (h : Tabled (freqOf done) s)
    (hsame : (t.freqAt b.toNat).toNat = (s.freqAt b.toNat).toNat + 1)
    (hother : ∀ k, k ≠ b.toNat → t.freqAt k = s.freqAt k) : Tabled (freqOf (done ++ [b])) t := by
  intro v hv
  rw [freqOf_append_singleton, ← h v hv]
  by_cases hvb : v = b.toNat
  · rw [if_pos hvb, hvb, hsame]
  · rw [if_neg hvb, hother v hvb, Nat.add_zero]

/-- A block with nothing counted but the sentinel holds the table of no bytes (R31). -/
theorem tabled_nil (hzero : ∀ i, i < 256 → s.freqAt i = 0) (hone : s.freqAt 256 = 1) : Tabled (freqOf []) s := by
  intro v hv
  by_cases hs : v = 256
  · subst hs; rw [hone]; rfl
  · rw [hzero v (by omega), freqOf, if_neg hs]; rfl

/-- A block in CNT, whatever its other registers hold: `done` is counted, and `todo` remains in the source. Unlike
`Counting`, this asks for no launched run. -/
structure CntPass (done todo : List Byte) (s : State) : Prop where
  phase_eq : s.phase = .cnt
  noReset : s.rst = false
  answered : s.ioAllOk = true
  position : s.src.pos ≤ s.src.bits.length
  remaining_eq : s.remaining = bytesBits todo
  table : Tabled (freqOf done) s

theorem CntPass.step_eq {done todo : List Byte} (h : CntPass done todo s) : step s = execCnt s := by
  rw [step_busy h.noReset (busy_eq h.phase_eq), h.phase_eq]; rfl

theorem CntPass.byte {done todo : List Byte} {b : Byte} (h : CntPass done (b :: todo) s)
    (hfew : freqOf (done ++ b :: todo) b.toNat < 2 ^ 32) :
    ∃ t, step s = .next t ∧ CntPass (done ++ [b]) todo t ∧ t.snk = s.snk := by
  have hstep := h.step_eq
  obtain ⟨hp, hr, hio, hpos, hrem, htable⟩ := h
  have ha := State.answer_ok_of_all hio
  have hroom : (s.freqAt b.toNat).toNat ≠ 2 ^ 32 - 1 := by
    have hmore := freqOf_lt_append_cons done todo b
    rw [htable b.toNat (by omega)]
    omega
  have hstarts : s.sourceStarts (bitsOf 8 b.toNat) := ⟨bytesBits todo, hrem.symm⟩
  have hlen : s.src.pos + 8 ≤ s.src.bits.length := by
    have hle := hstarts.length_le
    rw [length_bitsOf, List.length_drop] at hle
    omega
  obtain ⟨f, hcount, hsame, hother⟩ := countByte_counts (s := s.afterRead 8 b.toNat) b hroom
  obtain ⟨-, hrest⟩ := srcRead_remaining hrem (length_bitsOf 8 b.toNat) (by omega) (by omega) ha
  rw [execCnt_reads ha hstarts, hcount] at hstep
  exact ⟨_, hstep, ⟨hp, hr, ioAllOk_tail hio rfl, hlen, hrest, htable.count hsame hother⟩, rfl⟩

/-- CNT takes one step for each byte that remains and one for the end of the source (R142). -/
theorem CntPass.ends {done todo : List Byte} (h : CntPass done todo s) (hfew : ∀ v, freqOf (done ++ todo) v < 2 ^ 32) :
    ∃ t, Reaches (todo.length + 1) s t ∧ t.phase = .bldInit ∧ t.sym = 0 ∧ Tabled (freqOf (done ++ todo)) t ∧
      t.snk = s.snk := by
  induction todo generalizing s done with
  | nil =>
    obtain ⟨p, hexec⟩ := execCnt_end h.remaining_eq (State.answer_ok_of_all h.answered) h.position
    rw [List.append_nil]
    exact ⟨_, reaches_succ.2 ⟨_, h.step_eq.trans hexec, rfl⟩, rfl, rfl, h.table, rfl⟩
  | cons b todo ih =>
    obtain ⟨t, hstep, h, hsnk⟩ := h.byte (hfew _)
    have hassoc : done ++ b :: todo = (done ++ [b]) ++ todo := by simp
    rw [hassoc] at hfew ⊢
    obtain ⟨u, hreach, hp, hsym, htable, hsnk'⟩ := ih h hfew
    exact ⟨u, reaches_succ.2 ⟨t, hstep, hreach⟩, hp, hsym, htable, hsnk'.trans hsnk⟩

/-- Settles O47: the pass begins with nothing counted, and each step counts one byte of those that remain. -/
theorem cntComputesFreq : Obligations.CntComputesFreq := by
  intro s bytes hp hr hio hsrc hzero hone hfew
  have hpass : CntPass [] bytes s :=
    ⟨hp, hr, hio, by rw [hsrc]; exact Nat.zero_le _, by rw [State.remaining, hsrc, List.drop_zero],
      tabled_nil hzero hone⟩
  exact hpass.ends hfew

/-! ### CNT, one step (R141) -/

/-- Settles O13: the read answers a byte, which `countByte` counts or not, or it misses or fails. -/
theorem cntStep : Obligations.CntStep := by
  refine ⟨fun s b hio hs hroom => ?_, fun s b hio hs hfull hclose => ?_, fun s hio hshort hpos => ?_,
    fun s hfail hclose => ?_⟩
  · rw [exec, execCnt_reads (State.ioOk_one.1 hio) hs]
    exact countByte_counts b hroom
  · rw [exec, execCnt_reads (State.ioOk_one.1 hio) hs]
    exact countByte_overflows b hfull hclose
  · obtain ⟨p, hlo, hhi, hread⟩ := srcRead_eos (by omega) (by omega) (State.ioOk_one.1 hio) hshort hpos
    exact ⟨p, hlo, hhi, by rw [exec, execCnt, hread, onRead_eos]⟩
  · obtain ⟨p, hp, hread⟩ := srcRead_fail (n := 8) (by omega) (by omega) hfail
    obtain ⟨t, ht, hraised⟩ := raise_next .ioFailure (s := s.afterMiss 8 .fail p) hclose
    exact ⟨p, t, hp, by rw [exec, execCnt, hread, onRead_fail, ht], hraised⟩

/-! ### Encoding the byte read (R201, R205) -/

/-- A byte with a code is encoded (R201). -/
theorem encodeByte_writes {b : Byte} {p : BitString} (hcode : s.codeAt b.toNat = some p) (hopen : s.snk.closed = false)
    (hio : s.ioOk (codeChunks p.length p).length = true) :
    encodeByte b.toNat s = .next { s.afterCode p with sym := b.setWidth 9 } := by
  have hwrite := writeCode_ok (s := { s with sym := b.setWidth 9 }) hopen hio
  rw [encodeByte, hcode, BitVec.ofNat_toNat]
  simp only [hwrite, onCall_ok]
  rfl

/-- A byte without a code raises NoCode (R205). -/
theorem encodeByte_noCode {b : Byte} (hcode : s.codeAt b.toNat = none) (hclose : s.answer ≠ .never) :
    ∃ t, encodeByte b.toNat s = .next t ∧ Raised .noCode { s with sym := b.setWidth 9 } t := by
  rw [encodeByte, hcode, BitVec.ofNat_toNat]
  exact raise_next _ hclose

/-- A write of the code that fails at the chunk `c` raises IoFailure (R235). -/
theorem encodeByte_fails {b : Byte} {p c : BitString} {written left : List BitString}
    (hcode : s.codeAt b.toNat = some p) (hopen : s.snk.closed = false) (hio : s.ioOk written.length = true)
    (hchunks : codeChunks p.length p = written ++ c :: left) (hfail : (s.afterChunks written).answer = .fail)
    (hclose : ((s.afterChunks written).issue (.write c.length (valOf c) false)).answer ≠ .never) :
    ∃ t, encodeByte b.toNat s = .next t ∧ Raised .ioFailure
      { (s.afterChunks written).issue (.write c.length (valOf c) false) with sym := b.setWidth 9 } t := by
  have hwrite := writeCode_fail (s := { s with sym := b.setWidth 9 }) hchunks hopen hio hfail
  rw [encodeByte, hcode, BitVec.ofNat_toNat]
  simp only [hwrite, onCall_fail]
  exact raise_next _ hclose

/-- After the first of `1 + k` calls answered normally, `k` are left. -/
theorem ioOk_of_tail {k : Nat} (h : s.ioOk (1 + k) = true) (hio : t.io = s.io.tail) : t.ioOk k = true := by
  rw [Nat.add_comm, State.ioOk_succ, ← hio] at h
  exact h.2

/-! ### The BYTE token (R100) -/

theorem execByte_cnt {b : Byte} (hp : s.phase = .cnt) (ha : s.answer = .ok) :
    execByte b s = countByte b.toNat (s.afterRead 8 b.toNat) := by
  simp only [execByte, hp, srcAnswer_ok ha, onRead_value]

theorem execByte_enc {b : Byte} (hp : s.phase = .enc) (ha : s.answer = .ok) :
    execByte b s = encodeByte b.toNat (s.afterRead 8 b.toNat) := by
  simp only [execByte, hp, srcAnswer_ok ha, onRead_value]

theorem execByte_fail {b : Byte} (hp : s.phase = .cnt ∨ s.phase = .enc) (ha : s.answer = .fail) :
    ∃ p, p ≤ s.src.bits.length ∧ execByte b s = raise .ioFailure (s.afterMiss 8 .fail p) := by
  obtain ⟨p, hle, hread⟩ := srcAnswer_fail (n := 8) (v := b.toNat) ha
  refine ⟨p, hle, ?_⟩
  rcases hp with hp | hp <;> simp only [execByte, hp, hread, onRead_fail]

theorem execByte_outside {b : Byte} (hcnt : s.phase ≠ .cnt) (henc : s.phase ≠ .enc) :
    execByte b s = .fault .byteOutsideItsPhases := by
  unfold execByte
  split
  · next hp => exact absurd hp hcnt
  · next hp => exact absurd hp henc
  all_goals rfl

/-- Settles O33: the token is read, and `countByte` or `encodeByte` takes the byte. -/
theorem byteTokenIsCountedOrEncoded : Obligations.ByteTokenIsCountedOrEncoded := by
  refine ⟨fun s b hp hio hroom => ?_, fun s b hp hio hfull hclose => ?_, fun s b p hp hcode hopen hio => ?_,
    fun s b hp hio hcode hclose => ?_, fun s b p written c left hp hio hcode hopen hchunks hfail hclose => ?_,
    fun s b hp hfail hclose => ?_, fun s b hcnt henc => execByte_outside hcnt henc⟩
  · rw [exec, execByte_cnt hp (State.ioOk_one.1 hio)]
    exact countByte_counts b hroom
  · rw [exec, execByte_cnt hp (State.ioOk_one.1 hio)]
    exact countByte_overflows b hfull hclose
  · rw [exec, execByte_enc hp (State.ioOk_one.1 (State.ioOk_mono hio (Nat.le_add_right 1 _)))]
    exact encodeByte_writes hcode hopen (ioOk_of_tail hio rfl)
  · rw [exec, execByte_enc hp (State.ioOk_one.1 hio)]
    exact encodeByte_noCode hcode hclose
  · rw [exec, execByte_enc hp (State.ioOk_one.1 (State.ioOk_mono hio (Nat.le_add_right 1 _)))]
    exact encodeByte_fails hcode hopen (ioOk_of_tail hio rfl) hchunks hfail hclose
  · obtain ⟨p, hle, hexec⟩ := execByte_fail (b := b) hp hfail
    obtain ⟨t, ht, hraised⟩ := raise_next .ioFailure (s := s.afterMiss 8 .fail p) hclose
    exact ⟨p, t, hle, hexec.trans ht, hraised⟩

end Sys2Proof.Machine

/-! SUPPORT. The Tree Builder: BLD_INIT, one step (R152), BLD_MERGE, one step (R153 to R156), and the leaves of the tree
(R158). -/

namespace Sys2Proof.Machine

variable {s : State}

/-! ### BLD_INIT, one step (R152) -/

/-- The end of a BLD_INIT step, with both its cases in one state. -/
theorem nextSymbol_eq (s : State) : nextSymbol s = { s with
    phase := if s.sym = 256 then .bldMerge else s.phase
    sym := if s.sym = 256 then s.sym else s.sym + 1 } := by
  have hlast : s.sym.toNat = 256 ↔ s.sym = 256 := BitVec.toNat_inj (y := 256)
  rcases nextSymbol_cases s with ⟨h, e⟩ | ⟨h, e⟩
  · rw [e, if_pos (hlast.1 h), if_pos (hlast.1 h)]
  · rw [e, if_neg (mt hlast.2 h), if_neg (mt hlast.2 h)]

theorem execBldInit_leaf (hs : s.sym.toNat ≤ 256) (hf : s.freqAt s.sym.toNat ≠ 0)
    (hroom : s.nNodes < s.params.nodeCap) : execBldInit s = .next (nextSymbol s.withLeaf) := by
  rw [execBldInit, if_pos hs, if_neg hf, storeNode_room hroom]
  rfl

theorem execBldInit_skip (hs : s.sym.toNat ≤ 256) (hf : s.freqAt s.sym.toNat = 0) :
    execBldInit s = .next (nextSymbol s) := by
  rw [execBldInit, if_pos hs, if_pos hf]

/-- Settles O14: a symbol that occurs gets a leaf, another none, and `nextSymbol` ends the step. -/
theorem bldInitStep : Obligations.BldInitStep := by
  refine ⟨fun s hs hf hroom => ?_, fun s hs hf => ?_⟩
  · refine ⟨s.withLeaf.node, s.withLeaf.inpq, (s.freqAt s.sym.toNat).setWidth 41, ?_, Memory.find?_put_same _ _ _, ?_,
      fun k => Memory.find?_put_other _ _, State.inpqAt_setInpq_same _ _ _,
      fun k hk => State.inpqAt_setInpq_other s true hk⟩
    · rw [exec, execBldInit_leaf hs hf hroom, nextSymbol_eq]
      rfl
    · exact BitVec.toNat_setWidth_of_le (by decide)
  · rw [exec, execBldInit_skip hs hf, nextSymbol_eq]

/-! ### BLD_MERGE, one step (R153 to R156) -/

/-- The member that comes before every other in the order of R153 is the one `leastOf` finds. -/
theorem leastOf_eq_of_first {node : Memory Node} {is : List Nat} {m : Nat} {n : Node}
    (hw : ∀ i ∈ is, ∃ n, Memory.find? node i = some n) (hm : m ∈ is) (hn : Memory.find? node m = some n)
    (hfirst : ∀ i ∈ is, ∀ n', Memory.find? node i = some n' → i ≠ m → pqOrder (nodeWeight n) m (nodeWeight n') i) :
    leastOf node is = .ok (nodeWeight n, m) := by
  obtain ⟨w, i, hleast⟩ := leastOf_ok (List.ne_nil_of_mem hm) hw
  obtain ⟨hi, n', hn', rfl⟩ := leastOf_mem hleast
  have him : i = m := by
    by_contra hne
    have hbefore := (leastOf_least hleast m hm n hn).resolve_left (Ne.symm hne)
    have hafter := hfirst i hi n' hn' hne
    rw [comesBefore, decide_eq_true_eq] at hbefore
    unfold pqOrder at hafter
    omega
  subst him
  rw [hleast, Option.some.inj (hn'.symm.trans hn)]

theorem mergeTwo_eq {a b : Nat} {wa wb : BitVec 41} {na nb : Node} (ha : leastOf s.node s.pq = .ok (wa, a))
    (hb : leastOf s.node (s.setInpq a false).pq = .ok (wb, b)) (hna : s.nodeAt a = some na)
    (hnb : s.nodeAt b = some nb) (hroom : s.nNodes < s.params.nodeCap) :
    mergeTwo s = .next (s.withMerge a b (nodeWeight na + nodeWeight nb)) := by
  rw [mergeTwo, extractMin_ok ha, extractMin_ok hb, withNode_some (by exact hna), withNode_some (by exact hnb),
    storeNode_room (by exact hroom)]
  rfl

/-- Where PQ has two members, the step is a merge (R155). -/
theorem execBldMerge_two {a b : Nat} (ha : a ∈ s.pq) (hb : b ∈ s.pq) (hne : a ≠ b) : execBldMerge s = mergeTwo s := by
  unfold execBldMerge
  split
  · next hpq => simp [hpq] at ha
  · next r hpq =>
    rw [hpq, List.mem_singleton] at ha hb
    exact absurd (ha.trans hb.symm) hne
  · rfl

theorem execBldMerge_one {r : Nat} (hpq : s.pq = [r]) : execBldMerge s = .next (finishMerge r s) := by
  rw [execBldMerge, hpq]

/-- Where `a` is first in PQ and `b` first among the others, `leastOf` finds `a` in PQ and then `b` in what is left of
it, so the step is their merge (R155). -/
theorem execBldMerge_merges {a b : Nat} {na nb : Node} (hrise : Memory.rising s.inpq = true)
    (hroom : s.nNodes < s.params.nodeCap) (hw : ∀ i ∈ s.pq, ∃ n, s.nodeAt i = some n) (ha : a ∈ s.pq)
    (hna : s.nodeAt a = some na) (hb : b ∈ s.pq) (hnb : s.nodeAt b = some nb) (hne : a ≠ b)
    (hfirst : ∀ i ∈ s.pq, ∀ n, s.nodeAt i = some n → i ≠ a → pqOrder (nodeWeight na) a (nodeWeight n) i)
    (hsecond : ∀ i ∈ s.pq, ∀ n, s.nodeAt i = some n → i ≠ a → i ≠ b →
      pqOrder (nodeWeight nb) b (nodeWeight n) i) :
    execBldMerge s = .next (s.withMerge a b (nodeWeight na + nodeWeight nb)) := by
  have hleft : ∀ {i}, i ∈ (s.setInpq a false).pq ↔ i ∈ s.pq ∧ i ≠ a := State.mem_pq_extracted hrise
  have hleast : leastOf s.node s.pq = .ok (nodeWeight na, a) := leastOf_eq_of_first hw ha hna hfirst
  have hleast' : leastOf s.node (s.setInpq a false).pq = .ok (nodeWeight nb, b) :=
    leastOf_eq_of_first (fun i hi => hw i (hleft.1 hi).1) (hleft.2 ⟨hb, hne.symm⟩) hnb
      fun i hi n hn => hsecond i (hleft.1 hi).1 n hn (hleft.1 hi).2
  rw [execBldMerge_two ha hb hne, mergeTwo_eq hleast hleast' hna hnb hroom]

/-- INPQ after a merge: the new node has taken the place of the two merged (R155). -/
theorem inpqAt_withMerge {a b : Nat} (w : BitVec 41) (k : Nat) : (s.withMerge a b w).inpqAt k =
    if k = s.nNodes then true else if k = a ∨ k = b then false else s.inpqAt k := by
  show (((s.setInpq a false).setInpq b false).setInpq s.nNodes true).inpqAt k = _
  by_cases hn : k = s.nNodes
  · rw [if_pos hn, hn, State.inpqAt_setInpq_same]
  rw [if_neg hn, State.inpqAt_setInpq_other _ true hn]
  by_cases hb : k = b
  · rw [if_pos (.inr hb), hb, State.inpqAt_setInpq_same]
  rw [State.inpqAt_setInpq_other _ false hb]
  by_cases ha : k = a
  · rw [if_pos (.inl ha), ha, State.inpqAt_setInpq_same]
  · rw [if_neg (by tauto), State.inpqAt_setInpq_other _ false ha]

theorem rising_of_memoriesWf (h : s.memoriesWf = true) : Memory.rising s.inpq = true := by
  obtain ⟨-, -, hinpq, -⟩ := s.memoriesWf_iff.1 h
  exact ((Memory.wf_iff _ _).1 hinpq).1

/-- Settles O15: the hypotheses say of PQ's members that `a` and `b` are the two that a merge takes, or that there is
one. -/
theorem bldMergeStep : Obligations.BldMergeStep := by
  refine ⟨fun s a b na nb hwf hroom hwritten hlta hqa hna hltb hqb hnb hne hfirst hsecond => ?_,
    fun s r hwf hr hqr honly => ?_⟩
  · have hrise := rising_of_memoriesWf hwf
    have hmem : ∀ {i}, i ∈ s.pq ↔ s.inpqAt i = true ∧ i < s.nNodes := State.mem_pq_iff hrise
    have hmerge := execBldMerge_merges hrise hroom (fun i hi => hwritten i (hmem.1 hi).2 (hmem.1 hi).1)
      (hmem.2 ⟨hqa, hlta⟩) hna (hmem.2 ⟨hqb, hltb⟩) hnb hne
      (fun i hi n => hfirst i n (hmem.1 hi).2 (hmem.1 hi).1) (fun i hi n => hsecond i n (hmem.1 hi).2 (hmem.1 hi).1)
    have hinpq := inpqAt_withMerge (s := s) (a := a) (b := b) (nodeWeight na + nodeWeight nb)
    refine ⟨_, _, _, hmerge, Memory.find?_put_same _ _ _, BitVec.toNat_add _ _,
      fun k => Memory.find?_put_other _ _, ?_, ?_, ?_, fun k hka hkb hkn => ?_⟩
    · exact (hinpq a).trans (by rw [if_neg hlta.ne, if_pos (.inl rfl)])
    · exact (hinpq b).trans (by rw [if_neg hltb.ne, if_pos (.inr rfl)])
    · exact (hinpq s.nNodes).trans (if_pos rfl)
    · exact (hinpq k).trans (by rw [if_neg hkn, if_neg (by tauto)])
  · have hrise := rising_of_memoriesWf hwf
    have hpq : s.pq = [r] := pq_eq_of_mem_iff hrise (List.pairwise_singleton _ _) fun i => by
      rw [State.mem_pq_iff hrise, List.mem_singleton]
      exact ⟨fun ⟨hq, hlt⟩ => honly i hlt hq, fun hir => hir ▸ ⟨hqr, hr⟩⟩
    exact ⟨Memory.write false s.inpq r false, execBldMerge_one hpq, Memory.read_write_same _ _ _ _,
      fun k => Memory.read_write_other _ _ _⟩

/-! ### The leaves of the tree (R158) -/

/-- Settles O53: the leaves made by BLD_INIT carry these symbols, and every merge keeps them. -/
theorem buildHasTheCountedSymbols : Obligations.BuildHasTheCountedSymbols :=
  fun _ hF => treeSymbols_build hF

end Sys2Proof.Machine

/-! SUPPORT. The Code Table Generator: GEN, one step (R173). -/

namespace Sys2Proof.Machine

variable {s : State}

theorem execGen_empty (hst : s.stk = []) : execGen s = .next { s with phase := .wrMagic } := by
  unfold execGen
  rw [hst]

/-- A legal symbol has a cell in the code table (R36), so its path is recorded. -/
theorem recordCode_legal {sym : Symbol} (h : sym.toNat ≤ 256) (p : BitString) (s : State) :
    recordCode sym p s = .next (s.setCode sym.toNat p) :=
  if_pos h

/-- Two pushes where there is room for both entries (R26). -/
theorem push_push_room {e f : StkEntry} (h : s.stk.length + 2 ≤ s.params.nodeCap + 1) (k : State → Out) :
    push e s (fun t => push f t k) = k { s with stk := f :: e :: s.stk } := by
  have hfst : s.stk.length ≤ s.params.nodeCap := by omega
  have hsnd : (e :: s.stk).length ≤ s.params.nodeCap := by rw [List.length_cons]; omega
  rw [push_room hfst, push_room hsnd]

/-- Settles O16: each case is what GEN does with that top of the stack, and both pushes fit. -/
theorem genStep : Obligations.GenStep := by
  refine ⟨fun s hst => execGen_empty hst, fun s i p rest w sym hst hn hsym => ?_,
    fun s i l r p rest w hst hn hroom => ?_⟩
  · have hleaf := (execGen_leaf hst hn).trans (recordCode_legal hsym p { s with stk := rest })
    exact ⟨_, hleaf, State.codeAt_setCode_same s _ p, fun k hk => State.codeAt_setCode_other s p hk⟩
  · exact (execGen_internal hst hn).trans (push_push_room (s := { s with stk := rest }) hroom _)

end Sys2Proof.Machine

/-! SUPPORT. The header as a function of the tree: its length (R184), its parse (R191), and the empty input (R186). -/

namespace Sys2Proof.Machine

/-! ### The length of the header (R184) -/

theorem length_hdr (t : Tree) : (hdr t).length = treeInternals t + 10 * treeLeaves t := by
  induction t with
  | leaf sym => simp [hdr, treeInternals, treeLeaves]
  | internal l r ihl ihr =>
    simp only [hdr, treeInternals, treeLeaves, List.length_cons, List.length_append]
    omega

/-- Settles O57: a tree has one leaf more than it has internal nodes. -/
theorem headerLength : Obligations.HeaderLength := fun t => by
  have hlen := length_hdr t
  have hnodes := treeInternals_succ t
  exact ⟨hlen, hnodes, by omega⟩

/-! ### The parse of the header (R191) -/

/-- Settles O56: the bits before are dropped, and a tree has no more nodes than its header has bits. -/
theorem headerIsSelfDelimiting : Obligations.HeaderIsSelfDelimiting := by
  intro t before after cap hsym hcap
  have hnodes := treeSize_le_length_hdr t
  have hlen : (before ++ hdr t ++ after).length = before.length + (hdr t).length + after.length := by
    rw [List.length_append, List.length_append]
  have hdrop : (before ++ hdr t ++ after).drop before.length = hdr t ++ after := by simp
  have hparse := parseTree_hdr (cap := cap) (fuel := (before ++ hdr t ++ after).length + 1) (n := 0) hsym (by omega)
    (by omega) after
  rw [parse, hdrop, hparse, hlen]
  simp only [Nat.add_sub_cancel]

/-! ### The empty input (R161, R186) -/

/-- The sentinel is the only symbol that the empty input counts (R140). -/
theorem freqOf_nil_ne_zero_iff {v : Nat} : freqOf [] v ≠ 0 ↔ v = 256 := by
  unfold freqOf
  split <;> simp_all

theorem treeSymbols_build_nil : treeSymbols (build (freqOf [])) = [256] := by
  refine List.perm_singleton.1 ((List.perm_ext_iff_of_nodup (nodup_treeSymbols_build (freqOf_sentinel []))
    (List.nodup_singleton 256)).2 fun v => ?_)
  rw [mem_treeSymbols_build (freqOf_sentinel []), freqOf_nil_ne_zero_iff, List.mem_singleton]
  omega

/-- A tree with one leaf is that leaf: below an internal node there are two. -/
theorem eq_leaf_of_treeSymbols {t : Tree} {sym : Symbol} (h : treeSymbols t = [sym.toNat]) : t = .leaf sym := by
  cases t with
  | leaf sym' => exact congrArg Tree.leaf (BitVec.eq_of_toNat_eq (List.singleton_inj.1 h))
  | internal l r =>
    have hlen := congrArg List.length h
    rw [length_treeSymbols, treeLeaves, List.length_singleton] at hlen
    have hl := treeInternals_succ l
    have hr := treeInternals_succ r
    omega

/-- Settles O59: the tree has the sentinel's leaf alone, and its code, header and body are computed. -/
theorem emptyInput : Obligations.EmptyInput :=
  ⟨eq_leaf_of_treeSymbols treeSymbols_build_nil, rfl, by decide, rfl⟩

end Sys2Proof.Machine

/-! SUPPORT. The Header Codec, writing: WR_MAGIC (R181) and WR_HDR (R185), one step. -/

namespace Sys2Proof.Machine

variable {s t : State}

/-- Two calls answered normally: the next one, and the one from a state with that answer used up (R82). -/
theorem answer_ok_of_ioOk_two (h : s.ioOk 2 = true) (hio : t.io = s.io.tail) : s.answer = .ok ∧ t.answer = .ok :=
  ⟨State.ioOk_one.1 (State.ioOk_mono h one_le_two), State.ioOk_one.1 (ioOk_of_tail (k := 1) h hio)⟩

/-! ### WR_MAGIC (R181) -/

/-- Settles O18: the one write is answered normally, or it fails. -/
theorem wrMagicStep : Obligations.WrMagicStep := by
  refine ⟨fun s hopen hio => ?_, fun s hopen hfail hclose => ?_⟩
  · rw [exec, execWrMagic, snkWrite_ok (by omega) (by omega) s.params.magic.isLt hopen (State.ioOk_one.1 hio)]
    rfl
  · rw [exec, execWrMagic, snkWrite_fail (by omega) (by omega) s.params.magic.isLt hopen hfail]
    exact raise_next .ioFailure hclose

/-! ### WR_HDR (R185) -/

theorem execWrHdr_empty (hst : s.stk = []) : execWrHdr s = .next { s with phase := .rewind } := by
  rw [execWrHdr, hst]

/-- The token of a leaf, where both its calls are answered normally (R185). -/
theorem writeLeaf_ok (sym : Symbol) (hopen : s.snk.closed = false) (hio : s.ioOk 2 = true) :
    writeLeaf sym s = .next ((s.afterWrite 1 1).afterWrite 9 sym.toNat) := by
  obtain ⟨hmark, hfield⟩ := answer_ok_of_ioOk_two (t := s.afterWrite 1 1) hio rfl
  rw [writeLeaf, snkWrite_ok (by omega) (by omega) (by omega) hopen hmark, onCall_ok,
    snkWrite_ok (by omega) (by omega) sym.isLt (by exact hopen) hfield, onCall_ok]

/-- The symbol field of a leaf's token is not written (R235). -/
theorem writeLeaf_field_fails (sym : Symbol) (hopen : s.snk.closed = false) (hmark : s.answer = .ok)
    (hfield : (s.afterWrite 1 1).answer = .fail) :
    writeLeaf sym s = raise .ioFailure ((s.afterWrite 1 1).issue (.write 9 sym.toNat false)) := by
  rw [writeLeaf, snkWrite_ok (by omega) (by omega) (by omega) hopen hmark, onCall_ok,
    snkWrite_fail (by omega) (by omega) sym.isLt (by exact hopen) hfield, onCall_fail]

/-- The first bit of a node's token (R183). -/
def nodeMark : Node → Nat
  | .leaf _ _ => 1
  | .internal _ _ _ => 0

theorem nodeMark_le_one (n : Node) : nodeMark n ≤ 1 := by cases n <;> simp [nodeMark]

theorem nodeMark_eq_one_iff (n : Node) : nodeMark n = 1 ↔ ∃ w sym, n = .leaf w sym := by
  cases n <;> simp [nodeMark]

/-- The first bit of a node's token is not written (R235). -/
theorem execWrHdr_mark_fails {i : Nat} {rest : List StkEntry} {n : Node} (hst : s.stk = .index i :: rest)
    (hn : s.nodeAt i = some n) (hopen : s.snk.closed = false) (hfail : s.answer = .fail) :
    execWrHdr s = raise .ioFailure { s.issue (.write 1 (nodeMark n) false) with stk := rest } := by
  have hwrite : snkWrite 1 (nodeMark n) { s with stk := rest } =
      .fail { s.issue (.write 1 (nodeMark n) false) with stk := rest } :=
    snkWrite_fail le_rfl (by omega) (Nat.lt_succ_of_le (nodeMark_le_one n)) hopen hfail
  rw [execWrHdr, hst]
  refine (withNode_some hn _).trans ?_
  cases n with
  | leaf w sym => exact congrArg (onCall · _) hwrite
  | internal w l r => exact congrArg (onCall · _) hwrite

/-- Settles O19: the phase is left, or the token is written, or the first or the second call of it fails. -/
theorem wrHdrStep : Obligations.WrHdrStep := by
  refine ⟨fun s hst => execWrHdr_empty hst, fun s i rest w sym hst hn hopen hio => ?_,
    fun s i l r rest w hst hn hopen hio hroom => ?_, fun s i rest n hst hn hopen hfail hclose => ?_,
    fun s i rest w sym hst hn hopen hio hfail hclose => ?_⟩
  · exact (execWrHdr_leaf hst hn).trans (writeLeaf_ok (s := { s with stk := rest }) sym hopen hio)
  · rw [exec, execWrHdr_internal hst hn,
      snkWrite_ok (by omega) (by omega) (by omega) (by exact hopen) (by exact State.ioOk_one.1 hio)]
    exact push_push_room (s := { s.afterWrite 1 0 with stk := rest }) hroom .next
  · obtain ⟨t, ht, hraised⟩ :=
      raise_next .ioFailure (s := { s.issue (.write 1 (nodeMark n) false) with stk := rest }) hclose
    exact ⟨t, nodeMark n, (execWrHdr_mark_fails hst hn hopen hfail).trans ht, hraised, nodeMark_eq_one_iff n,
      nodeMark_le_one n⟩
  · rw [exec, execWrHdr_leaf hst hn,
      writeLeaf_field_fails (s := { s with stk := rest }) sym hopen (State.ioOk_one.1 hio) hfail]
    exact raise_next .ioFailure (s := { (s.afterWrite 1 1).issue (.write 9 sym.toNat false) with stk := rest }) hclose

end Sys2Proof.Machine

/-! SUPPORT. The Header Codec, reading: RD_MAGIC (R188, R189) and RD_HDR (R192 to R198), one step, and the tokens MAGIC,
HDR_INTERNAL and HDR_LEAF. -/

namespace Sys2Proof.Machine

variable {s t u : State} {slot : Slot} {rest : List StkEntry}

/-! ### A read that raises an error (R63, R82) -/

/-- A read that misses, where the end of the source raises `e`. -/
theorem onRead_eos_raises {n : Nat} {onValue : Nat → State → Out} (e : ErrKind) (h1 : 1 ≤ n) (h2 : n ≤ 32)
    (ha : s.answer = .ok) (hshort : s.sourceShort n) (hpos : s.src.pos ≤ s.src.bits.length)
    (hclose : (s.afterMiss n .eos 0).answer ≠ .never) :
    ∃ p t, s.src.pos ≤ p ∧ p ≤ s.src.bits.length ∧ onRead (srcRead n s) onValue (raise e) = .next t ∧
      Raised e (s.afterMiss n .eos p) t := by
  obtain ⟨p, hlo, hhi, hread⟩ := srcRead_eos h1 h2 ha hshort hpos
  obtain ⟨t, ht, hraised⟩ := raise_next e (s := s.afterMiss n .eos p) hclose
  exact ⟨p, t, hlo, hhi, by rw [hread, onRead_eos, ht], hraised⟩

/-- A read that fails raises IoFailure (R235). -/
theorem onRead_fail_raises {n : Nat} {onValue : Nat → State → Out} {onEos : State → Out} (h1 : 1 ≤ n) (h2 : n ≤ 32)
    (hfail : s.answer = .fail) (hclose : (s.afterMiss n .fail 0).answer ≠ .never) :
    ∃ p t, p ≤ s.src.bits.length ∧ onRead (srcRead n s) onValue onEos = .next t ∧
      Raised .ioFailure (s.afterMiss n .fail p) t := by
  obtain ⟨p, hp, hread⟩ := srcRead_fail h1 h2 hfail
  obtain ⟨t, ht, hraised⟩ := raise_next .ioFailure (s := s.afterMiss n .fail p) hclose
  exact ⟨p, t, hp, by rw [hread, onRead_fail, ht], hraised⟩

/-! ### MAGIC (R188, R189) -/

theorem execMagic_ok (m : BitVec 32) (ha : s.answer = .ok) :
    execMagic m s = checkMagic m.toNat (s.afterRead 32 m.toNat) := by
  rw [execMagic, srcAnswer_ok ha, onRead_value]

/-- Settles O30: the token is read, and it is MAGIC or not. -/
theorem magicToken : Obligations.MagicToken := by
  refine ⟨fun s m hio hm => ?_, fun s m hio hm hclose => ?_⟩
  · rw [exec, execMagic_ok m (State.ioOk_one.1 hio)]
    exact if_pos (congrArg BitVec.toNat hm)
  · rw [exec, execMagic_ok m (State.ioOk_one.1 hio), checkMagic, if_neg (by exact mt BitVec.eq_of_toNat_eq hm)]
    exact raise_next .badHeaderMagic hclose

/-- Settles O24: a source that starts with 32 bits answers with the MAGIC token they are, and the read misses or fails
otherwise. -/
theorem rdMagicStep : Obligations.RdMagicStep := by
  refine ⟨fun s m hio hs hm => ?_, fun s m hio hs hm hclose => ?_, fun s hio hshort hpos hclose => ?_,
    fun s hfail hclose => ?_⟩
  · exact (execRdMagic_eq_execMagic hs).trans (magicToken.1 s m hio hm)
  · obtain ⟨t, ht, hraised⟩ := magicToken.2 s m hio hm hclose
    exact ⟨t, (execRdMagic_eq_execMagic hs).trans ht, hraised⟩
  · exact onRead_eos_raises _ (by omega) (by omega) (State.ioOk_one.1 hio) hshort hpos hclose
  · exact onRead_fail_raises (by omega) (by omega) hfail hclose

/-! ### Filling a slot (R192) -/

/-- A child's slot is filled where the parent has that child. -/
theorem fill_child {q k : Nat} {side : Side} {n n' : Node} (hn : s.nodeAt q = some n)
    (hchild : nodeWithChild side k n = some n') : fill (.child q side) k s = .next (s.setNode q n') := by
  refine (withNode_some hn _).trans ?_
  rw [hchild]

/-- A fill depends on NODE, ROOT and ROOT_V only, and writes no other register. -/
theorem fill_congr {k : Nat} (h : fill slot k s = .next t) (hnode : u.node = s.node) (hroot : u.root = s.root)
    (hrootV : u.rootV = s.rootV) :
    fill slot k u = .next { u with node := t.node, root := t.root, rootV := t.rootV } := by
  obtain ⟨rfl, rfl⟩ | ⟨q, side, n, n', rfl, hn, hchild, rfl⟩ := fill_next h
  · show Host.Outcome.next { u with root := k, rootV := true } = _
    rw [← hnode]
  · have hn' : u.nodeAt q = some n := by rw [State.nodeAt, hnode]; exact hn
    rw [fill_child hn' hchild, State.setNode, hnode]
    show _ = Host.Outcome.next { u with node := Memory.put s.node q n', root := s.root, rootV := s.rootV }
    rw [← hroot, ← hrootV]

/-- An open slot is filled with the node stored in the first free entry, in one way whatever the other registers
hold. -/
theorem fill_open (hslot : slotOpen s (.slot slot)) (n : Node) :
    ∃ node root rootV, ∀ u : State, u.node = Memory.put s.node s.nNodes n → u.root = s.root → u.rootV = s.rootV →
      fill slot s.nNodes u = .next { u with node := node, root := root, rootV := rootV } := by
  obtain ⟨t, ht⟩ := fill_answers (hslot.store n) s.nNodes
  exact ⟨t.node, t.root, t.rootV, fun u hnode hroot hrootV => fill_congr ht hnode hroot hrootV⟩

/-- The arena with a node stored at `k` and another at `q`. -/
theorem find?_put_put {m : Memory Node} {k q : Nat} (hq : q ≠ k) (n n' : Node) :
    Memory.find? (Memory.put (Memory.put m k n) q n') k = some n ∧
    Memory.find? (Memory.put (Memory.put m k n) q n') q = some n' ∧
    ∀ j, j ≠ k → j ≠ q → Memory.find? (Memory.put (Memory.put m k n) q n') j = Memory.find? m j :=
  ⟨(Memory.find?_put_other _ n' hq.symm).trans (Memory.find?_put_same m k n), Memory.find?_put_same _ q n',
    fun _ hk hjq => (Memory.find?_put_other _ n' hjq).trans (Memory.find?_put_other m n hk)⟩

/-! ### A token with room in the arena (R192) -/

/-- A `0` makes an internal node, opens both its slots and fills the slot with it. -/
theorem readInternal_fills (slot : Slot) (hroom : s.nNodes < s.params.nodeCap)
    (hpush : s.stk.length + 2 ≤ s.params.nodeCap + 1) :
    readInternal slot s = fill slot s.nNodes { s with
      node := Memory.put s.node s.nNodes (.internal 0 none none), nNodes := s.nNodes + 1
      stk := .slot (.child s.nNodes .L) :: .slot (.child s.nNodes .R) :: s.stk } := by
  rw [readInternal, if_neg hroom.ne, storeNode_room hroom]
  exact push_push_room (s := s.setNode s.nNodes (.internal 0 none none)) hpush _

/-- A legal symbol field makes a leaf, records the symbol and fills the slot with the leaf. -/
theorem readField_fills (slot : Slot) {sym : Symbol} (hsym : sym.toNat ≤ 256) (hroom : s.nNodes < s.params.nodeCap) :
    readField slot sym.toNat s = fill slot s.nNodes { s with
      node := Memory.put s.node s.nNodes (.leaf 0 sym), nNodes := s.nNodes + 1, sym := sym } := by
  rw [readField, if_neg (Nat.not_lt.2 hsym), BitVec.ofNat_toNat, BitVec.setWidth_eq]
  exact storeNode_room (by exact hroom) _

/-- The HDR_INTERNAL token. -/
theorem execHdrInternal_fills (hst : s.stk = .slot slot :: rest) (hroom : s.nNodes < s.params.nodeCap)
    (hpush : rest.length + 2 ≤ s.params.nodeCap + 1) (ha : s.answer = .ok) :
    execHdrInternal s = fill slot s.nNodes { s.afterRead 1 0 with
      node := Memory.put s.node s.nNodes (.internal 0 none none), nNodes := s.nNodes + 1
      stk := .slot (.child s.nNodes .L) :: .slot (.child s.nNodes .R) :: rest } := by
  rw [execHdrInternal, hst]
  refine (congrArg (onRead · _ _) (srcAnswer_ok (by exact ha))).trans ?_
  exact readInternal_fills (s := { s.afterRead 1 0 with stk := rest }) slot hroom hpush

/-- The HDR_LEAF token. -/
theorem execHdrLeaf_fills {sym : Symbol} (hst : s.stk = .slot slot :: rest) (hroom : s.nNodes < s.params.nodeCap)
    (hsym : sym.toNat ≤ 256) (hio : s.ioOk 2 = true) :
    execHdrLeaf sym s = fill slot s.nNodes { (s.afterRead 1 1).afterRead 9 sym.toNat with
      node := Memory.put s.node s.nNodes (.leaf 0 sym), nNodes := s.nNodes + 1, sym := sym, stk := rest } := by
  obtain ⟨hmark, hfield⟩ := answer_ok_of_ioOk_two (t := s.afterRead 1 1) hio rfl
  rw [execHdrLeaf, hst]
  refine (congrArg (onRead · _ _) (srcAnswer_ok (by exact hmark))).trans ?_
  refine (if_neg (by exact hroom.ne)).trans ?_
  refine (congrArg (onRead · _ _) (srcAnswer_ok (by exact hfield))).trans ?_
  exact readField_fills (s := { (s.afterRead 1 1).afterRead 9 sym.toNat with stk := rest }) slot hsym hroom

/-- Settles O31: the root's slot is filled at once, a child's in its parent, which the new node is not. -/
theorem headerTokensFillTheSlot : Obligations.HeaderTokensFillTheSlot := by
  refine ⟨fun s rest hst hroom hpush hio => ?_, fun s rest sym hst hroom hsym hio => ?_,
    fun s rest q side w l r hst hq hn hroom hpush hio => ?_, fun s rest q side w l r sym hst hq hn hroom hsym hio => ?_⟩
  · exact ⟨_, execHdrInternal_fills hst hroom hpush (State.ioOk_one.1 hio), Memory.find?_put_same _ _ _,
      fun k hk => Memory.find?_put_other _ _ hk⟩
  · exact ⟨_, execHdrLeaf_fills hst hroom hsym hio, Memory.find?_put_same _ _ _,
      fun k hk => Memory.find?_put_other _ _ hk⟩
  · have hfill := execHdrInternal_fills hst hroom hpush (State.ioOk_one.1 hio)
    have hchild := nodeWithChild_internal side s.nNodes w l r
    have hn' := (Memory.find?_put_other s.node (.internal 0 none none) hq).trans hn
    exact ⟨_, hfill.trans (fill_child hn' hchild), find?_put_put hq _ _⟩
  · have hfill := execHdrLeaf_fills hst hroom hsym hio
    have hchild := nodeWithChild_internal side s.nNodes w l r
    have hn' := (Memory.find?_put_other s.node (.leaf 0 sym) hq).trans hn
    exact ⟨_, hfill.trans (fill_child hn' hchild), find?_put_put hq _ _⟩

/-- Settles O25: a source that starts with a token answers with it, and the open slot is filled with the new node. -/
theorem rdHdrReadsOneToken : Obligations.RdHdrReadsOneToken := by
  refine ⟨fun s k => rfl, fun s q k w l r hn => ⟨?_, ?_⟩, fun s slot rest hst hslot hroom hpush hio hs => ?_,
    fun s slot rest sym hst hslot hroom hio hsym hs => ?_⟩
  · exact ⟨_, fill_child hn (nodeWithChild_internal .L k w l r), Memory.find?_put_same _ _ _,
      fun j hj => Memory.find?_put_other _ _ hj⟩
  · exact ⟨_, fill_child hn (nodeWithChild_internal .R k w l r), Memory.find?_put_same _ _ _,
      fun j hj => Memory.find?_put_other _ _ hj⟩
  · obtain ⟨node, root, rootV, hfill⟩ := fill_open hslot (.internal 0 none none)
    have hexec := (execRdHdr_eq_execHdrInternal hst hs).trans
      (execHdrInternal_fills hst hroom hpush (State.ioOk_one.1 hio))
    exact ⟨node, root, rootV, hexec.trans (hfill _ rfl rfl rfl), hfill _ rfl rfl rfl⟩
  · obtain ⟨node, root, rootV, hfill⟩ := fill_open hslot (.leaf 0 sym)
    have hexec := (execRdHdr_eq_execHdrLeaf hst hs).trans (execHdrLeaf_fills hst hroom hsym hio)
    exact ⟨node, root, rootV, hexec.trans (hfill _ rfl rfl rfl), hfill _ rfl rfl rfl⟩

/-! ### The errors of a token, in the order of the checks (R192 to R198) -/

/-- RD_HDR reads the first bit of a token for an open slot. -/
theorem execRdHdr_slot (hst : s.stk = .slot slot :: rest) :
    execRdHdr s = onRead (srcRead 1 { s with stk := rest })
      (fun d t => if d = 0 then readInternal slot t else readLeaf slot (srcRead 9) t)
      (raise .streamTruncatedHeader) := by
  rw [execRdHdr, hst]

/-- A token meets a full arena after its first bit, whichever bit that is (R195, R198). -/
theorem execRdHdr_full {d : Bool} (hst : s.stk = .slot slot :: rest) (ha : s.answer = .ok) (hs : s.sourceStarts [d])
    (hfull : s.nNodes = s.params.nodeCap) :
    execRdHdr s = raise .treeCapacity { s.afterRead 1 (if d then 1 else 0) with stk := rest } := by
  rw [execRdHdr_slot hst, srcRead_of_sourceStarts_single (by exact hs), srcAnswer_ok (by exact ha), onRead_value]
  cases d with
  | false => exact if_pos hfull
  | true => exact if_pos hfull

/-- A `1` with room in the arena: the symbol field is read next (R198). -/
theorem execRdHdr_mark (hst : s.stk = .slot slot :: rest) (ha : s.answer = .ok) (hs : s.sourceStarts [true])
    (hroom : s.nNodes ≠ s.params.nodeCap) :
    execRdHdr s = onRead (srcRead 9 { s.afterRead 1 1 with stk := rest }) (readField slot)
      (raise .streamTruncatedHeader) := by
  rw [execRdHdr_slot hst, srcRead_of_sourceStarts_single (by exact hs), srcAnswer_ok (by exact ha), onRead_value]
  exact if_neg hroom

/-- Settles O27: each error is raised by the check that finds it, after the reads before that. -/
theorem rdHdrErrors : Obligations.RdHdrErrors := by
  refine ⟨fun s slot rest hst hio hshort hpos hclose => ?_, fun s slot rest d hst hio hs hfull hclose => ?_,
    fun s slot rest hst hio hs hroom hshort hclose => ?_, fun s slot rest v hst hio hlo hhi hs hroom hclose => ?_,
    fun s slot rest hst hfail hclose => ?_, fun s slot rest hst hio hs hroom hfail hclose => ?_⟩
  · rw [exec, execRdHdr_slot hst]
    exact onRead_eos_raises (s := { s with stk := rest }) _ (by omega) (by omega) (State.ioOk_one.1 hio) hshort hpos
      hclose
  · rw [exec, execRdHdr_full hst (State.ioOk_one.1 hio) hs hfull]
    exact raise_next .treeCapacity hclose
  · obtain ⟨hmark, hfield⟩ := answer_ok_of_ioOk_two (t := s.afterRead 1 1) hio rfl
    have hlen : s.src.pos + 1 ≤ s.src.bits.length := by
      have hle := hs.length_le
      rw [List.length_singleton, List.length_drop] at hle
      omega
    rw [exec, execRdHdr_mark hst hmark hs hroom]
    exact onRead_eos_raises (s := { s.afterRead 1 1 with stk := rest }) _ (by omega) (by omega) hfield
      (by exact hshort) hlen hclose
  · obtain ⟨hmark, hfield⟩ := answer_ok_of_ioOk_two (t := s.afterRead 1 1) hio rfl
    have hs' : ({ s.afterRead 1 1 with stk := rest } : State).sourceStarts (bitsOf 9 v) :=
      State.sourceStarts_afterRead (v := 1) (p := [true]) rfl hs
    rw [exec, execRdHdr_mark hst hmark ((List.prefix_append [true] _).trans hs) hroom,
      srcRead_of_sourceStarts_bitsOf (by omega) (by omega) hhi hs', srcAnswer_ok (by exact hfield), onRead_value,
      readField, if_pos hlo]
    exact raise_next .badSymbol (s := { (s.afterRead 1 1).afterRead 9 v with stk := rest }) hclose
  · rw [exec, execRdHdr_slot hst]
    exact onRead_fail_raises (s := { s with stk := rest }) (by omega) (by omega) hfail hclose
  · rw [exec, execRdHdr_mark hst (State.ioOk_one.1 hio) hs hroom]
    exact onRead_fail_raises (s := { s.afterRead 1 1 with stk := rest }) (by omega) (by omega) hfail hclose

/-! ### The last step of RD_HDR (R192, R196) -/

/-- Settles O26: DEC begins at an internal node or the sentinel's leaf, and another leaf is refused. -/
theorem rdHdrFinishes : Obligations.RdHdrFinishes := by
  refine ⟨fun s w l r hst hn => ?_, fun s w sym hst hn hs => ?_, fun s w sym hst hn hs hclose => ?_⟩
  · exact (execRdHdr_finish hst).trans (withNode_some hn _)
  · exact (execRdHdr_finish hst).trans ((withNode_some hn _).trans (if_pos hs))
  · rw [exec, execRdHdr_finish hst, finishHeader, withNode_some hn]
    simp only [Config.eofSym, if_neg hs]
    exact raise_next .degenerateTree hclose

end Sys2Proof.Machine

/-! SUPPORT. The Bitstream Transcoder: `write_code` as a list of calls (R202), REWIND (R200), ENC (R201, R205), ENC_EOF
(R203) and DEC (R211), one step, the tokens BIT0 and BIT1, and the walk of a body (R210). -/

namespace Sys2Proof.Machine

variable {s : State}

/-! ### The chunks of a path (R202) -/

theorem codeChunks_nil (fuel : Nat) : codeChunks fuel [] = [] := by cases fuel <;> rfl

theorem codeChunks_succ (fuel : Nat) {p : BitString} (hp : p ≠ []) :
    codeChunks (fuel + 1) p = p.take 32 :: codeChunks fuel (p.drop 32) := if_neg hp

/-- A path is what its chunks append to (R202). -/
theorem flatten_codeChunks {fuel : Nat} {p : BitString} (hfuel : p.length ≤ fuel) :
    (codeChunks fuel p).flatten = p := by
  induction fuel generalizing p with
  | zero => rw [List.length_eq_zero_iff.1 (Nat.le_zero.1 hfuel)]; rfl
  | succ fuel ih =>
    by_cases hp : p = []
    · rw [hp, codeChunks_nil]; rfl
    · rw [codeChunks_succ fuel hp, List.flatten_cons, ih (by rw [List.length_drop]; omega), List.take_append_drop]

/-- A chunk holds 1 to 32 bits (R67, R202). -/
theorem length_of_mem_codeChunks {fuel : Nat} {p c : BitString} (hc : c ∈ codeChunks fuel p) :
    1 ≤ c.length ∧ c.length ≤ 32 := by
  induction fuel generalizing p with
  | zero => cases hc
  | succ fuel ih =>
    by_cases hp : p = []
    · rw [hp, codeChunks_nil] at hc; cases hc
    · rw [codeChunks_succ fuel hp] at hc
      rcases List.mem_cons.1 hc with rfl | hc
      · have hpos : 0 < p.length := List.length_pos_iff.2 hp
        rw [List.length_take]; omega
      · exact ih hc

/-- All chunks but the last hold 32 bits, so their number is `|p|/32` rounded up (R202). -/
theorem length_codeChunks {fuel : Nat} {p : BitString} (hfuel : p.length ≤ fuel) :
    (codeChunks fuel p).length = (p.length + 31) / 32 := by
  induction fuel generalizing p with
  | zero => rw [List.length_eq_zero_iff.1 (Nat.le_zero.1 hfuel)]; rfl
  | succ fuel ih =>
    by_cases hp : p = []
    · rw [hp, codeChunks_nil]; rfl
    · have hpos : 0 < p.length := List.length_pos_iff.2 hp
      rw [codeChunks_succ fuel hp, List.length_cons, ih (by rw [List.length_drop]; omega), List.length_drop]
      omega

/-! ### Going on after `write_code` (R202, R235) -/

/-- Where every chunk is written, the operation goes on with the path in the sink. -/
theorem onCall_writeCode_ok {p : BitString} (hopen : s.snk.closed = false)
    (hio : s.ioOk (codeChunks p.length p).length = true) (k : State → Out) :
    onCall (writeCode p s) k = k (s.afterCode p) := by
  rw [writeCode_ok hopen hio, onCall_ok]

/-- A chunk that is not written raises IoFailure, and the operation does not go on. -/
theorem onCall_writeCode_fail_raises {p c : BitString} {written left : List BitString} (hopen : s.snk.closed = false)
    (hchunks : codeChunks p.length p = written ++ c :: left) (hio : s.ioOk written.length = true)
    (hfail : (s.afterChunks written).answer = .fail)
    (hclose : ((s.afterChunks written).issue (.write c.length (valOf c) false)).answer ≠ .never) (k : State → Out) :
    ∃ t, onCall (writeCode p s) k = .next t ∧
      Raised .ioFailure ((s.afterChunks written).issue (.write c.length (valOf c) false)) t := by
  rw [writeCode_fail hchunks hopen hio hfail, onCall_fail]
  exact raise_next .ioFailure hclose

/-- Settles O23: the chunks are the path cut up, and they are all written or one of them fails. -/
theorem codeIsWrittenInChunks : Obligations.CodeIsWrittenInChunks := by
  refine ⟨fun s p hopen hio => ?_, fun p => ?_, fun s p written c left hopen hchunks hio hfail hclose => ?_⟩
  · exact onCall_writeCode_ok hopen hio .next
  · exact ⟨flatten_codeChunks le_rfl, fun _ => length_of_mem_codeChunks, length_codeChunks le_rfl⟩
  · exact onCall_writeCode_fail_raises hopen hchunks hio hfail hclose .next

/-! ### REWIND (R200) -/

/-- Settles O20: the one call is answered normally, or it fails. -/
theorem rewindStep : Obligations.RewindStep := by
  refine ⟨fun s hio => ?_, fun s hfail hclose => ?_⟩
  · rw [exec, execRewind, srcRewind_ok (State.ioOk_one.1 hio)]
    rfl
  · obtain ⟨p, hp, hcall⟩ := srcRewind_fail hfail
    obtain ⟨t, ht, hraised⟩ := raise_next .ioFailure (s := { s.issue (.rewind false) with
      src := { bits := s.src.bits, pos := p }, draws := s.draws + 1 }) hclose
    exact ⟨p, t, hp, by rw [exec, execRewind, hcall, onCall_fail, ht], hraised⟩

/-! ### ENC (R201, R205) -/

/-- ENC encodes the byte that the source starts with. -/
theorem execEnc_reads {b : Byte} (ha : s.answer = .ok) (hs : s.sourceStarts (bitsOf 8 b.toNat)) :
    execEnc s = encodeByte b.toNat (s.afterRead 8 b.toNat) := by
  rw [execEnc, srcRead_of_sourceStarts_bitsOf (by omega) (by omega) b.isLt hs, srcAnswer_ok ha, onRead_value]

/-- Settles O21: the read answers a byte, which `encodeByte` takes, or it misses or fails. -/
theorem encStep : Obligations.EncStep := by
  refine ⟨fun s b p hs hcode hopen hio => ?_, fun s b hio hs hcode hclose => ?_, fun s hio hshort hpos => ?_,
    fun s hfail hclose => ?_, fun s b p written c left hio hs hcode hopen hchunks hfail hclose => ?_⟩
  · rw [exec, execEnc_reads (State.ioOk_one.1 (State.ioOk_mono hio (Nat.le_add_right 1 _))) hs]
    exact encodeByte_writes hcode hopen (ioOk_of_tail hio rfl)
  · rw [exec, execEnc_reads (State.ioOk_one.1 hio) hs]
    exact encodeByte_noCode hcode hclose
  · obtain ⟨p, hlo, hhi, hread⟩ := srcRead_eos (by omega) (by omega) (State.ioOk_one.1 hio) hshort hpos
    exact ⟨p, hlo, hhi, by rw [exec, execEnc, hread, onRead_eos]⟩
  · exact onRead_fail_raises (by omega) (by omega) hfail hclose
  · rw [exec, execEnc_reads (State.ioOk_one.1 (State.ioOk_mono hio (Nat.le_add_right 1 _))) hs]
    exact encodeByte_fails hcode hopen (ioOk_of_tail hio rfl) hchunks hfail hclose

/-! ### ENC_EOF (R203) -/

/-- ENC_EOF writes the code of the sentinel, which it has. -/
theorem execEncEof_writes {p : BitString} (hcode : s.codeAt 256 = some p) :
    execEncEof s = onCall (writeCode p s) fun t => .next { t with phase := .close } := by
  rw [execEncEof, hcode]

/-- Settles O22: the sentinel's code is written, or one of its chunks fails. -/
theorem encEofStep : Obligations.EncEofStep := by
  refine ⟨fun s p hcode hopen hio => ?_, fun s p written c left hcode hopen hchunks hio hfail hclose => ?_⟩
  · rw [exec, execEncEof_writes hcode, onCall_writeCode_ok hopen hio]
  · rw [exec, execEncEof_writes hcode]
    exact onCall_writeCode_fail_raises hopen hchunks hio hfail hclose _

/-! ### BIT0 and BIT1 (R211) -/

/-- Settles O32: at an internal node the bit is read and the child is there, and at a leaf the token stops. -/
theorem bodyBitsDescend : Obligations.BodyBitsDescend := by
  refine ⟨fun s w l r hn hio => ?_, fun s w l r hn hio => ?_,
    fun s w sym hn => ⟨withNode_some hn _, withNode_some hn _⟩⟩
  · rw [exec, execBit0, withNode_some hn]
    exact congrArg (onRead · _ _) (srcAnswer_ok (State.ioOk_one.1 hio))
  · rw [exec, execBit1, withNode_some hn]
    exact congrArg (onRead · _ _) (srcAnswer_ok (State.ioOk_one.1 hio))

/-! ### DEC (R211) -/

/-- A byte that is not written at a leaf raises IoFailure (R235). -/
theorem execDec_write_fails {w : BitVec 41} {sym : Symbol} (hn : s.nodeAt s.cur = some (.leaf w sym))
    (hs : sym.toNat ≠ 256) (hopen : s.snk.closed = false) (hfail : s.answer = .fail) :
    execDec s = raise .ioFailure (s.issue (.write 8 (sym.toNat % 256) false)) := by
  rw [execDec, withNode_some hn]
  refine (if_neg hs).trans ?_
  rw [snkWrite_fail (by omega) (by omega) (by omega) hopen hfail, onCall_fail]

/-- At an internal node DEC reads one bit. -/
theorem execDec_branches {w : BitVec 41} {l r : Option Nat} (hn : s.nodeAt s.cur = some (.internal w l r)) :
    execDec s = onRead (srcRead 1 s) (descend l r) (raise .missingSentinel) := by
  rw [execDec, withNode_some hn]

/-- Settles O28: a leaf is the sentinel's or is written, and at an internal node the read answers a body bit, or it
misses at the end of the source, or it fails. -/
theorem decStep : Obligations.DecStep := by
  refine ⟨fun s w sym hn hs => execDec_sentinel hn hs,
    fun s w sym hn hs hopen hio => execDec_byte hn hs hopen (State.ioOk_one.1 hio),
    fun s w sym hn hs hopen hfail hclose => ?_, fun s w l r d hn hio hstarts => ?_,
    fun s w l r hn hio hend hclose => ?_, fun s w l r hn hfail hclose => ?_⟩
  · rw [exec, execDec_write_fails hn hs hopen hfail]
    exact raise_next .ioFailure hclose
  · obtain ⟨hleft, hright, -⟩ := bodyBitsDescend
    cases d with
    | false => exact (execDec_eq_execBit0 hn hstarts).trans (hleft s w l (some r) hn hio)
    | true => exact (execDec_eq_execBit1 hn hstarts).trans (hright s w (some l) r hn hio)
  · have hshort : s.sourceShort 1 := by rw [State.sourceShort, hend]; exact Nat.lt_succ_self _
    obtain ⟨p, t, hlo, hhi, ht, hraised⟩ := onRead_eos_raises (onValue := descend l r) .missingSentinel (by omega)
      (by omega) (State.ioOk_one.1 hio) hshort hend.le hclose
    obtain rfl : p = s.src.pos := le_antisymm (hhi.trans hend.ge) hlo
    exact ⟨t, (execDec_branches hn).trans ht, hraised⟩
  · rw [exec, execDec_branches hn]
    exact onRead_fail_raises (by omega) (by omega) hfail hclose

/-! ### The walk of a body (R210) -/

/-- Settles O58: of any tree with the sentinel and the bytes on its leaves, the lone sentinel's too. -/
theorem walkReadsTheBodyBack : Obligations.WalkReadsTheBodyBack :=
  fun _ _ after _ hs hb => walk_bodyBits hs hb after

end Sys2Proof.Machine

/-! SUPPORT. The errors each phase raises (spec/60_exceptions.md R231). -/

namespace Sys2Proof.Machine

variable {s t u : State}

/-- ERRCODE holds the code of an error that the table lists for the phase `p` (R231). -/
def ListedError (p : Phase) (t : State) : Prop := ∃ e ∈ errorsOf p, t.errcode = errCode e

/-- An error the table lists, raised where ERRCODE was 0 (R240). -/
theorem Raised.listed {p : Phase} {e : ErrKind} (ht : Raised e u t) (he : u.errcode = 0) (hmem : e ∈ errorsOf p) :
    ListedError p t := ⟨e, hmem, ht.errcode he⟩

/-- Writing a code changes neither PHASE nor ERRCODE (R202). -/
theorem Wrote.phase_errcode (h : Wrote s u) : u.phase = s.phase ∧ u.errcode = s.errcode := by
  obtain ⟨more, io, calls, rfl, -⟩ := h
  exact ⟨rfl, rfl⟩

/-! ### The compress side -/

theorem execCnt_listed (hp : s.phase = .cnt) (he : s.errcode = 0) (h : execCnt s = .next t) (herr : t.phase = .err) :
    ListedError .cnt t := by
  rcases execCnt_next h with ⟨b, -, rfl⟩ | ⟨b, -, ht⟩ | ⟨p, -, -, -, rfl⟩ | ⟨p, -, ht⟩
  · cases hp.symm.trans herr
  · exact ht.listed he (by decide)
  · cases herr
  · exact ht.listed he (by decide)

/-- GEN raises no error: in a run a node's children fit on the stack (R26, R173). -/
theorem execGen_ne_err (hblock : BlockInv s) (hp : s.phase = .gen) (hinv : PhaseInv s) (h : execGen s = .next t) :
    t.phase ≠ .err := by
  intro herr
  rcases execGen_next h with ⟨-, rfl⟩ | ⟨i, p, rest, w, sym, -, -, -, rfl⟩ |
    ⟨i, p, rest, w, l, r, -, -, -, rfl⟩ | ⟨i, p, rest, w, l, r, stk, hst, -, hfull, -, -, -⟩
  · cases herr
  · cases hp.symm.trans herr
  · cases hp.symm.trans herr
  · obtain ⟨-, -, -, -, hdesc, -⟩ := (phaseInv_gen hp).1 hinv
    exact absurd (stack_room hblock (hst ▸ hdesc)) (Nat.not_le.2 hfull)

theorem execWrMagic_listed (he : s.errcode = 0) (h : execWrMagic s = .next t) (herr : t.phase = .err) :
    ListedError .wrMagic t := by
  obtain ⟨-, rfl | ht⟩ := execWrMagic_next h
  · cases herr
  · exact ht.listed he (by decide)

/-- WR_HDR raises IoFailure alone: in a run a node's children fit on the stack (R26, R185). -/
theorem execWrHdr_listed (hblock : BlockInv s) (hp : s.phase = .wrHdr) (hinv : PhaseInv s) (he : s.errcode = 0)
    (h : execWrHdr s = .next t) (herr : t.phase = .err) : ListedError .wrHdr t := by
  rcases execWrHdr_next h with ⟨-, rfl⟩ | ⟨i, rest, n, hst, -, -, ⟨w, sym, -, rfl | ht | ht⟩ |
    ⟨w, l, r, -, -, rfl⟩ | ⟨w, l, r, -, ht⟩ | ⟨w, l, r, stk, -, hfull, -, -, -⟩⟩
  · cases herr
  · cases hp.symm.trans herr
  · exact ht.listed he (by decide)
  · exact ht.listed he (by decide)
  · cases hp.symm.trans herr
  · exact ht.listed he (by decide)
  · obtain ⟨-, -, hdesc, -⟩ := (phaseInv_wrHdr hp).1 hinv
    exact absurd (stack_room hblock (hst ▸ hdesc)) (Nat.not_le.2 hfull)

theorem execRewind_listed (he : s.errcode = 0) (h : execRewind s = .next t) (herr : t.phase = .err) :
    ListedError .rewind t := by
  obtain rfl | ⟨p, -, ht⟩ := execRewind_next h
  · cases herr
  · exact ht.listed he (by decide)

theorem execEnc_listed (hp : s.phase = .enc) (he : s.errcode = 0) (h : execEnc s = .next t) (herr : t.phase = .err) :
    ListedError .enc t := by
  rcases execEnc_next h with ⟨b, -, u, hu, rfl | ht⟩ | ⟨b, -, -, ht⟩ | ⟨p, -, -, -, rfl⟩ | ⟨p, -, ht⟩
  · cases hp.symm.trans (hu.phase_errcode.1.symm.trans herr)
  · exact ht.listed (hu.phase_errcode.2.trans he) (by decide)
  · exact ht.listed he (by decide)
  · cases herr
  · exact ht.listed he (by decide)

theorem execEncEof_listed (he : s.errcode = 0) (h : execEncEof s = .next t) (herr : t.phase = .err) :
    ListedError .encEof t := by
  obtain ⟨p, u, -, hu, rfl | ht⟩ := execEncEof_next h
  · cases herr
  · exact ht.listed (hu.phase_errcode.2.trans he) (by decide)

/-! ### The decompress side, and CLOSE -/

theorem execRdMagic_listed (he : s.errcode = 0) (h : execRdMagic s = .next t) (herr : t.phase = .err) :
    ListedError .rdMagic t := by
  rcases execRdMagic_next h with ⟨-, -, rfl⟩ | ⟨v, -, -, ht⟩ | ⟨p, -, -, -, ht⟩ | ⟨p, -, ht⟩
  · cases herr
  · exact ht.listed he (by decide)
  · exact ht.listed he (by decide)
  · exact ht.listed he (by decide)

/-- Filling a slot in RD_HDR is no way into ERR (R192). -/
theorem fill_ne_err {q : Slot} {k : Nat} (h : fill q k u = .next t) (hp : u.phase = .rdHdr) : t.phase ≠ .err := by
  rw [(fill_keeps h).1, hp]
  decide

theorem readInternal_listed {q : Slot} (hp : s.phase = .rdHdr) (he : s.errcode = 0) (h : readInternal q s = .next t)
    (herr : t.phase = .err) : ListedError .rdHdr t := by
  rcases readInternal_next h with ⟨-, -, hfill⟩ | ⟨-, ht⟩ | ⟨stk, -, -, -, ht⟩
  · exact absurd herr (fill_ne_err hfill hp)
  · exact ht.listed he (by decide)
  · exact ht.listed he (by decide)

theorem readField_listed {q : Slot} {v : Nat} (hp : s.phase = .rdHdr) (he : s.errcode = 0)
    (h : readField q v s = .next t) (herr : t.phase = .err) : ListedError .rdHdr t := by
  obtain ⟨-, ht⟩ | ⟨-, -, hfill⟩ := readField_next h
  · exact ht.listed he (by decide)
  · exact absurd herr (fill_ne_err hfill hp)

theorem finishHeader_listed (he : s.errcode = 0) (h : finishHeader s = .next t) (herr : t.phase = .err) :
    ListedError .rdHdr t := by
  obtain ⟨rfl, -, -⟩ | ⟨-, ht⟩ := finishHeader_next h
  · cases herr
  · exact ht.listed he (by decide)

theorem execRdHdr_listed (hp : s.phase = .rdHdr) (he : s.errcode = 0) (h : execRdHdr s = .next t)
    (herr : t.phase = .err) : ListedError .rdHdr t := by
  rcases execRdHdr_next h with ⟨-, h⟩ | ⟨q, rest, -, ⟨-, h⟩ | ⟨-, -, ht⟩ | ⟨v, -, -, -, h⟩ | ⟨p, -, -, ht⟩ |
    ⟨p, -, ht⟩ | ⟨p, -, -, ht⟩ | ⟨p, -, ht⟩⟩
  · exact finishHeader_listed he h herr
  · exact readInternal_listed (by exact hp) (by exact he) h herr
  · exact ht.listed he (by decide)
  · exact readField_listed (by exact hp) (by exact he) h herr
  · exact ht.listed he (by decide)
  · exact ht.listed he (by decide)
  · exact ht.listed he (by decide)
  · exact ht.listed he (by decide)

theorem execDec_listed (hp : s.phase = .dec) (he : s.errcode = 0) (h : execDec s = .next t) (herr : t.phase = .err) :
    ListedError .dec t := by
  rcases execDec_next h with ⟨w, sym, -, ⟨-, rfl⟩ | ⟨-, -, rfl | ht⟩⟩ |
    ⟨w, l, r, -, ⟨d, c, -, -, -, -, rfl⟩ | ⟨p, -, -, -, ht⟩ | ⟨p, -, ht⟩⟩
  · cases herr
  · cases hp.symm.trans herr
  · exact ht.listed he (by decide)
  · cases hp.symm.trans herr
  · exact ht.listed he (by decide)
  · exact ht.listed he (by decide)

/-- CLOSE records the error itself, with no second SnkClose (R240). -/
theorem execClose_listed (he : s.errcode = 0) (h : execClose s = .next t) (herr : t.phase = .err) :
    ListedError .close t := by
  obtain ⟨pad, rfl⟩ | ⟨bits, pad, draws, rfl⟩ := execClose_next h
  · cases herr
  · exact ⟨.ioFailure, by decide, if_pos he⟩

/-! ### The table -/

/-- Settles O44: by cases on the phase. ERRCODE is 0 in a busy block, so the error raised is the one recorded; RunInv
gives GEN and WR_HDR a stack with room, and BLD_INIT and BLD_MERGE have no step into ERR. -/
theorem errorsArePhaseErrors : Obligations.ErrorsArePhaseErrors := by
  intro s t hrun hb hr hstep herr
  have hblock := hrun.block
  have hinv := hrun.phase
  have he : s.errcode = 0 := hblock.errorCode.2 (ne_err_of_phaseBusy hb)
  show ListedError s.phase t
  rw [step_busy hr hb] at hstep
  cases hp : s.phase <;> simp only [hp, operationOf, exec] at hstep
  case idle | done | err => simp [State.busy, phaseBusy, hp] at hb
  case cnt => exact execCnt_listed hp he hstep herr
  case bldInit => exact absurd (herr ▸ execBldInit_phase hp hstep) (by decide)
  case bldMerge => exact absurd (herr ▸ execBldMerge_phase hp hstep) (by decide)
  case gen => exact absurd herr (execGen_ne_err hblock hp hinv hstep)
  case wrMagic => exact execWrMagic_listed he hstep herr
  case wrHdr => exact execWrHdr_listed hblock hp hinv he hstep herr
  case rewind => exact execRewind_listed he hstep herr
  case enc => exact execEnc_listed hp he hstep herr
  case encEof => exact execEncEof_listed he hstep herr
  case rdMagic => exact execRdMagic_listed he hstep herr
  case rdHdr => exact execRdHdr_listed hp he hstep herr
  case dec => exact execDec_listed hp he hstep herr
  case close => exact execClose_listed he hstep herr

end Sys2Proof.Machine

/-! SUPPORT. Where every call returns, every invocation ends (R274): a step that does not leave its phase takes off the
work that the phase still has before it. -/

namespace Sys2Proof.Machine

variable {s t : State}

/-! ### The work that a phase has before it -/

/-- The work of a traversal stack. A node stands for more than two nodes of lesser indices, so it shrinks where a node's
children take its place. -/
def stackWork (stk : List StkEntry) : Nat := (stk.map fun e => 3 ^ entryIndex e).sum

theorem stackWork_cons (e : StkEntry) (rest : List StkEntry) :
    stackWork (e :: rest) = 3 ^ entryIndex e + stackWork rest := by simp [stackWork]

theorem stackWork_pop (e : StkEntry) (rest : List StkEntry) : stackWork rest < stackWork (e :: rest) := by
  rw [stackWork_cons]
  exact Nat.lt_add_of_pos_left (Nat.pow_pos (by omega))

/-- A node's two children take its place (R173, R185). -/
theorem stackWork_children {e el er : StkEntry} (hl : entryIndex el < entryIndex e) (hr : entryIndex er < entryIndex e)
    (rest : List StkEntry) : stackWork (el :: er :: rest) < stackWork (e :: rest) := by
  obtain ⟨i, hi⟩ : ∃ i, entryIndex e = i + 1 := ⟨entryIndex e - 1, by omega⟩
  have hl' : 3 ^ entryIndex el ≤ 3 ^ i := Nat.pow_le_pow_right (by omega) (by omega)
  have hr' : 3 ^ entryIndex er ≤ 3 ^ i := Nat.pow_le_pow_right (by omega) (by omega)
  have hpos : 0 < 3 ^ i := Nat.pow_pos (by omega)
  simp only [stackWork_cons, hi, Nat.pow_succ]
  omega

/-- How many bytes DEC writes at a node before it reads the next bit: one at a leaf, but none at the sentinel's. -/
def bytesDue : Option Node → Nat
  | some (.leaf _ sym) => if sym.toNat = 256 then 0 else 1
  | some (.internal _ _ _) => 0
  | none => 0

theorem bytesDue_le_one : ∀ n : Option Node, bytesDue n ≤ 1
  | some (.leaf _ sym) => by
    show (if sym.toNat = 256 then 0 else 1) ≤ 1
    split <;> omega
  | some (.internal _ _ _) => Nat.zero_le _
  | none => Nat.zero_le _

/-- A bound on the steps that a phase can still take before it is left (R274). The phases that are left at every step
have none. -/
def State.work (s : State) : Nat :=
  match s.phase with
  | .cnt | .enc | .rdHdr => s.remaining.length
  | .bldInit => 256 - s.sym.toNat
  | .bldMerge => s.params.nodeCap - s.nNodes
  | .gen | .wrHdr => stackWork s.stk
  | .dec => 2 * s.remaining.length + bytesDue (s.nodeAt s.cur)
  | .idle | .wrMagic | .rewind | .encEof | .rdMagic | .close | .done | .err => 0

theorem work_reading (hp : s.phase = .cnt ∨ s.phase = .enc ∨ s.phase = .rdHdr) : s.work = s.remaining.length := by
  rcases hp with hp | hp | hp <;> simp only [State.work, hp]

theorem work_bldInit (hp : s.phase = .bldInit) : s.work = 256 - s.sym.toNat := by simp only [State.work, hp]

theorem work_bldMerge (hp : s.phase = .bldMerge) : s.work = s.params.nodeCap - s.nNodes := by
  simp only [State.work, hp]

theorem work_traversal (hp : s.phase = .gen ∨ s.phase = .wrHdr) : s.work = stackWork s.stk := by
  rcases hp with hp | hp <;> simp only [State.work, hp]

theorem work_dec (hp : s.phase = .dec) : s.work = 2 * s.remaining.length + bytesDue (s.nodeAt s.cur) := by
  simp only [State.work, hp]

/-- The bits of a read that is answered do not remain. -/
theorem length_remaining_of_read {n : Nat} (hpos : s.src.pos + n ≤ s.src.bits.length)
    (ht : t.src = { s.src with pos := s.src.pos + n }) : t.remaining.length + n = s.remaining.length := by
  simp only [State.remaining, List.length_drop, ht]
  omega

/-- CNT, ENC and RD_HDR read in every step in which they stay. -/
theorem work_lt_of_read {n : Nat} (hp : s.phase = .cnt ∨ s.phase = .enc ∨ s.phase = .rdHdr) (hsame : t.phase = s.phase)
    (hpos : s.src.pos + n ≤ s.src.bits.length) (h1 : 1 ≤ n) (ht : t.src = { s.src with pos := s.src.pos + n }) :
    t.work < s.work := by
  have hread := length_remaining_of_read hpos ht
  rw [work_reading hp, work_reading (hsame ▸ hp)]
  omega

/-! ### A step takes work off, or leaves its phase -/

/-- The end of a BLD_INIT step that does not leave the phase moves on to the next symbol (R152). -/
theorem work_nextSymbol_lt (hp : s.phase = .bldInit) (hs : s.sym.toNat ≤ 256) (hsame : (nextSymbol s).phase = s.phase) :
    (nextSymbol s).work < 256 - s.sym.toNat := by
  rw [work_bldInit (hsame.trans hp)]
  obtain ⟨-, e⟩ | ⟨hne, e⟩ := nextSymbol_cases s
  · rw [e] at hsame
    cases hsame.trans hp
  · have hnext : (nextSymbol s).sym.toNat = s.sym.toNat + 1 := by
      rw [e]
      exact BitVec.toNat_add_of_lt (y := 1) (show s.sym.toNat + 1 < 2 ^ 9 by omega)
    omega

/-- No byte is due at the root, since a lone leaf is the sentinel (R196). -/
theorem bytesDue_root (hp : s.phase = .dec) (hinv : PhaseInv s) : bytesDue (s.nodeAt s.root) = 0 := by
  obtain ⟨hw, -, hroot, -, hlone⟩ := (phaseInv_dec hp).1 hinv
  obtain ⟨n, hn⟩ := hw _ hroot
  rw [hn]
  cases n with
  | leaf w sym => exact if_pos (hlone w sym hn)
  | internal w l r => rfl

/-- In a run, a step that does not leave its phase takes off some of the phase's work (R274). -/
theorem BusyStep.work_lt (h : BusyStep s t) (hinv : PhaseInv s) (hb : s.busy = true) (hsame : t.phase = s.phase) :
    t.work < s.work := by
  cases h with
  | countEnd hp | mergeEnd hp | genEnd hp | wrMagic hp | wrHdrEnd hp | rewind hp | encodeEnd hp | encEof hp
  | rdMagic hp | rdHdrEnd hp | decEnd hp | close hp => cases hsame.trans hp
  | count hp b hb hpos => exact work_lt_of_read (.inl hp) hsame hpos (by omega) rfl
  | skipSymbol hp hs =>
    rw [work_bldInit hp]
    exact work_nextSymbol_lt hp hs hsame
  | leafSymbol hp hs =>
    rw [work_bldInit hp]
    exact work_nextSymbol_lt (s := s.withLeaf) hp hs hsame
  | merge hp _ _ _ _ _ _ _ _ _ _ _ hroom =>
    rw [work_bldMerge (hsame.trans hp), work_bldMerge hp]
    exact Nat.sub_lt_sub_left hroom (Nat.lt_succ_self _)
  | genLeaf hp i p rest _ _ hst =>
    rw [work_traversal (.inl (hsame.trans hp)), work_traversal (.inl hp), hst]
    exact stackWork_pop _ rest
  | genInternal hp i p rest w l r hst hn =>
    obtain ⟨-, hbelow, -⟩ := (phaseInv_gen hp).1 hinv
    obtain ⟨hl, hr⟩ := hbelow.lt hn
    rw [work_traversal (.inl (hsame.trans hp)), work_traversal (.inl hp), hst]
    exact stackWork_children (e := .pair i p) (el := .pair l _) (er := .pair r _) hl hr rest
  | wrLeaf hp i rest _ _ hst =>
    rw [work_traversal (.inr (hsame.trans hp)), work_traversal (.inr hp), hst]
    exact stackWork_pop _ rest
  | wrInternal hp i rest w l r hst hn =>
    obtain ⟨-, hbelow, -⟩ := (phaseInv_wrHdr hp).1 hinv
    obtain ⟨hl, hr⟩ := hbelow.lt hn
    rw [work_traversal (.inr (hsame.trans hp)), work_traversal (.inr hp), hst]
    exact stackWork_children (e := .index i) (el := .index l) (er := .index r) hl hr rest
  | encode hp b _ hpos _ _ _ u hu =>
    obtain ⟨more, io, calls, rfl, -, -⟩ := hu
    exact work_lt_of_read (.inr (.inl hp)) hsame hpos (by omega) rfl
  | rdInternal hp _ _ _ hpos _ _ _ hfill =>
    obtain ⟨root, rootV, node, rfl⟩ := fill_frame hfill
    exact work_lt_of_read (.inr (.inr hp)) hsame hpos le_rfl rfl
  | rdLeaf hp _ _ _ _ hpos _ _ _ hfill =>
    obtain ⟨root, rootV, node, rfl⟩ := fill_frame hfill
    exact work_lt_of_read (.inr (.inr hp)) hsame hpos (by omega) rfl
  | decLeaf hp w sym hn hs =>
    have hcur : bytesDue (some (.leaf w sym)) = 1 := if_neg hs
    rw [work_dec (hsame.trans hp), work_dec hp, hn, hcur]
    show 2 * s.remaining.length + bytesDue (s.nodeAt s.root) < _
    rw [bytesDue_root hp hinv]
    exact Nat.lt_succ_self _
  | decInternal hp w l r d c hn _ _ hpos =>
    have hread := length_remaining_of_read (t := { s.afterRead 1 d with cur := c }) hpos rfl
    have hle := bytesDue_le_one (s.nodeAt c)
    rw [work_dec (hsame.trans hp), work_dec hp]
    show _ + bytesDue (s.nodeAt c) < _
    omega
  | raised e u _ hu ht =>
    obtain ⟨errcode, pos, sym, stk, node, snk, io, trace, draws, rfl, -⟩ := Raised.frame hu ht
    exact absurd hsame.symm (ne_err_of_phaseBusy hb)

/-- A phase is left for one that comes later in the order of R24. -/
theorem phaseCode_lt_of_successor {p q : Phase} (h : q ∈ successors p) (hne : q ≠ p) : phaseCode p < phaseCode q := by
  revert h hne
  cases p <;> cases q <;> decide

theorem phaseCode_le (p : Phase) : phaseCode p ≤ 15 := by cases p <;> decide

/-- A successor that is no phase of a busy block ends the run. -/
theorem done_or_err_of_successor {p q : Phase} (h : q ∈ successors p) (hb : phaseBusy q = false) :
    q = .done ∨ q = .err := by
  revert h hb
  cases p <;> cases q <;> decide

/-! ### The end of a run (R274) -/

/-- In a run each step leaves the phase for a later one or takes off some of its work, so the run ends. -/
theorem RunInv.ends (s : State) (h : RunInv s) (hr : s.rst = false) (hb : s.busy = true) :
    ∃ t, Leads s t ∧ (t.phase = .done ∨ t.phase = .err) := by
  obtain ⟨t, hstep, ht⟩ := runNeverStops s h
  have hsucc := phasesFollowTheControlFlow s t hb hr hstep
  cases hbt : t.busy with
  | false => exact ⟨t, .of_step hstep, done_or_err_of_successor hsucc hbt⟩
  | true =>
    obtain ⟨u, hlead, hu⟩ := RunInv.ends t ht ((step_rst hstep).trans hr) hbt
    exact ⟨u, .head hstep hlead, hu⟩
termination_by (15 - phaseCode s.phase, s.work)
decreasing_by
  by_cases hsame : t.phase = s.phase
  · rw [hsame]
    exact .right _ ((busyStep_of_step hb hr hstep).work_lt h.phase hb hsame)
  · have hlt := phaseCode_lt_of_successor hsucc hsame
    have hle := phaseCode_le t.phase
    exact .left _ _ (by omega)

/-- Settles O52: the steps of a run cannot go on taking work off. -/
theorem everyInvocationEnds : Obligations.EveryInvocationEnds := by
  intro s h hr hb
  obtain ⟨t, ⟨k, hk⟩, ht⟩ := RunInv.ends s h hr hb
  exact ⟨k, t, hk, ht⟩

end Sys2Proof.Machine

/-! SUPPORT. A command offered while the block is busy has no effect (R268): no operation of a phase reads the command
port. -/

namespace Sys2Proof.Machine

/-! ### Another content of the command port -/

/-- The state with `c` on the command port. -/
def State.offering (s : State) (c : Option Offer) : State := { s with cmd := c }

section Fields

variable (s : State) (c : Option Offer)

@[simp] theorem State.offering_params : (s.offering c).params = s.params := rfl
@[simp] theorem State.offering_stkCap : (s.offering c).stkCap = s.stkCap := rfl
@[simp] theorem State.offering_errcode : (s.offering c).errcode = s.errcode := rfl
@[simp] theorem State.offering_nNodes : (s.offering c).nNodes = s.nNodes := rfl
@[simp] theorem State.offering_sym : (s.offering c).sym = s.sym := rfl
@[simp] theorem State.offering_stk : (s.offering c).stk = s.stk := rfl
@[simp] theorem State.offering_node : (s.offering c).node = s.node := rfl
@[simp] theorem State.offering_src : (s.offering c).src = s.src := rfl
@[simp] theorem State.offering_snk : (s.offering c).snk = s.snk := rfl
@[simp] theorem State.offering_pq : (s.offering c).pq = s.pq := rfl
@[simp] theorem State.offering_answer : (s.offering c).answer = s.answer := rfl
@[simp] theorem State.offering_freqAt (i : Nat) : (s.offering c).freqAt i = s.freqAt i := rfl
@[simp] theorem State.offering_nodeAt (i : Nat) : (s.offering c).nodeAt i = s.nodeAt i := rfl
@[simp] theorem State.offering_codeAt (i : Nat) : (s.offering c).codeAt i = s.codeAt i := rfl

end Fields

/-- An outcome with `c` on the command port. -/
def offeringOut (c : Option Offer) : Out → Out
  | .next t => .next (t.offering c)
  | .fault f => .fault f
  | .refused r => .refused r

/-- What a read comes to, with `c` on the command port. -/
def ReadResult.offering (c : Option Offer) : ReadResult → ReadResult
  | .value v s => .value v (s.offering c)
  | .eos s => .eos (s.offering c)
  | .fail s => .fail (s.offering c)
  | .never => .never
  | .refused r => .refused r

/-- What a call comes to, with `c` on the command port. -/
def CallResult.offering (c : Option Offer) : CallResult → CallResult
  | .ok s => .ok (s.offering c)
  | .fail s => .fail (s.offering c)
  | .never => .never
  | .refused r => .refused r

/-- `k` comes to the same outcome whatever is on the command port, and leaves it there. -/
def IgnoresOffer (k : State → Out) : Prop := ∀ s c, k (s.offering c) = offeringOut c (k s)

theorem ignoresOffer_next : IgnoresOffer .next := fun _ _ => rfl

/-! ### The service calls -/

theorem srcAnswer_offering (n v : Nat) (s : State) (c : Option Offer) :
    srcAnswer n v (s.offering c) = (srcAnswer n v s).offering c := by
  unfold srcAnswer
  rw [State.offering_answer]
  cases s.answer <;> rfl

theorem srcRead_offering (n : Nat) (s : State) (c : Option Offer) :
    srcRead n (s.offering c) = (srcRead n s).offering c := by
  unfold srcRead
  rw [State.offering_answer, State.offering_src]
  split
  · split
    · exact srcAnswer_offering n _ s c
    · cases s.answer <;> rfl
  · rfl

theorem srcRewind_offering (s : State) (c : Option Offer) : srcRewind (s.offering c) = (srcRewind s).offering c := by
  unfold srcRewind
  rw [State.offering_answer]
  cases s.answer <;> rfl

theorem snkWrite_offering (n v : Nat) (s : State) (c : Option Offer) :
    snkWrite n v (s.offering c) = (snkWrite n v s).offering c := by
  unfold snkWrite
  rw [State.offering_answer, State.offering_snk]
  split
  · split
    · rfl
    · cases s.answer <;> rfl
  · rfl

theorem snkClose_offering (s : State) (c : Option Offer) : snkClose (s.offering c) = (snkClose s).offering c := by
  unfold snkClose
  rw [State.offering_answer]
  cases s.answer <;> rfl

theorem writeChunks_offering : ∀ (fuel : Nat) (p : BitString) (s : State) (c : Option Offer),
    writeChunks fuel p (s.offering c) = (writeChunks fuel p s).offering c
  | 0, _, _, _ => rfl
  | fuel + 1, p, s, c => by
    unfold writeChunks
    split
    · rfl
    · rw [snkWrite_offering]
      cases snkWrite (min Config.ioMaxN p.length) (valOf (p.take Config.ioMaxN)) s with
      | ok u => exact writeChunks_offering fuel _ u c
      | fail u | never | refused r => rfl

theorem recordErr_offering (e : ErrKind) (s : State) (c : Option Offer) :
    (s.offering c).recordErr e = (s.recordErr e).offering c := by
  unfold State.recordErr
  rw [State.offering_errcode]
  split <;> rfl

theorem ignoresOffer_raise (e : ErrKind) : IgnoresOffer (raise e) := by
  intro s c
  unfold raise
  rw [recordErr_offering, snkClose_offering]
  cases snkClose (s.recordErr e) <;> rfl

/-! ### Going on -/

theorem onRead_offering {f : Nat → State → Out} {g : State → Out} (hf : ∀ v, IgnoresOffer (f v)) (hg : IgnoresOffer g)
    (r : ReadResult) (c : Option Offer) : onRead (r.offering c) f g = offeringOut c (onRead r f g) := by
  cases r with
  | value v s => exact hf v s c
  | eos s => exact hg s c
  | fail s => exact ignoresOffer_raise .ioFailure s c
  | never | refused r => rfl

theorem onCall_offering {k : State → Out} (hk : IgnoresOffer k) (r : CallResult) (c : Option Offer) :
    onCall (r.offering c) k = offeringOut c (onCall r k) := by
  cases r with
  | ok s => exact hk s c
  | fail s => exact ignoresOffer_raise .ioFailure s c
  | never | refused r => rfl

/-- A read that goes on as `f` and `g`. -/
theorem ignoresOffer_read {f : Nat → State → Out} {g : State → Out} (n : Nat) (hf : ∀ v, IgnoresOffer (f v))
    (hg : IgnoresOffer g) : IgnoresOffer fun s => onRead (srcRead n s) f g := by
  intro s c
  show onRead (srcRead n (s.offering c)) f g = _
  rw [srcRead_offering]
  exact onRead_offering hf hg _ c

/-- A write that goes on as `k`. -/
theorem ignoresOffer_write {k : State → Out} (n v : Nat) (hk : IgnoresOffer k) :
    IgnoresOffer fun s => onCall (snkWrite n v s) k := by
  intro s c
  show onCall (snkWrite n v (s.offering c)) k = _
  rw [snkWrite_offering]
  exact onCall_offering hk _ c

theorem ignoresOffer_writeCode {k : State → Out} (p : BitString) (hk : IgnoresOffer k) :
    IgnoresOffer fun s => onCall (writeCode p s) k := by
  intro s c
  show onCall (writeChunks p.length p (s.offering c)) k = _
  rw [writeChunks_offering]
  exact onCall_offering hk _ c

theorem withNode_offering {k k' : Node → Out} {c : Option Offer} (h : ∀ n, k' n = offeringOut c (k n)) (s : State)
    (i : Nat) : withNode (s.offering c) i k' = offeringOut c (withNode s i k) := by
  unfold withNode
  rw [State.offering_nodeAt]
  cases s.nodeAt i with
  | none => rfl
  | some n => exact h n

theorem withChild_offering {k k' : Nat → Out} {c : Option Offer} (h : ∀ i, k' i = offeringOut c (k i))
    (i : Option Nat) : withChild i k' = offeringOut c (withChild i k) := by
  cases i with
  | none => rfl
  | some i => exact h i

theorem ignoresOffer_storeNode (k : Nat) (n : Node) {cont : State → Out} (h : IgnoresOffer cont) :
    IgnoresOffer fun s => storeNode k n s cont := by
  intro s c
  dsimp only
  unfold storeNode
  rw [State.offering_params]
  split
  · exact h (s.setNode k n) c
  · rfl

theorem ignoresOffer_push (e : StkEntry) {k : State → Out} (h : IgnoresOffer k) :
    IgnoresOffer fun s => push e s k := by
  intro s c
  dsimp only
  unfold push
  rw [State.offering_stkCap, State.offering_stk]
  split
  · exact h { s with stk := e :: s.stk } c
  · exact ignoresOffer_raise .treeCapacity s c

theorem ignoresOffer_fill (q : Slot) (k : Nat) : IgnoresOffer (fill q k) := by
  intro s c
  cases q with
  | root => rfl
  | child i side =>
    refine withNode_offering (fun n => ?_) s i
    cases nodeWithChild side k n <;> rfl

theorem ignoresOffer_extractMin {k : Nat → State → Out} (h : ∀ m, IgnoresOffer (k m)) :
    IgnoresOffer fun s => extractMin s k := by
  intro s c
  dsimp only
  unfold extractMin
  rw [State.offering_node, State.offering_pq]
  split
  · rfl
  · next m _ => exact h m (s.setInpq m false) c

/-! ### The operations of the phases -/

theorem ignoresOffer_execCnt : IgnoresOffer execCnt := by
  refine ignoresOffer_read 8 (fun b s c => ?_) fun _ _ => rfl
  unfold countByte
  rw [State.offering_freqAt]
  dsimp only
  split
  · exact ignoresOffer_raise .countOverflow { s with sym := BitVec.ofNat 9 b } c
  · rfl

theorem nextSymbol_offering (s : State) (c : Option Offer) : nextSymbol (s.offering c) = (nextSymbol s).offering c := by
  unfold nextSymbol
  rw [State.offering_sym]
  split <;> rfl

theorem ignoresOffer_execBldInit : IgnoresOffer execBldInit := by
  intro s c
  unfold execBldInit
  rw [State.offering_sym, State.offering_freqAt, State.offering_nNodes]
  split
  · split
    · exact congrArg Host.Outcome.next (nextSymbol_offering s c)
    · refine ignoresOffer_storeNode s.nNodes _ (fun u c => ?_) s c
      exact congrArg Host.Outcome.next
        (nextSymbol_offering { u.setInpq s.nNodes true with nNodes := s.nNodes + 1 } c)
  · rfl

theorem ignoresOffer_mergeTwo : IgnoresOffer mergeTwo :=
  ignoresOffer_extractMin fun a => ignoresOffer_extractMin fun b s c =>
    withNode_offering (fun _ => withNode_offering (fun _ => ignoresOffer_storeNode _ _ (fun _ _ => rfl) s c) s b) s a

theorem ignoresOffer_execBldMerge : IgnoresOffer execBldMerge := by
  intro s c
  unfold execBldMerge
  rw [State.offering_pq]
  split
  · rfl
  · rfl
  · exact ignoresOffer_mergeTwo s c

/-- The children of a node are pushed, the right one first (R173, R185). -/
theorem ignoresOffer_pushChildren (l r : Option Nat) (el er : Nat → StkEntry) : IgnoresOffer fun s =>
    withChild r fun i => push (er i) s fun t => withChild l fun j => push (el j) t .next := fun s c =>
  withChild_offering (fun _ => ignoresOffer_push _ (fun u c => withChild_offering
    (fun _ => ignoresOffer_push _ ignoresOffer_next u c) l) s c) r

theorem ignoresOffer_pushPairs (l r : Option Nat) (p : BitString) : IgnoresOffer (pushPairs l r p) :=
  ignoresOffer_pushChildren l r (.pair · (p ++ [false])) (.pair · (p ++ [true]))

theorem ignoresOffer_execGen : IgnoresOffer execGen := by
  intro s c
  unfold execGen
  rw [State.offering_stk]
  split
  · rfl
  · next i p rest _ =>
    refine withNode_offering (fun n => ?_) s i
    cases n with
    | leaf w sym =>
      dsimp only
      unfold recordCode
      split <;> rfl
    | internal w l r => exact ignoresOffer_pushPairs l r p { s with stk := rest } c
  · rfl
  · rfl

theorem ignoresOffer_execWrMagic : IgnoresOffer execWrMagic := fun s c =>
  ignoresOffer_write 32 s.params.magic.toNat (fun _ _ => rfl) s c

theorem ignoresOffer_writeLeaf (sym : Symbol) : IgnoresOffer (writeLeaf sym) :=
  ignoresOffer_write 1 1 (ignoresOffer_write 9 sym.toNat ignoresOffer_next)

theorem ignoresOffer_writeInternal (l r : Option Nat) : IgnoresOffer (writeInternal l r) :=
  ignoresOffer_write 1 0 (ignoresOffer_pushChildren l r .index .index)

theorem ignoresOffer_execWrHdr : IgnoresOffer execWrHdr := by
  intro s c
  unfold execWrHdr
  rw [State.offering_stk]
  split
  · rfl
  · next i rest _ =>
    refine withNode_offering (fun n => ?_) s i
    cases n with
    | leaf w sym => exact ignoresOffer_writeLeaf sym { s with stk := rest } c
    | internal w l r => exact ignoresOffer_writeInternal l r { s with stk := rest } c
  · rfl
  · rfl

theorem ignoresOffer_execRewind : IgnoresOffer execRewind := by
  intro s c
  unfold execRewind
  rw [srcRewind_offering]
  exact onCall_offering (fun _ _ => rfl) _ c

theorem ignoresOffer_execEnc : IgnoresOffer execEnc := by
  refine ignoresOffer_read 8 (fun b s c => ?_) fun _ _ => rfl
  unfold encodeByte
  rw [State.offering_codeAt]
  cases s.codeAt b with
  | none => exact ignoresOffer_raise .noCode { s with sym := BitVec.ofNat 9 b } c
  | some p => exact ignoresOffer_writeCode p ignoresOffer_next { s with sym := BitVec.ofNat 9 b } c

theorem ignoresOffer_execEncEof : IgnoresOffer execEncEof := by
  intro s c
  unfold execEncEof
  rw [State.offering_codeAt]
  cases s.codeAt 256 with
  | none => rfl
  | some p => exact ignoresOffer_writeCode p (fun _ _ => rfl) s c

theorem ignoresOffer_execRdMagic : IgnoresOffer execRdMagic := by
  refine ignoresOffer_read 32 (fun v s c => ?_) (ignoresOffer_raise _)
  unfold checkMagic
  rw [State.offering_params]
  split
  · rfl
  · exact ignoresOffer_raise _ s c

theorem ignoresOffer_readInternal (q : Slot) : IgnoresOffer (readInternal q) := by
  intro s c
  unfold readInternal
  rw [State.offering_nNodes, State.offering_params]
  split
  · exact ignoresOffer_raise _ s c
  · exact ignoresOffer_storeNode _ _ (ignoresOffer_push _ (ignoresOffer_push _ fun u =>
      ignoresOffer_fill q s.nNodes { u with nNodes := s.nNodes + 1 })) s c

theorem ignoresOffer_readField (q : Slot) (v : Nat) : IgnoresOffer (readField q v) := by
  intro s c
  unfold readField
  split
  · exact ignoresOffer_raise _ s c
  · exact ignoresOffer_storeNode s.nNodes _ (fun u => ignoresOffer_fill q s.nNodes { u with nNodes := s.nNodes + 1 })
      { s with sym := BitVec.ofNat 9 v } c

theorem ignoresOffer_readLeaf (q : Slot) : IgnoresOffer (readLeaf q (srcRead 9)) := by
  intro s c
  unfold readLeaf
  rw [State.offering_nNodes, State.offering_params]
  split
  · exact ignoresOffer_raise _ s c
  · exact ignoresOffer_read 9 (ignoresOffer_readField q) (ignoresOffer_raise _) s c

theorem ignoresOffer_finishHeader : IgnoresOffer finishHeader := by
  intro s c
  refine withNode_offering (fun n => ?_) s s.root
  cases n with
  | leaf w sym =>
    dsimp only
    split
    · rfl
    · exact ignoresOffer_raise _ s c
  | internal w l r => rfl

theorem ignoresOffer_execRdHdr : IgnoresOffer execRdHdr := by
  intro s c
  unfold execRdHdr
  rw [State.offering_stk]
  split
  · exact ignoresOffer_finishHeader s c
  · next q rest _ =>
    refine ignoresOffer_read 1 (fun d u c => ?_) (ignoresOffer_raise _) { s with stk := rest } c
    split
    · exact ignoresOffer_readInternal q u c
    · exact ignoresOffer_readLeaf q u c
  · rfl
  · rfl

theorem ignoresOffer_descend (l r : Option Nat) (d : Nat) : IgnoresOffer (descend l r d) := fun s _ =>
  withChild_offering (k := fun i => .next { s with cur := i }) (fun _ => rfl) (if d = 0 then l else r)

theorem ignoresOffer_execDec : IgnoresOffer execDec := by
  intro s c
  refine withNode_offering (fun n => ?_) s s.cur
  cases n with
  | leaf w sym =>
    dsimp only
    unfold emitLeaf
    split
    · rfl
    · exact ignoresOffer_write 8 _ (fun _ _ => rfl) s c
  | internal w l r =>
    exact ignoresOffer_read 1 (ignoresOffer_descend l r) (ignoresOffer_raise _) s c

theorem ignoresOffer_execClose : IgnoresOffer execClose := by
  intro s c
  unfold execClose
  rw [snkClose_offering]
  cases snkClose s with
  | ok u | never | refused r => rfl
  | fail u =>
    dsimp only [CallResult.offering]
    unfold raiseClosed
    rw [recordErr_offering]
    rfl

/-! ### The step of a busy block (R268) -/

/-- No operation of a phase reads the command port. -/
theorem ignoresOffer_operation (p : Phase) : IgnoresOffer (exec (operationOf p)) := by
  cases p with
  | idle | done | err => exact ignoresOffer_next
  | cnt => exact ignoresOffer_execCnt
  | bldInit => exact ignoresOffer_execBldInit
  | bldMerge => exact ignoresOffer_execBldMerge
  | gen => exact ignoresOffer_execGen
  | wrMagic => exact ignoresOffer_execWrMagic
  | wrHdr => exact ignoresOffer_execWrHdr
  | rewind => exact ignoresOffer_execRewind
  | enc => exact ignoresOffer_execEnc
  | encEof => exact ignoresOffer_execEncEof
  | rdMagic => exact ignoresOffer_execRdMagic
  | rdHdr => exact ignoresOffer_execRdHdr
  | dec => exact ignoresOffer_execDec
  | close => exact ignoresOffer_execClose

theorem step_offering {s : State} (hb : s.busy = true) (hr : s.rst = false) (c : Option Offer) :
    step (s.offering c) = offeringOut c (step s) := by
  rw [step_busy (s := s.offering c) hr hb, step_busy hr hb]
  exact ignoresOffer_operation s.phase s c

/-- Settles O9: the step of a busy block is the operation of its phase, which does not read the command port and
leaves it as it is (O41). -/
theorem offerHasNoEffectWhileBusy : Obligations.OfferHasNoEffectWhileBusy := by
  intro s c hb hr
  have hstep : step { s with cmd := c } = offeringOut c (step s) := step_offering hb hr c
  refine ⟨fun t ht => ⟨?_, ?_⟩, fun f hf => ?_, fun r hrefused => ?_⟩
  · obtain ⟨-, -, -, hcmd, -⟩ := onlyItsWritersChangeARegister s t hb hr ht
    exact hcmd
  · rw [hstep, ht]; rfl
  · rw [hstep, hf]; rfl
  · rw [hstep, hrefused]; rfl

end Sys2Proof.Machine

/-! SUPPORT. Reset (R260, R261). -/

namespace Sys2Proof.Machine

/-- A block at rest keeps its sink over a reset. -/
theorem takeReset_resting {s : State} (hb : s.busy = false) : s.takeReset = s.initBlock := by
  rw [State.takeReset, hb]
  rfl

/-- In mid run the sink's bits become a free value, and the sink is not closed (log 7). -/
theorem takeReset_busy {s : State} (hb : s.busy = true) : s.takeReset = s.drawSink.initBlock := by
  rw [State.takeReset, hb]
  rfl

/-- Settles O6: the state after the step is the block's `initBlock`, in mid run over a sink of free bits. -/
theorem resetPutsTheBlockAtItsResetValues : Obligations.ResetPutsTheBlockAtItsResetValues := by
  intro s hr
  cases hb : s.busy with
  | false =>
    exact ⟨s.initBlock, by rw [step_reset hr, takeReset_resting hb], rfl, rfl, s.fresh_initBlock, rfl, rfl, rfl, rfl,
      fun _ => rfl, rfl⟩
  | true =>
    exact ⟨s.drawSink.initBlock, by rw [step_reset hr, takeReset_busy hb], rfl, rfl, s.drawSink.fresh_initBlock, rfl,
      rfl, rfl, rfl, nofun, rfl⟩

end Sys2Proof.Machine

/-! SUPPORT. Where an operation stops by name: a call that never returns (R274), a state the spec excludes, a write to a
closed sink (R66), and streams that share storage (R79). -/

namespace Sys2Proof.Machine

variable {s : State} {slot : Slot} {rest : List StkEntry}

/-! ### A call that never returns stops the operation (R274) -/

theorem onRead_srcRead_never {n : Nat} (h1 : 1 ≤ n) (h2 : n ≤ 32) (ha : s.answer = .never) (f : Nat → State → Out)
    (g : State → Out) : onRead (srcRead n s) f g = .fault .serviceCallNeverReturns := by
  rw [srcRead_never h1 h2 ha, onRead_never]

theorem onRead_srcAnswer_never {n v : Nat} (ha : s.answer = .never) (f : Nat → State → Out) (g : State → Out) :
    onRead (srcAnswer n v s) f g = .fault .serviceCallNeverReturns := by
  rw [srcAnswer_never ha, onRead_never]

theorem onCall_snkWrite_never {n v : Nat} (h1 : 1 ≤ n) (h2 : n ≤ 32) (hv : v < 2 ^ n) (hopen : s.snk.closed = false)
    (ha : s.answer = .never) (k : State → Out) : onCall (snkWrite n v s) k = .fault .serviceCallNeverReturns := by
  rw [snkWrite_never h1 h2 hv hopen ha, onCall_never]

theorem onCall_writeCode_never {p c : BitString} {written left : List BitString} (hopen : s.snk.closed = false)
    (hchunks : codeChunks p.length p = written ++ c :: left) (hio : s.ioOk written.length = true)
    (ha : (s.afterChunks written).answer = .never) (k : State → Out) :
    onCall (writeCode p s) k = .fault .serviceCallNeverReturns := by
  rw [writeCode_never hchunks hopen hio ha, onCall_never]

theorem execRewind_never (ha : s.answer = .never) : execRewind s = .fault .serviceCallNeverReturns := by
  rw [execRewind, srcRewind_never ha, onCall_never]

theorem execClose_never (ha : s.answer = .never) : execClose s = .fault .serviceCallNeverReturns := by
  rw [execClose, snkClose_never ha]

/-! ### A header token (R185, R192) -/

/-- The HDR_LEAF token reads its first bit for an open slot. -/
theorem execHdrLeaf_slot (sym : Symbol) (hst : s.stk = .slot slot :: rest) :
    execHdrLeaf sym s = onRead (srcAnswer 1 1 { s with stk := rest })
      (fun _ t => readLeaf slot (srcAnswer 9 sym.toNat) t) (raise .streamTruncatedHeader) := by
  rw [execHdrLeaf, hst]

/-- With room in the arena, the HDR_LEAF token reads its field after its first bit (R198). -/
theorem execHdrLeaf_mark (sym : Symbol) (hst : s.stk = .slot slot :: rest) (ha : s.answer = .ok)
    (hroom : s.nNodes ≠ s.params.nodeCap) :
    execHdrLeaf sym s = onRead (srcAnswer 9 sym.toNat { s.afterRead 1 1 with stk := rest }) (readField slot)
      (raise .streamTruncatedHeader) := by
  rw [execHdrLeaf_slot sym hst, srcAnswer_ok (by exact ha), onRead_value]
  exact if_neg hroom

theorem execHdrInternal_never (hst : s.stk = .slot slot :: rest) (ha : s.answer = .never) :
    execHdrInternal s = .fault .serviceCallNeverReturns := by
  rw [execHdrInternal, hst]
  exact onRead_srcAnswer_never (by exact ha) _ _

/-- At the first bit of a node's token. -/
theorem execWrHdr_mark_never {i : Nat} {n : Node} (hst : s.stk = .index i :: rest) (hn : s.nodeAt i = some n)
    (hopen : s.snk.closed = false) (ha : s.answer = .never) : execWrHdr s = .fault .serviceCallNeverReturns := by
  have hwrite : snkWrite 1 (nodeMark n) { s with stk := rest } = .never :=
    snkWrite_never le_rfl (by omega) (Nat.lt_succ_of_le (nodeMark_le_one n)) hopen ha
  rw [execWrHdr, hst]
  refine (withNode_some hn _).trans ?_
  cases n with
  | leaf w sym => exact congrArg (onCall · _) hwrite
  | internal w l r => exact congrArg (onCall · _) hwrite

/-- At the symbol field of a leaf's token. -/
theorem writeLeaf_field_never (sym : Symbol) (hopen : s.snk.closed = false) (hmark : s.answer = .ok)
    (hfield : (s.afterWrite 1 1).answer = .never) : writeLeaf sym s = .fault .serviceCallNeverReturns := by
  rw [writeLeaf, snkWrite_ok (by omega) (by omega) (by omega) hopen hmark, onCall_ok]
  exact onCall_snkWrite_never (by omega) (by omega) sym.isLt (by exact hopen) hfield _

/-! ### A byte (R141, R201) -/

/-- At a chunk of the byte's code. -/
theorem encodeByte_never {b : Byte} {p c : BitString} {written left : List BitString}
    (hcode : s.codeAt b.toNat = some p) (hopen : s.snk.closed = false) (hio : s.ioOk written.length = true)
    (hchunks : codeChunks p.length p = written ++ c :: left) (ha : (s.afterChunks written).answer = .never) :
    encodeByte b.toNat s = .fault .serviceCallNeverReturns := by
  rw [encodeByte, hcode]
  exact onCall_writeCode_never (s := { s with sym := BitVec.ofNat 9 b.toNat }) hopen hchunks hio ha .next

theorem execByte_never (b : Byte) (hp : s.phase = .cnt ∨ s.phase = .enc) (ha : s.answer = .never) :
    execByte b s = .fault .serviceCallNeverReturns := by
  unfold execByte
  rcases hp with hp | hp <;> rw [hp] <;> exact onRead_srcAnswer_never ha _ _

/-! ### DEC (R211) -/

/-- At the bit that is read at an internal node, by DEC and by either token. -/
theorem execDec_bit_never {w : BitVec 41} {l r : Option Nat} (hn : s.nodeAt s.cur = some (.internal w l r))
    (ha : s.answer = .never) : execDec s = .fault .serviceCallNeverReturns ∧
      execBit0 s = .fault .serviceCallNeverReturns ∧ execBit1 s = .fault .serviceCallNeverReturns := by
  refine ⟨?_, (withNode_some hn _).trans ?_, (withNode_some hn _).trans ?_⟩
  · rw [execDec_branches hn]
    exact onRead_srcRead_never (by omega) (by omega) ha _ _
  · exact onRead_srcAnswer_never ha _ _
  · exact onRead_srcAnswer_never ha _ _

theorem execDec_byte_never {w : BitVec 41} {sym : Symbol} (hn : s.nodeAt s.cur = some (.leaf w sym))
    (hs : sym.toNat ≠ 256) (hopen : s.snk.closed = false) (ha : s.answer = .never) :
    execDec s = .fault .serviceCallNeverReturns := by
  rw [execDec, withNode_some hn]
  refine (if_neg hs).trans ?_
  exact onCall_snkWrite_never (by omega) (by omega) (by omega) hopen ha _

/-! ### States the spec excludes -/

/-- Where no entry is queued, there is no node to merge (R154). -/
theorem execBldMerge_empty (hnone : ∀ i, s.inpqAt i = false) (hrise : Memory.rising s.inpq = true) :
    execBldMerge s = .fault .emptyQueue := by
  have hpq : s.pq = [] := List.eq_nil_iff_forall_not_mem.2 fun i hi => by
    have hqueued := ((State.mem_pq_iff hrise).1 hi).1
    rw [hnone i] at hqueued
    cases hqueued
  rw [execBldMerge, hpq]

/-- An offer whose streams share storage is refused (R79). -/
theorem offerCommand_shared {o : Offer} (hb : s.busy = false) (ho : s.cmd = some o) (hsh : o.shared = true)
    (op : BitVec 1) : offerCommand op s = .refused .sharedStreams := by
  have haccept : offerCommand op s = accept op o s := by simp [offerCommand, State.cmdReady, hb, ho]
  exact haccept.trans (if_pos hsh)

/-- Settles O34: a call that never returns, at the first call, at a later one and at the SnkClose of `raise`; and then
the states that the spec excludes. -/
theorem namedStops : Obligations.NamedStops := by
  refine ⟨?firstCall, ?wrMagic, ?firstBit, ?field, ?mark, ?leafField, ?codeChunk, ?byteChunk, ?byte, ?bit, ?write,
    fun s e => raise_never e, ?emptyQueue, ?symbol, ?noCode, ?noNode, ?noSlot, ?closed, ?shared⟩
  case firstCall =>
    intro s m ha
    exact ⟨onRead_srcRead_never (by omega) (by omega) ha _ _, onRead_srcRead_never (by omega) (by omega) ha _ _,
      onRead_srcRead_never (by omega) (by omega) ha _ _, onRead_srcAnswer_never ha _ _, execRewind_never ha,
      execClose_never ha⟩
  case wrMagic => exact fun s ha hopen => onCall_snkWrite_never (by omega) (by omega) s.params.magic.isLt hopen ha _
  case firstBit =>
    intro s slot rest sym ha hst
    refine ⟨(execRdHdr_slot hst).trans ?_, execHdrInternal_never hst ha, (execHdrLeaf_slot sym hst).trans ?_⟩
    · exact onRead_srcRead_never (by omega) (by omega) (by exact ha) _ _
    · exact onRead_srcAnswer_never (by exact ha) _ _
  case field =>
    intro s slot rest sym hst hroom hio ha
    have hmark := State.ioOk_one.1 hio
    refine ⟨(execHdrLeaf_mark sym hst hmark hroom).trans ?_, fun hs => (execRdHdr_mark hst hmark hs hroom).trans ?_⟩
    · exact onRead_srcAnswer_never (by exact ha) _ _
    · exact onRead_srcRead_never (by omega) (by omega) (by exact ha) _ _
  case mark => exact fun s i rest n hst hn hopen ha => execWrHdr_mark_never hst hn hopen ha
  case leafField =>
    intro s i rest w sym hst hn hopen hio ha
    exact (execWrHdr_leaf hst hn).trans
      (writeLeaf_field_never (s := { s with stk := rest }) sym hopen (State.ioOk_one.1 hio) ha)
  case codeChunk =>
    intro s p written c left hopen hchunks hio ha
    exact ⟨onCall_writeCode_never hopen hchunks hio ha _,
      fun hcode => (execEncEof_writes hcode).trans (onCall_writeCode_never hopen hchunks hio ha _)⟩
  case byteChunk =>
    intro s b p written c left hopen hcode hchunks hio ha
    have hread := State.ioOk_one.1 (State.ioOk_mono hio (Nat.le_add_right 1 _))
    have hstop : encodeByte b.toNat (s.afterRead 8 b.toNat) = .fault .serviceCallNeverReturns :=
      encodeByte_never hcode hopen (ioOk_of_tail hio rfl) hchunks ha
    exact ⟨fun hp => (execByte_enc hp hread).trans hstop, fun hs => (execEnc_reads hread hs).trans hstop⟩
  case byte => exact fun s b ha hp => execByte_never b hp ha
  case bit => exact fun s w l r ha hn => execDec_bit_never hn ha
  case write => exact fun s w sym ha hn hs hopen => execDec_byte_never hn hs hopen ha
  case emptyQueue => exact fun s hnone hwf => execBldMerge_empty hnone (rising_of_memoriesWf hwf)
  case symbol => exact fun s hs => if_neg (Nat.not_le.2 hs)
  case noCode => intro s hcode; rw [exec, execEncEof, hcode]
  case noNode => exact fun s hn => withNode_none hn _
  case noSlot => intro s hst; rw [exec, execHdrInternal, hst]
  case closed =>
    intro s hclosed
    rw [exec, execWrMagic, snkWrite_closed (by omega) (by omega) s.params.magic.isLt hclosed, onCall_refused]
  case shared => exact fun s o hb ho hsh => ⟨offerCommand_shared hb ho hsh 0, offerCommand_shared hb ho hsh 1⟩

end Sys2Proof.Machine
